-- ==== Sys2Proof/Word.lean ====
section
/-!
DEFINITION. The word types of the block (spec/00_scope.md R9, R10): every quantity is unsigned, a byte has 8 bits,
a register 32, and bit 0 is the least significant bit. A bit string is a list of bits whose index 0 is the FIRST bit
in stream order (R10).
-/
namespace Sys2Proof

/-- A byte, and a symbol (`NSYM` = 256: a symbol is one byte value, R7). -/
abbrev Byte := BitVec 8

/-- A 32-bit register or table entry (R24, R38). -/
abbrev Word := BitVec 32

/-- A bit string, first bit in stream order first (R10). -/
abbrev Bits := List Bool

/-- The 256 symbols in ascending order. -/
def allBytes : List Byte := (List.range 256).map (BitVec.ofNat 8)

/-- A table of `n` entries given by their index. -/
def tabulate {α : Type} (n : Nat) (f : Nat → α) : Vector α n := ⟨((List.range n).map f).toArray, by simp⟩

/-- The first `n` entries of a list as a table, `d` where the list ends before them. -/
def tableOf {α : Type} (n : Nat) (d : α) (l : List α) : Vector α n :=
  ⟨((l ++ List.replicate n d).take n).toArray, by simp⟩

end Sys2Proof
end

