-- ==== Sys2Proof/Syntax.lean ====
section
/-!
DEFINITION. The commands of the block: one constructor for each row of spec/opcode_table.json (spec/30_encoding.md R103).
A command has no operand (R102): every operand is a register, a table or a buffer that the command names.
-/
namespace Sys2Proof

/-- The sixteen commands (R103). -/
inductive Instr where
  /-- `NOP`, 0x00 (R284). -/
  | nop
  /-- `FREQ_COUNT`, 0x01 (R142). -/
  | freqCount
  /-- `FREQ_COUNT_FLOOR`, 0x02 (R143). -/
  | freqCountFloor
  /-- `FREQ_NORM`, 0x03 (R146). -/
  | freqNorm
  /-- `HUF_BUILD`, 0x10 (R168). -/
  | hufBuild
  /-- `HUF_ENCODE`, 0x11 (R171). -/
  | hufEncode
  /-- `HUF_DECODE`, 0x12 (R175). -/
  | hufDecode
  /-- `RC_BUILD`, 0x20 (R203). -/
  | rcBuild
  /-- `RC_ENCODE`, 0x21 (R216). -/
  | rcEncode
  /-- `RC_DECODE`, 0x22 (R223). -/
  | rcDecode
  /-- `RANS_BUILD`, 0x30 (R243). -/
  | ransBuild
  /-- `RANS_ENCODE`, 0x31 (R248). -/
  | ransEncode
  /-- `RANS_DECODE`, 0x32 (R253). -/
  | ransDecode
  /-- `PLANE_COMPRESS`, 0x40 (R281). -/
  | planeCompress
  /-- `PLANE_DECOMPRESS`, 0x41 (R282). -/
  | planeDecompress
  /-- `SOFT_RESET`, 0xFF (R285). -/
  | softReset
  deriving DecidableEq, Repr

end Sys2Proof
end

