-- ==== Sys2Proof/WellFormed.lean ====
section
/-!
DEFINITION. Well-formedness. A command carries no operand (spec/30_encoding.md R102), so every term of `Instr` is
well formed. What can be ill formed is a command WORD: the checks on it are the two of R101, written from the table
of units of R104 and not from the opcode map, so that the decoder can be held against them.
-/
namespace Sys2Proof

/-- Every command is well formed: no field has a range to leave (R102). One arm per constructor. -/
def Instr.wellFormed : Instr → Bool
  | .nop | .freqCount | .freqCountFloor | .freqNorm => true
  | .hufBuild | .hufEncode | .hufDecode => true
  | .rcBuild | .rcEncode | .rcDecode => true
  | .ransBuild | .ransEncode | .ransDecode => true
  | .planeCompress | .planeDecompress | .softReset => true

/-- The field `zero`, bits [31:8] of a command word (R100). -/
def wordZero (v : Word) : BitVec 24 := v.extractLsb' 8 24

/-- The field `unit`, bits [7:4] (R100). -/
def wordUnit (v : Word) : BitVec 4 := v.extractLsb' 4 4

/-- The field `func`, bits [3:0] (R100). -/
def wordFunc (v : Word) : BitVec 4 := v.extractLsb' 0 4

/-- Which functions of a unit are assigned (R104): unit 0 has 0 to 3; units 1, 2, 3 have 0 to 2; unit 4 has 0 and 1;
unit 15 has only 15; units 5 to 14 have none. -/
def assignedFunc (u f : Nat) : Bool :=
  if u = 0 then f ≤ 3
  else if u ≤ 3 then f ≤ 2
  else if u = 4 then f ≤ 1
  else u == 15 && f == 15

/-- A legal command word: bits [31:8] are 0 and the opcode is assigned (R101, R104). -/
def wellFormedWord (v : Word) : Bool :=
  wordZero v == 0 && assignedFunc (wordUnit v).toNat (wordFunc v).toNat

end Sys2Proof
end

