-- ==== Sys2Proof/Decode.lean ====
section
/-!
DEFINITION. The decoder and the encoder of command words (spec/30_encoding.md R100 to R105). A command is the 32-bit
value of one write to `CMD`; there is one format and one length, and the bytes of the word stand little-endian, the
order of every multi-byte integer that crosses the interface (spec/20_memory.md R71).
-/
namespace Sys2Proof

/-- Why a command word is no command (R101), or why four bytes could not be read. -/
inductive Reject where
  /-- Bits [31:8] are not all 0 (R101). -/
  | reservedBits
  /-- Bits [31:8] are 0 and the opcode is none of the sixteen (R101). -/
  | unassignedOpcode
  /-- Fewer than four bytes stand there. -/
  | tooShort
  deriving DecidableEq, Repr

/-- The opcode map (R103): the command of an 8-bit opcode. -/
def decodeOpcode (op : Nat) : Option Instr :=
  match op with
  | 0x00 => some .nop
  | 0x01 => some .freqCount
  | 0x02 => some .freqCountFloor
  | 0x03 => some .freqNorm
  | 0x10 => some .hufBuild
  | 0x11 => some .hufEncode
  | 0x12 => some .hufDecode
  | 0x20 => some .rcBuild
  | 0x21 => some .rcEncode
  | 0x22 => some .rcDecode
  | 0x30 => some .ransBuild
  | 0x31 => some .ransEncode
  | 0x32 => some .ransDecode
  | 0x40 => some .planeCompress
  | 0x41 => some .planeDecompress
  | 0xFF => some .softReset
  | _ => none

/-- The command a word stands for (R100, R101, R103): bits [31:8] must be 0, bits [7:0] one of the sixteen opcodes. -/
def decodeWord (v : Word) : Except Reject Instr :=
  if v.toNat / 256 ≠ 0 then .error .reservedBits
  else match decodeOpcode (v.toNat % 256) with
    | some i => .ok i
    | none => .error .unassignedOpcode

/-- The word that four bytes hold, least significant first (R71). -/
def wordOfBytes (b0 b1 b2 b3 : Byte) : Word := b3 ++ b2 ++ b1 ++ b0

/-- The four bytes of a word, least significant first (R71). -/
def bytesOfWord (v : Word) : List Byte :=
  [v.extractLsb' 0 8, v.extractLsb' 8 8, v.extractLsb' 16 8, v.extractLsb' 24 8]

/-- Decoding on any bytes: the command of the first four, with the bytes after them. -/
def decodeBytes : List Byte → Except Reject (Instr × List Byte)
  | b0 :: b1 :: b2 :: b3 :: rest =>
    match decodeWord (wordOfBytes b0 b1 b2 b3) with
    | .ok i => .ok (i, rest)
    | .error e => .error e
  | _ => .error .tooShort

/-- The word of a command, the value a host writes to `CMD` (R103). -/
def encode : Instr → Word
  | .nop => 0x00
  | .freqCount => 0x01
  | .freqCountFloor => 0x02
  | .freqNorm => 0x03
  | .hufBuild => 0x10
  | .hufEncode => 0x11
  | .hufDecode => 0x12
  | .rcBuild => 0x20
  | .rcEncode => 0x21
  | .rcDecode => 0x22
  | .ransBuild => 0x30
  | .ransEncode => 0x31
  | .ransDecode => 0x32
  | .planeCompress => 0x40
  | .planeDecompress => 0x41
  | .softReset => 0xFF

/-- The bytes of a command, least significant first. -/
def encodeBytes (i : Instr) : List Byte := bytesOfWord (encode i)

/-- The command word whose low `nbits` bits are those of `w`, the bits above them 0. -/
def tableWord (nbits w : Nat) : Word := BitVec.ofNat 32 (w % 2 ^ nbits)

/-- What the decoder reads from an instruction whose bits are `w`, numbered as spec/opcode_table.json numbers them: the
word's bytes, laid out little-endian, given to `decodeBytes`. -/
def decodeTableWord (nbits w : Nat) : Option Instr :=
  match decodeBytes (bytesOfWord (tableWord nbits w)) with
  | .ok (i, _) => some i
  | .error _ => none

end Sys2Proof
end

