-- ==== Sys2Proof/Machine/Types.lean ====
section
/-!
DEFINITION. The data the state is made of: tree nodes, lookup-table entries, host transactions and replies, the error
kinds, what a command raises, and the list of what a command writes.
-/
namespace Sys2Proof.Machine

/-- The FrequencyTable, `FREQ[0..255]` (spec/10_state.md R38). -/
abbrev FreqTable := Vector Word 256

/-- The cumulative table, `CUM[0..256]` (R39). -/
abbrev CumTable := Vector Word 257

/-- The slot-to-symbol table, `SYMTAB[0..4095]` (R42). -/
abbrev SymTable := Vector Byte 4096

/-- A node of the Huffman arena (R47) with everything under it. A leaf is the node numbered by its symbol; an internal
node has the number of its creation (256 to 510), its 64-bit weight, its `LEFT` and its `RIGHT`. The arena of R47, node
numbers with child numbers, is this tree read node by node: after `HufTree` every node that exists hangs under `ROOT`. -/
inductive HufNode where
  | leaf (sym : Byte) (weight : BitVec 64)
  | inner (number : Nat) (weight : BitVec 64) (left right : HufNode)
  deriving DecidableEq, Repr

/-- An entry of the Huffman lookup table (spec/41_huffman.md R178): the node a walk over the index bits reached, and
how many bits the walk used. -/
structure LutEntry where
  node : Nat
  used : Nat
  deriving DecidableEq, Repr

/-- The five host transactions (R21), and nothing else. -/
inductive Txn where
  /-- `RegRead(off)`. -/
  | regRead (off : Word)
  /-- `RegWrite(off, v)`. -/
  | regWrite (off v : Word)
  /-- `BufRead(addr, n)`. -/
  | bufRead (addr : Word) (n : Nat)
  /-- `BufWrite(addr, n, bytes)`: `n` is the number of bytes. -/
  | bufWrite (addr : Word) (bytes : List Byte)
  /-- The `Reset` event. -/
  | reset
  deriving DecidableEq, Repr

/-- What the last transaction returned to the host: nothing, a register's value, or bytes. -/
inductive Reply where
  | empty
  | word (v : Word)
  | bytes (bs : List Byte)
  deriving DecidableEq, Repr

/-- The error kinds the block raises (spec/60_exceptions.md R341). `IoError` is the host's alone (R354). -/
inductive ErrorKind where
  | format
  | decodeConsistency
  | internalConsistency
  | capacity
  | illegalCommand
  deriving DecidableEq, Repr

/-- `raise K(info)` (spec/00_scope.md R12): the kind and the value for `ERR_INFO`. -/
structure Raise where
  kind : ErrorKind
  info : Word
  deriving DecidableEq, Repr

/-- What a command's rule lists among its writes, by groups that are written together: the state that is unspecified
after that command faults (R342). `out` stands for the contents of `OUT`. -/
structure Footprint where
  freq : Bool := false
  cum : Bool := false
  huffman : Bool := false
  symtab : Bool := false
  rcBounds : Bool := false
  rcValue : Bool := false
  ransX : Bool := false
  out : Bool := false
  cursors : Bool := false
  deriving DecidableEq, Repr

/-- The backends a mode flag selects (spec/30_encoding.md R116). -/
inductive Backend where
  | huffman
  | range
  | rans
  deriving DecidableEq, Repr

end Sys2Proof.Machine
end

