-- ==== Sys2Proof/Config.lean ====
section
/-!
DEFINITION. What an instance of the block fixes (spec/00_scope.md R7) and the values the spec leaves unspecified.
The parameters stand at their defaults. A free value is a constant without a body: nothing can be proved of it, so
every claim holds whatever it is (spec/93_implementation_defined.md U3, U4, U5, "any value").
-/
namespace Sys2Proof.Config

/-- `IN_CAP` (R7, default; notes/assumptions/1.md). -/
def inCap : Nat := 1048576

/-- `OUT_CAP` (R7, default; notes/assumptions/1.md). -/
def outCap : Nat := 1048576

/-- `HUF_LUT_BITS` (R7, default; at least 12). -/
def hufLutBits : Nat := 12

/-- `BLOCK_MAX` (R7, default; the host's). -/
def blockMax : Nat := 1048576

/-- `PLANE_MAX` (R7). -/
def planeMax : Nat := blockMax / 2

/-- `TABLE_BYTES` (R7). -/
def tableBytes : Nat := 1024

/-- `TOT`, the rANS total (R7). -/
def tot : Nat := 4096

/-- `RANS_L` = 2^32, the lower bound of the rANS state (R7). -/
def ransL : Nat := 4294967296

/-- `RC_TOP` (R7). -/
def rcTop : Nat := 0xFFFFFFFF

/-- `HALF` = 2^31 (R7). -/
def half : Nat := 0x80000000

/-- `QUARTER` = 2^30 (R7). -/
def quarter : Nat := 0x40000000

/-- `IN_BASE` (spec/20_memory.md R78). -/
def inBase : Nat := 0x01000000

/-- `OUT_BASE` (R78). -/
def outBase : Nat := 0x02000000

/-- The places where the spec leaves a value unspecified. -/
inductive FreeSite where
  | freq | cum | hlen | hcode | symtab | inByte | outByte | inPos | outPos
  | rcLow | rcHigh | rcPending | rcValue | ransX | lutNode | lutUsed
  deriving DecidableEq, Repr

/-- FREE VALUE: the unspecified bits of a site, for a draw (which reset or command left it unspecified) and an index
(which entry or address). notes/assumptions/3.md. -/
opaque freeBits (w : Nat) (site : FreeSite) (draw index : Nat) : BitVec w

/-- FREE VALUE: the unspecified content of the Huffman arena (R47). notes/assumptions/3.md. -/
opaque freeArena (draw : Nat) : Option Machine.HufNode

end Sys2Proof.Config
end

