-- ==== Sys2Proof/Machine/State.lean ====
section
/-!
DEFINITION. The state of the block as plain data (spec/10_state.md R20 to R52), the reasons a step can stop, and the
state after reset (spec/70_reset_and_hazards.md R381).
-/
namespace Sys2Proof.Machine

/-- The bytes of the buffers `IN` and `OUT`, keyed by host address (spec/20_memory.md R78), addresses strictly rising.
An address that is not listed holds no stored byte: its content is unspecified (R45, R46), and whoever reads it gets a
free value. -/
abbrev Memory := List Host.Cell

/-- The state. The fields above the line are the spec's; those below it are the model's own. -/
structure State where
  /-- `STATUS.DONE` (R26); bits [31:2] of `STATUS` are hard-wired 0. -/
  done : Bool
  /-- `STATUS.ERROR` (R26). -/
  error : Bool
  /-- `ERR[2:0]` (R27); bits [31:3] are hard-wired 0. -/
  errCode : BitVec 3
  /-- `ERR_INFO` (R28). -/
  errInfo : Word
  /-- `BACKEND[7:0]`, the mode flag (R29); bits [31:8] are hard-wired 0. -/
  backend : Byte
  /-- `IN_LEN` (R31). -/
  inLen : Word
  /-- `EXPECTED_COUNT` (R32). -/
  expectedCount : Word
  /-- `OUT_LEN` (R34). -/
  outLen : Word
  /-- `IN_POS` (R35). -/
  inPos : Word
  /-- `OUT_POS` (R36). -/
  outPos : Word
  /-- `RC_LOW` (R43). -/
  rcLow : Word
  /-- `RC_HIGH` (R43). -/
  rcHigh : Word
  /-- `RC_PENDING` (R43). -/
  rcPending : Word
  /-- `RC_VALUE` (R43). -/
  rcValue : Word
  /-- `RANS_X`, shown to the host as `RANS_X_LO` and `RANS_X_HI` (R44). -/
  ransX : BitVec 64
  /-- `FREQ[0..255]` (R38). -/
  freq : FreqTable
  /-- `CUM[0..256]` (R39). -/
  cum : CumTable
  /-- `HLEN[0..255]` (R40). -/
  hlen : Vector Byte 256
  /-- `HCODE[0..255]` (R41): bit index 0 of a code is the most significant bit of its 256-bit field. -/
  hcode : Vector (BitVec 256) 256
  /-- `SYMTAB[0..4095]` (R42). -/
  symtab : SymTable
  /-- The Huffman tree arena with its `ROOT` (R47); hidden from the host. -/
  arena : Option HufNode
  /-- The Huffman lookup table `LUT` (R48); hidden from the host. -/
  lut : List LutEntry
  /-- The contents of `IN` and `OUT` (R45, R46). -/
  mem : Memory
  -- ------------------------------------------------------------------ the model's own fields
  /-- The host's coming transactions, the next one first: the block takes a step only at a host transaction (R20), so
  this list is where `step` finds its next one. -/
  host : List Txn
  /-- What the last transaction returned to the host (R21). -/
  reply : Reply
  /-- The key of the latest free values: a reset and every accepted command take a new one. -/
  draw : Nat
  /-- The key of the unwritten bytes of `IN`: `draw` as it was at the last reset. -/
  bufDraw : Nat
  deriving DecidableEq, Repr

/-- Why a step stops with a fault. The faults of the SPEC (R340) are no stop: a command that raises one ends in a next
state with `STATUS.ERROR` set. -/
inductive Fault where
  /-- Raised by `BufRead` and `BufWrite` of the host, never by a command: a byte of the range lies at an address that no
  region of the map holds (R78, R82). Safe: the spec says such an access is no step of the block. -/
  | unmappedAddress
  deriving DecidableEq, Repr

/-- Why a step is refused: a request that is not a transaction of the interface. -/
inductive Refusal where
  /-- An instruction without a meaning in `exec`. Safe: nothing can be proved of its effect. -/
  | notModelled (mnemonic : String)
  /-- `RegRead`/`RegWrite` at an offset that is not a multiple of 4 (R81). Safe: not a transaction. -/
  | misalignedRegister
  /-- `RegRead`/`RegWrite` beyond offset 0xFFC (R81). Safe: not a transaction. -/
  | noSuchRegister
  /-- `BufRead`/`BufWrite` of no byte; R79 asks for at least one. Safe: not a transaction. -/
  | emptyTransfer
  /-- `BufRead`/`BufWrite` in the register region, which only register transactions reach (R78). Safe: not a
  transaction. -/
  | registersAreNoBuffer
  /-- `BufRead`/`BufWrite` over mapped addresses of more than one region (R79). Safe: not a transaction. -/
  | crossesRegion
  deriving DecidableEq, Repr

/-- Unspecified entries of `FREQ` (R342). -/
def freeFreq (d : Nat) : FreqTable := tabulate 256 fun k => Config.freeBits 32 .freq d k

/-- Unspecified entries of `CUM` (R39). -/
def freeCum (d : Nat) : CumTable := tabulate 257 fun k => Config.freeBits 32 .cum d k

/-- Unspecified entries of `HLEN` (R40). -/
def freeHlen (d : Nat) : Vector Byte 256 := tabulate 256 fun k => Config.freeBits 8 .hlen d k

/-- Unspecified entries of `HCODE` (R41). -/
def freeHcode (d : Nat) : Vector (BitVec 256) 256 := tabulate 256 fun k => Config.freeBits 256 .hcode d k

/-- Unspecified entries of `SYMTAB` (R42). -/
def freeSymtab (d : Nat) : SymTable := tabulate 4096 fun k => Config.freeBits 8 .symtab d k

/-- Unspecified entries of `LUT` (R48, and R178 for a tree with fewer than two leaves). -/
def freeLut (d : Nat) : List LutEntry :=
  (List.range (2 ^ Config.hufLutBits)).map fun k =>
    ⟨(Config.freeBits 9 .lutNode d k).toNat, (Config.freeBits 4 .lutUsed d k).toNat⟩

/-- The state right after a reset (R381), its unspecified tables free under the key `d`, with the host's coming
transactions `host`. -/
def State.resetAt (d : Nat) (host : List Txn) : State where
  done := false
  error := false
  errCode := 0
  errInfo := 0
  backend := 0
  inLen := 0
  expectedCount := 0
  outLen := 0
  inPos := 0
  outPos := 0
  rcLow := 0
  rcHigh := 0xFFFFFFFF
  rcPending := 0
  rcValue := 0
  ransX := 0x100000000
  freq := Vector.replicate 256 0
  cum := freeCum d
  hlen := freeHlen d
  hcode := freeHcode d
  symtab := freeSymtab d
  arena := Config.freeArena d
  lut := freeLut d
  mem := []
  host := host
  reply := .empty
  draw := d
  bufDraw := d

/-- The machine right after reset (R381), with no transaction coming. -/
def State.reset : State := State.resetAt 0 []

end Sys2Proof.Machine
end

