-- ==== Sys2Proof/Machine/Flags.lean ====
section
/-!
DEFINITION. The flags of the block (spec/10_state.md R26): `STATUS.DONE` and `STATUS.ERROR`, and nothing else (R336).
Their images as register words, what the prologue and the epilogue of a command do to them, and the error codes.
-/
namespace Sys2Proof.Machine

/-- `STATUS` as the host reads it (R26): bit 0 `DONE`, bit 1 `ERROR`, bits [31:2] read 0. -/
def State.statusWord (s : State) : Word :=
  BitVec.ofNat 32 (s.done.toNat + 2 * s.error.toNat)

/-- `ERR` as the host reads it (R27): bits [31:3] read 0. -/
def State.errWord (s : State) : Word := s.errCode.setWidth 32

/-- The code of an error kind in `ERR[2:0]` (spec/60_exceptions.md R341). -/
def ErrorKind.code : ErrorKind → BitVec 3
  | .format => 2
  | .decodeConsistency => 3
  | .internalConsistency => 4
  | .capacity => 5
  | .illegalCommand => 6

/-- Acceptance of a command (R344): `DONE` is cleared. The model takes a new key for the values that the command may
leave unspecified. -/
def State.accept (s : State) : State := { s with done := false, draw := s.draw + 1 }

/-- The epilogue of a command that raised nothing (R346): `DONE` is set. -/
def State.complete (s : State) : State := { s with done := true }

/-- The prologue that every command but `SOFT_RESET` has (R344, R345): while `ERROR` is 1 nothing changes at all;
otherwise the command is accepted and runs. -/
def State.command (s : State) (run : State → State) : State :=
  if s.error then s else run s.accept

end Sys2Proof.Machine
end

