-- ==== Sys2Proof/Machine/Ops.lean ====
section
/-!
DEFINITION. The shared operations: the memory of the buffers, the bit order of coded streams, the bit writer, taking a
fault, and the return from one.
-/
namespace Sys2Proof.Machine

/-! ## Memory -/

/-- The byte stored at an address, if one is (spec/20_memory.md R84: one byte at a time). -/
def Memory.read : Memory → Nat → Option Byte
  | [], _ => none
  | (k, v) :: m, a => if k = a then some v else Memory.read m a

/-- Store one byte, keeping the addresses rising. -/
def Memory.write : Memory → Nat → Byte → Memory
  | [], a, b => [(a, b)]
  | (k, v) :: m, a, b =>
    if a < k then (a, b) :: (k, v) :: m
    else if a = k then (a, b) :: m
    else (k, v) :: Memory.write m a b

/-- Store bytes at consecutive addresses. -/
def Memory.writeBytes : Memory → Nat → List Byte → Memory
  | m, _, [] => m
  | m, a, b :: bs => Memory.writeBytes (m.write a b) (a + 1) bs

/-- Whether an address lies in the buffer `IN` (R78). -/
def inInBuffer (a : Nat) : Bool := Config.inBase ≤ a && a < Config.inBase + Config.inCap

/-- Whether an address lies in the buffer `OUT` (R78). -/
def inOutBuffer (a : Nat) : Bool := Config.outBase ≤ a && a < Config.outBase + Config.outCap

/-- The canonical form: addresses strictly rise, and each lies in a buffer. No entry can equal what an unlisted address
holds, for an unlisted address holds no stored byte. -/
abbrev Memory.wf (m : Memory) : Prop :=
  m.Pairwise (fun c d => c.1 < d.1) ∧ ∀ c ∈ m, (inInBuffer c.1 || inOutBuffer c.1) = true

/-- Bytes at consecutive addresses as cells. -/
def cellsFrom : Nat → List Byte → Memory
  | _, [] => []
  | a, b :: bs => (a, b) :: cellsFrom (a + 1) bs

/-- Forget the contents of `OUT`: they are unspecified (spec/60_exceptions.md R342). -/
def Memory.dropOut (m : Memory) : Memory := m.filter fun c => !inOutBuffer c.1

/-- `OUT` holds these bytes from offset 0; what lies beyond them is unspecified (R46, R390). `OUT` is the last region of
the map, so its cells stand last. -/
def Memory.setOut (m : Memory) (bs : List Byte) : Memory := m.dropOut ++ cellsFrom Config.outBase bs

/-- The byte `IN[k]` (spec/00_scope.md R11). A byte that the host has not written since the last reset is
unspecified (R45, spec/70_reset_and_hazards.md R386): a free value, the same at every read until it is written. -/
def State.inByte (s : State) (k : Nat) : Byte :=
  (s.mem.read (Config.inBase + k)).getD (Config.freeBits 8 .inByte s.bufDraw k)

/-- The bytes `IN[off .. off + n)`. -/
def State.inBytes (s : State) (off n : Nat) : List Byte := (List.range n).map fun k => s.inByte (off + k)

/-- The byte `OUT[k]` as the host reads it: the result below `OUT_LEN`; at or beyond it an unspecified byte (R46, R387),
a free value. -/
def State.outByte (s : State) (k : Nat) : Byte :=
  if k < s.outLen.toNat then
    (s.mem.read (Config.outBase + k)).getD (Config.freeBits 8 .outByte s.draw k)
  else Config.freeBits 8 .outByte s.draw k

/-- The bytes `OUT[off .. off + n)` as the host reads them. -/
def State.outBytes (s : State) (off n : Nat) : List Byte := (List.range n).map fun k => s.outByte (off + k)

/-! ## Bits of a byte and of a coded stream -/

/-- The bits of a byte in stream order, most significant first (R75). -/
def bitsOfByte (b : Byte) : Bits :=
  [b.getLsbD 7, b.getLsbD 6, b.getLsbD 5, b.getLsbD 4, b.getLsbD 3, b.getLsbD 2, b.getLsbD 1, b.getLsbD 0]

/-- The bits of a coded stream in stream order: stream bit `k` is bit `7 - k % 8` of byte `k / 8` (R75, R77). -/
def streamBits (bs : List Byte) : Bits := bs.flatMap bitsOfByte

/-- A bit string read as a number, first bit most significant. -/
def natOfBits (bs : Bits) : Nat := bs.foldl (fun acc b => 2 * acc + b.toNat) 0

/-- A byte from the first eight bits of a string, a missing bit being a 0 on the right (R75, R76). -/
def byteOfBits (bs : Bits) : Byte :=
  BitVec.ofNat 8 (natOfBits ((List.range 8).map fun j => bs.getD j false))

/-- The first `n` bytes of a packed bit string. -/
def packBytes : Nat → Bits → List Byte
  | 0, _ => []
  | n + 1, bs => byteOfBits bs :: packBytes n (bs.drop 8)

/-- A bit string packed into whole bytes, most significant bit first, the last byte padded with zeros (R76). -/
def packBits (bs : Bits) : List Byte := packBytes ((bs.length + 7) / 8) bs

/-- The bit writer (R76, spec/10_state.md R49): the bits written so far. It lives within one command. -/
structure BitWriter where
  bits : Bits
  deriving DecidableEq, Repr

/-- `raise CapacityError(i)` (spec/60_exceptions.md R353). -/
def capacityError (i : Nat) : Raise := ⟨.capacity, BitVec.ofNat 32 i⟩

/-- `raise FormatError(0)` (R349). -/
def formatError : Raise := ⟨.format, 0⟩

/-- `raise InternalConsistencyError(i)` (R352). -/
def internalError (i : Nat) : Raise := ⟨.internalConsistency, BitVec.ofNat 32 i⟩

/-- `raise DecodeConsistencyError(i)` (R351). -/
def decodeError (i : Nat) : Raise := ⟨.decodeConsistency, BitVec.ofNat 32 i⟩

/-- `BitPut(b)` (R76): bit `k` needs byte `k / 8` of the stream, and `room` is `OUT_CAP - OOFF`, the bytes the stream may
take. `i` is the index of the symbol being processed. -/
def BitWriter.put (room i : Nat) (w : BitWriter) (b : Bool) : Except Raise BitWriter :=
  if room ≤ w.bits.length / 8 then .error (capacityError i) else .ok ⟨w.bits ++ [b]⟩

/-- `BitPut` of each bit of a string in order. -/
def BitWriter.putAll (room i : Nat) : BitWriter → Bits → Except Raise BitWriter
  | w, [] => .ok w
  | w, b :: bs =>
    match w.put room i b with
    | .error e => .error e
    | .ok w' => BitWriter.putAll room i w' bs

/-! ## Results of a command -/

/-- The three cursors a completed command leaves (spec/10_state.md R34, R35, R36). -/
def State.setCursors (s : State) (outLen inPos outPos : Nat) : State :=
  { s with outLen := BitVec.ofNat 32 outLen, inPos := BitVec.ofNat 32 inPos, outPos := BitVec.ofNat 32 outPos }

/-- The result bytes of a command stand in `OUT` from offset 0 (R46). -/
def State.setOut (s : State) (bs : List Byte) : State := { s with mem := s.mem.setOut bs }

/-! ## Taking a fault, and leaving the error state -/

/-- What a command lists among its writes is unspecified after it faults (R342): each such piece of state is a free
value under the key of this command. What the command never writes keeps its value. -/
def State.unspecify (s : State) (fp : Footprint) : State :=
  { s with
    freq := if fp.freq then freeFreq s.draw else s.freq
    cum := if fp.cum then freeCum s.draw else s.cum
    hlen := if fp.huffman then freeHlen s.draw else s.hlen
    hcode := if fp.huffman then freeHcode s.draw else s.hcode
    arena := if fp.huffman then Config.freeArena s.draw else s.arena
    lut := if fp.huffman then freeLut s.draw else s.lut
    symtab := if fp.symtab then freeSymtab s.draw else s.symtab
    rcLow := if fp.rcBounds then Config.freeBits 32 .rcLow s.draw 0 else s.rcLow
    rcHigh := if fp.rcBounds then Config.freeBits 32 .rcHigh s.draw 0 else s.rcHigh
    rcPending := if fp.rcBounds then Config.freeBits 32 .rcPending s.draw 0 else s.rcPending
    rcValue := if fp.rcValue then Config.freeBits 32 .rcValue s.draw 0 else s.rcValue
    ransX := if fp.ransX then Config.freeBits 64 .ransX s.draw 0 else s.ransX
    mem := if fp.out then s.mem.dropOut else s.mem
    inPos := if fp.cursors then Config.freeBits 32 .inPos s.draw 0 else s.inPos
    outPos := if fp.cursors then Config.freeBits 32 .outPos s.draw 0 else s.outPos }

/-- The record a fault makes (R342): `ERROR` set, `DONE` clear, the code in `ERR`, the value in `ERR_INFO`, no output. -/
def State.recordFault (s : State) (r : Raise) : State :=
  { s with done := false, error := true, errCode := r.kind.code, errInfo := r.info, outLen := 0 }

/-- TAKING A FAULT, the one exceptional event of the block (R340, R342): the record, over the state in which what the
command lists among its writes is unspecified. Nothing is saved and control goes nowhere (R359): the handler is the
host, which reads `STATUS`. -/
def State.takeFault (s : State) (fp : Footprint) (r : Raise) : State := (s.unspecify fp).recordFault r

/-- The end of a command: the epilogue (R346) where it came through, the fault (R342) where it raised one. `s` is the
state as the command was accepted. -/
def State.finish (s : State) (fp : Footprint) (result : Except Raise State) : State :=
  match result with
  | .ok t => t.complete
  | .error r => s.takeFault fp r

/-- LEAVING THE ERROR STATE (R356, spec/44_plane_and_system.md R285): there is no return from a fault but a reset, which
discards everything. The effect of the `Reset` event and of `SOFT_RESET` (spec/70_reset_and_hazards.md R380): the reset
state, its unspecified parts free under a new key. The host's coming transactions are not the block's to change. -/
def State.restart (s : State) : State := { State.resetAt (s.draw + 1) s.host with reply := s.reply }

/-- A `CMD` write that is no command (R350): `IllegalCommand(v)` when `ERROR` is 0, and nothing but `STATUS`, `ERR`,
`ERR_INFO`, `OUT_LEN` changes; ignored when `ERROR` is 1 (R345). -/
def State.illegalCommand (s : State) (v : Word) : State :=
  if s.error then s else s.recordFault ⟨.illegalCommand, v⟩

end Sys2Proof.Machine
end

