-- ==== Sys2Proof/Machine/Operands.lean ====
section
/-!
DEFINITION. The operands of the commands: every one is implicit (spec/30_encoding.md R102). The registers and the table
a command names, the entry checks it makes on them, and the serialised table.
-/
namespace Sys2Proof.Machine

/-- `F[s]` as a number. -/
def FreqTable.at (F : FreqTable) (s : Byte) : Nat := (F[s.toNat]'s.isLt).toNat

/-- The entries as numbers, in symbol order. -/
def FreqTable.counts (F : FreqTable) : List Nat := F.toList.map BitVec.toNat

/-- The symbols with their entries, in symbol order. -/
def FreqTable.entries (F : FreqTable) : List (Byte × Nat) := allBytes.zip F.counts

/-- `F[0] + ... + F[255]`, on mathematical integers (spec/46_common_semantics.md R326). -/
def FreqTable.total (F : FreqTable) : Nat := F.counts.sum

/-- The symbols of frequency above 0, in ascending order. -/
def FreqTable.occurring (F : FreqTable) : List Byte := (F.entries.filter fun e => e.2 ≠ 0).map Prod.fst

/-- `CUM[k]` as a number; the index is in range by construction (R332). -/
def CumTable.at (C : CumTable) (k : Nat) : Nat := (C[k]?.getD 0).toNat

/-- The entry check of `IN_LEN` (spec/10_state.md R31): `CapacityError(0)` when it exceeds `IN_CAP`. -/
def State.withInput (s : State) (k : Except Raise State) : Except Raise State :=
  if Config.inCap < s.inLen.toNat then .error (capacityError 0) else k

/-- The entry check of `EXPECTED_COUNT` (R32): `CapacityError(0)` when it exceeds `OUT_CAP`. -/
def State.withCount (s : State) (k : Except Raise State) : Except Raise State :=
  if Config.outCap < s.expectedCount.toNat then .error (capacityError 0) else k

/-- The input of a command that reads `IN` from its start: `IN[0 .. IN_LEN)`. -/
def State.input (s : State) : List Byte := s.inBytes 0 s.inLen.toNat

/-- The backend of a mode flag (spec/30_encoding.md R116): 0, 1 or 2; any other value is a bad mode flag. -/
def backendOf (flag : Byte) : Option Backend :=
  if flag = 0 then some .huffman
  else if flag = 1 then some .range
  else if flag = 2 then some .rans
  else none

/-- The serialised FrequencyTable (spec/20_memory.md R72): 1024 bytes, each entry's four bytes least significant
first. -/
def FreqTable.serialise (F : FreqTable) : List Byte :=
  F.toList.flatMap fun w => [w.extractLsb' 0 8, w.extractLsb' 8 8, w.extractLsb' 16 8, w.extractLsb' 24 8]

/-- The table that 1024 serialised bytes hold (R72, spec/44_plane_and_system.md R282): entry `s` is the little-endian
number at `4 * s`. -/
def FreqTable.load (byte : Nat → Byte) : FreqTable :=
  tabulate 256 fun s => byte (4 * s + 3) ++ byte (4 * s + 2) ++ byte (4 * s + 1) ++ byte (4 * s)

/-- The prefix sums of a table (spec/42_range_coder.md R201, spec/43_rans.md R241): `CUM[0] = 0`,
`CUM[s+1] = CUM[s] + F[s]`. Both coders form them only for a total that fits an entry. -/
def FreqTable.cumulative (F : FreqTable) : CumTable :=
  tableOf 257 0 ((List.scanl (· + ·) 0 F.counts).map (BitVec.ofNat 32))

end Sys2Proof.Machine
end

