-- ==== Sys2Proof/Machine/Frequency.lean ====
section
/-!
DEFINITION. The frequency model (spec/40_frequency_model.md): counting, normalising to 4096, and the three commands
that apply them to `FREQ`.
-/
namespace Sys2Proof.Machine

/-- `Count(B, floor)` (R140): `F[s]` is `floor` plus the number of occurrences of `s` in `B`. -/
def countTable (B : List Byte) (floor : Nat) : FreqTable :=
  tabulate 256 fun s => BitVec.ofNat 32 (floor + B.count (BitVec.ofNat 8 s))

/-! ## Normalisation (R145) -/

/-- The counts that `Normalize` works on, on mathematical integers. -/
abbrev Counts := Vector Nat 256

/-- `N[s]`. -/
def Counts.at (N : Counts) (s : Byte) : Nat := N[s.toNat]'s.isLt

/-- `N[s] <- n`. -/
def Counts.put (N : Counts) (s : Byte) (n : Nat) : Counts := N.set s.toNat n s.isLt

/-- The sum of the entries. -/
def Counts.total (N : Counts) : Nat := N.toList.sum

/-- The rescaled entries (R145): the floor of `F[s] * 4096 / T`, an entry that would become 0 raised to 1, a symbol of
frequency 0 left at 0. -/
def rescale (F : FreqTable) (T : Nat) : Counts :=
  tableOf 256 0 (F.counts.map fun f => if f = 0 then 0 else max 1 (f * Config.tot / T))

/-- "Largest first", over `NZ`, the symbols of frequency above 0: frequency descending, ties by symbol ascending. -/
def largestFirst (F : FreqTable) : List Byte :=
  F.occurring.insertionSort fun a b => F.at b < F.at a ∨ (F.at a = F.at b ∧ a.toNat ≤ b.toNat)

/-- "Smallest first", over `NZ`: frequency ascending, ties by symbol ascending. -/
def smallestFirst (F : FreqTable) : List Byte :=
  F.occurring.insertionSort fun a b => F.at a < F.at b ∨ (F.at a = F.at b ∧ a.toNat ≤ b.toNat)

/-- One pass over the order, adding 1 to each entry visited until `d` units are placed; the units left over. -/
def addPass : List Byte → Nat → Counts → Nat × Counts
  | [], d, N => (d, N)
  | _ :: _, 0, N => (0, N)
  | s :: ss, d + 1, N => addPass ss d (N.put s (N.at s + 1))

/-- Passes until no unit is left. A pass over a non-empty order places at least one, so `d` passes are enough. -/
def addPasses (order : List Byte) : Nat → Nat → Counts → Counts
  | 0, _, N => N
  | n + 1, d, N =>
    match addPass order d N with
    | (0, N') => N'
    | (d' + 1, N') => addPasses order n (d' + 1) N'

/-- One pass over the order, taking 1 from each entry above 1 until `d` units are taken; the units left over. -/
def removePass : List Byte → Nat → Counts → Nat × Counts
  | [], d, N => (d, N)
  | _ :: _, 0, N => (0, N)
  | s :: ss, d + 1, N =>
    if 1 < N.at s then removePass ss d (N.put s (N.at s - 1)) else removePass ss (d + 1) N

/-- Passes until no unit is left. While the sum exceeds 4096 some entry is above 1, so each pass takes at least one unit
(R147 d), and `d` passes are enough. -/
def removePasses (order : List Byte) : Nat → Nat → Counts → Counts
  | 0, _, N => N
  | n + 1, d, N =>
    match removePass order d N with
    | (0, N') => N'
    | (d' + 1, N') => removePasses order n (d' + 1) N'

/-- `Normalize(F)` as counts (R145). -/
def normalizeCounts (F : FreqTable) : Counts :=
  let T := F.total
  if T = 0 then (Vector.replicate 256 0).set 0 Config.tot
  else
    let N := rescale F T
    let S := N.total
    if S < Config.tot then addPasses (largestFirst F) (Config.tot - S) (Config.tot - S) N
    else if Config.tot < S then removePasses (smallestFirst F) (S - Config.tot) (S - Config.tot) N
    else N

/-- `Normalize(F)` (R145): the table of total 4096 that rANS codes with. -/
def normalize (F : FreqTable) : FreqTable := (normalizeCounts F).map (BitVec.ofNat 32)

/-! ## The commands -/

/-- `FREQ <- Count(IN[0 .. IN_LEN), floor)` with the cursors of a counting command (R142, R143). -/
def freqCountOp (floor : Nat) (s : State) : Except Raise State :=
  s.withInput <| .ok <|
    ({ s with freq := countTable s.input floor }).setCursors 0 s.inLen.toNat 0

/-- What the commands of the frequency model list among their writes (R142, R146). -/
def freqFootprint : Footprint := { freq := true, cursors := true }

/-- `FREQ_COUNT` (R142). -/
def execFreqCount (s : State) : Host.Outcome State Fault Refusal :=
  .next <| s.command fun t => t.finish freqFootprint (freqCountOp 0 t)

/-- `FREQ_COUNT_FLOOR` (R143). -/
def execFreqCountFloor (s : State) : Host.Outcome State Fault Refusal :=
  .next <| s.command fun t => t.finish freqFootprint (freqCountOp 1 t)

/-- `FREQ_NORM` (R146): in place, and it raises nothing. -/
def execFreqNorm (s : State) : Host.Outcome State Fault Refusal :=
  .next <| s.command fun t => (({ t with freq := normalize t.freq }).setCursors 0 0 0).complete

end Sys2Proof.Machine
end

