-- ==== Sys2Proof/Machine/Huffman.lean ====
section
/-!
DEFINITION. The Huffman unit (spec/41_huffman.md): the merge tree, the tree-path codes, the lookup table, and
`HUF_BUILD`, `HUF_ENCODE`, `HUF_DECODE`.
-/
namespace Sys2Proof.Machine

/-! ## The tree (R161 to R164) -/

/-- The node number: a leaf's is its symbol (spec/10_state.md R47). -/
def HufNode.number : HufNode → Nat
  | .leaf s _ => s.toNat
  | .inner n _ _ _ => n

/-- `W[n]`, the 64-bit weight. -/
def HufNode.weight : HufNode → BitVec 64
  | .leaf _ w => w
  | .inner _ w _ _ => w

/-- The key order (R162): by weight, then by node number. -/
def HufNode.before (a b : HufNode) : Bool :=
  a.weight.toNat < b.weight.toNat || (a.weight.toNat == b.weight.toNat && a.number < b.number)

/-- The leaves that exist: one for each symbol of frequency above 0, in symbol order. -/
def hufLeaves (F : FreqTable) : List HufNode :=
  (F.entries.filter fun e => e.2 ≠ 0).map fun e => .leaf e.1 (BitVec.ofNat 64 e.2)

/-- The node of least key among `x :: live`, and the others. -/
def takeLeast : HufNode → List HufNode → HufNode × List HufNode
  | x, [] => (x, [])
  | x, y :: live =>
    if x.before y then
      let r := takeLeast x live
      (r.1, y :: r.2)
    else
      let r := takeLeast y live
      (r.1, x :: r.2)

/-- The merges (R161): take out the two nodes of least key, `a` then `b`, and put in their parent, numbered `next`, with
`a` as `LEFT` and `b` as `RIGHT` (R163). The first argument bounds the merges: each leaves one live node less. -/
def hufMerge : Nat → Nat → List HufNode → Option HufNode
  | _, _, [] => none
  | _, _, [n] => some n
  | 0, _, n :: _ :: _ => some n
  | k + 1, next, x :: y :: live =>
    let r := takeLeast x (y :: live)
    match r.2 with
    | [] => some r.1
    | z :: zs =>
      let q := takeLeast z zs
      hufMerge k (next + 1) (.inner next (r.1.weight + q.1.weight) r.1 q.1 :: q.2)

/-- `HufTree(F)` (R161): `ROOT` with the tree under it, or none when no symbol occurs. At most 255 merges (R166). -/
def hufTree (F : FreqTable) : Option HufNode := hufMerge 255 256 (hufLeaves F)

/-! ## The codes (R165) -/

/-- The path from a node down to the leaf of a symbol: 0 for `LEFT`, 1 for `RIGHT` (R163). -/
def HufNode.path (s : Byte) : HufNode → Option Bits
  | .leaf t _ => if t = s then some [] else none
  | .inner _ _ l r =>
    match l.path s with
    | some p => some (false :: p)
    | none =>
      match r.path s with
      | some p => some (true :: p)
      | none => none

/-- `HCODE[s]` as a bit string (R165): the path from `ROOT`; the single bit 0 when `ROOT` is the leaf of `s` (R164); empty
when the symbol has no code. -/
def hufCode (t : Option HufNode) (s : Byte) : Bits :=
  match t with
  | none => []
  | some (.leaf r _) => if r = s then [false] else []
  | some (.inner n w l r) => ((HufNode.inner n w l r).path s).getD []

/-- A code in its 256-bit field: first bit in the most significant position, zeros after it (spec/10_state.md R41). -/
def packCode (c : Bits) : BitVec 256 := BitVec.ofNat 256 (natOfBits c * 2 ^ (256 - c.length))

/-- The bit of index `j` of a code in its field. -/
def codeBit (h : BitVec 256) (j : Nat) : Bool := h.getLsbD (255 - j)

/-! ## The lookup table (R178 to R180) -/

/-- A walk over index bits: to the first leaf, or until the bits are used up; where it stopped and the bits it used. -/
def HufNode.lutWalk : HufNode → Bits → Nat → HufNode × Nat
  | .leaf s w, _, used => (.leaf s w, used)
  | .inner n w l r, [], used => (.inner n w l r, used)
  | .inner _ _ l _, false :: bs, used => l.lutWalk bs (used + 1)
  | .inner _ _ _ r, true :: bs, used => r.lutWalk bs (used + 1)

/-- The low `n` bits of `w`, most significant first. -/
def indexBits (n w : Nat) : Bits := (List.range n).map fun j => w.testBit (n - 1 - j)

/-- `LUT[w]` (R178). -/
def lutEntry (t : HufNode) (w : Nat) : LutEntry :=
  let r := t.lutWalk (indexBits Config.hufLutBits w) 0
  ⟨r.1.number, r.2⟩

/-- `LUT` (R178), unspecified (free under the key `d`) for an empty or one-leaf tree. -/
def lutTable (d : Nat) : Option HufNode → List LutEntry
  | some (.inner n w l r) => (List.range (2 ^ Config.hufLutBits)).map (lutEntry (.inner n w l r))
  | _ => freeLut d

/-! ## Building -/

/-- The build that all three commands make (R168): arena, `HLEN`, `HCODE`, `LUT` from `FREQ`. -/
def State.hufBuild (s : State) : State :=
  let t := hufTree s.freq
  { s with
    arena := t
    hlen := tabulate 256 fun k => BitVec.ofNat 8 (hufCode t (BitVec.ofNat 8 k)).length
    hcode := tabulate 256 fun k => packCode (hufCode t (BitVec.ofNat 8 k))
    lut := lutTable s.draw t }

/-! ## Encoding (R169 to R171) -/

/-- The loop of R171 from the symbol of index `i` on: the symbol's code, bit by bit; a symbol without one raises
`InternalConsistencyError(i)` (R170). -/
def hufEncodeLoop (code : Byte → Bits) (room : Nat) : Nat → List Byte → BitWriter → Except Raise BitWriter
  | _, [], w => .ok w
  | i, b :: bs, w =>
    if code b = [] then .error (internalError i)
    else match w.putAll room i (code b) with
      | .error e => .error e
      | .ok w' => hufEncodeLoop code room (i + 1) bs w'

/-- The Operation of `HUF_ENCODE` from "build" on (R171), with `pre` before the stream in `OUT` (`OOFF` is its length,
spec/20_memory.md R76). -/
def hufEncodeOp (pre : List Byte) (s : State) : Except Raise State :=
  let t := s.hufBuild
  match hufEncodeLoop (hufCode t.arena) (Config.outCap - pre.length) 0 s.input ⟨[]⟩ with
  | .error e => .error e
  | .ok w =>
    .ok ((t.setOut (pre ++ packBits w.bits)).setCursors (pre.length + (w.bits.length + 7) / 8) s.inLen.toNat
      w.bits.length)

/-! ## Decoding (R172 to R176) -/

/-- One tree walk (R172): the symbol of the first leaf and the bits after it; none when a bit is needed past the end. -/
def HufNode.walk : HufNode → Bits → Option (Byte × Bits)
  | .leaf s _, bs => some (s, bs)
  | .inner _ _ _ _, [] => none
  | .inner _ _ l _, false :: bs => l.walk bs
  | .inner _ _ _ r, true :: bs => r.walk bs

/-- The loop of R175: `n` symbols, the first of index `i`, and the bits left. -/
def hufDecodeLoop (t : HufNode) : Nat → Nat → Bits → Except Raise (List Byte × Bits)
  | 0, _, bs => .ok ([], bs)
  | n + 1, i, bs =>
    match t.walk bs with
    | none => .error (decodeError i)
    | some (s, rest) =>
      match hufDecodeLoop t n (i + 1) rest with
      | .error e => .error e
      | .ok (out, left) => .ok (s :: out, left)

/-- The symbols and the number of bits consumed (R175): a one-leaf tree fills the output without reading a bit; an empty
tree comes here only with a count of 0. -/
def hufDecodeSymbols (t : Option HufNode) (n : Nat) (bs : Bits) : Except Raise (List Byte × Nat) :=
  match t with
  | none => .ok ([], 0)
  | some (.leaf s _) => .ok (List.replicate n s, 0)
  | some (.inner m w l r) =>
    match hufDecodeLoop (.inner m w l r) n 0 bs with
    | .error e => .error e
    | .ok (out, left) => .ok (out, bs.length - left.length)

/-- `need` (R173): the exact bit length of the stream of a plane with these counts. -/
def hufNeed (F : FreqTable) (t : Option HufNode) : Nat :=
  (F.entries.map fun e => e.2 * (hufCode t e.1).length).sum

/-- The Operation of `HUF_DECODE` from "build" on (R175), over the coded stream `P` (spec/20_memory.md R77). -/
def hufDecodeOp (P : List Byte) (s : State) : Except Raise State :=
  let t := s.hufBuild
  let n := s.expectedCount.toNat
  if s.freq.total ≠ n then .error formatError
  else if 8 * P.length < hufNeed s.freq t.arena then .error formatError
  else match hufDecodeSymbols t.arena n (streamBits P) with
    | .error e => .error e
    | .ok (out, pos) => .ok ((t.setOut out).setCursors n pos n)

/-! ## The lookup-table form of the decoding loop (R179) -/

/-- The node of a number in a tree, if it is there. -/
def HufNode.find (n : Nat) : HufNode → Option HufNode
  | .leaf s w => if s.toNat = n then some (.leaf s w) else none
  | .inner m w l r =>
    if m = n then some (.inner m w l r)
    else match l.find n with
      | some x => some x
      | none => r.find n

/-- The index of the next lookup (R179): the next `HUF_LUT_BITS` bits, zeros past the end. -/
def lutIndex (bs : Bits) : Nat := natOfBits ((List.range Config.hufLutBits).map fun j => bs.getD j false)

/-- One symbol by lookup (R179): the entry's bits are consumed if the stream holds them, and a walk goes on from the
node it names. -/
def lutStep (t : HufNode) (lut : List LutEntry) (bs : Bits) : Option (Byte × Bits) :=
  match lut[lutIndex bs]? with
  | none => none
  | some e =>
    if bs.length < e.used then none
    else match t.find e.node with
      | none => none
      | some x => x.walk (bs.drop e.used)

/-- The loop of R179. -/
def lutDecodeLoop (t : HufNode) (lut : List LutEntry) : Nat → Nat → Bits → Except Raise (List Byte × Bits)
  | 0, _, bs => .ok ([], bs)
  | n + 1, i, bs =>
    match lutStep t lut bs with
    | none => .error (decodeError i)
    | some (s, rest) =>
      match lutDecodeLoop t lut n (i + 1) rest with
      | .error e => .error e
      | .ok (out, left) => .ok (s :: out, left)

/-! ## The commands -/

/-- What `HUF_BUILD` lists among its writes (R168). -/
def hufBuildFootprint : Footprint := { huffman := true, cursors := true }

/-- What `HUF_ENCODE` and `HUF_DECODE` list among their writes (R171, R175). -/
def hufCodeFootprint : Footprint := { huffman := true, out := true, cursors := true }

/-- `HUF_BUILD` (R168): it raises nothing. -/
def execHufBuild (s : State) : Host.Outcome State Fault Refusal :=
  .next <| s.command fun t => (t.hufBuild.setCursors 0 0 0).complete

/-- `HUF_ENCODE` (R171). -/
def execHufEncode (s : State) : Host.Outcome State Fault Refusal :=
  .next <| s.command fun t => t.finish hufCodeFootprint (t.withInput (hufEncodeOp [] t))

/-- `HUF_DECODE` (R175). -/
def execHufDecode (s : State) : Host.Outcome State Fault Refusal :=
  .next <| s.command fun t => t.finish hufCodeFootprint (t.withInput (t.withCount (hufDecodeOp t.input t)))

end Sys2Proof.Machine
end

