-- ==== Sys2Proof/Machine/RangeCoder.lean ====
section
/-!
DEFINITION. The range coder (spec/42_range_coder.md): table checks, narrowing, renormalisation, flush, the scaled
cumulative value and its search, and `RC_BUILD`, `RC_ENCODE`, `RC_DECODE`. All on unsigned mathematical integers
(spec/46_common_semantics.md R325, R326).
-/
namespace Sys2Proof.Machine

/-! ## The table (R201 to R203) -/

/-- The table checks (R202): no entry is 0, and the total fits 32 bits. -/
def rcTableOk (F : FreqTable) : Bool := (F.counts.all fun f => f ≠ 0) && F.total ≤ Config.rcTop

/-- `CUM` from `FREQ` (R203). -/
def State.rcBuild (s : State) : State := { s with cum := s.freq.cumulative }

/-! ## The interval (R204, R205) -/

/-- `Narrow(s)` (R205) on an inclusive interval: the new bounds, or none where `high > low` would not hold. -/
def rcNarrow (C : CumTable) (s : Byte) (low high : Nat) : Option (Nat × Nat) :=
  let range := high - low + 1
  let T := C.at 256
  let hiOff := range * C.at (s.toNat + 1) / T
  let loOff := range * C.at s.toNat / T
  if hiOff < loOff + 2 then none else some (low + loOff, low + hiOff - 1)

/-! ## Renormalisation (R208, R209) -/

/-- The three renormalisation regions (R208). -/
inductive RcRegion where
  | top | bottom | middle
  deriving DecidableEq, Repr

/-- The region that applies, the three tests in their order (R208). -/
def rcRegion (low high : Nat) : Option RcRegion :=
  if high < Config.half then some .top
  else if Config.half ≤ low then some .bottom
  else if Config.quarter ≤ low ∧ high < 3 * Config.quarter then some .middle
  else none

/-- What a region takes off each bound before the shift (R208). -/
def RcRegion.base : RcRegion → Nat
  | .top => 0
  | .bottom => Config.half
  | .middle => Config.quarter

/-- A value rebased and shifted left by one, `b` coming in on the right, kept to 32 bits (R208, R223). -/
def rcShift (r : RcRegion) (x : Nat) (b : Bool) : Nat := (2 * (x - r.base) + b.toNat) % 2 ^ 32

/-- The encoder's `low`, `high`, `pending`. -/
structure RcEncoder where
  low : Nat
  high : Nat
  pending : Nat
  deriving DecidableEq, Repr

/-- `Emit(b)` (R209): the bit, then the pending bits complemented. -/
def rcEmit (b : Bool) (pending : Nat) : Bits := b :: List.replicate pending (!b)

/-- What a region emits, and the pending count after it (R208). -/
def RcRegion.emit (r : RcRegion) (pending : Nat) : Bits × Nat :=
  match r with
  | .top => (rcEmit false pending, 0)
  | .bottom => (rcEmit true pending, 0)
  | .middle => ([], pending + 1)

/-- One iteration of the encoder's loop in a region. -/
def RcEncoder.shift (r : RcRegion) (c : RcEncoder) : RcEncoder :=
  ⟨rcShift r c.low false, rcShift r c.high true, (r.emit c.pending).2⟩

/-- The most iterations of the loop for one symbol (R214: at most 31). -/
def rcFuel : Nat := 32

/-- The encoder's loop (R208), at most `n` iterations: the bits emitted in order, and the registers after it. -/
def rcRenormEncode : Nat → RcEncoder → Bits × RcEncoder
  | 0, c => ([], c)
  | n + 1, c =>
    match rcRegion c.low c.high with
    | none => ([], c)
    | some r =>
      let q := rcRenormEncode n (c.shift r)
      ((r.emit c.pending).1 ++ q.1, q.2)

/-! ## Encoding (R215, R216) -/

/-- The start of every encode and decode (R204). -/
def rcStart : RcEncoder := ⟨0, Config.rcTop, 0⟩

/-- The loop of R216 from the symbol of index `i` on. -/
def rcEncodeLoop (C : CumTable) (room : Nat) :
    Nat → List Byte → RcEncoder → BitWriter → Except Raise (RcEncoder × BitWriter)
  | _, [], c, w => .ok (c, w)
  | i, b :: bs, c, w =>
    match rcNarrow C b c.low c.high with
    | none => .error (internalError i)
    | some (low, high) =>
      let q := rcRenormEncode rcFuel ⟨low, high, c.pending⟩
      match w.putAll room i q.1 with
      | .error e => .error e
      | .ok w' => rcEncodeLoop C room (i + 1) bs q.2 w'

/-- The flush bits (R219). -/
def rcFlush (c : RcEncoder) : Bits := rcEmit (decide (Config.quarter ≤ c.low)) (c.pending + 1)

/-- The whole encode (R215, R216): the loop, then the flush, whose index for a fault is the plane's length. -/
def rcEncodeAll (C : CumTable) (room : Nat) (B : List Byte) : Except Raise (RcEncoder × BitWriter) :=
  match rcEncodeLoop C room 0 B rcStart ⟨[]⟩ with
  | .error e => .error e
  | .ok (c, w) =>
    match w.putAll room B.length (rcFlush c) with
    | .error e => .error e
    | .ok w' => .ok ({ c with pending := 0 }, w')

/-- The Operation of `RC_ENCODE` from "build" on (R216), with `pre` before the stream in `OUT`. -/
def rcEncodeOp (pre : List Byte) (s : State) : Except Raise State :=
  if !rcTableOk s.freq then .error formatError
  else
    let t := s.rcBuild
    match rcEncodeAll t.cum (Config.outCap - pre.length) s.input with
    | .error e => .error e
    | .ok (c, w) =>
      .ok { (t.setOut (pre ++ packBits w.bits)).setCursors (pre.length + (w.bits.length + 7) / 8) s.inLen.toNat
              w.bits.length with
            rcLow := BitVec.ofNat 32 c.low
            rcHigh := BitVec.ofNat 32 c.high
            rcPending := BitVec.ofNat 32 c.pending }

/-! ## Decoding (R221 to R225) -/

/-- The decoder's `low`, `high`, `value`, with its bit reader: the bits left and the bits read so far (`pos`). -/
structure RcDecoder where
  low : Nat
  high : Nat
  value : Nat
  bits : Bits
  pos : Nat
  deriving DecidableEq, Repr

/-- `BitGetZero()` (spec/20_memory.md R77): the next bit, 0 past the end. -/
def bitGetZero (bs : Bits) : Bool × Bits :=
  match bs with
  | [] => (false, [])
  | b :: rest => (b, rest)

/-- The preload (R221): `n` bits shifted into `value`. -/
def rcPreload : Nat → RcDecoder → RcDecoder
  | 0, d => d
  | n + 1, d =>
    rcPreload n { d with value := 2 * d.value + (bitGetZero d.bits).1.toNat, bits := (bitGetZero d.bits).2,
                         pos := d.pos + 1 }

/-- The scaled cumulative value (R224). -/
def rcTarget (C : CumTable) (d : RcDecoder) : Nat :=
  ((d.value - d.low + 1) * C.at 256 - 1) / (d.high - d.low + 1)

/-- The binary search (R223, R224): halves `hi - lo` while it exceeds 1; from 256 that is 8 steps. -/
def rcSearch (C : CumTable) (target : Nat) : Nat → Nat → Nat → Nat
  | 0, lo, _ => lo
  | n + 1, lo, hi =>
    if 1 < hi - lo then
      if C.at ((lo + hi) / 2) ≤ target then rcSearch C target n ((lo + hi) / 2) hi
      else rcSearch C target n lo ((lo + hi) / 2)
    else lo

/-- The symbol found for the decoder's `value` (R223). -/
def rcSymbol (C : CumTable) (d : RcDecoder) : Byte := BitVec.ofNat 8 (rcSearch C (rcTarget C d) 8 0 256)

/-- One iteration of the decoder's loop in a region (R223). -/
def RcDecoder.shift (r : RcRegion) (d : RcDecoder) : RcDecoder :=
  { low := rcShift r d.low false, high := rcShift r d.high true, value := rcShift r d.value (bitGetZero d.bits).1,
    bits := (bitGetZero d.bits).2, pos := d.pos + 1 }

/-- The decoder's loop (R223), at most `n` iterations. -/
def rcRenormDecode : Nat → RcDecoder → RcDecoder
  | 0, d => d
  | n + 1, d =>
    match rcRegion d.low d.high with
    | none => d
    | some r => rcRenormDecode n (d.shift r)

/-- The loop of R223: `n` symbols, the first of index `i`, and the registers after it. -/
def rcDecodeLoop (C : CumTable) : Nat → Nat → RcDecoder → Except Raise (List Byte × RcDecoder)
  | 0, _, d => .ok ([], d)
  | n + 1, i, d =>
    match rcNarrow C (rcSymbol C d) d.low d.high with
    | none => .error (internalError i)
    | some (low, high) =>
      match rcDecodeLoop C n (i + 1) (rcRenormDecode rcFuel { d with low := low, high := high }) with
      | .error e => .error e
      | .ok (out, d') => .ok (rcSymbol C d :: out, d')

/-- The decoder after the preload of a stream (R221). -/
def rcDecoderStart (bs : Bits) : RcDecoder := rcPreload 32 ⟨0, Config.rcTop, 0, bs, 0⟩

/-- The Operation of `RC_DECODE` from "build" on (R223), over the coded stream `P`. -/
def rcDecodeOp (P : List Byte) (s : State) : Except Raise State :=
  if !rcTableOk s.freq then .error formatError
  else
    let t := s.rcBuild
    let n := s.expectedCount.toNat
    match rcDecodeLoop t.cum n 0 (rcDecoderStart (streamBits P)) with
    | .error e => .error e
    | .ok (out, d) =>
      .ok { (t.setOut out).setCursors n d.pos n with
            rcLow := BitVec.ofNat 32 d.low
            rcHigh := BitVec.ofNat 32 d.high
            rcValue := BitVec.ofNat 32 d.value
            rcPending := 0 }

/-! ## The commands -/

/-- `RC_BUILD` after its prologue (R203). -/
def rcBuildOp (s : State) : Except Raise State :=
  if !rcTableOk s.freq then .error formatError else .ok (s.rcBuild.setCursors 0 0 0)

/-- What `RC_BUILD` lists among its writes (R203). -/
def rcBuildFootprint : Footprint := { cum := true, cursors := true }

/-- What `RC_ENCODE` lists among its writes (R216); it does not touch `RC_VALUE`. -/
def rcEncodeFootprint : Footprint := { cum := true, rcBounds := true, out := true, cursors := true }

/-- What `RC_DECODE` lists among its writes (R223). -/
def rcDecodeFootprint : Footprint := { cum := true, rcBounds := true, rcValue := true, out := true, cursors := true }

/-- `RC_BUILD` (R203). -/
def execRcBuild (s : State) : Host.Outcome State Fault Refusal :=
  .next <| s.command fun t => t.finish rcBuildFootprint (rcBuildOp t)

/-- `RC_ENCODE` (R216). -/
def execRcEncode (s : State) : Host.Outcome State Fault Refusal :=
  .next <| s.command fun t => t.finish rcEncodeFootprint (t.withInput (rcEncodeOp [] t))

/-- `RC_DECODE` (R223). -/
def execRcDecode (s : State) : Host.Outcome State Fault Refusal :=
  .next <| s.command fun t => t.finish rcDecodeFootprint (t.withInput (t.withCount (rcDecodeOp t.input t)))

end Sys2Proof.Machine
end

