-- ==== Sys2Proof/Machine/Rans.lean ====
section
/-!
DEFINITION. The rANS unit (spec/43_rans.md): the tables, the encoder's step, flush and reversal, the decoder's step and
refill, and `RANS_BUILD`, `RANS_ENCODE`, `RANS_DECODE`. The state is a 64-bit unsigned integer that stays below 2^40
(R249, R255).
-/
namespace Sys2Proof.Machine

/-! ## The tables (R241 to R243) -/

/-- The table check (R242): the entries sum to 4096. -/
def ransTableOk (F : FreqTable) : Bool := F.total == Config.tot

/-- Each symbol spread across its cumulative interval, in order (R241). -/
def ransSpread (F : FreqTable) : List Byte := F.entries.flatMap fun e => List.replicate e.2 e.1

/-- `SYMTAB` (R241): `SYMTAB[k] = s` for `CUM[s] <= k < CUM[s+1]`. For a table of total 4096 the spread has one entry for
each slot. -/
def ransSymtab (F : FreqTable) : SymTable := tableOf 4096 0 (ransSpread F)

/-- `CUM` and `SYMTAB` from `FREQ` (R243). -/
def State.ransBuild (s : State) : State := { s with cum := s.freq.cumulative, symtab := ransSymtab s.freq }

/-! ## Encoding (R244 to R250) -/

/-- `PutByte` (R248). The stream is kept as it will stand after the reversal (R247), the byte emitted last at its head;
`room` is `OUT_CAP - OOFF`. -/
def ransPut (room i : Nat) (b : Nat) (emitted : List Byte) : Except Raise (List Byte) :=
  if room ≤ emitted.length then .error (capacityError i) else .ok (BitVec.ofNat 8 b :: emitted)

/-- The most bytes a 64-bit state has: the bound on the passes of the two emitting loops (R249: at most 2 before a
symbol, 5 in the flush). -/
def ransFuel : Nat := 8

/-- Emit low bytes while the state is at or above a bound, at most `n` of them: the renormalisation of R245 with the
bound `f << 28`, the flush of R246 with the bound 1. -/
def ransEmit (room i bound : Nat) : Nat → Nat → List Byte → Except Raise (Nat × List Byte)
  | 0, x, e => .ok (x, e)
  | n + 1, x, e =>
    if bound ≤ x then
      match ransPut room i (x % 256) e with
      | .error r => .error r
      | .ok e' => ransEmit room i bound n (x / 256) e'
    else .ok (x, e)

/-- The encoder's update (R245): `((x / f) << 12) + (x % f) + CUM[s]`. -/
def ransUpdate (f c x : Nat) : Nat := ((x / f) <<< 12) + x % f + c

/-- The loop of R248 over the plane walked backwards: the symbol at the head of the list has the index `i`, one less than
the number of symbols before and with it. -/
def ransEncodeLoop (F : FreqTable) (C : CumTable) (room : Nat) :
    List Byte → Nat → List Byte → Except Raise (Nat × List Byte)
  | [], x, e => .ok (x, e)
  | s :: rest, x, e =>
    if F.at s = 0 then .error (internalError rest.length)
    else match ransEmit room rest.length (F.at s <<< 28) ransFuel x e with
      | .error r => .error r
      | .ok (x', e') => ransEncodeLoop F C room rest (ransUpdate (F.at s) (C.at s.toNat) x') e'

/-- The whole encode (R248): the symbols in reverse order from the state 2^32, then the flush, whose index for a fault is
the plane's length. Answers the state before the flush (R250) and the stream. -/
def ransEncodeAll (F : FreqTable) (C : CumTable) (room : Nat) (B : List Byte) : Except Raise (Nat × List Byte) :=
  match ransEncodeLoop F C room B.reverse Config.ransL [] with
  | .error r => .error r
  | .ok (x, e) =>
    match ransEmit room B.length 1 ransFuel x e with
    | .error r => .error r
    | .ok (_, e') => .ok (x, e')

/-- The Operation of `RANS_ENCODE` from "build" on (R248), with `pre` before the stream in `OUT`. -/
def ransEncodeOp (pre : List Byte) (s : State) : Except Raise State :=
  if !ransTableOk s.freq then .error formatError
  else
    let t := s.ransBuild
    match ransEncodeAll t.freq t.cum (Config.outCap - pre.length) s.input with
    | .error e => .error e
    | .ok (x, P) =>
      .ok { (t.setOut (pre ++ P)).setCursors (pre.length + P.length) s.inLen.toNat P.length with
            ransX := BitVec.ofNat 64 x }

/-! ## Decoding (R251 to R256) -/

/-- The refill (R251, R252): bytes are shifted in while the state is below 2^32; none when a byte is needed past the
end. Answers the state and the bytes left. -/
def ransRefill : Nat → List Byte → Option (Nat × List Byte)
  | x, [] => if x < Config.ransL then none else some (x, [])
  | x, b :: bs => if x < Config.ransL then ransRefill (x * 256 + b.toNat) bs else some (x, b :: bs)

/-- The symbol of the state's slot, its low 12 bits (R251). -/
def ransSymbol (S : SymTable) (x : Nat) : Byte := S[x % 4096]'(Nat.mod_lt x (by decide))

/-- The decoder's update (R251): `FREQ[s] * (x >> 12) + (slot - CUM[s])`. -/
def ransBack (f c x : Nat) : Nat := f * (x / 4096) + (x % 4096 - c)

/-- The loop of R253: `n` symbols, the first of index `i`; the state and the bytes left after it. -/
def ransDecodeLoop (F : FreqTable) (C : CumTable) (S : SymTable) :
    Nat → Nat → Nat → List Byte → Except Raise (List Byte × Nat × List Byte)
  | 0, _, x, bs => .ok ([], x, bs)
  | n + 1, i, x, bs =>
    let s := ransSymbol S x
    match ransRefill (ransBack (F.at s) (C.at s.toNat) x) bs with
    | none => .error (decodeError i)
    | some (x', rest) =>
      match ransDecodeLoop F C S n (i + 1) x' rest with
      | .error r => .error r
      | .ok (out, y, left) => .ok (s :: out, y, left)

/-- The whole decode (R253): with a count of 0 nothing is read and the state is 0 (R259); else the start of R252 and the
loop. Answers the symbols, the state and the bytes left. -/
def ransDecodeAll (F : FreqTable) (C : CumTable) (S : SymTable) (n : Nat) (P : List Byte) :
    Except Raise (List Byte × Nat × List Byte) :=
  if n = 0 then .ok ([], 0, P)
  else match ransRefill 0 P with
    | none => .error (decodeError 0)
    | some (x, bs) => ransDecodeLoop F C S n 0 x bs

/-- The Operation of `RANS_DECODE` from "build" on (R253), over the coded stream `P`. -/
def ransDecodeOp (P : List Byte) (s : State) : Except Raise State :=
  if !ransTableOk s.freq then .error formatError
  else
    let t := s.ransBuild
    let n := s.expectedCount.toNat
    match ransDecodeAll t.freq t.cum t.symtab n P with
    | .error e => .error e
    | .ok (out, x, left) =>
      .ok { (t.setOut out).setCursors n (P.length - left.length) n with ransX := BitVec.ofNat 64 x }

/-! ## The commands -/

/-- `RANS_BUILD` after its prologue (R243). -/
def ransBuildOp (s : State) : Except Raise State :=
  if !ransTableOk s.freq then .error formatError else .ok (s.ransBuild.setCursors 0 0 0)

/-- What `RANS_BUILD` lists among its writes (R243). -/
def ransBuildFootprint : Footprint := { cum := true, symtab := true, cursors := true }

/-- What `RANS_ENCODE` and `RANS_DECODE` list among their writes (R248, R253). -/
def ransCodeFootprint : Footprint := { cum := true, symtab := true, ransX := true, out := true, cursors := true }

/-- `RANS_BUILD` (R243). -/
def execRansBuild (s : State) : Host.Outcome State Fault Refusal :=
  .next <| s.command fun t => t.finish ransBuildFootprint (ransBuildOp t)

/-- `RANS_ENCODE` (R248). -/
def execRansEncode (s : State) : Host.Outcome State Fault Refusal :=
  .next <| s.command fun t => t.finish ransCodeFootprint (t.withInput (ransEncodeOp [] t))

/-- `RANS_DECODE` (R253). -/
def execRansDecode (s : State) : Host.Outcome State Fault Refusal :=
  .next <| s.command fun t => t.finish ransCodeFootprint (t.withInput (t.withCount (ransDecodeOp t.input t)))

end Sys2Proof.Machine
end

