-- ==== Sys2Proof/Machine/Plane.lean ====
section
/-!
DEFINITION. The plane dispatcher (spec/44_plane_and_system.md R280 to R289): `PLANE_COMPRESS` and `PLANE_DECOMPRESS`.
-/
namespace Sys2Proof.Machine

/-- The model-building of each backend on the compress side (spec/40_frequency_model.md R149). -/
def planeTable (b : Backend) (B : List Byte) : FreqTable :=
  match b with
  | .huffman => countTable B 0
  | .range => countTable B 1
  | .rans => normalize (countTable B 0)

/-- The unit encoder of a backend, from "build" on (R281). -/
def planeEncodeOp (b : Backend) (pre : List Byte) (s : State) : Except Raise State :=
  match b with
  | .huffman => hufEncodeOp pre s
  | .range => rcEncodeOp pre s
  | .rans => ransEncodeOp pre s

/-- The unit decoder of a backend, from "build" on (R282). -/
def planeDecodeOp (b : Backend) (P : List Byte) (s : State) : Except Raise State :=
  match b with
  | .huffman => hufDecodeOp P s
  | .range => rcDecodeOp P s
  | .rans => ransDecodeOp P s

/-- `PLANE_COMPRESS` after its prologue (R281): the entry checks in their order, the table from the plane, the serialised
table in front of the stream. -/
def planeCompressOp (s : State) : Except Raise State :=
  s.withInput <|
    match backendOf s.backend with
    | none => .error formatError
    | some b =>
      if Config.outCap < Config.tableBytes then .error (capacityError 0)
      else
        let F := planeTable b s.input
        planeEncodeOp b F.serialise { s with freq := F }

/-- What a plane command lists among its writes besides those of the selected backend (R281, R282). -/
def planeFootprint : Footprint := { freq := true, out := true, cursors := true }

/-- What `PLANE_COMPRESS` lists among its writes: `FREQ`, `OUT`, the cursors, and the derived tables and working registers
of the selected backend (R281). -/
def planeCompressFootprint (flag : Byte) : Footprint :=
  match backendOf flag with
  | none => planeFootprint
  | some .huffman => { hufCodeFootprint with freq := true }
  | some .range => { rcEncodeFootprint with freq := true }
  | some .rans => { ransCodeFootprint with freq := true }

/-- What `PLANE_DECOMPRESS` lists among its writes (R282). -/
def planeDecompressFootprint (flag : Byte) : Footprint :=
  match backendOf flag with
  | none => planeFootprint
  | some .huffman => { hufCodeFootprint with freq := true }
  | some .range => { rcDecodeFootprint with freq := true }
  | some .rans => { ransCodeFootprint with freq := true }

/-- The entry checks of `PLANE_DECOMPRESS` in their order (R282): the backend when they pass. -/
def planeDecompressChecks (s : State) : Except Raise Backend :=
  if Config.inCap < s.inLen.toNat then .error (capacityError 0)
  else if Config.outCap < s.expectedCount.toNat then .error (capacityError 0)
  else match backendOf s.backend with
    | none => .error formatError
    | some b => if s.inLen.toNat < Config.tableBytes then .error formatError else .ok b

/-- `FREQ` loaded from the first 1024 bytes of `IN` (R282). -/
def State.loadTable (s : State) : State := { s with freq := FreqTable.load s.inByte }

/-- The coded stream of a payload (R282): `SOFF = 1024`, `SLEN = IN_LEN - 1024`. -/
def State.payloadStream (s : State) : List Byte :=
  s.inBytes Config.tableBytes (s.inLen.toNat - Config.tableBytes)

/-- `PLANE_DECOMPRESS` after its prologue (R282). Once the table is loaded `FREQ` keeps it, "even when the decoder then
faults": a fault of the decoder leaves everything else that the command writes unspecified (R342). -/
def planeDecompressRun (s : State) : State :=
  match planeDecompressChecks s with
  | .error e => s.takeFault (planeDecompressFootprint s.backend) e
  | .ok b =>
    s.loadTable.finish { planeDecompressFootprint s.backend with freq := false }
      (planeDecodeOp b s.payloadStream s.loadTable)

/-- `PLANE_COMPRESS` (R281). -/
def execPlaneCompress (s : State) : Host.Outcome State Fault Refusal :=
  .next <| s.command fun t => t.finish (planeCompressFootprint t.backend) (planeCompressOp t)

/-- `PLANE_DECOMPRESS` (R282). -/
def execPlaneDecompress (s : State) : Host.Outcome State Fault Refusal :=
  .next <| s.command planeDecompressRun

end Sys2Proof.Machine
end

