-- ==== Sys2Proof/Machine/System.lean ====
section
/-!
DEFINITION. The system commands (spec/44_plane_and_system.md R284, R285; spec/46_common_semantics.md R334).
-/
namespace Sys2Proof.Machine

/-- `NOP` (R284): the cursors become 0 and `DONE` is set, as for any completed command. -/
def execNop (s : State) : Host.Outcome State Fault Refusal :=
  .next <| s.command fun t => (t.setCursors 0 0 0).complete

/-- `SOFT_RESET` (R285): the effect of `Reset`, in any state; it has neither the prologue nor the epilogue of the other
commands (R344, R346). -/
def execSoftReset (s : State) : Host.Outcome State Fault Refusal := .next s.restart

end Sys2Proof.Machine
end

