-- ==== Sys2Proof/Machine/Dispatch.lean ====
section
/-!
DEFINITION. The dispatch of the commands (spec/30_encoding.md R103): one arm for each constructor, one call for each arm.
-/
namespace Sys2Proof.Machine

def exec (i : Instr) (s : State) : Host.Outcome State Fault Refusal :=
  match i with
  | .nop => Sys2Proof.Machine.execNop s
  | .freqCount => Sys2Proof.Machine.execFreqCount s
  | .freqCountFloor => Sys2Proof.Machine.execFreqCountFloor s
  | .freqNorm => Sys2Proof.Machine.execFreqNorm s
  | .hufBuild => Sys2Proof.Machine.execHufBuild s
  | .hufEncode => Sys2Proof.Machine.execHufEncode s
  | .hufDecode => Sys2Proof.Machine.execHufDecode s
  | .rcBuild => Sys2Proof.Machine.execRcBuild s
  | .rcEncode => Sys2Proof.Machine.execRcEncode s
  | .rcDecode => Sys2Proof.Machine.execRcDecode s
  | .ransBuild => Sys2Proof.Machine.execRansBuild s
  | .ransEncode => Sys2Proof.Machine.execRansEncode s
  | .ransDecode => Sys2Proof.Machine.execRansDecode s
  | .planeCompress => Sys2Proof.Machine.execPlaneCompress s
  | .planeDecompress => Sys2Proof.Machine.execPlaneDecompress s
  | .softReset => Sys2Proof.Machine.execSoftReset s

end Sys2Proof.Machine
end

