-- ==== Sys2Proof/Machine/Interface.lean ====
section
/-!
DEFINITION. The host interface (spec/10_state.md R21, R24; spec/20_memory.md R78 to R86): the address map, the register
map, the five transactions, and the notation of host programs (spec/30_encoding.md R106, R107).
-/
namespace Sys2Proof.Machine

/-! ## The registers (R24) -/

/-- The sixteen registers by name, in the order of their numbers (R24). -/
inductive Reg where
  | cmd | status | err | errInfo | backend | inLen | expectedCount | outLen
  | inPos | outPos | rcLow | rcHigh | rcPending | rcValue | ransXLo | ransXHi
  deriving DecidableEq, Repr

/-- The register of a number (R24); the numbers from 16 on are the reserved offsets. -/
def Reg.ofNumber (n : Nat) : Option Reg :=
  match n with
  | 0 => some .cmd
  | 1 => some .status
  | 2 => some .err
  | 3 => some .errInfo
  | 4 => some .backend
  | 5 => some .inLen
  | 6 => some .expectedCount
  | 7 => some .outLen
  | 8 => some .inPos
  | 9 => some .outPos
  | 10 => some .rcLow
  | 11 => some .rcHigh
  | 12 => some .rcPending
  | 13 => some .rcValue
  | 14 => some .ransXLo
  | 15 => some .ransXHi
  | _ => none

/-- The offset of a register, four times its number (R24). -/
def Reg.offset : Reg → Word
  | .cmd => 0x00
  | .status => 0x04
  | .err => 0x08
  | .errInfo => 0x0C
  | .backend => 0x10
  | .inLen => 0x14
  | .expectedCount => 0x18
  | .outLen => 0x1C
  | .inPos => 0x20
  | .outPos => 0x24
  | .rcLow => 0x28
  | .rcHigh => 0x2C
  | .rcPending => 0x30
  | .rcValue => 0x34
  | .ransXLo => 0x38
  | .ransXHi => 0x3C

/-- What the host reads of a register (R24 to R36). `CMD` stores nothing and reads 0 (R25). -/
def State.readReg (s : State) : Reg → Word
  | .cmd => 0
  | .status => s.statusWord
  | .err => s.errWord
  | .errInfo => s.errInfo
  | .backend => s.backend.setWidth 32
  | .inLen => s.inLen
  | .expectedCount => s.expectedCount
  | .outLen => s.outLen
  | .inPos => s.inPos
  | .outPos => s.outPos
  | .rcLow => s.rcLow
  | .rcHigh => s.rcHigh
  | .rcPending => s.rcPending
  | .rcValue => s.rcValue
  | .ransXLo => s.ransX.extractLsb' 0 32
  | .ransXHi => s.ransX.extractLsb' 32 32

/-- What the host reads at a register offset: a reserved offset reads 0 (R37). -/
def State.readOffset (s : State) (off : Word) : Word :=
  match Reg.ofNumber (off.toNat / 4) with
  | some r => s.readReg r
  | none => 0

/-- What a host write does to a register that is not `CMD` (R29, R31, R32, R37): `BACKEND` keeps bits [7:0], `IN_LEN` and
`EXPECTED_COUNT` keep the word, and a write to a read-only register has no effect. -/
def State.writeReg (s : State) (v : Word) : Reg → State
  | .backend => { s with backend := v.setWidth 8 }
  | .inLen => { s with inLen := v }
  | .expectedCount => { s with expectedCount := v }
  | .cmd | .status | .err | .errInfo | .outLen | .inPos | .outPos => s
  | .rcLow | .rcHigh | .rcPending | .rcValue | .ransXLo | .ransXHi => s

/-- A write to `CMD` (R25, R344): the command of the word, or an illegal command. -/
def State.writeCmd (s : State) (v : Word) : Host.Outcome State Fault Refusal :=
  match decodeWord v with
  | .ok i => exec i s
  | .error _ => .next (s.illegalCommand v)

/-- What a host write does at a register offset: a reserved offset ignores it (R37). -/
def State.writeOffset (s : State) (off v : Word) : Host.Outcome State Fault Refusal :=
  match Reg.ofNumber (off.toNat / 4) with
  | some .cmd => s.writeCmd v
  | some r => .next (s.writeReg v r)
  | none => .next s

/-! ## The address map (R78) -/

/-- The regions of the map (R78). -/
inductive Region where
  | reg | freq | cum | hlen | hcode | symtab | input | output
  deriving DecidableEq, Repr

/-- The first byte address of a region (R78). -/
def Region.base : Region → Nat
  | .reg => 0x00000000
  | .freq => 0x00001000
  | .cum => 0x00001400
  | .hlen => 0x00001C00
  | .hcode => 0x00002000
  | .symtab => 0x00004000
  | .input => Config.inBase
  | .output => Config.outBase

/-- The size of a region in bytes (R78). -/
def Region.size : Region → Nat
  | .reg => 4096
  | .freq => 1024
  | .cum => 1028
  | .hlen => 256
  | .hcode => 8192
  | .symtab => 4096
  | .input => Config.inCap
  | .output => Config.outCap

/-- Whether an address lies in a region. -/
def Region.holds (r : Region) (a : Nat) : Bool := r.base ≤ a && a < r.base + r.size

/-- The region of an address; none for an unmapped one (R82). -/
def regionOf (a : Nat) : Option Region :=
  [Region.reg, .freq, .cum, .hlen, .hcode, .symtab, .input, .output].find? fun r => r.holds a

/-- Byte `j` of a 32-bit entry, little-endian (R71, R73). -/
def wordByte (w : Word) (j : Nat) : Byte := w.extractLsb' (8 * j) 8

/-- The byte at an offset of a region as the host reads it (R71 to R73, R78). Out of a window's entries a byte reads 0:
no offset of the region lies there. The register region has no byte access. -/
def State.regionByte (s : State) (r : Region) (k : Nat) : Byte :=
  match r with
  | .reg => 0
  | .freq => wordByte (s.freq[k / 4]?.getD 0) (k % 4)
  | .cum => wordByte (s.cum[k / 4]?.getD 0) (k % 4)
  | .hlen => s.hlen[k]?.getD 0
  | .hcode => (s.hcode[k / 32]?.getD 0).extractLsb' (8 * (31 - k % 32)) 8
  | .symtab => s.symtab[k]?.getD 0
  | .input => s.inByte k
  | .output => s.outByte k

/-- The byte the host reads at an address, where a region with byte access holds it. -/
def State.hostByte (s : State) (a : Nat) : Option Byte :=
  match regionOf a with
  | none => none
  | some .reg => none
  | some r => some (s.regionByte r (a - r.base))

/-- A word with its byte `j` replaced (R73). -/
def setWordByte (w : Word) (j : Nat) (b : Byte) : Word :=
  (w &&& ~~~((0xFF : Word) <<< (8 * j))) ||| (b.setWidth 32 <<< (8 * j))

/-- `FREQ` with the byte at offset `k` of its window replaced; the other 24 bits of the entry are unchanged (R73). -/
def FreqTable.poke (F : FreqTable) (k : Nat) (b : Byte) : FreqTable :=
  F.setIfInBounds (k / 4) (setWordByte (F[k / 4]?.getD 0) (k % 4) b)

/-- `FREQ` with bytes at consecutive offsets replaced. -/
def FreqTable.pokeAll : FreqTable → Nat → List Byte → FreqTable
  | F, _, [] => F
  | F, k, b :: bs => FreqTable.pokeAll (F.poke k b) (k + 1) bs

/-- What a host write of bytes does at an offset of a region (R80, R83): it stores into `FREQ` and `IN` and has no effect
on a read-only window. -/
def State.writeRegion (s : State) (r : Region) (k : Nat) (bs : List Byte) : State :=
  match r with
  | .freq => { s with freq := s.freq.pokeAll k bs }
  | .input => { s with mem := s.mem.writeBytes (Config.inBase + k) bs }
  | .reg | .cum | .hlen | .hcode | .symtab | .output => s

/-! ## Which requests are transactions (R79, R81, R82) -/

/-- The check of a buffer access of `n` bytes at `a`: the region that holds all of it. A byte of the range at an unmapped
address stops with a fault; an empty range, the register region and a range over two regions are refused. -/
def checkRange (a n : Nat) : Host.Outcome Region Fault Refusal :=
  if n = 0 then .refused .emptyTransfer
  else match regionOf a with
    | none => .fault .unmappedAddress
    | some r =>
      if a + n ≤ r.base + r.size then
        if r = .reg then .refused .registersAreNoBuffer else .next r
      else if (List.range n).all fun j => (regionOf (a + j)).isSome then .refused .crossesRegion
      else .fault .unmappedAddress

/-- The check of a register access (R81): a multiple of 4 in 0 .. 0xFFC. -/
def checkOffset (off : Word) : Option Refusal :=
  if 0x1000 ≤ off.toNat then some .noSuchRegister
  else if off.toNat % 4 ≠ 0 then some .misalignedRegister
  else none

/-! ## The transactions (R21) -/

/-- The outcome with the host's reply in the next state. -/
def answer (r : Reply) : Host.Outcome State Fault Refusal → Host.Outcome State Fault Refusal
  | .next s => .next { s with reply := r }
  | .fault f => .fault f
  | .refused e => .refused e

/-- One host transaction (R21): the only way the block moves (R20). -/
def State.transact (s : State) : Txn → Host.Outcome State Fault Refusal
  | .regRead off =>
    match checkOffset off with
    | some e => .refused e
    | none => answer (.word (s.readOffset off)) (.next s)
  | .regWrite off v =>
    match checkOffset off with
    | some e => .refused e
    | none => answer .empty (s.writeOffset off v)
  | .bufRead addr n =>
    match checkRange addr.toNat n with
    | .next r => answer (.bytes ((List.range n).map fun j => s.regionByte r (addr.toNat + j - r.base))) (.next s)
    | .fault f => .fault f
    | .refused e => .refused e
  | .bufWrite addr bs =>
    match checkRange addr.toNat bs.length with
    | .next r => answer .empty (.next (s.writeRegion r (addr.toNat - r.base) bs))
    | .fault f => .fault f
    | .refused e => .refused e
  | .reset => answer .empty (.next s.restart)

/-- The next step of the block: the host's next transaction, taken off the list; with none coming the block is idle and
keeps all its state (spec/60_exceptions.md R365). -/
def State.advance (s : State) : Host.Outcome State Fault Refusal :=
  match s.host with
  | [] => .next s
  | t :: rest => ({ s with host := rest }).transact t

/-! ## Host programs (spec/30_encoding.md R106, R107) -/

/-- `WR <register>, <value>`. -/
def wr (r : Reg) (v : Word) : Txn := .regWrite r.offset v

/-- `RD <register>`. -/
def rd (r : Reg) : Txn := .regRead r.offset

/-- `LOAD <region>+<offset>, <bytes>`. -/
def load (r : Region) (k : Nat) (bs : List Byte) : Txn := .bufWrite (BitVec.ofNat 32 (r.base + k)) bs

/-- `DUMP <region>+<offset>, <n>`. -/
def dump (r : Region) (k n : Nat) : Txn := .bufRead (BitVec.ofNat 32 (r.base + k)) n

/-- `CMD <mnemonic>`. -/
def cmd (i : Instr) : Txn := .regWrite 0x00 (encode i)

/-- `LOAD` of bytes that may be none: a transfer of no byte is no transaction (R79), so none is made
(notes/assumptions/12.md). -/
def loadAny (r : Region) (k : Nat) (bs : List Byte) : List Txn := if bs = [] then [] else [load r k bs]

/-- `DUMP` of bytes that may be none. -/
def dumpAny (r : Region) (k n : Nat) : List Txn := if n = 0 then [] else [dump r k n]

/-- `SETIN <bytes>`. -/
def setIn (bs : List Byte) : List Txn := loadAny .input 0 bs ++ [wr .inLen (BitVec.ofNat 32 bs.length)]

/-- `COMPRESS <b>`. -/
def compress (b : Byte) : List Txn := [wr .backend (b.setWidth 32), cmd .planeCompress]

/-- `DECOMPRESS <b>, <count>`. -/
def decompress (b : Byte) (count : Nat) : List Txn :=
  [wr .backend (b.setWidth 32), wr .expectedCount (BitVec.ofNat 32 count), cmd .planeDecompress]

/-- `FEEDBACK`: the host reads `OUT_LEN` and that many bytes of `OUT`, and writes them to `IN`. Its second half depends on
what its first half returned, which is read here from the state it is expanded in. -/
def feedback (s : State) : List Txn :=
  rd .outLen :: (dumpAny .output 0 s.outLen.toNat ++ setIn (s.outBytes 0 s.outLen.toNat))

end Sys2Proof.Machine
end

