-- ==== Sys2Proof/Machine/Step.lean ====
section
/-!
DEFINITION. One step of the machine, and the placing of a command where the next step finds it.
-/
namespace Sys2Proof.Machine

/-- One step (spec/10_state.md R20): the host's next transaction. -/
def step (s : State) : Host.Outcome State Fault Refusal := s.advance

/-- The state whose next transaction is the write to `CMD` of the word whose low `nbits` bits are those of `w`. The block
fetches nothing from memory (R30): the order of commands is the order of the host's writes to `CMD`
(notes/assumptions/2.md). -/
def State.withFetchWord (s : State) (nbits w : Nat) : State :=
  { s with host := .regWrite 0x00 (tableWord nbits w) :: s.host }

end Sys2Proof.Machine
end

