-- ==== Sys2Proof/Machine/HostSide.lean ====
section
/-!
DEFINITION. The host's side (spec/45_host_boundary.md): planes, the low-plane payload, the block record, the original
file and its container, and the two loops. None of it is hardware of the block (spec/00_scope.md R4); it is the host model that a claim about a
whole file needs, and it drives the block through its transactions alone.
-/
namespace Sys2Proof.Machine

/-- Why the host gives a file up (R314). -/
inductive HostError where
  /-- The host's own `FormatError` (R302, R304, R305, R307, R310, R313; notes/assumptions/19.md). -/
  | format
  /-- A command of the block ended with `STATUS.ERROR` set: `ERR` and `ERR_INFO` as the host read them. -/
  | block (code info : Word)
  /-- A request of the host was no transaction; the host's loops make none. -/
  | noTransaction
  deriving DecidableEq, Repr

/-! ## Planes (R301, R302, R309) -/

/-- Splitting: the low bytes and the high bytes of the pairs; an unpaired last byte is dropped (R301, R309). -/
def splitPlanes : List Byte → List Byte × List Byte
  | lo :: hi :: rest => (lo :: (splitPlanes rest).1, hi :: (splitPlanes rest).2)
  | _ => ([], [])

/-- Interleaving: planes of equal length back into pairs, the low byte first (R302). -/
def interleave : List Byte → List Byte → Except HostError (List Byte)
  | [], [] => .ok []
  | lo :: ls, hi :: hs =>
    match interleave ls hs with
    | .ok rest => .ok (lo :: hi :: rest)
    | .error e => .error e
  | _, _ => .error .format

/-! ## The low-plane payload (R303 to R305) -/

/-- `Rle` with `c` zero bytes pending of the current run (R304): runs of at most 255, split greedily. -/
def rleFrom : Nat → List Byte → List Byte
  | c, [] => if c = 0 then [] else [0, BitVec.ofNat 8 c]
  | c, b :: bs =>
    if b = 0 then
      if c = 255 then 0 :: 255 :: rleFrom 1 bs else rleFrom (c + 1) bs
    else if c = 0 then b :: rleFrom 0 bs
    else 0 :: BitVec.ofNat 8 c :: b :: rleFrom 0 bs

/-- `Rle(P)`, the zero-run-length transform (R304). -/
def rle (P : List Byte) : List Byte := rleFrom 0 P

/-- `Unrle(R)` (R304): a zero byte with its count stands for that many zeros; a zero byte at the very end is
malformed. -/
def unrle : List Byte → Except HostError (List Byte)
  | [] => .ok []
  | [b] => if b = 0 then .error .format else .ok [b]
  | b :: c :: rest =>
    if b = 0 then
      match unrle rest with
      | .ok out => .ok (List.replicate c.toNat 0 ++ out)
      | .error e => .error e
    else
      match unrle (c :: rest) with
      | .ok out => .ok (b :: out)
      | .error e => .error e

/-- The low-plane payload (R303): raw, or under the arithmetic mode a flag byte and the shorter of raw and RLE. -/
def lowPayload (b : Backend) (P : List Byte) : List Byte :=
  match b with
  | .huffman | .rans => P
  | .range => if P.length ≤ (rle P).length then 0 :: P else 1 :: rle P

/-- Decoding the low-plane payload (R305). -/
def lowPlane (b : Backend) (payload : List Byte) : Except HostError (List Byte) :=
  match b with
  | .huffman | .rans => .ok payload
  | .range =>
    match payload with
    | [] => .error .format
    | flag :: rest => if flag = 0 then .ok rest else if flag = 1 then unrle rest else .error .format

/-! ## Block record, original file and container (R306, R307) -/

/-- An unsigned number in `n` bytes, little-endian (spec/20_memory.md R71). -/
def leBytes : Nat → Nat → List Byte
  | 0, _ => []
  | n + 1, x => BitVec.ofNat 8 x :: leBytes n (x / 256)

/-- The number that little-endian bytes hold. -/
def leNat : List Byte → Nat
  | [] => 0
  | b :: bs => b.toNat + 256 * leNat bs

/-- A block record (R306). -/
structure BlockRecord where
  msb : List Byte
  lsb : List Byte
  deriving DecidableEq, Repr

/-- The bytes of a block record: both lengths, then both payloads (R306). -/
def BlockRecord.bytes (r : BlockRecord) : List Byte :=
  leBytes 4 r.msb.length ++ leBytes 4 r.lsb.length ++ r.msb ++ r.lsb

/-- The next record of a file, at a record boundary (R310): none at the end of the input; 1 to 7 bytes, or payloads
shorter than announced, are malformed. Answers the record and the bytes after it. -/
def readRecord (bs : List Byte) : Except HostError (Option (BlockRecord × List Byte)) :=
  if bs = [] then .ok none
  else if bs.length < 8 then .error .format
  else
    let n := leNat (bs.take 4)
    let k := leNat ((bs.drop 4).take 4)
    let rest := bs.drop 8
    if rest.length < n + k then .error .format
    else .ok (some (⟨rest.take n, (rest.drop n).take k⟩, rest.drop (n + k)))

/-- What an original file and a container start with (R307): the header with its 8-byte length. Answers the header and
the bytes after it. A length that the file does not hold is malformed (spec/91_not_in_source.md N12; for an original file
this is the model's reading, notes/assumptions/19.md). -/
def readHeader (bs : List Byte) : Except HostError (List Byte × List Byte) :=
  let n := leNat (bs.take 8)
  let rest := bs.drop 8
  if bs.length < 8 ∨ rest.length < n then .error .format else .ok (rest.take n, rest.drop n)

/-- The bytes of a header with its length before it (R307). -/
def headerBytes (header : List Byte) : List Byte := leBytes 8 header.length ++ header

/-- An original, uncompressed file (R307): the opaque header and the plane data. -/
structure Original where
  header : List Byte
  data : List Byte
  deriving DecidableEq, Repr

/-- The bytes of an original file (R307): the header with its length, directly followed by the plane data. -/
def Original.bytes (o : Original) : List Byte := headerBytes o.header ++ o.data

/-- Reading an original file (R307). -/
def readOriginal (bs : List Byte) : Except HostError Original :=
  match readHeader bs with
  | .error e => .error e
  | .ok (header, data) => .ok ⟨header, data⟩

/-- A container (R307): the opaque header, the mode flag, and the bytes of the records. -/
structure Container where
  header : List Byte
  flag : Byte
  records : List Byte
  deriving DecidableEq, Repr

/-- The bytes of a container (R307). -/
def Container.bytes (c : Container) : List Byte := headerBytes c.header ++ c.flag :: c.records

/-- Reading a container (R307): the header, then the mode flag. DESIGN CHOICE (notes/assumptions/19.md): a container that
ends right after its header, before the mode flag, is malformed; no rule names the outcome. -/
def readContainer (bs : List Byte) : Except HostError Container :=
  match readHeader bs with
  | .error e => .error e
  | .ok (_, []) => .error .format
  | .ok (header, flag :: records) => .ok ⟨header, flag, records⟩

/-! ## Driving the block (R308, R310, R314, R322) -/

/-- A run of the host against one block: its result or the reason it gave up, and the state it leaves the block in. -/
abbrev HostRun (α : Type) := Except HostError α × State

/-- A run, then, if it did not give up, the next one, at the state the first left. -/
def followedBy {α β : Type} (r : HostRun α) (next : α → State → HostRun β) : HostRun β :=
  match r with
  | (.ok a, s) => next a s
  | (.error e, s) => (.error e, s)

/-- A check of the host's own, which makes no transaction. -/
def checked {α : Type} (r : Except HostError α) (s : State) : HostRun α := (r, s)

/-- The host's transactions in order; any that is no transaction ends the run. -/
def runTxns : List Txn → State → HostRun Unit
  | [], s => (.ok (), s)
  | t :: ts, s =>
    match s.transact t with
    | .next s' => runTxns ts s'
    | .fault _ => (.error .noTransaction, s)
    | .refused _ => (.error .noTransaction, s)

/-- The host reads a register. -/
def readRegister (r : Reg) (s : State) : HostRun Word :=
  followedBy (runTxns [rd r] s) fun _ t =>
    match t.reply with
    | .word v => (.ok v, t)
    | _ => (.error .noTransaction, t)

/-- The host reads `OUT[0 .. n)`; for no byte it makes no transaction (notes/assumptions/12.md). -/
def readResult (n : Nat) (s : State) : HostRun (List Byte) :=
  if n = 0 then (.ok [], s)
  else followedBy (runTxns [dump .output 0 n] s) fun _ t =>
    match t.reply with
    | .bytes bs => (.ok bs, t)
    | _ => (.error .noTransaction, t)

/-- The host after a command that ended with `STATUS.ERROR` set (R314, R322 duty 4): it reads `ERR` and `ERR_INFO`, resets
the block with `SOFT_RESET`, so that the next file finds it free of the error, and gives the file up. -/
def giveUp {α : Type} (s : State) : HostRun α :=
  followedBy (readRegister .err s) fun code t =>
    followedBy (readRegister .errInfo t) fun info u =>
      followedBy (runTxns [cmd .softReset] u) fun _ v => (.error (.block code info), v)

/-- The host's check of `STATUS` after a command (R314, R322 duties 4 and 5): the bytes `OUT[0 .. OUT_LEN)`, or the end of
the file. -/
def takeResult (s : State) : HostRun (List Byte) :=
  followedBy (readRegister .status s) fun status t =>
    if status.getLsbD 1 then giveUp t
    else followedBy (readRegister .outLen t) fun n u => readResult n.toNat u

/-- The high plane through the block on encode (R308): the payload. -/
def compressHigh (plane : List Byte) (s : State) : HostRun (List Byte) :=
  followedBy (runTxns (setIn plane ++ [cmd .planeCompress]) s) fun _ t => takeResult t

/-- The high plane through the block on decode (R310), `p` symbols of it; a payload or a plane that this instance cannot
take is the host's `FormatError` (R313). -/
def decompressHigh (payload : List Byte) (p : Nat) (s : State) : HostRun (List Byte) :=
  if Config.inCap < payload.length ∨ Config.outCap < p then (.error .format, s)
  else followedBy (runTxns (setIn payload ++ [wr .expectedCount (BitVec.ofNat 32 p), cmd .planeDecompress]) s)
    fun _ t => takeResult t

/-- The encoding loop over the plane data (R308), at most `n` blocks: the bytes of the records. -/
def encodeBlocks (b : Backend) : Nat → List Byte → State → HostRun (List Byte)
  | 0, _, s => (.ok [], s)
  | n + 1, D, s =>
    if D = [] then (.ok [], s)
    else
      let planes := splitPlanes (D.take Config.blockMax)
      followedBy (compressHigh planes.2 s) fun msb t =>
        followedBy (encodeBlocks b n (D.drop Config.blockMax) t) fun rest u =>
          (.ok ((BlockRecord.mk msb (lowPayload b planes.1)).bytes ++ rest), u)

/-- The decoding loop over the records (R310, R312), at most `n` records: the plane data. -/
def decodeBlocks (b : Backend) : Nat → List Byte → State → HostRun (List Byte)
  | 0, _, s => (.ok [], s)
  | n + 1, bs, s =>
    followedBy (checked (readRecord bs) s) fun next s =>
      match next with
      | none => (.ok [], s)
      | some (r, rest) =>
        followedBy (checked (lowPlane b r.lsb) s) fun lsb s =>
          followedBy (decompressHigh r.msb lsb.length s) fun msb t =>
            followedBy (checked (interleave lsb msb) t) fun D t =>
              followedBy (decodeBlocks b n rest t) fun out u => (.ok (D ++ out), u)

/-- The backend that a file's mode flag selects; a value above 2 is the host's `FormatError` (R310). -/
def backendOfFile (flag : Byte) : Except HostError Backend :=
  match backendOf flag with
  | none => .error .format
  | some b => .ok b

/-- Encoding an original file into a container (R307, R308): the header copied, the mode flag written once to the file and
once to `BACKEND`, then the blocks. No rule names the state of the block in which a file's run starts, and none resets it
after a completed file: it is `s`, whatever came before (notes/assumptions/20.md). -/
def encodeFile (flag : Byte) (file : List Byte) (s : State) : HostRun (List Byte) :=
  followedBy (checked (readOriginal file) s) fun o s =>
    followedBy (checked (backendOfFile flag) s) fun b s =>
      followedBy (runTxns [wr .backend (flag.setWidth 32)] s) fun _ s =>
        followedBy (encodeBlocks b o.data.length o.data s) fun records t =>
          (.ok (Container.mk o.header flag records).bytes, t)

/-- Decoding a container into an original file (R307, R310, R315), the block starting in the state `s`
(notes/assumptions/20.md). -/
def decodeFile (file : List Byte) (s : State) : HostRun (List Byte) :=
  followedBy (checked (readContainer file) s) fun c s =>
    followedBy (checked (backendOfFile c.flag) s) fun b s =>
      followedBy (runTxns [wr .backend (c.flag.setWidth 32)] s) fun _ s =>
        followedBy (decodeBlocks b c.records.length c.records s) fun D t => (.ok (Original.mk c.header D).bytes, t)

/-! ## The end of a run (R314, R315, R322, spec/30_encoding.md R131) -/

/-- The mode flag that a command-line word selects (R131). No word and any other word select none: the spec names no
default (notes/assumptions/16.md). -/
def flagOfWord (w : String) : Option Byte :=
  if w = "fast" then some 0
  else if w = "best" then some 1
  else if w = "rans" ∨ w = "Rans" then some 2
  else none

/-- The exit code of a run (R314, spec/60_exceptions.md R366): 0 on success, 1 on every error. -/
def exitCode {α : Type} : Except HostError α → Nat
  | .ok _ => 0
  | .error _ => 1

end Sys2Proof.Machine
end

