-- ==== Sys2Proof/Safety.lean ====
section
/-!
DEFINITION. What claims mean by a sound state and by the outcomes of a command: the invariant of every step, and the
names for "completed" and "faulted" (spec/60_exceptions.md R367).
-/
namespace Sys2Proof.Machine

/-- The flags and the fault record agree (spec/10_state.md R26 to R28, spec/60_exceptions.md R367 b): `DONE` and `ERROR`
are never both 1; while `ERROR` is 0, `ERR` and `ERR_INFO` are 0; while it is 1, `ERR` is a code the block raises and
there is no output. -/
abbrev State.flagsSound (s : State) : Prop :=
  ¬(s.done = true ∧ s.error = true) ∧
  (s.error = false → s.errCode = 0 ∧ s.errInfo = 0) ∧
  (s.error = true → 2 ≤ s.errCode.toNat ∧ s.errCode.toNat ≤ 6 ∧ s.outLen = 0)

/-- Every byte of the result is stored (R367 a): `OUT[0 .. OUT_LEN)` lies within `OUT` and holds stored bytes. -/
abbrev State.resultSound (s : State) : Prop :=
  s.outLen.toNat ≤ Config.outCap ∧
  ∀ k < s.outLen.toNat, (s.mem.read (Config.outBase + k)).isSome = true

/-- The invariant that every step keeps. -/
abbrev State.Sound (s : State) : Prop := s.mem.wf ∧ s.flagsSound ∧ s.resultSound

/-- What a completed command leaves of the flags (R346). -/
abbrev State.completed (s : State) : Prop := s.done = true ∧ s.error = false

/-- The record of a fault (R342). -/
abbrev State.faulted (s : State) (k : ErrorKind) (info : Word) : Prop :=
  s.done = false ∧ s.error = true ∧ s.errCode = k.code ∧ s.errInfo = info ∧ s.outLen = 0

/-! ## Frames: what a command leaves as it was -/

/-- What no command but `SOFT_RESET` writes: the registers the host writes, the record of a fault while none is raised,
and the host's own side (R29, R31, R32, spec/20_memory.md R93). -/
abbrev State.keepsOperands (s t : State) : Prop :=
  t.backend = s.backend ∧ t.inLen = s.inLen ∧ t.expectedCount = s.expectedCount ∧ t.errCode = s.errCode ∧
  t.errInfo = s.errInfo ∧ t.host = s.host ∧ t.reply = s.reply ∧ t.bufDraw = s.bufDraw

/-- The tables of the Huffman unit: `HLEN`, `HCODE`, the arena, `LUT`. -/
abbrev State.keepsHuffman (s t : State) : Prop :=
  t.hlen = s.hlen ∧ t.hcode = s.hcode ∧ t.arena = s.arena ∧ t.lut = s.lut

/-- The working registers of the range coder that both of its coders write. -/
abbrev State.keepsRcBounds (s t : State) : Prop :=
  t.rcLow = s.rcLow ∧ t.rcHigh = s.rcHigh ∧ t.rcPending = s.rcPending

/-- All working registers of the coders. -/
abbrev State.keepsWorking (s t : State) : Prop :=
  s.keepsRcBounds t ∧ t.rcValue = s.rcValue ∧ t.ransX = s.ransX

/-- Every byte of the buffers. -/
abbrev State.keepsMemory (s t : State) : Prop := ∀ a, t.mem.read a = s.mem.read a

/-- Every byte outside the buffer `OUT`. -/
abbrev State.keepsOutsideOut (s t : State) : Prop :=
  ∀ a, inOutBuffer a = false → t.mem.read a = s.mem.read a

/-- The three cursors. -/
abbrev State.cursorsAre (t : State) (outLen inPos outPos : Nat) : Prop :=
  t.outLen.toNat = outLen ∧ t.inPos.toNat = inPos ∧ t.outPos.toNat = outPos

/-! ## What results are said in -/

/-- The result bytes as the host reads them: `OUT[0 .. OUT_LEN)`. -/
def State.result (t : State) : List Byte := t.outBytes 0 t.outLen.toNat

/-- The code of a symbol as the tables `HLEN` and `HCODE` hold it (R41). -/
def State.tableCode (t : State) (b : Byte) : Bits :=
  (List.range (t.hlen[b.toNat]'b.isLt).toNat).map (codeBit (t.hcode[b.toNat]'b.isLt))

/-- The code of a symbol under a table (spec/41_huffman.md R165). -/
def codeOf (F : FreqTable) (b : Byte) : Bits := hufCode (hufTree F) b

/-- The exact bit length of the stream of a plane with these counts (R173). -/
def bitsNeeded (F : FreqTable) : Nat := (allBytes.map fun b => F.at b * (codeOf F b).length).sum

/-- The table checks of the range coder (R202). -/
abbrev rcAccepts (F : FreqTable) : Prop := (∀ b, F.at b ≠ 0) ∧ F.total ≤ 0xFFFFFFFF

/-- The number of zero bytes a stream starts with. -/
def leadingZeros (P : List Byte) : Nat := (P.takeWhile (· == 0)).length

/-! ### The Huffman tree node by node -/

/-- The merge rule in every node (R161 to R163): `LEFT` has the lesser key, the weight is the sum, and a node is numbered
after its children. Which two nodes are merged is said over `nodes` and `edges`. -/
def HufNode.mergeOrdered : HufNode → Prop
  | .leaf _ _ => True
  | .inner n w l r =>
    l.before r = true ∧ w.toNat = l.weight.toNat + r.weight.toNat ∧ l.number < n ∧ r.number < n ∧ l.mergeOrdered ∧
      r.mergeOrdered

/-- A node and every node under it. -/
def HufNode.nodes : HufNode → List HufNode
  | .leaf b w => [.leaf b w]
  | .inner n w l r => .inner n w l r :: (l.nodes ++ r.nodes)

/-- The pairs of a node and one of its children, in the tree under a node. -/
def HufNode.edges : HufNode → List (HufNode × HufNode)
  | .leaf _ _ => []
  | .inner n w l r => (.inner n w l r, l) :: (.inner n w l r, r) :: (l.edges ++ r.edges)

/-- The node at the end of a path, 0 for `LEFT` and 1 for `RIGHT`, if the tree reaches that far. -/
def HufNode.descend : Bits → HufNode → Option HufNode
  | [], x => some x
  | _ :: _, .leaf _ _ => none
  | false :: bs, .inner _ _ l _ => l.descend bs
  | true :: bs, .inner _ _ _ r => r.descend bs

/-! ### Coded streams, before the capacity of `OUT` limits them -/

/-- The bits `RC_ENCODE` writes for symbols in order and the registers after them (R216); none where a narrowing leaves no
width (R205). -/
def rcBits (C : CumTable) : List Byte → RcEncoder → Option (Bits × RcEncoder)
  | [], c => some ([], c)
  | b :: bs, c =>
    match rcNarrow C b c.low c.high with
    | none => none
    | some (low, high) =>
      let q := rcRenormEncode rcFuel ⟨low, high, c.pending⟩
      match rcBits C bs q.2 with
      | none => none
      | some (w, c') => some (q.1 ++ w, c')

/-- The bytes a rANS state gives off before it is below a bound, in the order emitted, after the state they leave (R245),
at most `n` of them. -/
def ransShed (bound : Nat) : Nat → Nat → Nat × List Byte
  | 0, x => (x, [])
  | n + 1, x =>
    if bound ≤ x then ((ransShed bound n (x / 256)).1, BitVec.ofNat 8 x :: (ransShed bound n (x / 256)).2) else (x, [])

/-- What coding one symbol makes of a rANS state, and the bytes it emits (R245). -/
def ransCode (F : FreqTable) (b : Byte) (x : Nat) : Nat × List Byte :=
  let q := ransShed (F.at b <<< 28) ransFuel x
  (ransUpdate (F.at b) (CumTable.at F.cumulative b.toNat) q.1, q.2)

/-- The state after symbols in the order they are coded, from the plane's last to its first, and the bytes emitted for them
in the order emitted (R248). -/
def ransBytes (F : FreqTable) : List Byte → Nat → Nat × List Byte
  | [], x => (x, [])
  | b :: bs, x =>
    let q := ransCode F b x
    let r := ransBytes F bs q.1
    (r.1, q.2 ++ r.2)

/-- What coding a plane backwards from the state 2^32 makes of it, before the flush (R248). -/
def ransPlane (F : FreqTable) (B : List Byte) : Nat × List Byte := ransBytes F B.reverse 0x100000000

/-- The number of bytes of a backend's stream of a plane, the flush included: the bits of the codes (R169), the bits of the
symbols with the pending bits and two more (R219), the bytes of the symbols and five (R246). None where the range coder
has no interval left. -/
def streamSize (b : Backend) (F : FreqTable) (B : List Byte) : Option Nat :=
  match b with
  | .huffman => some (((B.flatMap (codeOf F)).length + 7) / 8)
  | .range => (rcBits F.cumulative B rcStart).map fun q => (q.1.length + q.2.pending + 2 + 7) / 8
  | .rans => some ((ransPlane F B).2.length + 5)

/-- Where a backend's stream of a plane first exceeds `room` bytes (R353 c, R343): at the symbol of index `i`, everything
before it having fitted, or in the flush, whose index is the length of the plane. For rANS the symbols before it are those
that follow it in the plane. -/
def overflowsAt (b : Backend) (F : FreqTable) (room i : Nat) (B : List Byte) : Prop :=
  match b with
  | .huffman =>
    ∃ pre post : List Byte, ∃ s : Byte, B = pre ++ s :: post ∧ i = pre.length ∧ (∀ c ∈ pre ++ [s], F.at c ≠ 0) ∧
      (pre.flatMap (codeOf F)).length ≤ 8 * room ∧ 8 * room < ((pre ++ [s]).flatMap (codeOf F)).length
  | .range =>
    (∃ pre post : List Byte, ∃ s : Byte, ∃ q q' : Bits × RcEncoder, B = pre ++ s :: post ∧ i = pre.length ∧
      rcBits F.cumulative pre rcStart = some q ∧ rcBits F.cumulative (pre ++ [s]) rcStart = some q' ∧
      q.1.length ≤ 8 * room ∧ 8 * room < q'.1.length) ∨
    (i = B.length ∧ ∃ q : Bits × RcEncoder, rcBits F.cumulative B rcStart = some q ∧ q.1.length ≤ 8 * room ∧
      8 * room < q.1.length + q.2.pending + 2)
  | .rans =>
    (∃ pre post : List Byte, ∃ s : Byte, B = pre ++ s :: post ∧ i = pre.length ∧ (∀ c ∈ s :: post, F.at c ≠ 0) ∧
      (ransPlane F post).2.length ≤ room ∧ room < (ransPlane F (s :: post)).2.length) ∨
    (i = B.length ∧ (∀ c ∈ B, F.at c ≠ 0) ∧ (ransPlane F B).2.length ≤ room ∧ room < (ransPlane F B).2.length + 5)

end Sys2Proof.Machine
end

