-- ==== Sys2Proof/Certificates/Slice0/Obligations.lean ====
section
/-!
DEFINITION. The statements for the provers.
-/
open Sys2Proof Sys2Proof.Machine

/-! ## Encoding -/

/-- R103: words of the command map, one or more of each unit, decode to their commands. -/
def Obligations.CommandWordsDecodeAsTheMapSays : Prop :=
  decodeWord 0x00000000 = .ok .nop ∧ decodeWord 0x00000001 = .ok .freqCount ∧
  decodeWord 0x00000002 = .ok .freqCountFloor ∧ decodeWord 0x00000003 = .ok .freqNorm ∧
  decodeWord 0x00000012 = .ok .hufDecode ∧ decodeWord 0x00000021 = .ok .rcEncode ∧
  decodeWord 0x00000030 = .ok .ransBuild ∧ decodeWord 0x00000041 = .ok .planeDecompress ∧
  decodeWord 0x000000FF = .ok .softReset ∧ decodeWord 0x000001FF = .error .reservedBits ∧
  decodeWord 0x00000013 = .error .unassignedOpcode

/-- R104, R103: the words that decode are exactly those with bits [31:8] zero and an assigned function of their unit, and
within units 1 to 3 function 0 is build, 1 encode, 2 decode. A word that decodes is the encoding of what it decodes to, and
the bytes of a command decode to the command and the bytes after it. (That a command word has bytes, least significant
first, is the model's reading and no rule's: notes/assumptions/18.md.) -/
def Obligations.ExactlyTheAssignedWordsDecode : Prop :=
  (∀ v : Word, (∃ i, decodeWord v = .ok i) ↔
    v.toNat < 256 ∧
      ((v.toNat / 16 = 0 ∧ v.toNat % 16 ≤ 3) ∨
       ((v.toNat / 16 = 1 ∨ v.toNat / 16 = 2 ∨ v.toNat / 16 = 3) ∧ v.toNat % 16 ≤ 2) ∨
       (v.toNat / 16 = 4 ∧ v.toNat % 16 ≤ 1) ∨ (v.toNat / 16 = 15 ∧ v.toNat % 16 = 15))) ∧
  (∀ (v : Word) (i : Instr), decodeWord v = .ok i ↔ v = encode i) ∧
  (∀ (i : Instr) (rest : List Byte), decodeBytes (encodeBytes i ++ rest) = .ok (i, rest)) ∧
  decodeWord 0x10 = .ok .hufBuild ∧ decodeWord 0x20 = .ok .rcBuild ∧ decodeWord 0x30 = .ok .ransBuild ∧
  decodeWord 0x11 = .ok .hufEncode ∧ decodeWord 0x21 = .ok .rcEncode ∧ decodeWord 0x31 = .ok .ransEncode ∧
  decodeWord 0x12 = .ok .hufDecode ∧ decodeWord 0x22 = .ok .rcDecode ∧ decodeWord 0x32 = .ok .ransDecode

/-! ## The step, the prologue and the fault record -/

/-- R25, R344: when the host's next transaction writes a command's word to `CMD`, the step is that command's `exec`, at the
state with the transaction taken off the list, the host's reply emptied after it. (That the coming transactions stand in a
list of the state is the model's own: notes/assumptions/2.md.) -/
def Obligations.StepRunsTheDecodedCommand : Prop :=
  ∀ (s t : State) (v : Word) (i : Instr) (rest : List Txn),
    s.host = .regWrite 0x00 v :: rest → decodeWord v = .ok i →
      exec i { s with host := rest } = .next t → step s = .next { t with reply := .empty }

/-- R350: a word that is no command raises `IllegalCommand` with the word in `ERR_INFO` when `ERROR` is 0, and
nothing but `STATUS`, `ERR`, `ERR_INFO`, `OUT_LEN` changes. The rule's example with the word 0x13. -/
def Obligations.IllegalWordsRaiseIllegalCommand : Prop :=
  (∀ (s : State) (v : Word), s.error = false →
    (v.toNat / 256 ≠ 0 ∨ v.toNat ∉ [0, 1, 2, 3, 16, 17, 18, 32, 33, 34, 48, 49, 50, 64, 65, 255]) →
      s.writeCmd v = .next { s with done := false, error := true, errCode := 6, errInfo := v, outLen := 0 }) ∧
  (∀ s : State, s.error = false → ∃ t, s.writeCmd 0x00000013 = .next t ∧ t.statusWord = 2 ∧ t.errWord = 6 ∧
    t.errInfo = 0x00000013)

/-- R345: while `ERROR` is 1 every `CMD` write but that of `SOFT_RESET` changes nothing at all; `SOFT_RESET` is accepted. -/
def Obligations.OnlySoftResetIsAcceptedWhileError : Prop :=
  ∀ (s : State) (v : Word), s.error = true →
    (v ≠ 0xFF → s.writeCmd v = .next s) ∧ (∃ t, s.writeCmd 0xFF = .next t ∧ t.error = false ∧ t.done = false)

/-- R346: a command that raises nothing sets `DONE`; after any `CMD` write but that of `SOFT_RESET` exactly one of `DONE`
and `ERROR` is 1, and `SOFT_RESET` leaves `STATUS` 0. The flags are sound before it (the invariant `State.Sound`). -/
def Obligations.AfterACommandExactlyOneFlagIsSet : Prop :=
  ∀ (s : State) (v : Word), s.flagsSound →
    ∃ t, s.writeCmd v = .next t ∧ (v ≠ 0xFF → t.done = !t.error) ∧ (v = 0xFF → t.statusWord = 0)

/-- R342: a command that ends with `ERROR` set from a state without it clears `DONE`, records a code the block raises,
offers no output, and leaves `IN`, `IN_LEN`, `EXPECTED_COUNT`, `BACKEND` as they were. -/
def Obligations.AFaultOffersNoOutputAndKeepsTheOperands : Prop :=
  ∀ (s t : State) (i : Instr), s.error = false → exec i s = .next t → t.error = true →
    t.done = false ∧ t.outLen = 0 ∧ 2 ≤ t.errCode.toNat ∧ t.errCode.toNat ≤ 5 ∧
    t.inLen = s.inLen ∧ t.expectedCount = s.expectedCount ∧ t.backend = s.backend ∧ s.keepsOutsideOut t

/-- R355: which command can raise what, by the code in `ERR`. -/
def Obligations.EachCommandRaisesOnlyItsKinds : Prop :=
  ∀ (s t : State) (i : Instr), s.error = false → exec i s = .next t → t.error = true →
    t.errCode.toNat ∈ (match i with
      | .nop | .freqNorm | .hufBuild | .softReset => []
      | .freqCount | .freqCountFloor => [5]
      | .hufEncode => [5, 4]
      | .hufDecode => [5, 2, 3]
      | .rcBuild | .ransBuild => [2]
      | .rcEncode | .rcDecode => [5, 2, 4]
      | .ransEncode => [5, 2, 4]
      | .ransDecode => [5, 2, 3]
      | .planeCompress => [5, 2]
      | .planeDecompress => [5, 2, 3, 4])

/-- R85: `IN` and `OUT` are disjoint, and no command writes `IN`. (`SOFT_RESET` leaves `IN` unspecified: R381.) -/
def Obligations.NoCommandWritesInput : Prop :=
  (∀ a, ¬(inInBuffer a = true ∧ inOutBuffer a = true)) ∧
  ∀ (s t : State) (i : Instr), i ≠ .softReset → exec i s = .next t →
    (∀ a, inInBuffer a = true → t.mem.read a = s.mem.read a) ∧ ∀ k < Config.inCap, t.inByte k = s.inByte k

/-- R342, R93: whether it completes or faults, a command changes only what its rule lists among its writes. R216 leaves
`RC_VALUE` out of the list of `RC_ENCODE`. (What the list of a plane command is under a bad mode flag, and that `RC_VALUE`
also stays when `RC_ENCODE` or `PLANE_COMPRESS` faults, is the model's choice: notes/assumptions/7.md.) -/
def Obligations.NoCommandWritesBeyondItsList : Prop :=
  ∀ (s t : State) (i : Instr), i ≠ .softReset → s.error = false → exec i s = .next t →
    (i ∉ [.freqCount, .freqCountFloor, .freqNorm, .planeCompress, .planeDecompress] → t.freq = s.freq) ∧
    (i ∈ [.nop, .freqCount, .freqCountFloor, .freqNorm, .hufBuild, .hufEncode, .hufDecode] →
      t.cum = s.cum ∧ t.symtab = s.symtab ∧ s.keepsWorking t) ∧
    (i ∉ [.hufBuild, .hufEncode, .hufDecode, .planeCompress, .planeDecompress] → s.keepsHuffman t) ∧
    (i ∈ [.rcBuild, .rcEncode, .rcDecode] → t.symtab = s.symtab ∧ t.ransX = s.ransX) ∧
    (i ∈ [.ransBuild, .ransEncode, .ransDecode] → s.keepsRcBounds t) ∧
    (i ∉ [.rcDecode, .planeDecompress] → t.rcValue = s.rcValue) ∧
    (i ∈ [.rcBuild, .ransBuild] → s.keepsWorking t) ∧
    (i ∈ [.nop, .freqCount, .freqCountFloor, .freqNorm, .hufBuild, .rcBuild, .ransBuild] → s.keepsMemory t) ∧
    ((i = .planeCompress ∨ i = .planeDecompress) →
      (s.backend ≠ 0 → s.keepsHuffman t) ∧ ((s.backend = 0 ∨ 2 < s.backend.toNat) → t.cum = s.cum) ∧
      (s.backend ≠ 2 → t.symtab = s.symtab ∧ t.ransX = s.ransX) ∧
      (s.backend ≠ 1 → s.keepsRcBounds t ∧ t.rcValue = s.rcValue)) ∧
    t.backend = s.backend ∧ t.inLen = s.inLen ∧ t.expectedCount = s.expectedCount ∧ s.keepsOutsideOut t ∧
    t.host = s.host ∧ t.reply = s.reply

/-! ## Invariants and reset -/

/-- The invariant: the memory keeps its canonical form, the flags and the fault record agree, and every byte of the result
is stored. Every step keeps it, from every state that has it. (The form of the memory is the model's own:
notes/assumptions/5.md.) -/
def Obligations.EveryStepKeepsTheStateSound : Prop :=
  ∀ s t : State, s.Sound → step s = .next t → t.Sound

/-- The state after reset is sound. -/
def Obligations.ResetIsSound : Prop := State.reset.Sound

/-- R52: the reset values. Of the tables and buffers the rule leaves unspecified nothing is said. -/
def Obligations.ResetValuesAreTheTables : Prop :=
  let r := State.reset
  r.statusWord = 0 ∧ r.errWord = 0 ∧ r.errInfo = 0 ∧ r.backend = 0 ∧ r.inLen = 0 ∧ r.expectedCount = 0 ∧
  r.outLen = 0 ∧ r.inPos = 0 ∧ r.outPos = 0 ∧ r.rcLow = 0 ∧ r.rcPending = 0 ∧ r.rcValue = 0 ∧
  r.rcHigh = 0xFFFFFFFF ∧ r.ransX = 0x100000000 ∧ ∀ b, r.freq.at b = 0

/-- R285, R380: in every state, `SOFT_RESET` runs and leaves what `Reset` leaves: `STATUS` 0, no fault record, every
register at its reset value, `FREQ` all zero. The `Reset` transaction leaves the same state. (R381 leaves the other tables
unspecified after each reset; that the two resets leave the same unspecified values in them, those of the next key, is the
model's choice: notes/assumptions/3.md and notes/assumptions/4.md.) -/
def Obligations.SoftResetRestoresTheResetValues : Prop :=
  ∀ s : State, ∃ t, exec .softReset s = .next t ∧
    t.statusWord = 0 ∧ t.errWord = 0 ∧ t.errInfo = 0 ∧ t.backend = 0 ∧ t.inLen = 0 ∧ t.expectedCount = 0 ∧
    t.outLen = 0 ∧ t.inPos = 0 ∧ t.outPos = 0 ∧ t.rcLow = 0 ∧ t.rcPending = 0 ∧ t.rcValue = 0 ∧
    t.rcHigh = 0xFFFFFFFF ∧ t.ransX = 0x100000000 ∧ (∀ b, t.freq.at b = 0) ∧ t.host = s.host ∧ t.reply = s.reply ∧
    s.transact .reset = .next { t with reply := .empty }

/-- R393, R50: a command is a function of the state it reads. Two states that agree on `FREQ`, the bytes of `IN` below
`IN_LEN`, `IN_LEN`, `EXPECTED_COUNT`, `BACKEND` get the same flags and the same output and, on completion, the same
cursors, the same `FREQ`, and the same working registers and derived tables as far as the command writes them, whatever
their tables, working registers, and `OUT` held before. (`LUT` is compared where the tree has two leaves: below that R178
leaves it unspecified.) -/
def Obligations.ACommandDependsOnlyOnWhatItReads : Prop :=
  ∀ (s s' t t' : State) (i : Instr), i ≠ .softReset → s.error = false → s'.error = false →
    s.freq = s'.freq → s.inLen = s'.inLen → s.expectedCount = s'.expectedCount → s.backend = s'.backend →
    (∀ k < s.inLen.toNat, s.inByte k = s'.inByte k) →
    exec i s = .next t → exec i s' = .next t' →
      t.done = t'.done ∧ t.error = t'.error ∧ (t.error = true → t.errCode = t'.errCode ∧ t.errInfo = t'.errInfo) ∧
      t.outLen = t'.outLen ∧ t.result = t'.result ∧
      (t.done = true →
        t.inPos = t'.inPos ∧ t.outPos = t'.outPos ∧ t.freq = t'.freq ∧
        ((i ∈ [.hufBuild, .hufEncode, .hufDecode] ∨ s.backend = 0 ∧ i ∈ [.planeCompress, .planeDecompress]) →
          t.hlen = t'.hlen ∧ t.hcode = t'.hcode ∧ t.arena = t'.arena ∧ (2 ≤ t.freq.occurring.length → t.lut = t'.lut)) ∧
        ((i ∈ [.rcBuild, .rcEncode, .rcDecode, .ransBuild, .ransEncode, .ransDecode] ∨
            (s.backend = 1 ∨ s.backend = 2) ∧ i ∈ [.planeCompress, .planeDecompress]) → t.cum = t'.cum) ∧
        ((i ∈ [.rcEncode, .rcDecode] ∨ s.backend = 1 ∧ i ∈ [.planeCompress, .planeDecompress]) →
          t.rcLow = t'.rcLow ∧ t.rcHigh = t'.rcHigh ∧ t.rcPending = t'.rcPending) ∧
        ((i = .rcDecode ∨ s.backend = 1 ∧ i = .planeDecompress) → t.rcValue = t'.rcValue) ∧
        ((i ∈ [.ransBuild, .ransEncode, .ransDecode] ∨ s.backend = 2 ∧ i ∈ [.planeCompress, .planeDecompress]) →
          t.symtab = t'.symtab) ∧
        ((i ∈ [.ransEncode, .ransDecode] ∨ s.backend = 2 ∧ i ∈ [.planeCompress, .planeDecompress]) →
          t.ransX = t'.ransX))

/-! ## NOP and the frequency model -/

/-- R284: `NOP`, the all-zero word, sets `DONE`, makes the cursors 0 and leaves everything else; it is ignored while `ERROR`
is 1. -/
def Obligations.NopClearsTheCursors : Prop :=
  decodeWord 0x00000000 = .ok .nop ∧
  ∀ s : State, (s.error = true → exec .nop s = .next s) ∧
    (s.error = false → ∃ t, exec .nop s = .next t ∧ t.completed ∧ t.statusWord = 1 ∧ t.cursorsAre 0 0 0 ∧
      s.keepsOperands t ∧ t.freq = s.freq ∧ t.cum = s.cum ∧ s.keepsHuffman t ∧ t.symtab = s.symtab ∧
      s.keepsWorking t ∧ s.keepsMemory t)

/-- R140, R142, R143: the counting commands. `FREQ[b]` becomes the number of offsets below `IN_LEN` at which `IN` holds
`b`, plus 1 for `FREQ_COUNT_FLOOR`; the old content is discarded; nothing else changes but the cursors. -/
def Obligations.CountingCountsEachSymbol : Prop :=
  ∀ s : State, s.error = false → s.inLen.toNat ≤ Config.inCap →
    ∀ p ∈ [(Instr.freqCount, 0), (Instr.freqCountFloor, 1)], ∃ t, exec p.1 s = .next t ∧ t.completed ∧
      (∀ b, t.freq.at b = p.2 + ((List.range s.inLen.toNat).filter fun k => s.inByte k = b).length) ∧
      t.freq.total = s.inLen.toNat + 256 * p.2 ∧
      t.cursorsAre 0 s.inLen.toNat 0 ∧ s.keepsOperands t ∧ t.cum = s.cum ∧ s.keepsHuffman t ∧ t.symtab = s.symtab ∧
      s.keepsWorking t ∧ s.keepsMemory t

/-- R31: each command that reads `IN` raises `CapacityError(0)` when `IN_LEN` exceeds `IN_CAP`, and each decode command
when `EXPECTED_COUNT` exceeds `OUT_CAP` (R32). -/
def Obligations.LengthsBeyondCapacityRaiseCapacityError : Prop :=
  (∀ s : State, s.error = false → Config.inCap < s.inLen.toNat →
    ∀ i ∈ [Instr.freqCount, .freqCountFloor, .hufEncode, .hufDecode, .rcEncode, .rcDecode, .ransEncode, .ransDecode,
      .planeCompress, .planeDecompress], ∃ t, exec i s = .next t ∧ t.faulted .capacity 0) ∧
  (∀ s : State, s.error = false → s.inLen.toNat ≤ Config.inCap → Config.outCap < s.expectedCount.toNat →
    ∀ i ∈ [Instr.hufDecode, .rcDecode, .ransDecode, .planeDecompress], ∃ t, exec i s = .next t ∧ t.faulted .capacity 0)

/-- R145, R147: `FREQ_NORM` always completes. The entries sum to exactly 4096, every symbol of frequency above 0 keeps at
least 1, a symbol of frequency 0 stays at 0, the empty table gives the whole budget to symbol 0, and a table whose sum is
4096 is left unchanged. -/
def Obligations.NormalisingSumsTo4096AndKeepsSymbols : Prop :=
  ∀ s : State, s.error = false → ∃ t, exec .freqNorm s = .next t ∧ t.completed ∧ t.freq.total = 4096 ∧
    (∀ b, s.freq.at b ≠ 0 → 1 ≤ t.freq.at b) ∧
    (s.freq.total ≠ 0 → ∀ b, s.freq.at b = 0 → t.freq.at b = 0) ∧
    (s.freq.total = 0 → t.freq.at 0 = 4096) ∧ (s.freq.total = 4096 → t.freq = s.freq) ∧
    t.cursorsAre 0 0 0 ∧ s.keepsOperands t ∧ t.cum = s.cum ∧ s.keepsHuffman t ∧ t.symtab = s.symtab ∧
    s.keepsWorking t ∧ s.keepsMemory t

/-- R145: where the residue of the rescale goes. `base b` is the rescaled entry. When the entries fall short of 4096, the
missing units go one each to the symbols of largest original frequency, ties by symbol ascending. When they exceed 4096,
the excess is taken in passes over the symbols by original frequency ascending, ties by symbol ascending, one unit from
every entry above 1: `m` whole passes, and the first `r` entries still above 1 in one more. The entries sum to 4096, so
`m` and `r` are what the excess asks for. -/
def Obligations.NormalisingPlacesTheResidue : Prop :=
  ∀ (s t : State) (base : Byte → Nat), s.error = false → s.freq.total ≠ 0 → exec .freqNorm s = .next t →
    (∀ b, base b = if s.freq.at b = 0 then 0 else max 1 (s.freq.at b * 4096 / s.freq.total)) →
    t.freq.total = 4096 ∧
    ((allBytes.map base).sum < 4096 →
      ∀ b, t.freq.at b = base b + if s.freq.at b ≠ 0 ∧
        (allBytes.filter fun c => s.freq.at c ≠ 0 ∧
          (s.freq.at b < s.freq.at c ∨ (s.freq.at c = s.freq.at b ∧ c.toNat < b.toNat))).length <
            4096 - (allBytes.map base).sum then 1 else 0) ∧
    ((allBytes.map base).sum = 4096 → ∀ b, t.freq.at b = base b) ∧
    (4096 < (allBytes.map base).sum →
      ∃ m r : Nat, ∀ b, t.freq.at b =
        if base b ≤ m + 1 then min 1 (base b)
        else base b - m - if (allBytes.filter fun c => m + 1 < base c ∧
          (s.freq.at c < s.freq.at b ∨ (s.freq.at c = s.freq.at b ∧ c.toNat < b.toNat))).length < r then 1 else 0)

/-! ## Huffman -/

/-- R165, R167, R168, R41, R178: `HUF_BUILD` always completes. The tables hold the code of each symbol, zeros after it in
its field; a symbol has a code exactly when its frequency is above 0, and its field is zero otherwise; no code is a prefix
of another symbol's; the only symbol of a table has the code `0`. With two symbols or more `LUT` has an entry for each of
the 4096 indices: the symbol whose code the index starts with and the code's length, or else the internal node that all
twelve bits lead to. -/
def Obligations.HufBuildMakesAPrefixFreeCode : Prop :=
  ∀ s : State, s.error = false → ∃ t, exec .hufBuild s = .next t ∧ t.completed ∧
    (∀ b, t.tableCode b = codeOf s.freq b) ∧
    (∀ (b : Byte) (j : Nat), (t.tableCode b).length ≤ j → j < 256 → codeBit (t.hcode[b.toNat]'b.isLt) j = false) ∧
    (∀ b, t.tableCode b = [] ↔ s.freq.at b = 0) ∧
    (∀ b c, b ≠ c → s.freq.at b ≠ 0 → s.freq.at c ≠ 0 → ¬ t.tableCode b <+: t.tableCode c) ∧
    (∀ b, s.freq.occurring = [b] → t.tableCode b = [false]) ∧
    (2 ≤ s.freq.occurring.length → t.lut.length = 4096 ∧ ∀ w < 4096,
      (∀ b, s.freq.at b ≠ 0 → codeOf s.freq b <+: indexBits 12 w →
        t.lut[w]? = some ⟨b.toNat, (codeOf s.freq b).length⟩) ∧
      ((∀ b, s.freq.at b ≠ 0 → ¬ codeOf s.freq b <+: indexBits 12 w) →
        ∃ root n g l r, t.arena = some root ∧ root.descend (indexBits 12 w) = some (.inner n g l r) ∧
          t.lut[w]? = some ⟨n, 12⟩)) ∧
    t.arena = hufTree s.freq ∧ t.cursorsAre 0 0 0 ∧ s.keepsOperands t ∧ t.freq = s.freq ∧ t.cum = s.cum ∧
    t.symtab = s.symtab ∧ s.keepsWorking t ∧ s.keepsMemory t

/-- R167: with two or more symbols the code is complete (the Kraft sum is exactly 1), and no code exceeds 255 bits
(R166). -/
def Obligations.TheHuffmanCodeIsComplete : Prop :=
  ∀ F : FreqTable, 2 ≤ F.occurring.length →
    (∀ b, (codeOf F b).length ≤ 255) ∧
    (F.occurring.map fun b => 2 ^ (255 - (codeOf F b).length)).sum = 2 ^ 255

/-- R161 to R163: every node of the tree obeys the merge rule. There is a leaf for each symbol of frequency above 0, with
that weight, and for no other; node numbers are all different, an internal node's 256 or more; an internal node's children
are numbered before it, its weight is their sum, and `LEFT` comes before `RIGHT` in the key order. Its children were the
two of least key: every other node that was live when it was made (made before it, and merged only later) comes after
`RIGHT`. The root carries the whole weight, and with `k` symbols it is numbered `254 + k` (R166). -/
def Obligations.EveryTreeNodeFollowsTheMergeRule : Prop :=
  ∀ (F : FreqTable) (t : HufNode), hufTree F = some t →
    t.mergeOrdered ∧
    (∀ (b : Byte) (w : BitVec 64), HufNode.leaf b w ∈ t.nodes ↔ F.at b ≠ 0 ∧ w.toNat = F.at b) ∧
    (t.nodes.map HufNode.number).Nodup ∧
    (∀ (n : Nat) (w : BitVec 64) (l r : HufNode), HufNode.inner n w l r ∈ t.nodes → 256 ≤ n ∧
      ∀ p x : HufNode, (p, x) ∈ t.edges → x.number < n → n < p.number → r.before x = true) ∧
    t.weight.toNat = F.total ∧ (2 ≤ F.occurring.length → t.number = 254 + F.occurring.length)

/-- R169, R171: `HUF_ENCODE` completes when every symbol of the plane has a code and the codes fit `OUT`. The bits of the
result are the codes of the plane's symbols in order, then zeros to the end of the last byte. Only `OUT` is stored to:
every address outside it reads as before (`OUT` beyond `OUT_LEN` becomes unspecified, R390). -/
def Obligations.HufEncodeConcatenatesTheCodes : Prop :=
  ∀ s : State, s.error = false → s.inLen.toNat ≤ Config.inCap → (∀ b ∈ s.input, s.freq.at b ≠ 0) →
    (s.input.flatMap (codeOf s.freq)).length ≤ 8 * Config.outCap →
    ∃ t, exec .hufEncode s = .next t ∧ t.completed ∧
      (∃ k < 8, streamBits t.result = s.input.flatMap (codeOf s.freq) ++ List.replicate k false) ∧
      t.cursorsAre (((s.input.flatMap (codeOf s.freq)).length + 7) / 8) s.inLen.toNat
        (s.input.flatMap (codeOf s.freq)).length ∧
      (∀ b, t.tableCode b = codeOf s.freq b) ∧
      s.keepsOperands t ∧ t.freq = s.freq ∧ t.cum = s.cum ∧ t.symtab = s.symtab ∧ s.keepsWorking t ∧
      s.keepsOutsideOut t

/-- R170, R343, R353: where `HUF_ENCODE` stops. It raises `InternalConsistencyError(i)` at the first symbol without a code,
when the codes before it fit `OUT`, and `CapacityError(i)` at the first symbol whose code passes the end of `OUT`. -/
def Obligations.HufEncodeFaultsAtTheSymbolItCannotWrite : Prop :=
  (∀ (s : State) (pre rest : List Byte) (b : Byte), s.error = false → s.inLen.toNat ≤ Config.inCap →
    s.input = pre ++ b :: rest → (∀ c ∈ pre, s.freq.at c ≠ 0) → s.freq.at b = 0 →
    (pre.flatMap (codeOf s.freq)).length ≤ 8 * Config.outCap →
    ∃ t, exec .hufEncode s = .next t ∧ t.faulted .internalConsistency (BitVec.ofNat 32 pre.length)) ∧
  (∀ (s : State) (i : Nat), s.error = false → s.inLen.toNat ≤ Config.inCap →
    overflowsAt .huffman s.freq Config.outCap i s.input →
    ∃ t, exec .hufEncode s = .next t ∧ t.faulted .capacity (BitVec.ofNat 32 i))

/-- R172, R174, R175: `HUF_DECODE` completes when the table agrees with the count and the length and, with two symbols or
more in the table, the stream starts with the codes of `EXPECTED_COUNT` symbols. The result is those symbols; the bits after
them are ignored (R176). With one symbol the result is that symbol, `EXPECTED_COUNT` times, whatever the stream holds. The
tables are those that `HUF_BUILD` makes. `IN_POS` is the bits consumed, and 0 with fewer than two symbols in the table.
(R35 and R175 say 0, R181 says otherwise for a plane of one symbol; following the former is the model's choice:
notes/assumptions/15.md.) Every address outside `OUT` reads as before. -/
def Obligations.HufDecodeReadsTheCodes : Prop :=
  ∀ (s : State) (B : List Byte) (rest : Bits), s.error = false → s.inLen.toNat ≤ Config.inCap →
    s.expectedCount.toNat ≤ Config.outCap → s.freq.total = s.expectedCount.toNat →
    bitsNeeded s.freq ≤ 8 * s.inLen.toNat → B.length = s.expectedCount.toNat → (∀ b ∈ B, s.freq.at b ≠ 0) →
    (2 ≤ s.freq.occurring.length → streamBits s.input = B.flatMap (codeOf s.freq) ++ rest) →
    ∃ t u, exec .hufDecode s = .next t ∧ t.completed ∧ t.result = B ∧
      t.cursorsAre B.length (if s.freq.occurring.length < 2 then 0 else (B.flatMap (codeOf s.freq)).length) B.length ∧
      (∀ b, t.tableCode b = codeOf s.freq b) ∧ exec .hufBuild s = .next u ∧ t.hlen = u.hlen ∧ t.hcode = u.hcode ∧
      t.arena = u.arena ∧ (2 ≤ s.freq.occurring.length → t.lut = u.lut) ∧
      s.keepsOperands t ∧ t.freq = s.freq ∧ t.cum = s.cum ∧ t.symtab = s.symtab ∧ s.keepsWorking t ∧
      s.keepsOutsideOut t

/-- R173: the checks of `HUF_DECODE` in their order: a table whose sum is not the count, or that needs more bits than the
stream holds, raises `FormatError(0)`. -/
def Obligations.HufDecodeChecksTheTable : Prop :=
  ∀ s : State, s.error = false → s.inLen.toNat ≤ Config.inCap → s.expectedCount.toNat ≤ Config.outCap →
    (s.freq.total ≠ s.expectedCount.toNat ∨ 8 * s.inLen.toNat < bitsNeeded s.freq) →
    ∃ t, exec .hufDecode s = .next t ∧ t.faulted .format 0

/-- R175, R351 a: when the stream holds the codes of `i` symbols and then runs out inside a code, with more symbols
expected, `HUF_DECODE` raises `DecodeConsistencyError(i)`. -/
def Obligations.HufDecodeReportsAnExhaustedStream : Prop :=
  ∀ (s : State) (B : List Byte) (b : Byte) (rest : Bits), s.error = false → s.inLen.toNat ≤ Config.inCap →
    s.expectedCount.toNat ≤ Config.outCap → s.freq.total = s.expectedCount.toNat →
    bitsNeeded s.freq ≤ 8 * s.inLen.toNat → 2 ≤ s.freq.occurring.length → B.length < s.expectedCount.toNat →
    (∀ c ∈ B, s.freq.at c ≠ 0) → s.freq.at b ≠ 0 → rest <+: codeOf s.freq b → rest ≠ codeOf s.freq b →
    streamBits s.input = B.flatMap (codeOf s.freq) ++ rest →
    ∃ t, exec .hufDecode s = .next t ∧ t.faulted .decodeConsistency (BitVec.ofNat 32 B.length)

/-- R181: what `HUF_ENCODE` makes of a plane with the plane's own counts, `HUF_DECODE` turns back into the plane, also
with any bytes after the stream; with two or more symbols it consumes as many bits as were written. -/
def Obligations.HuffmanRoundTrip : Prop :=
  ∀ s t u : State, s.error = false → s.inLen.toNat ≤ Config.inCap → s.inLen.toNat ≤ Config.outCap →
    (∀ b, s.freq.at b = s.input.count b) → exec .hufEncode s = .next t → t.error = false →
    u.error = false → u.freq = s.freq → u.expectedCount = s.inLen → u.inLen.toNat ≤ Config.inCap →
    t.result <+: u.input →
    ∃ v, exec .hufDecode u = .next v ∧ v.completed ∧ v.result = s.input ∧
      (2 ≤ s.freq.occurring.length → v.inPos = t.outPos)

/-- R180: over the lookup table that `HUF_BUILD` makes of a table with two or more symbols, the lookup-table loop of R179
and the tree walk of R175 give the same symbols, leave the same bits, and fault with the same index. -/
def Obligations.LookupDecodingEqualsTheTreeWalk : Prop :=
  ∀ (F : FreqTable) (t : HufNode) (d n i : Nat) (bs : Bits), 2 ≤ F.occurring.length → hufTree F = some t →
    lutDecodeLoop t (lutTable d (some t)) n i bs = hufDecodeLoop t n i bs

/-! ## Range coder -/

/-- R202: the table checks that all three commands of the range coder make, after the checks of the lengths that a command
reads (R347), and what `CUM` is when they pass. -/
def Obligations.RangeCoderChecksItsTable : Prop :=
  (∀ s : State, s.error = false → ((∃ b, s.freq.at b = 0) ∨ 0xFFFFFFFF < s.freq.total) →
    ∀ i ∈ [Instr.rcBuild, .rcEncode, .rcDecode], (i ≠ .rcBuild → s.inLen.toNat ≤ Config.inCap) →
      (i = .rcDecode → s.expectedCount.toNat ≤ Config.outCap) → ∃ t, exec i s = .next t ∧ t.faulted .format 0) ∧
  (∀ s t : State, s.error = false → rcAccepts s.freq → exec .rcBuild s = .next t →
    (∀ j k, j < k → k ≤ 256 → t.cum.at j < t.cum.at k) ∧ 256 ≤ t.cum.at 256 ∧ t.cum.at 256 ≤ 0xFFFFFFFF ∧
    t.cum.at 256 = s.freq.total)

/-- R201, R203: `RC_BUILD` completes on every table that passes the checks, and `CUM` is the table of prefix sums. -/
def Obligations.RcBuildFormsThePrefixSums : Prop :=
  ∀ s : State, s.error = false → rcAccepts s.freq → ∃ t, exec .rcBuild s = .next t ∧ t.completed ∧
    t.cum.at 0 = 0 ∧ (∀ b : Byte, t.cum.at (b.toNat + 1) = t.cum.at b.toNat + s.freq.at b) ∧
    t.cursorsAre 0 0 0 ∧ s.keepsOperands t ∧ t.freq = s.freq ∧ s.keepsHuffman t ∧ t.symtab = s.symtab ∧
    s.keepsWorking t ∧ s.keepsMemory t

/-- R213, R214, R225: after a narrowing (`low < high`, both 32-bit) 31 iterations are enough: the decoder's loop ends where
no region applies, with `low < HALF <= high` and an interval of at least 2^30 + 2 values, after at most 31 shifts, and it
keeps `low <= value <= high`, whatever the stream. -/
def Obligations.RenormalisationEndsAndKeepsValueInside : Prop :=
  ∀ d : RcDecoder, d.low < d.high → d.high ≤ 0xFFFFFFFF → d.low ≤ d.value → d.value ≤ d.high →
    let e := rcRenormDecode rcFuel d
    rcRegion e.low e.high = none ∧ e.low < 0x80000000 ∧ 0x80000000 ≤ e.high ∧ e.high ≤ 0xFFFFFFFF ∧
    0x40000002 ≤ e.high - e.low + 1 ∧ e.low ≤ e.value ∧ e.value ≤ e.high ∧ d.pos ≤ e.pos ∧ e.pos ≤ d.pos + 31

/-- R224: for a value inside the interval, the decoder's search finds the one symbol whose interval of the cumulative table
holds the scaled value, and narrowing by that symbol keeps the value inside (R225). -/
def Obligations.TheSearchFindsTheSymbolOfTheTarget : Prop :=
  ∀ (F : FreqTable) (d : RcDecoder), rcAccepts F → d.low ≤ d.value → d.value ≤ d.high →
    let C := F.cumulative
    let b := rcSymbol C d
    C.at b.toNat ≤ rcTarget C d ∧ rcTarget C d < C.at (b.toNat + 1) ∧
    ∀ low high, rcNarrow C b d.low d.high = some (low, high) → low ≤ d.value ∧ d.value ≤ high ∧ low < high

/-- R207, R216, R217, R219, R220: how `RC_ENCODE` ends with a table that passes the checks. Where every narrowing leaves a
width, which a total of at most 2^29 ensures, the symbols take at most 31 bits each, pending ones included. If they and the
flush then fit `OUT` the command completes: the stream is the bits of the symbols and of the flush, then zeros to the end of
the last byte; `RC_PENDING` is drained; the final interval straddles `HALF`; an empty plane gives the byte 0x40; `RC_VALUE`
is not touched, and every address outside `OUT` reads as before. If they do not fit, it raises `CapacityError`, with the
index of the symbol or, in the flush, `IN_LEN` (R343, R353). A narrowing at symbol `i` that leaves no width raises
`InternalConsistencyError(i)` (R205, R352). -/
def Obligations.RcEncodeCompletesOrNamesTheSymbol : Prop :=
  ∀ s : State, s.error = false → s.inLen.toNat ≤ Config.inCap → rcAccepts s.freq →
    (s.freq.total ≤ 2 ^ 29 → (rcBits s.freq.cumulative s.input rcStart).isSome = true) ∧
    (∀ (w : Bits) (c : RcEncoder), rcBits s.freq.cumulative s.input rcStart = some (w, c) →
      w.length + c.pending ≤ 31 * s.inLen.toNat ∧
      (w.length + c.pending + 2 ≤ 8 * Config.outCap →
        ∃ t, exec .rcEncode s = .next t ∧ t.completed ∧
          (∃ k < 8, streamBits t.result = w ++ rcFlush c ++ List.replicate k false) ∧
          t.cursorsAre ((w.length + c.pending + 9) / 8) s.inLen.toNat (w.length + c.pending + 2) ∧
          t.rcLow.toNat = c.low ∧ t.rcHigh.toNat = c.high ∧ t.rcPending = 0 ∧
          t.rcLow.toNat < 0x80000000 ∧ 0x80000000 ≤ t.rcHigh.toNat ∧
          (s.inLen = 0 → t.result = [0x40] ∧ t.outPos = 2 ∧ t.rcLow = 0 ∧ t.rcHigh = 0xFFFFFFFF) ∧
          t.cum = s.freq.cumulative ∧ s.keepsOperands t ∧ t.freq = s.freq ∧ s.keepsHuffman t ∧ t.symtab = s.symtab ∧
          t.rcValue = s.rcValue ∧ t.ransX = s.ransX ∧ s.keepsOutsideOut t)) ∧
    (∀ i : Nat, overflowsAt .range s.freq Config.outCap i s.input →
      ∃ t, exec .rcEncode s = .next t ∧ t.faulted .capacity (BitVec.ofNat 32 i)) ∧
    (∀ (pre post : List Byte) (w : Bits) (b : Byte) (c : RcEncoder), s.input = pre ++ b :: post →
      rcBits s.freq.cumulative pre rcStart = some (w, c) → w.length ≤ 8 * Config.outCap →
      rcNarrow s.freq.cumulative b c.low c.high = none →
      ∃ t, exec .rcEncode s = .next t ∧ t.faulted .internalConsistency (BitVec.ofNat 32 pre.length))

/-- R207, R222, R223, R226: `RC_DECODE` completes on EVERY stream with a table of non-zero entries and total at most
2^29, and with a greater total wherever every narrowing leaves a width: it delivers `EXPECTED_COUNT` symbols, reads zeros
past the end, and reports 32 bits and at most 31 a symbol. With a count of 0 it preloads `RC_VALUE` and nothing else. Every
address outside `OUT` reads as before. A narrowing at symbol `i` that leaves no width raises `InternalConsistencyError(i)`
(R205, R352). -/
def Obligations.RcDecodeCompletesOnEveryStream : Prop :=
  ∀ s : State, s.error = false → s.inLen.toNat ≤ Config.inCap → s.expectedCount.toNat ≤ Config.outCap →
    rcAccepts s.freq →
    ((s.freq.total ≤ 2 ^ 29 ∨ ∃ q, rcDecodeLoop s.freq.cumulative s.expectedCount.toNat 0
        (rcDecoderStart (streamBits s.input)) = .ok q) →
      ∃ t, exec .rcDecode s = .next t ∧ t.completed ∧ t.outLen = s.expectedCount ∧ t.outPos = s.expectedCount ∧
        32 ≤ t.inPos.toNat ∧ t.inPos.toNat ≤ 32 + 31 * s.expectedCount.toNat ∧ t.rcPending = 0 ∧
        t.rcLow.toNat ≤ t.rcValue.toNat ∧ t.rcValue.toNat ≤ t.rcHigh.toNat ∧
        (s.expectedCount = 0 → t.inPos = 32 ∧ t.rcLow = 0 ∧ t.rcHigh = 0xFFFFFFFF ∧
          ∀ k < 32, t.rcValue.getLsbD (31 - k) = (streamBits s.input).getD k false) ∧
        t.cum = s.freq.cumulative ∧ s.keepsOperands t ∧ t.freq = s.freq ∧ s.keepsHuffman t ∧ t.symtab = s.symtab ∧
        t.ransX = s.ransX ∧ s.keepsOutsideOut t) ∧
    (∀ (k : Nat) (out : List Byte) (d : RcDecoder), k < s.expectedCount.toNat →
      rcDecodeLoop s.freq.cumulative k 0 (rcDecoderStart (streamBits s.input)) = .ok (out, d) →
      rcNarrow s.freq.cumulative (rcSymbol s.freq.cumulative d) d.low d.high = none →
      ∃ t, exec .rcDecode s = .next t ∧ t.faulted .internalConsistency (BitVec.ofNat 32 k))

/-- R227, R226: what `RC_ENCODE` makes of a plane, `RC_DECODE` turns back into it with the same table, also with any bytes
after the stream; the decoder ends with the encoder's interval, having read 30 bits more than were written. -/
def Obligations.RangeCoderRoundTrip : Prop :=
  ∀ s t u : State, s.error = false → s.inLen.toNat ≤ Config.inCap → s.inLen.toNat ≤ Config.outCap →
    exec .rcEncode s = .next t → t.error = false →
    u.error = false → u.freq = s.freq → u.expectedCount = s.inLen → u.inLen.toNat ≤ Config.inCap →
    t.result <+: u.input →
    ∃ v, exec .rcDecode u = .next v ∧ v.completed ∧ v.result = s.input ∧ v.rcLow = t.rcLow ∧ v.rcHigh = t.rcHigh ∧
      v.inPos.toNat = t.outPos.toNat + 30

/-! ## rANS -/

/-- R242: the table check that all three commands of the rANS unit make, after the checks of the lengths that a command
reads (R347). `FREQ` keeps the table: nothing is normalised. -/
def Obligations.RansChecksItsTable : Prop :=
  ∀ s : State, s.error = false → s.freq.total ≠ 4096 →
    ∀ i ∈ [Instr.ransBuild, .ransEncode, .ransDecode], (i ≠ .ransBuild → s.inLen.toNat ≤ Config.inCap) →
      (i = .ransDecode → s.expectedCount.toNat ≤ Config.outCap) →
      ∃ t, exec i s = .next t ∧ t.faulted .format 0 ∧ t.freq = s.freq

/-- R241, R243: `RANS_BUILD` completes on every table of sum 4096: `CUM` is the prefix sums, and each slot belongs to the
symbol whose cumulative interval holds it. -/
def Obligations.RansBuildSpreadsTheSymbols : Prop :=
  ∀ s : State, s.error = false → s.freq.total = 4096 → ∃ t, exec .ransBuild s = .next t ∧ t.completed ∧
    t.cum.at 0 = 0 ∧ (∀ b : Byte, t.cum.at (b.toNat + 1) = t.cum.at b.toNat + s.freq.at b) ∧ t.cum.at 256 = 4096 ∧
    (∀ (k : Fin 4096) (b : Byte), t.cum.at b.toNat ≤ k.val → k.val < t.cum.at (b.toNat + 1) → t.symtab[k] = b) ∧
    t.cursorsAre 0 0 0 ∧ s.keepsOperands t ∧ t.freq = s.freq ∧ s.keepsHuffman t ∧ s.keepsWorking t ∧ s.keepsMemory t

/-- R249, R254: the decoder's step undoes the encoder's. For a state below the threshold, the update lands in
`[2^32, 2^40)`, the slot of the new state finds the symbol, and the decoder's update gives the old state back. -/
def Obligations.TheRansDecoderStepUndoesTheEncoderStep : Prop :=
  ∀ (F : FreqTable) (b : Byte) (x : Nat), F.total = 4096 → F.at b ≠ 0 → F.at b * 2 ^ 20 ≤ x → x < F.at b * 2 ^ 28 →
    let c := CumTable.at F.cumulative b.toNat
    let y := ransUpdate (F.at b) c x
    2 ^ 32 ≤ y ∧ y < 2 ^ 40 ∧ ransSymbol (ransSymtab F) y = b ∧ ransBack (F.at b) c y = x

/-- R244, R246, R249, R250: with a table of sum 4096 in which every symbol of the plane has a frequency, the symbols take
at most two bytes each, and `RANS_ENCODE` completes when they and the five of the flush fit `OUT`. `RANS_X` is the state
before the flush, in `[2^32, 2^40)`; its five bytes start the stream, most significant first, and the bytes of the symbols
follow, the one emitted last first. Every address outside `OUT` reads as before. -/
def Obligations.RansEncodeCompletesWithinItsBound : Prop :=
  ∀ s : State, s.error = false → s.inLen.toNat ≤ Config.inCap → s.freq.total = 4096 →
    (∀ b ∈ s.input, s.freq.at b ≠ 0) →
    let q := ransPlane s.freq s.input
    q.2.length ≤ 2 * s.inLen.toNat ∧
    (q.2.length + 5 ≤ Config.outCap →
      ∃ t, exec .ransEncode s = .next t ∧ t.completed ∧ t.cursorsAre (q.2.length + 5) s.inLen.toNat (q.2.length + 5) ∧
        t.ransX.toNat = q.1 ∧ 2 ^ 32 ≤ t.ransX.toNat ∧ t.ransX.toNat < 2 ^ 40 ∧
        (∀ k < 5, (t.outByte k).toNat = t.ransX.toNat / 256 ^ (4 - k) % 256) ∧ t.result.drop 5 = q.2.reverse ∧
        (s.inLen = 0 → t.result = [0x01, 0x00, 0x00, 0x00, 0x00]) ∧
        t.cum = s.freq.cumulative ∧ t.symtab = ransSymtab s.freq ∧ s.keepsOperands t ∧ t.freq = s.freq ∧
        s.keepsHuffman t ∧ s.keepsRcBounds t ∧ t.rcValue = s.rcValue ∧ s.keepsOutsideOut t)

/-- R248, R343, R353: where `RANS_ENCODE` stops. It walks the plane backwards and raises `InternalConsistencyError(i)` at
the first symbol it meets that has frequency 0, the one of largest index, when the bytes of the symbols after it fit `OUT`;
and `CapacityError(i)` at the first symbol it meets whose bytes pass the end of `OUT`, in the flush with `IN_LEN`. -/
def Obligations.RansEncodeFaultsAtTheSymbolItCannotWrite : Prop :=
  (∀ (s : State) (pre post : List Byte) (b : Byte), s.error = false → s.inLen.toNat ≤ Config.inCap →
    s.freq.total = 4096 → s.input = pre ++ b :: post → (∀ c ∈ post, s.freq.at c ≠ 0) → s.freq.at b = 0 →
    (ransPlane s.freq post).2.length ≤ Config.outCap →
    ∃ t, exec .ransEncode s = .next t ∧ t.faulted .internalConsistency (BitVec.ofNat 32 pre.length)) ∧
  (∀ (s : State) (i : Nat), s.error = false → s.inLen.toNat ≤ Config.inCap → s.freq.total = 4096 →
    overflowsAt .rans s.freq Config.outCap i s.input →
    ∃ t, exec .ransEncode s = .next t ∧ t.faulted .capacity (BitVec.ofNat 32 i))

/-- R252, R255, R259: `RANS_DECODE` completes when the stream holds the leading zero bytes, five bytes for the state, and
two a symbol, and on a shorter stream wherever no load or refill runs out; with a count of 0 it reads nothing at all. The final state is in `[2^32, 2^40)` (0 with a count of 0). Every
address outside `OUT` reads as before. -/
def Obligations.RansDecodeCompletesOnALongEnoughStream : Prop :=
  ∀ s : State, s.error = false → s.inLen.toNat ≤ Config.inCap → s.expectedCount.toNat ≤ Config.outCap →
    s.freq.total = 4096 →
    (s.expectedCount = 0 ∨ 5 + leadingZeros s.input + 2 * s.expectedCount.toNat ≤ s.inLen.toNat ∨
      ∃ x bs q, ransRefill 0 s.input = some (x, bs) ∧
        ransDecodeLoop s.freq s.freq.cumulative (ransSymtab s.freq) s.expectedCount.toNat 0 x bs = .ok q) →
    ∃ t, exec .ransDecode s = .next t ∧ t.completed ∧ t.outLen = s.expectedCount ∧ t.outPos = s.expectedCount ∧
      (s.expectedCount = 0 → t.inPos = 0 ∧ t.ransX = 0) ∧
      (s.expectedCount ≠ 0 → 5 + leadingZeros s.input ≤ t.inPos.toNat ∧
        t.inPos.toNat ≤ 5 + leadingZeros s.input + 2 * s.expectedCount.toNat ∧
        2 ^ 32 ≤ t.ransX.toNat ∧ t.ransX.toNat < 2 ^ 40) ∧
      t.cum = s.freq.cumulative ∧ t.symtab = ransSymtab s.freq ∧ s.keepsOperands t ∧ t.freq = s.freq ∧
      s.keepsHuffman t ∧ s.keepsRcBounds t ∧ t.rcValue = s.rcValue ∧ s.keepsOutsideOut t

/-- R252, R351 b: where `RANS_DECODE` runs out of stream. One of fewer than five bytes after its leading zero bytes cannot
load the state: `DecodeConsistencyError(0)`. When the refill after the symbol of index `i` needs a byte that the stream does
not hold, the symbols before it having been decoded, it is `DecodeConsistencyError(i)`. -/
def Obligations.RansDecodeReportsAnExhaustedStream : Prop :=
  ∀ s : State, s.error = false → s.inLen.toNat ≤ Config.inCap → s.expectedCount.toNat ≤ Config.outCap →
    s.freq.total = 4096 →
    (s.expectedCount ≠ 0 → s.inLen.toNat < 5 + leadingZeros s.input →
      ∃ t, exec .ransDecode s = .next t ∧ t.faulted .decodeConsistency 0) ∧
    (∀ (k x y : Nat) (bs out left : List Byte) (b : Byte), k < s.expectedCount.toNat →
      ransRefill 0 s.input = some (x, bs) →
      ransDecodeLoop s.freq s.freq.cumulative (ransSymtab s.freq) k 0 x bs = .ok (out, y, left) →
      b = ransSymbol (ransSymtab s.freq) y →
      ransRefill (ransBack (s.freq.at b) (CumTable.at s.freq.cumulative b.toNat) y) left = none →
      ∃ t, exec .ransDecode s = .next t ∧ t.faulted .decodeConsistency (BitVec.ofNat 32 k))

/-- R257, R256: what `RANS_ENCODE` makes of a plane, `RANS_DECODE` turns back into it with the same table, also with any
bytes after the stream; it ends in the encoder's initial state, having read exactly the stream. -/
def Obligations.RansRoundTrip : Prop :=
  ∀ s t u : State, s.error = false → s.inLen.toNat ≤ Config.inCap → s.inLen.toNat ≤ Config.outCap →
    exec .ransEncode s = .next t → t.error = false →
    u.error = false → u.freq = s.freq → u.expectedCount = s.inLen → u.inLen.toNat ≤ Config.inCap →
    t.result <+: u.input →
    ∃ v, exec .ransDecode u = .next v ∧ v.completed ∧ v.result = s.input ∧
      (s.inLen ≠ 0 → v.ransX = 0x100000000 ∧ v.inPos = t.outLen)

/-! ## Plane commands -/

/-- R116, R349 a, b, R281, R282: after the length checks a mode flag above 2 raises `FormatError(0)` in both plane commands,
and a payload shorter than the table does so in `PLANE_DECOMPRESS`. -/
def Obligations.PlaneCommandsRefuseBadFlagsAndShortPayloads : Prop :=
  (∀ s : State, s.error = false → s.inLen.toNat ≤ Config.inCap → 2 < s.backend.toNat →
    ∃ t, exec .planeCompress s = .next t ∧ t.faulted .format 0) ∧
  (∀ s : State, s.error = false → s.inLen.toNat ≤ Config.inCap → s.expectedCount.toNat ≤ Config.outCap →
    (2 < s.backend.toNat ∨ s.inLen.toNat < 1024) → ∃ t, exec .planeDecompress s = .next t ∧ t.faulted .format 0)

/-- R281, R111, R115: `PLANE_COMPRESS` completes on every plane whose coded stream fits `OUT` beside the table. The stream
of `n` symbols takes at most `n` bytes under Huffman (R287), `31 n + 2` bits under Range (R217), `2 n + 5` bytes under Rans
(R249). The result starts with the serialised table, which is also left in `FREQ`: plain counts, counts plus one, or a table
of sum 4096. Every address outside `OUT` reads as before. Where the stream does not fit, `CapacityError` names the symbol at
which it passes the end of `OUT`, or `IN_LEN` in a flush (R343, R353). -/
def Obligations.PlaneCompressFramesTheTable : Prop :=
  ∀ (s : State) (b : Backend) (F : FreqTable), s.error = false → s.inLen.toNat ≤ Config.inCap →
    backendOf s.backend = some b → F = planeTable b s.input →
    ∃ m, streamSize b F s.input = some m ∧
      (b = .huffman → m ≤ s.inLen.toNat) ∧ (b = .range → 8 * m ≤ 31 * s.inLen.toNat + 9) ∧
      (b = .rans → m ≤ 2 * s.inLen.toNat + 5) ∧
      (1024 + m ≤ Config.outCap →
        ∃ t, exec .planeCompress s = .next t ∧ t.completed ∧ t.freq = F ∧ t.outLen.toNat = 1024 + m ∧ t.inPos = s.inLen ∧
          (∀ (b : Byte) (j : Fin 4), (t.outByte (4 * b.toNat + j.val)).toNat = t.freq.at b / 256 ^ j.val % 256) ∧
          (s.backend = 0 → (∀ b, t.freq.at b = s.input.count b) ∧ m = (t.outPos.toNat + 7) / 8) ∧
          (s.backend = 1 → (∀ b, t.freq.at b = 1 + s.input.count b) ∧ m = (t.outPos.toNat + 7) / 8 ∧
            t.outPos.toNat ≤ 31 * s.inLen.toNat + 2) ∧
          (s.backend = 2 → t.freq.total = 4096 ∧ m = t.outPos.toNat) ∧
          s.keepsOperands t ∧ s.keepsOutsideOut t ∧
          (s.backend ≠ 0 → s.keepsHuffman t) ∧ (s.backend = 0 → t.cum = s.cum) ∧
          (s.backend ≠ 2 → t.symtab = s.symtab) ∧ (s.backend ≠ 1 → s.keepsRcBounds t) ∧ t.rcValue = s.rcValue ∧
          (s.backend ≠ 2 → t.ransX = s.ransX)) ∧
      (Config.outCap < 1024 + m → ∃ i ≤ s.inLen.toNat, overflowsAt b F (Config.outCap - 1024) i s.input ∧
        ∃ t, exec .planeCompress s = .next t ∧ t.faulted .capacity (BitVec.ofNat 32 i))

/-- R283: a completed `PLANE_COMPRESS` leaves the `FREQ`, tables, registers, cursors and coded stream that the unit
commands leave one after another, the stream standing 1024 bytes further on. (`LUT` is compared where the tree has two
leaves: below that R178 leaves it unspecified.) -/
def Obligations.PlaneCompressEqualsTheUnitCommands : Prop :=
  ∀ s t : State, s.error = false → exec .planeCompress s = .next t → t.error = false →
    ∃ s₁ s₂ u : State,
      (s.backend = 0 → exec .freqCount s = .next s₁ ∧ s₂ = s₁ ∧ exec .hufEncode s₂ = .next u) ∧
      (s.backend = 1 → exec .freqCountFloor s = .next s₁ ∧ s₂ = s₁ ∧ exec .rcEncode s₂ = .next u) ∧
      (s.backend = 2 → exec .freqCount s = .next s₁ ∧ exec .freqNorm s₁ = .next s₂ ∧ exec .ransEncode s₂ = .next u) ∧
      u.completed ∧ t.freq = u.freq ∧ t.cum = u.cum ∧ t.hlen = u.hlen ∧ t.hcode = u.hcode ∧ t.symtab = u.symtab ∧
      t.arena = u.arena ∧ (2 ≤ t.freq.occurring.length → t.lut = u.lut) ∧ t.rcLow = u.rcLow ∧ t.rcHigh = u.rcHigh ∧
      t.rcPending = u.rcPending ∧ t.rcValue = u.rcValue ∧ t.ransX = u.ransX ∧ t.inPos = u.inPos ∧
      t.outPos = u.outPos ∧ t.outLen.toNat = 1024 + u.outLen.toNat ∧ t.result.drop 1024 = u.result ∧
      t.result.take 1024 = t.freq.serialise

/-- R282, R283: `PLANE_DECOMPRESS` on a payload does what the unit decoder does in any state that holds the payload's table
in `FREQ` and the rest of the payload in `IN`: the same flags and fault record, the same result and, on completion, the same
cursors, derived tables and working registers of the selected backend. Once the entry checks pass, the payload's table is
left in `FREQ`, whether the decoder then completes or faults. (R342 would leave `FREQ` unspecified after a fault; following
R282 there is the model's choice: notes/assumptions/8.md. `LUT` is compared where the tree has two leaves: below that R178
leaves it unspecified.) -/
def Obligations.PlaneDecompressEqualsTheUnitDecoder : Prop :=
  ∀ (s u : State) (i : Instr), s.error = false → u.error = false →
    (s.backend = 0 ∧ i = .hufDecode ∨ s.backend = 1 ∧ i = .rcDecode ∨ s.backend = 2 ∧ i = .ransDecode) →
    1024 ≤ s.inLen.toNat → s.inLen.toNat ≤ Config.inCap →
    (∀ b : Byte, u.freq.at b = (s.inByte (4 * b.toNat)).toNat + 256 * (s.inByte (4 * b.toNat + 1)).toNat +
      65536 * (s.inByte (4 * b.toNat + 2)).toNat + 16777216 * (s.inByte (4 * b.toNat + 3)).toNat) →
    u.inLen.toNat = s.inLen.toNat - 1024 → (∀ k < u.inLen.toNat, u.inByte k = s.inByte (1024 + k)) →
    u.expectedCount = s.expectedCount →
    ∃ t v, exec .planeDecompress s = .next t ∧ exec i u = .next v ∧ t.done = v.done ∧ t.error = v.error ∧
      (t.error = true → t.errCode = v.errCode ∧ t.errInfo = v.errInfo) ∧ t.outLen = v.outLen ∧ t.result = v.result ∧
      (t.done = true → t.inPos = v.inPos ∧ t.outPos = v.outPos ∧
        (s.backend = 0 → t.hlen = v.hlen ∧ t.hcode = v.hcode ∧ t.arena = v.arena ∧
          (2 ≤ u.freq.occurring.length → t.lut = v.lut)) ∧
        (s.backend = 1 → t.cum = v.cum ∧ t.rcLow = v.rcLow ∧ t.rcHigh = v.rcHigh ∧ t.rcPending = v.rcPending ∧
          t.rcValue = v.rcValue) ∧
        (s.backend = 2 → t.cum = v.cum ∧ t.symtab = v.symtab ∧ t.ransX = v.ransX)) ∧
      (s.expectedCount.toNat ≤ Config.outCap → t.freq = u.freq)

/-- R282: `PLANE_DECOMPRESS` completes on a payload whose table the selected decoder accepts and whose stream is long
enough: under backend 0 the codes of `EXPECTED_COUNT` symbols, under backend 1 any stream, under backend 2 the state's bytes
and two a symbol. Every address outside `OUT` reads as before. -/
def Obligations.PlaneDecompressCompletesOnAGoodPayload : Prop :=
  ∀ (s : State) (F : FreqTable) (B : List Byte) (rest : Bits), s.error = false → F = FreqTable.load s.inByte →
    1024 ≤ s.inLen.toNat → s.inLen.toNat ≤ Config.inCap → s.expectedCount.toNat ≤ Config.outCap →
    ((s.backend = 0 ∧ F.total = s.expectedCount.toNat ∧ bitsNeeded F ≤ 8 * (s.inLen.toNat - 1024) ∧
        B.length = s.expectedCount.toNat ∧ (∀ b ∈ B, F.at b ≠ 0) ∧
        streamBits s.payloadStream = B.flatMap (codeOf F) ++ rest) ∨
     (s.backend = 1 ∧ (∀ b, F.at b ≠ 0) ∧ F.total ≤ 2 ^ 29) ∨
     (s.backend = 2 ∧ F.total = 4096 ∧ (s.expectedCount = 0 ∨
        5 + leadingZeros s.payloadStream + 2 * s.expectedCount.toNat ≤ s.inLen.toNat - 1024))) →
    ∃ t, exec .planeDecompress s = .next t ∧ t.completed ∧ t.freq = F ∧ t.outLen = s.expectedCount ∧
      t.outPos = s.expectedCount ∧ (s.backend = 0 → t.result = B) ∧ s.keepsOperands t ∧ s.keepsOutsideOut t ∧
      (s.backend ≠ 0 → s.keepsHuffman t) ∧ (s.backend = 0 → t.cum = s.cum) ∧ (s.backend ≠ 2 → t.symtab = s.symtab) ∧
      (s.backend ≠ 1 → s.keepsRcBounds t ∧ t.rcValue = s.rcValue) ∧ (s.backend ≠ 2 → t.ransX = s.ransX)

/-- R286: what `PLANE_COMPRESS` makes of a plane, `PLANE_DECOMPRESS` under the same mode flag and the plane's length turns
back into it. -/
def Obligations.PlaneRoundTrip : Prop :=
  ∀ s t u : State, s.error = false → s.inLen.toNat ≤ Config.inCap → s.inLen.toNat ≤ Config.outCap →
    exec .planeCompress s = .next t → t.error = false →
    u.error = false → u.backend = s.backend → u.expectedCount = s.inLen → u.inLen.toNat ≤ Config.inCap →
    t.result <+: u.input →
    ∃ v, exec .planeDecompress u = .next v ∧ v.completed ∧ v.result = s.input ∧ v.freq = t.freq

/-! ## The host interface -/

/-- R83: every read leaves the state as it is and answers the same again, and every write but to `CMD` only stores its
data. -/
def Obligations.OnlyCommandsAndResetHaveSideEffects : Prop :=
  (∀ (s t : State) (off : Word), s.transact (.regRead off) = .next t →
    t = { s with reply := t.reply } ∧ t.transact (.regRead off) = .next t) ∧
  (∀ (s t : State) (a : Word) (n : Nat), s.transact (.bufRead a n) = .next t →
    t = { s with reply := t.reply } ∧ t.transact (.bufRead a n) = .next t) ∧
  (∀ (s t : State) (a : Word) (bs : List Byte), s.transact (.bufWrite a bs) = .next t →
    t = { s with freq := t.freq, mem := t.mem, reply := .empty } ∧ (0x1400 ≤ a.toNat → t.freq = s.freq) ∧
    (a.toNat < 0x01000000 → t.mem = s.mem) ∧
    ∀ c, (c < a.toNat ∨ a.toNat + bs.length ≤ c) → t.mem.read c = s.mem.read c) ∧
  (∀ (s t : State) (off v : Word), off ≠ 0 → s.transact (.regWrite off v) = .next t →
    t = if off = 0x10 then { s with backend := v.setWidth 8, reply := .empty }
      else if off = 0x14 then { s with inLen := v, reply := .empty }
      else if off = 0x18 then { s with expectedCount := v, reply := .empty }
      else { s with reply := .empty })

/-- R37, R29: a reserved offset reads 0 and ignores writes; a read-only register ignores writes; the reserved bits of
`BACKEND` are ignored and read 0; non-zero bits [31:8] make a write to `CMD` illegal; an offset that is not a multiple of 4
is no transaction (R81). -/
def Obligations.ReservedSpaceReadsZeroAndIgnoresWrites : Prop :=
  ∀ (s : State) (off v : Word), off.toNat < 0x1000 →
    (off.toNat % 4 = 0 → 0x40 ≤ off.toNat →
      s.transact (.regRead off) = .next { s with reply := .word 0 } ∧
      s.transact (.regWrite off v) = .next { s with reply := .empty }) ∧
    (off ∈ ([0x04, 0x08, 0x0C, 0x1C, 0x20, 0x24, 0x28, 0x2C, 0x30, 0x34, 0x38, 0x3C] : List Word) →
      s.transact (.regWrite off v) = .next { s with reply := .empty }) ∧
    (∃ t, s.transact (.regWrite 0x10 v) = .next t ∧ t.readReg .backend = v &&& 0xFF ∧
      t = { s with backend := t.backend, reply := .empty }) ∧
    (s.error = false → v.toNat / 256 ≠ 0 → s.transact (.regWrite 0x00 v) =
      .next { s with done := false, error := true, errCode := 6, errInfo := v, outLen := 0, reply := .empty }) ∧
    (off.toNat % 4 ≠ 0 → s.transact (.regRead off) = .refused .misalignedRegister ∧
      s.transact (.regWrite off v) = .refused .misalignedRegister)

/-- R24, R25: what the host reads of each register; `RANS_X` shows its low word at 0x38 and its high word at 0x3C. -/
def Obligations.RegisterReadsShowTheState : Prop :=
  ∀ (s : State) (p : Word × Word),
    p ∈ ([(0x00, 0), (0x04, BitVec.ofNat 32 (s.done.toNat + 2 * s.error.toNat)), (0x08, s.errCode.setWidth 32),
      (0x0C, s.errInfo), (0x10, s.backend.setWidth 32), (0x14, s.inLen), (0x18, s.expectedCount), (0x1C, s.outLen),
      (0x20, s.inPos), (0x24, s.outPos), (0x28, s.rcLow), (0x2C, s.rcHigh), (0x30, s.rcPending), (0x34, s.rcValue),
      (0x38, BitVec.ofNat 32 (s.ransX.toNat % 2 ^ 32)), (0x3C, BitVec.ofNat 32 (s.ransX.toNat / 2 ^ 32))] :
      List (Word × Word)) →
    s.transact (.regRead p.1) = .next { s with reply := .word p.2 }

/-- R73: a host write of one byte into the `FREQ` window replaces eight bits of one entry and leaves every other bit of the
table, and a read of any byte range of a window returns the corresponding bytes of its image: little-endian entries in
`FREQ` and `CUM`, one byte an entry in `HLEN` and `SYMTAB`, and in `HCODE` the code bits from the most significant bit of an
entry's first byte on (R41). -/
def Obligations.WindowsShowTheBytesOfTheTables : Prop :=
  (∀ (s : State) (e : Fin 256) (j : Fin 4) (b : Byte),
    ∃ t, s.transact (.bufWrite (BitVec.ofNat 32 (0x1000 + 4 * e.val + j.val)) [b]) = .next t ∧
      t = { s with freq := t.freq, reply := .empty } ∧
      ∀ (e' : Fin 256) (q : Fin 32), t.freq[e'].getLsbD q.val =
        if e' = e ∧ q.val / 8 = j.val then b.getLsbD (q.val % 8) else s.freq[e'].getLsbD q.val) ∧
  (∀ (s : State) (k n : Nat), 1 ≤ n → k + n ≤ 1024 →
    ∃ bs, s.transact (.bufRead (BitVec.ofNat 32 (0x1000 + k)) n) = .next { s with reply := .bytes bs } ∧ bs.length = n ∧
      ∀ (e : Fin 256) (j : Fin 4), k ≤ 4 * e.val + j.val → 4 * e.val + j.val < k + n →
        bs[4 * e.val + j.val - k]? = some (s.freq[e].extractLsb' (8 * j.val) 8)) ∧
  (∀ (s : State) (k n : Nat), 1 ≤ n → k + n ≤ 1028 →
    ∃ bs, s.transact (.bufRead (BitVec.ofNat 32 (0x1400 + k)) n) = .next { s with reply := .bytes bs } ∧ bs.length = n ∧
      ∀ (e : Fin 257) (j : Fin 4), k ≤ 4 * e.val + j.val → 4 * e.val + j.val < k + n →
        bs[4 * e.val + j.val - k]? = some (s.cum[e].extractLsb' (8 * j.val) 8)) ∧
  (∀ (s : State) (k n : Nat), 1 ≤ n → k + n ≤ 256 →
    ∃ bs, s.transact (.bufRead (BitVec.ofNat 32 (0x1C00 + k)) n) = .next { s with reply := .bytes bs } ∧ bs.length = n ∧
      ∀ e : Fin 256, k ≤ e.val → e.val < k + n → bs[e.val - k]? = some s.hlen[e]) ∧
  (∀ (s : State) (k n : Nat), 1 ≤ n → k + n ≤ 8192 →
    ∃ bs, s.transact (.bufRead (BitVec.ofNat 32 (0x2000 + k)) n) = .next { s with reply := .bytes bs } ∧ bs.length = n ∧
      ∀ e j : Fin 256, k ≤ 32 * e.val + j.val / 8 → 32 * e.val + j.val / 8 < k + n →
        (bs.getD (32 * e.val + j.val / 8 - k) 0).getLsbD (7 - j.val % 8) = s.hcode[e].getLsbD (255 - j.val)) ∧
  (∀ (s : State) (k n : Nat), 1 ≤ n → k + n ≤ 4096 →
    ∃ bs, s.transact (.bufRead (BitVec.ofNat 32 (0x4000 + k)) n) = .next { s with reply := .bytes bs } ∧ bs.length = n ∧
      ∀ e : Fin 4096, k ≤ e.val → e.val < k + n → bs[e.val - k]? = some s.symtab[e])

/-- R72: the `FREQ` window is the serialised table: a read of its 1024 bytes returns entry by entry the four bytes, least
significant first, and a write of 1024 bytes loads the table that serialises to them. -/
def Obligations.FreqWindowIsTheSerialisedTable : Prop :=
  (∀ s : State, s.transact (.bufRead 0x1000 1024) = .next { s with reply := .bytes s.freq.serialise }) ∧
  (∀ (s : State) (bs : List Byte), bs.length = 1024 → ∃ t, s.transact (.bufWrite 0x1000 bs) = .next t ∧
    t.freq.serialise = bs ∧ t = { s with freq := t.freq, reply := .empty }) ∧
  (∀ F : FreqTable, F.serialise.length = 1024 ∧
    ∀ (e : Fin 256) (j : Fin 4), F.serialise[4 * e.val + j.val]? = some (F[e].extractLsb' (8 * j.val) 8))

/-- R80: a host write to a read-only window has no effect. -/
def Obligations.WritesToReadOnlyWindowsHaveNoEffect : Prop :=
  ∀ (s : State) (r : Region) (k : Nat) (bs : List Byte), r ∈ [Region.cum, .hlen, .hcode, .symtab, .output] →
    bs ≠ [] → k + bs.length ≤ r.size →
    s.transact (.bufWrite (BitVec.ofNat 32 (r.base + k)) bs) = .next { s with reply := .empty }

/-- R79, R45: bytes the host writes to `IN` are what it reads back and what commands see, and every other byte of `IN` and
every stored byte elsewhere stays. -/
def Obligations.InputBytesReadBackAsWritten : Prop :=
  ∀ (s : State) (k : Nat) (bs : List Byte), bs ≠ [] → k + bs.length ≤ Config.inCap →
    ∃ t, s.transact (.bufWrite (BitVec.ofNat 32 (0x01000000 + k)) bs) = .next t ∧
      t = { s with mem := t.mem, reply := .empty } ∧
      (∀ j, t.inByte j = if k ≤ j ∧ j < k + bs.length then bs.getD (j - k) 0 else s.inByte j) ∧
      (∀ a, a < 0x01000000 + k ∨ 0x01000000 + k + bs.length ≤ a → t.mem.read a = s.mem.read a) ∧
      t.transact (.bufRead (BitVec.ofNat 32 (0x01000000 + k)) bs.length) = .next { t with reply := .bytes bs }

/-- R79, R81, R82: an access that starts at an unmapped address stops, one of no byte is refused, and one that answers a
next state lies in one region with byte access; a register access at an offset of 0x1000 or above is refused. A request that is no transaction is no step: it answers no state. (Which of
them are called a fault and which a refusal is the model's own: notes/assumptions/10.md.) -/
def Obligations.AccessesOutsideTheMapAreNoSteps : Prop :=
  (∀ (s : State) (a : Word) (n : Nat) (bs : List Byte), regionOf a.toNat = none → 1 ≤ n → bs ≠ [] →
    s.transact (.bufRead a n) = .fault .unmappedAddress ∧ s.transact (.bufWrite a bs) = .fault .unmappedAddress) ∧
  (∀ (s : State) (a : Word), s.transact (.bufRead a 0) = .refused .emptyTransfer ∧
    s.transact (.bufWrite a []) = .refused .emptyTransfer) ∧
  (∀ (s t : State) (a : Word) (n : Nat), s.transact (.bufRead a n) = .next t →
    ∃ r : Region, r ≠ .reg ∧ ∀ j < n, regionOf (a.toNat + j) = some r) ∧
  (∀ (s t : State) (a : Word) (bs : List Byte), s.transact (.bufWrite a bs) = .next t →
    ∃ r : Region, r ≠ .reg ∧ ∀ j < bs.length, regionOf (a.toNat + j) = some r) ∧
  (∀ (s : State) (off v : Word), 0x1000 ≤ off.toNat →
    s.transact (.regRead off) = .refused .noSuchRegister ∧ s.transact (.regWrite off v) = .refused .noSuchRegister)

/-! ## The host's side -/

/-- R321, R309, R307: under every mode flag an original file comes back from its encoding, byte for byte, up to the last
pair of its plane data: all of it for an even length, all but the last byte for an odd one. R314, R322: a run that starts
with the block free of the error leaves it so, also where a command faulted and the host gave the file up: then the block is
reset and the exit code is 1. (R308 and R310 name no state in which a run finds the block; that it is any state, for
decoding any free of the error, is the model's choice: notes/assumptions/20.md.) -/
def Obligations.FileRoundTrip : Prop :=
  (∀ (flag : Byte) (header D f : List Byte) (s t u : State), header.length < 2 ^ 64 →
    encodeFile flag (Original.mk header D).bytes s = (.ok f, t) → u.error = false →
    ∃ v, decodeFile f u = (.ok (Original.mk header (D.take (2 * (D.length / 2)))).bytes, v)) ∧
  (∀ (flag : Byte) (file : List Byte) (s t : State) (r : Except HostError (List Byte)), s.error = false →
    (encodeFile flag file s = (r, t) ∨ decodeFile file s = (r, t)) →
    t.error = false ∧ (∀ code info, r = .error (.block code info) → t.statusWord = 0 ∧ exitCode r = 1))
end

