-- ==== Sys2Proof/Laws/Tables.lean ====
section
/-!
SUPPORT. Tables: the entries of a table given by its index or by a list, the entries of `FREQ` by symbol, their total and
their prefix sums.
-/
namespace Sys2Proof

@[simp] theorem tabulate_getElem {α : Type} (n : Nat) (f : Nat → α) (k : Nat) (h : k < n) :
    (tabulate n f)[k] = f k := by simp [tabulate]

@[simp] theorem tabulate_getElem? {α : Type} (n : Nat) (f : Nat → α) (k : Nat) :
    (tabulate n f)[k]? = if k < n then some (f k) else none := by
  by_cases h : k < n <;> simp [h]

theorem tableOf_getElem {α : Type} (n : Nat) (d : α) (l : List α) (k : Nat) (h : k < n) :
    (tableOf n d l)[k] = l.getD k d := by
  simp only [tableOf, Vector.getElem_mk, List.getElem_toArray, List.getElem_take, List.getElem_append,
    List.getElem_replicate, List.getD_eq_getElem?_getD]
  split <;> simp_all

theorem tableOf_toList {α : Type} (n : Nat) (d : α) (l : List α) (h : l.length = n) :
    (tableOf n d l).toList = l := by
  simp [tableOf, Vector.toList, ← h]

@[simp] theorem tabulate_toList {α : Type} (n : Nat) (f : Nat → α) :
    (tabulate n f).toList = (List.range n).map f := by simp [tabulate, Vector.toList]

theorem allBytes_nodup : allBytes.Nodup := by
  rw [allBytes, List.nodup_map_iff_inj_on List.nodup_range]
  intro x hx y hy h
  simp only [List.mem_range] at hx hy
  have := congrArg BitVec.toNat h
  simpa [Nat.mod_eq_of_lt hx, Nat.mod_eq_of_lt hy] using this

@[simp] theorem mem_allBytes (s : Byte) : s ∈ allBytes := by
  simp only [allBytes, List.mem_map, List.mem_range]
  exact ⟨s.toNat, s.isLt, by simp⟩

@[simp] theorem allBytes_length : allBytes.length = 256 := by simp [allBytes]

theorem allBytes_getElem (k : Nat) (h : k < allBytes.length) : allBytes[k] = BitVec.ofNat 8 k := by
  simp [allBytes]

namespace Machine

@[simp] theorem FreqTable.counts_length (F : FreqTable) : F.counts.length = 256 := by simp [FreqTable.counts]

/-- Entry by entry: the counts are the entries read by symbol. -/
theorem FreqTable.counts_eq (F : FreqTable) : F.counts = allBytes.map F.at := by
  apply List.ext_getElem (by simp)
  intro k h₁ h₂
  have hk : k < 256 := by simpa using h₁
  simp [FreqTable.counts, FreqTable.at, allBytes, Nat.mod_eq_of_lt hk]

/-- The entries are the symbols, each with its frequency. -/
theorem FreqTable.entries_eq (F : FreqTable) : F.entries = allBytes.map fun s => (s, F.at s) := by
  apply List.ext_getElem (by simp [FreqTable.entries])
  intro k h₁ h₂
  simp [FreqTable.entries, FreqTable.counts_eq]

theorem FreqTable.total_eq (F : FreqTable) : F.total = (allBytes.map F.at).sum := by
  rw [FreqTable.total, FreqTable.counts_eq]

theorem FreqTable.mem_occurring (F : FreqTable) (s : Byte) : s ∈ F.occurring ↔ F.at s ≠ 0 := by
  simp [FreqTable.occurring, FreqTable.entries_eq]

theorem FreqTable.at_le_total (F : FreqTable) (s : Byte) : F.at s ≤ F.total := by
  rw [FreqTable.total_eq]
  exact List.single_le_sum (by simp) _ (List.mem_map_of_mem (mem_allBytes s))

/-- `CUM[k]` is the sum of the first `k` entries, when the total fits an entry. -/
theorem cumulative_at (F : FreqTable) (k : Nat) (hk : k ≤ 256) (hT : F.total < 2 ^ 32) :
    CumTable.at F.cumulative k = (F.counts.take k).sum := by
  have hlen : k < (List.scanl (· + ·) 0 F.counts).length := by simp; omega
  have hle : (F.counts.take k).sum ≤ F.total := by
    rw [FreqTable.total, ← List.sum_take_add_sum_drop F.counts k]; omega
  have hk' : k < 257 := by omega
  simp only [CumTable.at, FreqTable.cumulative, Vector.getElem?_eq_getElem hk', Option.getD_some, tableOf_getElem _ _ _ k hk',
    List.getD_eq_getElem?_getD, List.getElem?_map, List.getElem?_eq_getElem hlen, Option.map_some,
    List.getElem_scanl, BitVec.toNat_ofNat]
  rw [← List.sum_eq_foldl, Nat.mod_eq_of_lt (by omega)]

end Machine

end Sys2Proof
end

