-- ==== Sys2Proof/Laws/HuffmanTree.lean ====
section
/-!
SUPPORT. The Huffman tree as a whole: which leaves it has, how long its paths are, and that a plane coded with its own
counts takes at most eight bits a symbol (spec/44_plane_and_system.md R287).
-/
namespace Sys2Proof.Machine

/-! ## Leaves and cost -/

/-- The symbols under a node with their weights, from left to right. -/
def HufNode.leaves : HufNode → List (Byte × Nat)
  | .leaf b w => [(b, w.toNat)]
  | .inner _ _ l r => l.leaves ++ r.leaves

/-- The weight under a node as a number. -/
def HufNode.mass (t : HufNode) : Nat := (t.leaves.map Prod.snd).sum

/-- The sum of the weights of the internal nodes: the length of the coded stream in bits. -/
def HufNode.cost : HufNode → Nat
  | .leaf _ _ => 0
  | .inner _ _ l r => l.mass + r.mass + l.cost + r.cost

@[simp] theorem HufNode.mass_leaf (b : Byte) (w : BitVec 64) : (HufNode.leaf b w).mass = w.toNat := by
  simp [HufNode.mass, HufNode.leaves]

@[simp] theorem HufNode.mass_inner (n : Nat) (w : BitVec 64) (l r : HufNode) :
    (HufNode.inner n w l r).mass = l.mass + r.mass := by
  simp [HufNode.mass, HufNode.leaves]

/-! ## The two nodes of least key -/

/-- What taking out the least node does: the others stay, and none of them weighs less. -/
theorem takeLeast_spec : ∀ (live : List HufNode) (x : HufNode),
    ((takeLeast x live).1 :: (takeLeast x live).2).Perm (x :: live) ∧
    ∀ y ∈ (takeLeast x live).2, (takeLeast x live).1.weight.toNat ≤ y.weight.toNat := by
  intro live
  induction live with
  | nil => intro x; exact ⟨List.Perm.refl _, fun y hy => absurd hy (by simp [takeLeast])⟩
  | cons y live ih =>
    have least : ∀ x : HufNode, (takeLeast x live).1.weight.toNat ≤ x.weight.toNat := fun x => by
      obtain ⟨hp, hm⟩ := ih x
      rcases List.mem_cons.1 (hp.mem_iff.2 List.mem_cons_self) with h | h
      · rw [← h]
      · exact hm x h
    intro x
    rw [takeLeast]
    by_cases hb : x.before y = true
    · obtain ⟨hp, hm⟩ := ih x
      rw [if_pos hb]
      refine ⟨(List.Perm.swap _ _ _).trans ((hp.cons y).trans (List.Perm.swap _ _ _)), fun z hz => ?_⟩
      rcases List.mem_cons.1 hz with rfl | hz
      · have : x.weight.toNat ≤ z.weight.toNat := by simp [HufNode.before] at hb; omega
        exact (least x).trans this
      · exact hm z hz
    · obtain ⟨hp, hm⟩ := ih y
      rw [if_neg hb]
      refine ⟨(List.Perm.swap _ _ _).trans (hp.cons x), fun z hz => ?_⟩
      rcases List.mem_cons.1 hz with rfl | hz
      · have : y.weight.toNat ≤ z.weight.toNat := by simp [HufNode.before] at hb; omega
        exact (least y).trans this
      · exact hm z hz

/-- All a merge can do: with two live nodes or more, the two of least key become the children of a new one. -/
theorem hufMerge_step (k next : Nat) (x y : HufNode) (live : List HufNode) :
    ∃ a b rest, (a :: b :: rest).Perm (x :: y :: live) ∧ (∀ z ∈ rest, b.weight.toNat ≤ z.weight.toNat) ∧
      a.weight.toNat ≤ b.weight.toNat ∧
      hufMerge (k + 1) next (x :: y :: live) =
        hufMerge k (next + 1) (.inner next (a.weight + b.weight) a b :: rest) := by
  obtain ⟨hp, hm⟩ := takeLeast_spec (y :: live) x
  cases hr : (takeLeast x (y :: live)).2 with
  | nil => rw [hr] at hp; exact absurd hp.length_eq (by simp)
  | cons z zs =>
    rw [hr] at hp hm
    obtain ⟨hq, hn⟩ := takeLeast_spec zs z
    refine ⟨_, _, _, (hq.cons _).trans hp, hn, hm _ (hq.mem_iff.1 List.mem_cons_self), ?_⟩
    rw [hufMerge]
    simp only [hr]

/-! ## The leaves of the tree -/

/-- Merging keeps the leaves. -/
theorem hufMerge_leaves : ∀ (k next : Nat) (L : List HufNode) (t : HufNode), hufMerge k next L = some t →
    L.length ≤ k + 1 → t.leaves.Perm (L.flatMap HufNode.leaves) := by
  intro k
  induction k with
  | zero =>
    intro next L t h hl
    match L, h with
    | [n], h => cases h; simp
    | _ :: _ :: _, _ => simp at hl
  | succ k ih =>
    intro next L t h hl
    match L, h with
    | [n], h => cases h; simp
    | x :: y :: live, h =>
      obtain ⟨a, b, rest, hp, -, -, he⟩ := hufMerge_step k next x y live
      have hlen := hp.length_eq
      simp only [List.length_cons] at hlen hl
      rw [he] at h
      have := ih _ _ _ h (by simp only [List.length_cons]; omega)
      refine this.trans (.trans ?_ (hp.flatMap_right _))
      simp [HufNode.leaves]

/-! ## The cost of greedy merging -/

/-- Leaving out the least of a multiset costs a part of it no more than one of its elements. -/
theorem drop_one (a : Nat) (M D : Multiset Nat) (ha : ∀ x ∈ M, a ≤ x) (hD : D ≤ a ::ₘ M) (hc : 1 ≤ D.card) :
    ∃ D', D' ≤ M ∧ D'.card + 1 = D.card ∧ a + D'.sum ≤ D.sum := by
  by_cases h : a ∈ D
  · obtain ⟨D', rfl⟩ := Multiset.exists_cons_of_mem h
    exact ⟨D', (Multiset.cons_le_cons_iff a).1 hD, by simp, by simp⟩
  · have hM : D ≤ M := (Multiset.le_cons_of_notMem h).1 hD
    obtain ⟨x, hx⟩ := Multiset.card_pos_iff_exists_mem.1 hc
    obtain ⟨D', rfl⟩ := Multiset.exists_cons_of_mem hx
    have hax : a ≤ x := ha x (Multiset.mem_of_le hM hx)
    refine ⟨D', (Multiset.le_cons_self D' x).trans hM, by simp, ?_⟩
    rw [Multiset.sum_cons]
    omega

/-- Merging costs no more than a code of two lengths: `p + 1` bits for the nodes of any choice `D`, and `p` for the others,
where there are such codewords enough. -/
theorem hufMerge_cost : ∀ (k next : Nat) (L : List HufNode) (t : HufNode) (p : Nat) (D : Multiset Nat),
    hufMerge k next L = some t → L.length ≤ k + 1 → (∀ x ∈ L, x.weight.toNat = x.mass) →
    (L.map HufNode.mass).sum < 2 ^ 64 → D ≤ (L.map HufNode.mass : List Nat) →
    D.card + 2 * (L.length - D.card) ≤ 2 ^ (p + 1) →
    t.cost ≤ (L.map HufNode.cost).sum + p * (L.map HufNode.mass).sum + D.sum := by
  intro k
  induction k with
  | zero =>
    intro next L t p D h hl _ _ _ _
    match L, h with
    | [n], h => cases h; simp; omega
    | _ :: _ :: _, _ => simp at hl
  | succ k ih =>
    intro next L t p D h hl hw hs hD hp
    match L, h with
    | [n], h => cases h; simp; omega
    | x :: y :: live, h =>
      obtain ⟨a, b, rest, hperm, hrest, hab, he⟩ := hufMerge_step k next x y live
      rw [he] at h
      have hlen := hperm.length_eq
      have hmass := hperm.map HufNode.mass
      have hcost := (hperm.map HufNode.cost).sum_eq
      have ham := hw a (hperm.mem_iff.1 List.mem_cons_self)
      have hbm := hw b (hperm.mem_iff.1 (by simp))
      have hrm : ∀ z ∈ rest, z.weight.toNat = z.mass := fun z hz => hw z (hperm.mem_iff.1 (by simp [hz]))
      have hsum := hmass.sum_eq
      simp only [List.length_cons, List.map_cons, List.sum_cons] at hlen hl hcost hsum hs
      have hnew : (a.weight + b.weight).toNat = a.mass + b.mass := by
        rw [BitVec.toNat_add, ham, hbm, Nat.mod_eq_of_lt (by omega)]
      -- the bound for a choice of two nodes or more
      have two : ∀ (p : Nat) (D : Multiset Nat), D ≤ ((x :: y :: live).map HufNode.mass : List Nat) → 2 ≤ D.card →
          D.card + 2 * (live.length + 2 - D.card) ≤ 2 ^ (p + 1) →
          t.cost ≤ ((x :: y :: live).map HufNode.cost).sum + p * ((x :: y :: live).map HufNode.mass).sum + D.sum := by
        intro p D hD h2 hp
        rw [← Multiset.coe_eq_coe.2 hmass] at hD
        simp only [List.map_cons, ← Multiset.cons_coe] at hD
        obtain ⟨D₁, h₁, c₁, s₁⟩ := drop_one a.mass _ D (by
          intro z hz
          rcases Multiset.mem_cons.1 hz with rfl | hz
          · omega
          · obtain ⟨n, hn, rfl⟩ := List.mem_map.1 (Multiset.mem_coe.1 hz)
            have := hrest n hn
            have := hrm n hn
            omega) hD (by omega)
        obtain ⟨D₂, h₂, c₂, s₂⟩ := drop_one b.mass _ D₁ (by
          intro z hz
          obtain ⟨n, hn, rfl⟩ := List.mem_map.1 (Multiset.mem_coe.1 hz)
          have := hrest n hn
          have := hrm n hn
          omega) h₁ (by omega)
        have hc : D₂.card ≤ rest.length := by
          have := Multiset.card_le_card h₂
          simpa using this
        have := ih (next + 1) (.inner next (a.weight + b.weight) a b :: rest) t p D₂ h
          (by simp only [List.length_cons]; omega)
          (by
            intro z hz
            rcases List.mem_cons.1 hz with rfl | hz
            · rw [HufNode.mass_inner]; exact hnew
            · exact hrm z hz)
          (by simp only [List.map_cons, List.sum_cons, HufNode.mass_inner]; omega)
          (by
            rw [List.map_cons, ← Multiset.cons_coe]
            exact h₂.trans (Multiset.le_cons_self _ _))
          (by simp only [List.length_cons]; omega)
        simp only [List.map_cons, List.sum_cons, HufNode.mass_inner, HufNode.cost] at this ⊢
        have hm : a.mass + b.mass + (rest.map HufNode.mass).sum =
            x.mass + (y.mass + (live.map HufNode.mass).sum) := by omega
        rw [hm] at this
        omega
      by_cases h2 : 2 ≤ D.card
      · exact two p D hD h2 (by simpa using hp)
      · -- fewer than two: the nodes have codewords of `p` bits each
        simp only [List.length_cons] at hp
        cases p with
        | zero => omega
        | succ p =>
          have hq : 2 ^ (p + 1 + 1) = 2 * 2 ^ (p + 1) := by rw [Nat.pow_succ, Nat.mul_comm]
          have := two p _ le_rfl (by simp) (by simp; omega)
          rw [Multiset.sum_coe] at this
          rw [Nat.add_mul, Nat.one_mul]
          omega

/-! ## Paths -/

theorem HufNode.path_eq_none (b : Byte) : ∀ t : HufNode, t.path b = none ↔ b ∉ t.leaves.map Prod.fst := by
  intro t
  induction t with
  | leaf c w =>
    by_cases h : c = b
    · simp [HufNode.path, HufNode.leaves, h]
    · simp [HufNode.path, HufNode.leaves, h, Ne.symm h]
  | inner n w l r ihl ihr =>
    rw [HufNode.path, HufNode.leaves, List.map_append, List.mem_append, not_or, ← ihl, ← ihr]
    cases l.path b <;> cases r.path b <;> simp

/-- The bits that the leaves' paths take, weighted, are the tree's cost. -/
theorem HufNode.cost_eq : ∀ t : HufNode, (t.leaves.map Prod.fst).Nodup →
    (t.leaves.map fun e => e.2 * ((t.path e.1).getD []).length).sum = t.cost := by
  intro t
  induction t with
  | leaf c w => intro _; simp [HufNode.leaves, HufNode.path, HufNode.cost]
  | inner n w l r ihl ihr =>
    intro hd
    rw [HufNode.leaves, List.map_append, List.nodup_append] at hd
    obtain ⟨hl, hr, hlr⟩ := hd
    have left : (l.leaves.map fun e => e.2 * (((HufNode.inner n w l r).path e.1).getD []).length) =
        l.leaves.map fun e => e.2 * ((l.path e.1).getD []).length + e.2 := by
      refine List.map_congr_left fun e he => ?_
      have : l.path e.1 ≠ none := mt (HufNode.path_eq_none _ _).1 (not_not.2 (List.mem_map_of_mem he))
      cases hp : l.path e.1 with
      | none => exact absurd hp this
      | some p => simp [HufNode.path, hp, Nat.mul_add]
    have right : (r.leaves.map fun e => e.2 * (((HufNode.inner n w l r).path e.1).getD []).length) =
        r.leaves.map fun e => e.2 * ((r.path e.1).getD []).length + e.2 := by
      refine List.map_congr_left fun e he => ?_
      have hm := List.mem_map_of_mem (f := Prod.fst) he
      have hn : l.path e.1 = none := (HufNode.path_eq_none _ _).2 fun h => hlr _ h _ hm rfl
      have : r.path e.1 ≠ none := mt (HufNode.path_eq_none _ _).1 (not_not.2 hm)
      cases hp : r.path e.1 with
      | none => exact absurd hp this
      | some p => simp [HufNode.path, hn, hp, Nat.mul_add]
    rw [HufNode.leaves, List.map_append, List.sum_append, left, right, List.sum_map_add, List.sum_map_add, ihl hl, ihr hr,
      HufNode.cost, HufNode.mass, HufNode.mass]
    omega

/-! ## The codes of a table -/

/-- The leaves before any merge: the symbols that occur. -/
theorem hufLeaves_leaves (F : FreqTable) :
    (hufLeaves F).flatMap HufNode.leaves = F.entries.filter fun e => e.2 ≠ 0 := by
  rw [hufLeaves, List.flatMap_map]
  have : ∀ e ∈ F.entries.filter fun e => e.2 ≠ 0, (HufNode.leaf e.1 (BitVec.ofNat 64 e.2)).leaves = [e] := fun e he => by
    obtain ⟨he, -⟩ := List.mem_filter.1 he
    rw [FreqTable.entries_eq] at he
    obtain ⟨b, -, rfl⟩ := List.mem_map.1 he
    have hb : F.at b < 2 ^ 64 := by
      have : F.at b < 2 ^ 32 := BitVec.isLt _
      omega
    rw [HufNode.leaves, BitVec.toNat_ofNat, Nat.mod_eq_of_lt hb]
  rw [List.flatMap_congr this, List.flatMap_singleton']

theorem hufLeaves_length (F : FreqTable) : (hufLeaves F).length ≤ 256 := by
  rw [hufLeaves, List.length_map]
  exact (List.length_filter_le _ _).trans (by rw [FreqTable.entries_eq, List.length_map, allBytes_length])

/-- The leaves of the tree are the symbols that occur, each with its frequency. -/
theorem hufTree_leaves {F : FreqTable} {t : HufNode} (h : hufTree F = some t) :
    t.leaves.Perm (F.entries.filter fun e => e.2 ≠ 0) := by
  rw [← hufLeaves_leaves]
  exact hufMerge_leaves _ _ _ _ h (hufLeaves_length F)

theorem entries_nodup (F : FreqTable) : (F.entries.map Prod.fst).Nodup := by
  rw [FreqTable.entries_eq, List.map_map]
  exact (List.map_id allBytes).symm ▸ allBytes_nodup

theorem hufTree_leaves_nodup {F : FreqTable} {t : HufNode} (h : hufTree F = some t) :
    (t.leaves.map Prod.fst).Nodup :=
  ((hufTree_leaves h).map Prod.fst).nodup_iff.2 ((entries_nodup F).sublist (List.filter_sublist.map _))

/-- A sum over all entries is one over those of the symbols that occur, where the others add nothing. -/
theorem sum_entries (F : FreqTable) (g : Byte × Nat → Nat) (hg : ∀ e, e.2 = 0 → g e = 0) :
    ((F.entries.filter fun e => e.2 ≠ 0).map g).sum = (F.entries.map g).sum := by
  induction F.entries with
  | nil => rfl
  | cons e l ih =>
    by_cases he : e.2 = 0
    · rw [List.filter_cons_of_neg (by simp [he]), ih, List.map_cons, List.sum_cons, hg e he, Nat.zero_add]
    · rw [List.filter_cons_of_pos (by simp [he]), List.map_cons, List.sum_cons, ih, List.map_cons, List.sum_cons]

theorem FreqTable.total_lt (F : FreqTable) : F.total < 2 ^ 64 := by
  have : F.total ≤ 256 * 2 ^ 32 := by
    rw [FreqTable.total_eq]
    refine (List.sum_le_card_nsmul _ (2 ^ 32) fun x hx => ?_).trans (by simp)
    obtain ⟨b, -, rfl⟩ := List.mem_map.1 hx
    exact (BitVec.isLt _).le
  omega

/-- The tree costs at most eight bits for each unit of weight. -/
theorem hufTree_cost {F : FreqTable} {t : HufNode} (h : hufTree F = some t) : t.cost ≤ 8 * F.total := by
  have hmass : ((hufLeaves F).map HufNode.mass).sum = F.total := by
    have : ∀ L : List HufNode, (L.map HufNode.mass).sum = ((L.flatMap HufNode.leaves).map Prod.snd).sum := fun L => by
      induction L with
      | nil => rfl
      | cons x L ih => rw [List.map_cons, List.sum_cons, ih, List.flatMap_cons, List.map_append, List.sum_append]; rfl
    rw [this, hufLeaves_leaves, sum_entries F Prod.snd fun _ h => h, FreqTable.entries_eq, List.map_map, FreqTable.total_eq]
    rfl
  have hleaf : ∀ x ∈ hufLeaves F, x.weight.toNat = x.mass ∧ x.cost = 0 := fun x hx => by
    obtain ⟨e, -, rfl⟩ := List.mem_map.1 hx
    exact ⟨(HufNode.mass_leaf _ _).symm, rfl⟩
  have hcost : ((hufLeaves F).map HufNode.cost).sum = 0 := by
    rw [List.map_congr_left fun x hx => (hleaf x hx).2]
    simp
  have hl := hufLeaves_length F
  have := hufMerge_cost 255 256 (hufLeaves F) t 7 _ h (by omega) (fun x hx => (hleaf x hx).1)
    (by rw [hmass]; exact F.total_lt) le_rfl (by simp; omega)
  rw [hcost, Multiset.sum_coe, hmass] at this
  omega

/-- R287: a plane coded with its own counts takes at most eight bits a symbol. -/
theorem bitsNeeded_le (F : FreqTable) : bitsNeeded F ≤ 8 * F.total := by
  have hb : bitsNeeded F = (F.entries.map fun e => e.2 * (codeOf F e.1).length).sum := by
    rw [bitsNeeded, FreqTable.entries_eq, List.map_map]
    rfl
  rw [hb]
  cases ht : hufTree F with
  | none => simp [codeOf, hufCode, ht]
  | some t =>
    cases t with
    | leaf c w =>
      have : ∀ e : Byte × Nat, e.2 * (codeOf F e.1).length ≤ e.2 := fun e => by
        rw [codeOf, ht, hufCode]
        split <;> simp
      refine (List.sum_le_sum fun e _ => this e).trans ?_
      rw [FreqTable.entries_eq, List.map_map, FreqTable.total_eq]
      exact Nat.le_mul_of_pos_left _ (by decide)
    | inner n w l r =>
      rw [← sum_entries F (fun e => e.2 * (codeOf F e.1).length) fun e he => by rw [he, Nat.zero_mul],
        ← ((hufTree_leaves ht).map _).sum_eq]
      have hc : ∀ b, codeOf F b = ((HufNode.inner n w l r).path b).getD [] := fun b => by rw [codeOf, ht]; rfl
      simp only [hc]
      rw [HufNode.cost_eq _ (hufTree_leaves_nodup ht)]
      exact hufTree_cost ht

end Sys2Proof.Machine
end

