-- ==== Sys2Proof/Laws/Memory.lean ====
section
/-!
SUPPORT. The memory of the buffers: reading after writing, what a write leaves alone, and that every operation keeps the
canonical form.
-/
namespace Sys2Proof.Machine

@[simp] theorem Memory.read_nil (a : Nat) : Memory.read [] a = none := rfl

theorem Memory.read_cons (k : Nat) (v : Byte) (m : Memory) (a : Nat) :
    Memory.read ((k, v) :: m) a = if k = a then some v else Memory.read m a := rfl

/-- No byte is stored where no cell stands. -/
theorem Memory.read_eq_none_of_not_mem {m : Memory} {a : Nat} (h : ∀ c ∈ m, c.1 ≠ a) : m.read a = none := by
  induction m with
  | nil => rfl
  | cons c m ih =>
    obtain ⟨k, v⟩ := c
    rw [Memory.read_cons, if_neg (h (k, v) (by simp))]
    exact ih fun c hc => h c (by simp [hc])

@[simp] theorem Memory.read_write_same (m : Memory) (a : Nat) (b : Byte) : (m.write a b).read a = some b := by
  induction m with
  | nil => simp [Memory.write, Memory.read_cons]
  | cons c m ih =>
    obtain ⟨k, v⟩ := c
    unfold Memory.write
    split
    · simp [Memory.read_cons]
    · split
      · simp [Memory.read_cons]
      · rename_i h₁ h₂
        rw [Memory.read_cons, if_neg (Ne.symm h₂), ih]

theorem Memory.read_write_other (m : Memory) {a c : Nat} (b : Byte) (h : c ≠ a) :
    (m.write a b).read c = m.read c := by
  induction m with
  | nil => simp [Memory.write, Memory.read_cons, Ne.symm h]
  | cons x m ih =>
    obtain ⟨k, v⟩ := x
    unfold Memory.write
    split
    · simp [Memory.read_cons, Ne.symm h]
    · split
      · rename_i _ hk
        subst hk
        simp [Memory.read_cons, Ne.symm h]
      · simp [Memory.read_cons, ih]

/-- What `writeBytes` leaves: the new bytes in the range, every other address as before. -/
theorem Memory.read_writeBytes (bs : List Byte) : ∀ (m : Memory) (a c : Nat),
    (m.writeBytes a bs).read c = if a ≤ c ∧ c < a + bs.length then bs[c - a]? else m.read c := by
  induction bs with
  | nil => intro m a c; rw [Memory.writeBytes, if_neg]; simp
  | cons b bs ih =>
    intro m a c
    rw [Memory.writeBytes, ih]
    by_cases h : a + 1 ≤ c ∧ c < a + 1 + bs.length
    · rw [if_pos h, if_pos (by simp; omega), show c - a = (c - (a + 1)) + 1 by omega]
      simp
    · rw [if_neg h]
      by_cases hc : c = a
      · subst hc; simp
      · rw [Memory.read_write_other _ _ hc, if_neg (by simp; omega)]

theorem Memory.mem_write {m : Memory} {a : Nat} {b : Byte} {c : Host.Cell} (h : c ∈ m.write a b) :
    c = (a, b) ∨ c ∈ m := by
  induction m with
  | nil => simpa [Memory.write] using h
  | cons x m ih =>
    obtain ⟨k, v⟩ := x
    unfold Memory.write at h
    split at h
    · simpa using h
    · split at h
      · rcases List.mem_cons.1 h with h | h <;> simp [h]
      · rcases List.mem_cons.1 h with h | h
        · simp [h]
        · rcases ih h with h | h <;> simp [h]

theorem Memory.write_rising {m : Memory} (a : Nat) (b : Byte) (h : m.Pairwise (fun c d => c.1 < d.1)) :
    (m.write a b).Pairwise (fun c d => c.1 < d.1) := by
  induction m with
  | nil => simp [Memory.write]
  | cons x m ih =>
    obtain ⟨k, v⟩ := x
    obtain ⟨hx, hm⟩ := List.pairwise_cons.1 h
    unfold Memory.write
    split
    · rename_i hak
      refine List.pairwise_cons.2 ⟨fun c hc => ?_, h⟩
      rcases List.mem_cons.1 hc with rfl | hc
      · exact hak
      · exact Nat.lt_trans hak (hx c hc)
    · split
      · rename_i _ hak
        subst hak
        exact List.pairwise_cons.2 ⟨hx, hm⟩
      · rename_i h₁ h₂
        refine List.pairwise_cons.2 ⟨fun c hc => ?_, ih hm⟩
        rcases Memory.mem_write hc with rfl | hc
        · show k < a; omega
        · exact hx c hc

theorem Memory.write_wf {m : Memory} {a : Nat} (b : Byte) (h : m.wf) (ha : (inInBuffer a || inOutBuffer a) = true) :
    (m.write a b).wf := by
  refine ⟨Memory.write_rising a b h.1, fun c hc => ?_⟩
  rcases Memory.mem_write hc with rfl | hc
  · exact ha
  · exact h.2 c hc

theorem Memory.writeBytes_wf (bs : List Byte) : ∀ {m : Memory} {a : Nat}, m.wf →
    (∀ k < bs.length, (inInBuffer (a + k) || inOutBuffer (a + k)) = true) → (m.writeBytes a bs).wf := by
  induction bs with
  | nil => intro m a h _; exact h
  | cons b bs ih =>
    intro m a h hk
    refine ih (Memory.write_wf b h (by simpa using hk 0 (by simp))) fun k hlt => ?_
    have := hk (k + 1) (by simpa using hlt)
    rwa [show a + 1 + k = a + (k + 1) by omega]

theorem Memory.read_append (m n : Memory) (a : Nat) : Memory.read (m ++ n) a = (m.read a).or (n.read a) := by
  induction m with
  | nil => simp
  | cons x m ih =>
    obtain ⟨k, v⟩ := x
    rw [List.cons_append, Memory.read_cons, Memory.read_cons, ih]
    split <;> simp

theorem read_cellsFrom (bs : List Byte) : ∀ (a c : Nat),
    (cellsFrom a bs).read c = if a ≤ c then bs[c - a]? else none := by
  induction bs with
  | nil => intro a c; simp [cellsFrom]
  | cons b bs ih =>
    intro a c
    rw [cellsFrom, Memory.read_cons, ih]
    by_cases hac : a = c
    · subst hac; simp
    · rw [if_neg hac]
      by_cases h : a ≤ c
      · rw [if_pos (by omega), if_pos h, show c - a = (c - (a + 1)) + 1 by omega]; simp
      · rw [if_neg (by omega), if_neg h]

theorem mem_cellsFrom {bs : List Byte} : ∀ {a : Nat} {c : Host.Cell}, c ∈ cellsFrom a bs →
    a ≤ c.1 ∧ c.1 < a + bs.length := by
  induction bs with
  | nil => intro a c h; simp [cellsFrom] at h
  | cons b bs ih =>
    intro a c h
    rcases List.mem_cons.1 h with rfl | h
    · simp
    · have := ih h; simp; omega

theorem cellsFrom_rising (bs : List Byte) : ∀ a, (cellsFrom a bs).Pairwise (fun c d => c.1 < d.1) := by
  induction bs with
  | nil => intro a; simp [cellsFrom]
  | cons b bs ih =>
    intro a
    refine List.pairwise_cons.2 ⟨fun c hc => ?_, ih (a + 1)⟩
    have := mem_cellsFrom hc
    show a < c.1; omega

theorem Memory.read_dropOut (m : Memory) (a : Nat) :
    m.dropOut.read a = if inOutBuffer a = true then none else m.read a := by
  induction m with
  | nil => simp [Memory.dropOut]
  | cons x m ih =>
    obtain ⟨k, v⟩ := x
    simp only [Memory.dropOut, List.filter_cons] at ih ⊢
    by_cases hk : inOutBuffer k = true
    · rw [if_neg (by simp [hk]), ih, Memory.read_cons]
      by_cases hka : k = a
      · subst hka; simp [hk]
      · simp [hka]
    · rw [if_pos (by simp [hk]), Memory.read_cons, ih, Memory.read_cons]
      by_cases hka : k = a
      · subst hka; simp [hk]
      · simp [hka]

theorem Memory.dropOut_wf {m : Memory} (h : m.wf) : m.dropOut.wf :=
  ⟨h.1.filter _, fun c hc => h.2 c (List.mem_filter.1 hc).1⟩

/-- What `OUT <- bytes` leaves: the bytes from the start of `OUT`, nothing stored in the rest of `OUT`, every address
outside `OUT` as before. -/
theorem Memory.read_setOut (m : Memory) (bs : List Byte) (h : bs.length ≤ Config.outCap) (a : Nat) :
    (m.setOut bs).read a = if inOutBuffer a = true then bs[a - Config.outBase]? else m.read a := by
  rw [Memory.setOut, Memory.read_append, Memory.read_dropOut, read_cellsFrom]
  by_cases hin : inOutBuffer a = true
  · have : Config.outBase ≤ a := by simp [inOutBuffer] at hin; omega
    simp [hin, this]
  · rw [if_neg hin, if_neg hin]
    by_cases ha : Config.outBase ≤ a
    · rw [if_pos ha, List.getElem?_eq_none]
      · simp
      · simp [inOutBuffer, ha] at hin; omega
    · rw [if_neg ha]; simp

/-- Cells outside `OUT` lie below it. -/
theorem Memory.lt_outBase_of_mem_dropOut {m : Memory} (h : m.wf) {c : Host.Cell} (hc : c ∈ m.dropOut) :
    c.1 < Config.outBase := by
  obtain ⟨hm, ho⟩ := List.mem_filter.1 hc
  have := h.2 c hm
  simp only [Bool.not_eq_true', Bool.or_eq_true, inInBuffer, Bool.and_eq_true, decide_eq_true_eq] at ho this
  rw [ho] at this
  simp [Config.inBase, Config.inCap, Config.outBase] at this ⊢
  omega

theorem Memory.setOut_wf {m : Memory} {bs : List Byte} (h : m.wf) (hb : bs.length ≤ Config.outCap) :
    (m.setOut bs).wf := by
  constructor
  · refine List.pairwise_append.2 ⟨(Memory.dropOut_wf h).1, cellsFrom_rising _ _, fun c hc d hd => ?_⟩
    have h₁ := Memory.lt_outBase_of_mem_dropOut h hc
    have h₂ := mem_cellsFrom hd
    omega
  · intro c hc
    rcases List.mem_append.1 hc with hc | hc
    · exact (Memory.dropOut_wf h).2 c hc
    · have := mem_cellsFrom hc
      have : inOutBuffer c.1 = true := by simp [inOutBuffer]; omega
      simp [this]

end Sys2Proof.Machine
end

