-- ==== Sys2Proof/Laws/State.lean ====
section
/-!
SUPPORT. The fields of a state after each named update of it: one lemma for each field and update, true by rfl. Where an
update writes a field by a rule of its own (what a fault leaves unspecified, the code tables of a build) the lemma about
that field stands in Laws/Ops.lean or Laws/Units.lean.
-/
namespace Sys2Proof.Machine

@[simp] theorem State.accept_done (s : State) : s.accept.done = false := rfl
@[simp] theorem State.accept_error (s : State) : s.accept.error = s.error := rfl
@[simp] theorem State.accept_errCode (s : State) : s.accept.errCode = s.errCode := rfl
@[simp] theorem State.accept_errInfo (s : State) : s.accept.errInfo = s.errInfo := rfl
@[simp] theorem State.accept_backend (s : State) : s.accept.backend = s.backend := rfl
@[simp] theorem State.accept_inLen (s : State) : s.accept.inLen = s.inLen := rfl
@[simp] theorem State.accept_expectedCount (s : State) : s.accept.expectedCount = s.expectedCount := rfl
@[simp] theorem State.accept_outLen (s : State) : s.accept.outLen = s.outLen := rfl
@[simp] theorem State.accept_inPos (s : State) : s.accept.inPos = s.inPos := rfl
@[simp] theorem State.accept_outPos (s : State) : s.accept.outPos = s.outPos := rfl
@[simp] theorem State.accept_rcLow (s : State) : s.accept.rcLow = s.rcLow := rfl
@[simp] theorem State.accept_rcHigh (s : State) : s.accept.rcHigh = s.rcHigh := rfl
@[simp] theorem State.accept_rcPending (s : State) : s.accept.rcPending = s.rcPending := rfl
@[simp] theorem State.accept_rcValue (s : State) : s.accept.rcValue = s.rcValue := rfl
@[simp] theorem State.accept_ransX (s : State) : s.accept.ransX = s.ransX := rfl
@[simp] theorem State.accept_freq (s : State) : s.accept.freq = s.freq := rfl
@[simp] theorem State.accept_cum (s : State) : s.accept.cum = s.cum := rfl
@[simp] theorem State.accept_hlen (s : State) : s.accept.hlen = s.hlen := rfl
@[simp] theorem State.accept_hcode (s : State) : s.accept.hcode = s.hcode := rfl
@[simp] theorem State.accept_symtab (s : State) : s.accept.symtab = s.symtab := rfl
@[simp] theorem State.accept_arena (s : State) : s.accept.arena = s.arena := rfl
@[simp] theorem State.accept_lut (s : State) : s.accept.lut = s.lut := rfl
@[simp] theorem State.accept_mem (s : State) : s.accept.mem = s.mem := rfl
@[simp] theorem State.accept_host (s : State) : s.accept.host = s.host := rfl
@[simp] theorem State.accept_reply (s : State) : s.accept.reply = s.reply := rfl
@[simp] theorem State.accept_draw (s : State) : s.accept.draw = s.draw + 1 := rfl
@[simp] theorem State.accept_bufDraw (s : State) : s.accept.bufDraw = s.bufDraw := rfl

@[simp] theorem State.complete_done (s : State) : s.complete.done = true := rfl
@[simp] theorem State.complete_error (s : State) : s.complete.error = s.error := rfl
@[simp] theorem State.complete_errCode (s : State) : s.complete.errCode = s.errCode := rfl
@[simp] theorem State.complete_errInfo (s : State) : s.complete.errInfo = s.errInfo := rfl
@[simp] theorem State.complete_backend (s : State) : s.complete.backend = s.backend := rfl
@[simp] theorem State.complete_inLen (s : State) : s.complete.inLen = s.inLen := rfl
@[simp] theorem State.complete_expectedCount (s : State) : s.complete.expectedCount = s.expectedCount := rfl
@[simp] theorem State.complete_outLen (s : State) : s.complete.outLen = s.outLen := rfl
@[simp] theorem State.complete_inPos (s : State) : s.complete.inPos = s.inPos := rfl
@[simp] theorem State.complete_outPos (s : State) : s.complete.outPos = s.outPos := rfl
@[simp] theorem State.complete_rcLow (s : State) : s.complete.rcLow = s.rcLow := rfl
@[simp] theorem State.complete_rcHigh (s : State) : s.complete.rcHigh = s.rcHigh := rfl
@[simp] theorem State.complete_rcPending (s : State) : s.complete.rcPending = s.rcPending := rfl
@[simp] theorem State.complete_rcValue (s : State) : s.complete.rcValue = s.rcValue := rfl
@[simp] theorem State.complete_ransX (s : State) : s.complete.ransX = s.ransX := rfl
@[simp] theorem State.complete_freq (s : State) : s.complete.freq = s.freq := rfl
@[simp] theorem State.complete_cum (s : State) : s.complete.cum = s.cum := rfl
@[simp] theorem State.complete_hlen (s : State) : s.complete.hlen = s.hlen := rfl
@[simp] theorem State.complete_hcode (s : State) : s.complete.hcode = s.hcode := rfl
@[simp] theorem State.complete_symtab (s : State) : s.complete.symtab = s.symtab := rfl
@[simp] theorem State.complete_arena (s : State) : s.complete.arena = s.arena := rfl
@[simp] theorem State.complete_lut (s : State) : s.complete.lut = s.lut := rfl
@[simp] theorem State.complete_mem (s : State) : s.complete.mem = s.mem := rfl
@[simp] theorem State.complete_host (s : State) : s.complete.host = s.host := rfl
@[simp] theorem State.complete_reply (s : State) : s.complete.reply = s.reply := rfl
@[simp] theorem State.complete_draw (s : State) : s.complete.draw = s.draw := rfl
@[simp] theorem State.complete_bufDraw (s : State) : s.complete.bufDraw = s.bufDraw := rfl

@[simp] theorem State.setCursors_done (s : State) (a b c : Nat) : (s.setCursors a b c).done = s.done := rfl
@[simp] theorem State.setCursors_error (s : State) (a b c : Nat) : (s.setCursors a b c).error = s.error := rfl
@[simp] theorem State.setCursors_errCode (s : State) (a b c : Nat) : (s.setCursors a b c).errCode = s.errCode := rfl
@[simp] theorem State.setCursors_errInfo (s : State) (a b c : Nat) : (s.setCursors a b c).errInfo = s.errInfo := rfl
@[simp] theorem State.setCursors_backend (s : State) (a b c : Nat) : (s.setCursors a b c).backend = s.backend := rfl
@[simp] theorem State.setCursors_inLen (s : State) (a b c : Nat) : (s.setCursors a b c).inLen = s.inLen := rfl
@[simp] theorem State.setCursors_expectedCount (s : State) (a b c : Nat) : (s.setCursors a b c).expectedCount = s.expectedCount := rfl
@[simp] theorem State.setCursors_outLen (s : State) (a b c : Nat) : (s.setCursors a b c).outLen = BitVec.ofNat 32 a := rfl
@[simp] theorem State.setCursors_inPos (s : State) (a b c : Nat) : (s.setCursors a b c).inPos = BitVec.ofNat 32 b := rfl
@[simp] theorem State.setCursors_outPos (s : State) (a b c : Nat) : (s.setCursors a b c).outPos = BitVec.ofNat 32 c := rfl
@[simp] theorem State.setCursors_rcLow (s : State) (a b c : Nat) : (s.setCursors a b c).rcLow = s.rcLow := rfl
@[simp] theorem State.setCursors_rcHigh (s : State) (a b c : Nat) : (s.setCursors a b c).rcHigh = s.rcHigh := rfl
@[simp] theorem State.setCursors_rcPending (s : State) (a b c : Nat) : (s.setCursors a b c).rcPending = s.rcPending := rfl
@[simp] theorem State.setCursors_rcValue (s : State) (a b c : Nat) : (s.setCursors a b c).rcValue = s.rcValue := rfl
@[simp] theorem State.setCursors_ransX (s : State) (a b c : Nat) : (s.setCursors a b c).ransX = s.ransX := rfl
@[simp] theorem State.setCursors_freq (s : State) (a b c : Nat) : (s.setCursors a b c).freq = s.freq := rfl
@[simp] theorem State.setCursors_cum (s : State) (a b c : Nat) : (s.setCursors a b c).cum = s.cum := rfl
@[simp] theorem State.setCursors_hlen (s : State) (a b c : Nat) : (s.setCursors a b c).hlen = s.hlen := rfl
@[simp] theorem State.setCursors_hcode (s : State) (a b c : Nat) : (s.setCursors a b c).hcode = s.hcode := rfl
@[simp] theorem State.setCursors_symtab (s : State) (a b c : Nat) : (s.setCursors a b c).symtab = s.symtab := rfl
@[simp] theorem State.setCursors_arena (s : State) (a b c : Nat) : (s.setCursors a b c).arena = s.arena := rfl
@[simp] theorem State.setCursors_lut (s : State) (a b c : Nat) : (s.setCursors a b c).lut = s.lut := rfl
@[simp] theorem State.setCursors_mem (s : State) (a b c : Nat) : (s.setCursors a b c).mem = s.mem := rfl
@[simp] theorem State.setCursors_host (s : State) (a b c : Nat) : (s.setCursors a b c).host = s.host := rfl
@[simp] theorem State.setCursors_reply (s : State) (a b c : Nat) : (s.setCursors a b c).reply = s.reply := rfl
@[simp] theorem State.setCursors_draw (s : State) (a b c : Nat) : (s.setCursors a b c).draw = s.draw := rfl
@[simp] theorem State.setCursors_bufDraw (s : State) (a b c : Nat) : (s.setCursors a b c).bufDraw = s.bufDraw := rfl

@[simp] theorem State.setOut_done (s : State) (bs : List Byte) : (s.setOut bs).done = s.done := rfl
@[simp] theorem State.setOut_error (s : State) (bs : List Byte) : (s.setOut bs).error = s.error := rfl
@[simp] theorem State.setOut_errCode (s : State) (bs : List Byte) : (s.setOut bs).errCode = s.errCode := rfl
@[simp] theorem State.setOut_errInfo (s : State) (bs : List Byte) : (s.setOut bs).errInfo = s.errInfo := rfl
@[simp] theorem State.setOut_backend (s : State) (bs : List Byte) : (s.setOut bs).backend = s.backend := rfl
@[simp] theorem State.setOut_inLen (s : State) (bs : List Byte) : (s.setOut bs).inLen = s.inLen := rfl
@[simp] theorem State.setOut_expectedCount (s : State) (bs : List Byte) : (s.setOut bs).expectedCount = s.expectedCount := rfl
@[simp] theorem State.setOut_outLen (s : State) (bs : List Byte) : (s.setOut bs).outLen = s.outLen := rfl
@[simp] theorem State.setOut_inPos (s : State) (bs : List Byte) : (s.setOut bs).inPos = s.inPos := rfl
@[simp] theorem State.setOut_outPos (s : State) (bs : List Byte) : (s.setOut bs).outPos = s.outPos := rfl
@[simp] theorem State.setOut_rcLow (s : State) (bs : List Byte) : (s.setOut bs).rcLow = s.rcLow := rfl
@[simp] theorem State.setOut_rcHigh (s : State) (bs : List Byte) : (s.setOut bs).rcHigh = s.rcHigh := rfl
@[simp] theorem State.setOut_rcPending (s : State) (bs : List Byte) : (s.setOut bs).rcPending = s.rcPending := rfl
@[simp] theorem State.setOut_rcValue (s : State) (bs : List Byte) : (s.setOut bs).rcValue = s.rcValue := rfl
@[simp] theorem State.setOut_ransX (s : State) (bs : List Byte) : (s.setOut bs).ransX = s.ransX := rfl
@[simp] theorem State.setOut_freq (s : State) (bs : List Byte) : (s.setOut bs).freq = s.freq := rfl
@[simp] theorem State.setOut_cum (s : State) (bs : List Byte) : (s.setOut bs).cum = s.cum := rfl
@[simp] theorem State.setOut_hlen (s : State) (bs : List Byte) : (s.setOut bs).hlen = s.hlen := rfl
@[simp] theorem State.setOut_hcode (s : State) (bs : List Byte) : (s.setOut bs).hcode = s.hcode := rfl
@[simp] theorem State.setOut_symtab (s : State) (bs : List Byte) : (s.setOut bs).symtab = s.symtab := rfl
@[simp] theorem State.setOut_arena (s : State) (bs : List Byte) : (s.setOut bs).arena = s.arena := rfl
@[simp] theorem State.setOut_lut (s : State) (bs : List Byte) : (s.setOut bs).lut = s.lut := rfl
@[simp] theorem State.setOut_mem (s : State) (bs : List Byte) : (s.setOut bs).mem = s.mem.setOut bs := rfl
@[simp] theorem State.setOut_host (s : State) (bs : List Byte) : (s.setOut bs).host = s.host := rfl
@[simp] theorem State.setOut_reply (s : State) (bs : List Byte) : (s.setOut bs).reply = s.reply := rfl
@[simp] theorem State.setOut_draw (s : State) (bs : List Byte) : (s.setOut bs).draw = s.draw := rfl
@[simp] theorem State.setOut_bufDraw (s : State) (bs : List Byte) : (s.setOut bs).bufDraw = s.bufDraw := rfl

@[simp] theorem State.recordFault_done (s : State) (r : Raise) : (s.recordFault r).done = false := rfl
@[simp] theorem State.recordFault_error (s : State) (r : Raise) : (s.recordFault r).error = true := rfl
@[simp] theorem State.recordFault_errCode (s : State) (r : Raise) : (s.recordFault r).errCode = r.kind.code := rfl
@[simp] theorem State.recordFault_errInfo (s : State) (r : Raise) : (s.recordFault r).errInfo = r.info := rfl
@[simp] theorem State.recordFault_backend (s : State) (r : Raise) : (s.recordFault r).backend = s.backend := rfl
@[simp] theorem State.recordFault_inLen (s : State) (r : Raise) : (s.recordFault r).inLen = s.inLen := rfl
@[simp] theorem State.recordFault_expectedCount (s : State) (r : Raise) : (s.recordFault r).expectedCount = s.expectedCount := rfl
@[simp] theorem State.recordFault_outLen (s : State) (r : Raise) : (s.recordFault r).outLen = 0 := rfl
@[simp] theorem State.recordFault_inPos (s : State) (r : Raise) : (s.recordFault r).inPos = s.inPos := rfl
@[simp] theorem State.recordFault_outPos (s : State) (r : Raise) : (s.recordFault r).outPos = s.outPos := rfl
@[simp] theorem State.recordFault_rcLow (s : State) (r : Raise) : (s.recordFault r).rcLow = s.rcLow := rfl
@[simp] theorem State.recordFault_rcHigh (s : State) (r : Raise) : (s.recordFault r).rcHigh = s.rcHigh := rfl
@[simp] theorem State.recordFault_rcPending (s : State) (r : Raise) : (s.recordFault r).rcPending = s.rcPending := rfl
@[simp] theorem State.recordFault_rcValue (s : State) (r : Raise) : (s.recordFault r).rcValue = s.rcValue := rfl
@[simp] theorem State.recordFault_ransX (s : State) (r : Raise) : (s.recordFault r).ransX = s.ransX := rfl
@[simp] theorem State.recordFault_freq (s : State) (r : Raise) : (s.recordFault r).freq = s.freq := rfl
@[simp] theorem State.recordFault_cum (s : State) (r : Raise) : (s.recordFault r).cum = s.cum := rfl
@[simp] theorem State.recordFault_hlen (s : State) (r : Raise) : (s.recordFault r).hlen = s.hlen := rfl
@[simp] theorem State.recordFault_hcode (s : State) (r : Raise) : (s.recordFault r).hcode = s.hcode := rfl
@[simp] theorem State.recordFault_symtab (s : State) (r : Raise) : (s.recordFault r).symtab = s.symtab := rfl
@[simp] theorem State.recordFault_arena (s : State) (r : Raise) : (s.recordFault r).arena = s.arena := rfl
@[simp] theorem State.recordFault_lut (s : State) (r : Raise) : (s.recordFault r).lut = s.lut := rfl
@[simp] theorem State.recordFault_mem (s : State) (r : Raise) : (s.recordFault r).mem = s.mem := rfl
@[simp] theorem State.recordFault_host (s : State) (r : Raise) : (s.recordFault r).host = s.host := rfl
@[simp] theorem State.recordFault_reply (s : State) (r : Raise) : (s.recordFault r).reply = s.reply := rfl
@[simp] theorem State.recordFault_draw (s : State) (r : Raise) : (s.recordFault r).draw = s.draw := rfl
@[simp] theorem State.recordFault_bufDraw (s : State) (r : Raise) : (s.recordFault r).bufDraw = s.bufDraw := rfl

@[simp] theorem State.unspecify_done (s : State) (fp : Footprint) : (s.unspecify fp).done = s.done := rfl
@[simp] theorem State.unspecify_error (s : State) (fp : Footprint) : (s.unspecify fp).error = s.error := rfl
@[simp] theorem State.unspecify_errCode (s : State) (fp : Footprint) : (s.unspecify fp).errCode = s.errCode := rfl
@[simp] theorem State.unspecify_errInfo (s : State) (fp : Footprint) : (s.unspecify fp).errInfo = s.errInfo := rfl
@[simp] theorem State.unspecify_backend (s : State) (fp : Footprint) : (s.unspecify fp).backend = s.backend := rfl
@[simp] theorem State.unspecify_inLen (s : State) (fp : Footprint) : (s.unspecify fp).inLen = s.inLen := rfl
@[simp] theorem State.unspecify_expectedCount (s : State) (fp : Footprint) : (s.unspecify fp).expectedCount = s.expectedCount := rfl
@[simp] theorem State.unspecify_outLen (s : State) (fp : Footprint) : (s.unspecify fp).outLen = s.outLen := rfl
@[simp] theorem State.unspecify_host (s : State) (fp : Footprint) : (s.unspecify fp).host = s.host := rfl
@[simp] theorem State.unspecify_reply (s : State) (fp : Footprint) : (s.unspecify fp).reply = s.reply := rfl
@[simp] theorem State.unspecify_draw (s : State) (fp : Footprint) : (s.unspecify fp).draw = s.draw := rfl
@[simp] theorem State.unspecify_bufDraw (s : State) (fp : Footprint) : (s.unspecify fp).bufDraw = s.bufDraw := rfl

@[simp] theorem State.takeFault_done (s : State) (fp : Footprint) (r : Raise) : (s.takeFault fp r).done = false := rfl
@[simp] theorem State.takeFault_error (s : State) (fp : Footprint) (r : Raise) : (s.takeFault fp r).error = true := rfl
@[simp] theorem State.takeFault_errCode (s : State) (fp : Footprint) (r : Raise) : (s.takeFault fp r).errCode = r.kind.code := rfl
@[simp] theorem State.takeFault_errInfo (s : State) (fp : Footprint) (r : Raise) : (s.takeFault fp r).errInfo = r.info := rfl
@[simp] theorem State.takeFault_backend (s : State) (fp : Footprint) (r : Raise) : (s.takeFault fp r).backend = s.backend := rfl
@[simp] theorem State.takeFault_inLen (s : State) (fp : Footprint) (r : Raise) : (s.takeFault fp r).inLen = s.inLen := rfl
@[simp] theorem State.takeFault_expectedCount (s : State) (fp : Footprint) (r : Raise) : (s.takeFault fp r).expectedCount = s.expectedCount := rfl
@[simp] theorem State.takeFault_outLen (s : State) (fp : Footprint) (r : Raise) : (s.takeFault fp r).outLen = 0 := rfl
@[simp] theorem State.takeFault_host (s : State) (fp : Footprint) (r : Raise) : (s.takeFault fp r).host = s.host := rfl
@[simp] theorem State.takeFault_reply (s : State) (fp : Footprint) (r : Raise) : (s.takeFault fp r).reply = s.reply := rfl
@[simp] theorem State.takeFault_draw (s : State) (fp : Footprint) (r : Raise) : (s.takeFault fp r).draw = s.draw := rfl
@[simp] theorem State.takeFault_bufDraw (s : State) (fp : Footprint) (r : Raise) : (s.takeFault fp r).bufDraw = s.bufDraw := rfl

@[simp] theorem State.hufBuild_done (s : State) : s.hufBuild.done = s.done := rfl
@[simp] theorem State.hufBuild_error (s : State) : s.hufBuild.error = s.error := rfl
@[simp] theorem State.hufBuild_errCode (s : State) : s.hufBuild.errCode = s.errCode := rfl
@[simp] theorem State.hufBuild_errInfo (s : State) : s.hufBuild.errInfo = s.errInfo := rfl
@[simp] theorem State.hufBuild_backend (s : State) : s.hufBuild.backend = s.backend := rfl
@[simp] theorem State.hufBuild_inLen (s : State) : s.hufBuild.inLen = s.inLen := rfl
@[simp] theorem State.hufBuild_expectedCount (s : State) : s.hufBuild.expectedCount = s.expectedCount := rfl
@[simp] theorem State.hufBuild_outLen (s : State) : s.hufBuild.outLen = s.outLen := rfl
@[simp] theorem State.hufBuild_inPos (s : State) : s.hufBuild.inPos = s.inPos := rfl
@[simp] theorem State.hufBuild_outPos (s : State) : s.hufBuild.outPos = s.outPos := rfl
@[simp] theorem State.hufBuild_rcLow (s : State) : s.hufBuild.rcLow = s.rcLow := rfl
@[simp] theorem State.hufBuild_rcHigh (s : State) : s.hufBuild.rcHigh = s.rcHigh := rfl
@[simp] theorem State.hufBuild_rcPending (s : State) : s.hufBuild.rcPending = s.rcPending := rfl
@[simp] theorem State.hufBuild_rcValue (s : State) : s.hufBuild.rcValue = s.rcValue := rfl
@[simp] theorem State.hufBuild_ransX (s : State) : s.hufBuild.ransX = s.ransX := rfl
@[simp] theorem State.hufBuild_freq (s : State) : s.hufBuild.freq = s.freq := rfl
@[simp] theorem State.hufBuild_cum (s : State) : s.hufBuild.cum = s.cum := rfl
@[simp] theorem State.hufBuild_symtab (s : State) : s.hufBuild.symtab = s.symtab := rfl
@[simp] theorem State.hufBuild_arena (s : State) : s.hufBuild.arena = hufTree s.freq := rfl
@[simp] theorem State.hufBuild_lut (s : State) : s.hufBuild.lut = lutTable s.draw (hufTree s.freq) := rfl
@[simp] theorem State.hufBuild_mem (s : State) : s.hufBuild.mem = s.mem := rfl
@[simp] theorem State.hufBuild_host (s : State) : s.hufBuild.host = s.host := rfl
@[simp] theorem State.hufBuild_reply (s : State) : s.hufBuild.reply = s.reply := rfl
@[simp] theorem State.hufBuild_draw (s : State) : s.hufBuild.draw = s.draw := rfl
@[simp] theorem State.hufBuild_bufDraw (s : State) : s.hufBuild.bufDraw = s.bufDraw := rfl

@[simp] theorem State.rcBuild_done (s : State) : s.rcBuild.done = s.done := rfl
@[simp] theorem State.rcBuild_error (s : State) : s.rcBuild.error = s.error := rfl
@[simp] theorem State.rcBuild_errCode (s : State) : s.rcBuild.errCode = s.errCode := rfl
@[simp] theorem State.rcBuild_errInfo (s : State) : s.rcBuild.errInfo = s.errInfo := rfl
@[simp] theorem State.rcBuild_backend (s : State) : s.rcBuild.backend = s.backend := rfl
@[simp] theorem State.rcBuild_inLen (s : State) : s.rcBuild.inLen = s.inLen := rfl
@[simp] theorem State.rcBuild_expectedCount (s : State) : s.rcBuild.expectedCount = s.expectedCount := rfl
@[simp] theorem State.rcBuild_outLen (s : State) : s.rcBuild.outLen = s.outLen := rfl
@[simp] theorem State.rcBuild_inPos (s : State) : s.rcBuild.inPos = s.inPos := rfl
@[simp] theorem State.rcBuild_outPos (s : State) : s.rcBuild.outPos = s.outPos := rfl
@[simp] theorem State.rcBuild_rcLow (s : State) : s.rcBuild.rcLow = s.rcLow := rfl
@[simp] theorem State.rcBuild_rcHigh (s : State) : s.rcBuild.rcHigh = s.rcHigh := rfl
@[simp] theorem State.rcBuild_rcPending (s : State) : s.rcBuild.rcPending = s.rcPending := rfl
@[simp] theorem State.rcBuild_rcValue (s : State) : s.rcBuild.rcValue = s.rcValue := rfl
@[simp] theorem State.rcBuild_ransX (s : State) : s.rcBuild.ransX = s.ransX := rfl
@[simp] theorem State.rcBuild_freq (s : State) : s.rcBuild.freq = s.freq := rfl
@[simp] theorem State.rcBuild_cum (s : State) : s.rcBuild.cum = s.freq.cumulative := rfl
@[simp] theorem State.rcBuild_hlen (s : State) : s.rcBuild.hlen = s.hlen := rfl
@[simp] theorem State.rcBuild_hcode (s : State) : s.rcBuild.hcode = s.hcode := rfl
@[simp] theorem State.rcBuild_symtab (s : State) : s.rcBuild.symtab = s.symtab := rfl
@[simp] theorem State.rcBuild_arena (s : State) : s.rcBuild.arena = s.arena := rfl
@[simp] theorem State.rcBuild_lut (s : State) : s.rcBuild.lut = s.lut := rfl
@[simp] theorem State.rcBuild_mem (s : State) : s.rcBuild.mem = s.mem := rfl
@[simp] theorem State.rcBuild_host (s : State) : s.rcBuild.host = s.host := rfl
@[simp] theorem State.rcBuild_reply (s : State) : s.rcBuild.reply = s.reply := rfl
@[simp] theorem State.rcBuild_draw (s : State) : s.rcBuild.draw = s.draw := rfl
@[simp] theorem State.rcBuild_bufDraw (s : State) : s.rcBuild.bufDraw = s.bufDraw := rfl

@[simp] theorem State.ransBuild_done (s : State) : s.ransBuild.done = s.done := rfl
@[simp] theorem State.ransBuild_error (s : State) : s.ransBuild.error = s.error := rfl
@[simp] theorem State.ransBuild_errCode (s : State) : s.ransBuild.errCode = s.errCode := rfl
@[simp] theorem State.ransBuild_errInfo (s : State) : s.ransBuild.errInfo = s.errInfo := rfl
@[simp] theorem State.ransBuild_backend (s : State) : s.ransBuild.backend = s.backend := rfl
@[simp] theorem State.ransBuild_inLen (s : State) : s.ransBuild.inLen = s.inLen := rfl
@[simp] theorem State.ransBuild_expectedCount (s : State) : s.ransBuild.expectedCount = s.expectedCount := rfl
@[simp] theorem State.ransBuild_outLen (s : State) : s.ransBuild.outLen = s.outLen := rfl
@[simp] theorem State.ransBuild_inPos (s : State) : s.ransBuild.inPos = s.inPos := rfl
@[simp] theorem State.ransBuild_outPos (s : State) : s.ransBuild.outPos = s.outPos := rfl
@[simp] theorem State.ransBuild_rcLow (s : State) : s.ransBuild.rcLow = s.rcLow := rfl
@[simp] theorem State.ransBuild_rcHigh (s : State) : s.ransBuild.rcHigh = s.rcHigh := rfl
@[simp] theorem State.ransBuild_rcPending (s : State) : s.ransBuild.rcPending = s.rcPending := rfl
@[simp] theorem State.ransBuild_rcValue (s : State) : s.ransBuild.rcValue = s.rcValue := rfl
@[simp] theorem State.ransBuild_ransX (s : State) : s.ransBuild.ransX = s.ransX := rfl
@[simp] theorem State.ransBuild_freq (s : State) : s.ransBuild.freq = s.freq := rfl
@[simp] theorem State.ransBuild_cum (s : State) : s.ransBuild.cum = s.freq.cumulative := rfl
@[simp] theorem State.ransBuild_hlen (s : State) : s.ransBuild.hlen = s.hlen := rfl
@[simp] theorem State.ransBuild_hcode (s : State) : s.ransBuild.hcode = s.hcode := rfl
@[simp] theorem State.ransBuild_symtab (s : State) : s.ransBuild.symtab = ransSymtab s.freq := rfl
@[simp] theorem State.ransBuild_arena (s : State) : s.ransBuild.arena = s.arena := rfl
@[simp] theorem State.ransBuild_lut (s : State) : s.ransBuild.lut = s.lut := rfl
@[simp] theorem State.ransBuild_mem (s : State) : s.ransBuild.mem = s.mem := rfl
@[simp] theorem State.ransBuild_host (s : State) : s.ransBuild.host = s.host := rfl
@[simp] theorem State.ransBuild_reply (s : State) : s.ransBuild.reply = s.reply := rfl
@[simp] theorem State.ransBuild_draw (s : State) : s.ransBuild.draw = s.draw := rfl
@[simp] theorem State.ransBuild_bufDraw (s : State) : s.ransBuild.bufDraw = s.bufDraw := rfl

@[simp] theorem State.loadTable_done (s : State) : s.loadTable.done = s.done := rfl
@[simp] theorem State.loadTable_error (s : State) : s.loadTable.error = s.error := rfl
@[simp] theorem State.loadTable_errCode (s : State) : s.loadTable.errCode = s.errCode := rfl
@[simp] theorem State.loadTable_errInfo (s : State) : s.loadTable.errInfo = s.errInfo := rfl
@[simp] theorem State.loadTable_backend (s : State) : s.loadTable.backend = s.backend := rfl
@[simp] theorem State.loadTable_inLen (s : State) : s.loadTable.inLen = s.inLen := rfl
@[simp] theorem State.loadTable_expectedCount (s : State) : s.loadTable.expectedCount = s.expectedCount := rfl
@[simp] theorem State.loadTable_outLen (s : State) : s.loadTable.outLen = s.outLen := rfl
@[simp] theorem State.loadTable_inPos (s : State) : s.loadTable.inPos = s.inPos := rfl
@[simp] theorem State.loadTable_outPos (s : State) : s.loadTable.outPos = s.outPos := rfl
@[simp] theorem State.loadTable_rcLow (s : State) : s.loadTable.rcLow = s.rcLow := rfl
@[simp] theorem State.loadTable_rcHigh (s : State) : s.loadTable.rcHigh = s.rcHigh := rfl
@[simp] theorem State.loadTable_rcPending (s : State) : s.loadTable.rcPending = s.rcPending := rfl
@[simp] theorem State.loadTable_rcValue (s : State) : s.loadTable.rcValue = s.rcValue := rfl
@[simp] theorem State.loadTable_ransX (s : State) : s.loadTable.ransX = s.ransX := rfl
@[simp] theorem State.loadTable_freq (s : State) : s.loadTable.freq = FreqTable.load s.inByte := rfl
@[simp] theorem State.loadTable_cum (s : State) : s.loadTable.cum = s.cum := rfl
@[simp] theorem State.loadTable_hlen (s : State) : s.loadTable.hlen = s.hlen := rfl
@[simp] theorem State.loadTable_hcode (s : State) : s.loadTable.hcode = s.hcode := rfl
@[simp] theorem State.loadTable_symtab (s : State) : s.loadTable.symtab = s.symtab := rfl
@[simp] theorem State.loadTable_arena (s : State) : s.loadTable.arena = s.arena := rfl
@[simp] theorem State.loadTable_lut (s : State) : s.loadTable.lut = s.lut := rfl
@[simp] theorem State.loadTable_mem (s : State) : s.loadTable.mem = s.mem := rfl
@[simp] theorem State.loadTable_host (s : State) : s.loadTable.host = s.host := rfl
@[simp] theorem State.loadTable_reply (s : State) : s.loadTable.reply = s.reply := rfl
@[simp] theorem State.loadTable_draw (s : State) : s.loadTable.draw = s.draw := rfl
@[simp] theorem State.loadTable_bufDraw (s : State) : s.loadTable.bufDraw = s.bufDraw := rfl

end Sys2Proof.Machine
end

