-- ==== Sys2Proof/Laws/Ops.lean ====
section
/-!
SUPPORT. What each shared operation can do, once: the prologue, the end of a command, the entry checks, the bit writer,
and the bit order of streams.
-/
namespace Sys2Proof.Machine

/-! ## Prologue and end of a command -/

theorem State.command_of_error {s : State} (run : State → State) (h : s.error = true) : s.command run = s := by
  simp [State.command, h]

theorem State.command_of_ok {s : State} (run : State → State) (h : s.error = false) :
    s.command run = run s.accept := by
  simp [State.command, h]

@[simp] theorem State.finish_ok (s t : State) (fp : Footprint) : s.finish fp (.ok t) = t.complete := rfl

@[simp] theorem State.finish_error (s : State) (fp : Footprint) (r : Raise) :
    s.finish fp (.error r) = s.takeFault fp r := rfl

/-- A command ends in one of two ways. -/
theorem State.finish_cases (s : State) (fp : Footprint) (r : Except Raise State) :
    (∃ t, r = .ok t ∧ s.finish fp r = t.complete) ∨ (∃ e, r = .error e ∧ s.finish fp r = s.takeFault fp e) := by
  cases r with
  | ok t => exact .inl ⟨t, rfl, rfl⟩
  | error e => exact .inr ⟨e, rfl, rfl⟩

theorem State.withInput_of_le {s : State} (k : Except Raise State) (h : s.inLen.toNat ≤ Config.inCap) :
    s.withInput k = k := by simp [State.withInput, Nat.not_lt.2 h]

theorem State.withInput_of_gt {s : State} (k : Except Raise State) (h : Config.inCap < s.inLen.toNat) :
    s.withInput k = .error (capacityError 0) := by simp [State.withInput, h]

theorem State.withCount_of_le {s : State} (k : Except Raise State) (h : s.expectedCount.toNat ≤ Config.outCap) :
    s.withCount k = k := by simp [State.withCount, Nat.not_lt.2 h]

theorem State.withCount_of_gt {s : State} (k : Except Raise State) (h : Config.outCap < s.expectedCount.toNat) :
    s.withCount k = .error (capacityError 0) := by simp [State.withCount, h]

theorem State.withInput_ok {s t : State} {k : Except Raise State} (h : s.withInput k = .ok t) :
    s.inLen.toNat ≤ Config.inCap ∧ k = .ok t := by
  unfold State.withInput at h
  split at h
  · cases h
  · exact ⟨by omega, h⟩

theorem State.withCount_ok {s t : State} {k : Except Raise State} (h : s.withCount k = .ok t) :
    s.expectedCount.toNat ≤ Config.outCap ∧ k = .ok t := by
  unfold State.withCount at h
  split at h
  · cases h
  · exact ⟨by omega, h⟩

/-- A fault leaves in `mem` at most what stood there: `OUT` may be forgotten, and nothing else. -/
theorem State.takeFault_read (s : State) (fp : Footprint) (r : Raise) (a : Nat) :
    (s.takeFault fp r).mem.read a = if fp.out = true ∧ inOutBuffer a = true then none else s.mem.read a := by
  have : (s.takeFault fp r).mem = if fp.out then s.mem.dropOut else s.mem := rfl
  rw [this]
  by_cases h : fp.out = true <;> simp [h, Memory.read_dropOut]

theorem State.takeFault_wf {s : State} (fp : Footprint) (r : Raise) (h : s.mem.wf) : (s.takeFault fp r).mem.wf := by
  have : (s.takeFault fp r).mem = if fp.out then s.mem.dropOut else s.mem := rfl
  rw [this]
  split
  · exact Memory.dropOut_wf h
  · exact h

/-- State that a command does not list among its writes keeps its value through a fault. -/
theorem State.takeFault_freq_of_not {s : State} {fp : Footprint} (r : Raise) (h : fp.freq = false) :
    (s.takeFault fp r).freq = s.freq := by
  simp [State.takeFault, State.recordFault, State.unspecify, h]

/-! ## The bit writer -/

/-- All that writing a bit string can do: the bits are appended where they fit the room, and else the symbol's index is
reported. -/
theorem BitWriter.putAll_eq (room i : Nat) : ∀ (bs : Bits) (w : BitWriter),
    w.putAll room i bs =
      if bs = [] ∨ w.bits.length + bs.length ≤ 8 * room then .ok ⟨w.bits ++ bs⟩ else .error (capacityError i) := by
  intro bs
  induction bs with
  | nil => intro w; simp [BitWriter.putAll]
  | cons b bs ih =>
    intro w
    rw [BitWriter.putAll, BitWriter.put]
    by_cases h : room ≤ w.bits.length / 8
    · rw [if_pos h, if_neg (by simp; omega)]
    · rw [if_neg h]
      simp only [ih, List.append_assoc, List.singleton_append, List.length_append, List.length_cons, List.length_nil]
      by_cases hb : bs = []
      · subst hb; rw [if_pos (by simp), if_pos (by simp; omega)]
      · by_cases hr : w.bits.length + 1 + bs.length ≤ 8 * room
        · rw [if_pos (by right; omega), if_pos (by right; omega)]
        · rw [if_neg (by simp [hb]; omega), if_neg (by simp; omega)]

theorem BitWriter.putAll_ok {room i : Nat} {w w' : BitWriter} {bs : Bits} (h : w.putAll room i bs = .ok w')
    (hw : w.bits.length ≤ 8 * room) : w'.bits = w.bits ++ bs ∧ w'.bits.length ≤ 8 * room := by
  rw [BitWriter.putAll_eq] at h
  split at h
  · rename_i hc
    cases h
    refine ⟨rfl, ?_⟩
    rcases hc with rfl | hc
    · simpa using hw
    · simpa using hc
  · cases h

/-! ## The bit order of streams -/

@[simp] theorem packBytes_length (n : Nat) : ∀ bs, (packBytes n bs).length = n := by
  induction n with
  | zero => intro bs; rfl
  | succ n ih => intro bs; simp [packBytes, ih]

@[simp] theorem packBits_length (bs : Bits) : (packBits bs).length = (bs.length + 7) / 8 := by simp [packBits]

@[simp] theorem bitsOfByte_length (b : Byte) : (bitsOfByte b).length = 8 := rfl

@[simp] theorem streamBits_length (P : List Byte) : (streamBits P).length = 8 * P.length := by
  induction P with
  | nil => rfl
  | cons b P ih =>
    simp only [streamBits, List.flatMap_cons, List.length_append, bitsOfByte_length, List.length_cons] at ih ⊢
    omega

/-- The bits of a byte made of eight bits are those bits. -/
theorem bitsOfByte_byteOfBits (bs : Bits) :
    bitsOfByte (byteOfBits bs) = (List.range 8).map fun j => bs.getD j false := by
  have key : ∀ a b c d e f g h : Bool,
      bitsOfByte (BitVec.ofNat 8 (natOfBits [a, b, c, d, e, f, g, h])) = [a, b, c, d, e, f, g, h] := by decide
  exact key _ _ _ _ _ _ _ _

/-- Packing keeps every bit in its place: the stream of a packed bit string is the string, then zeros to the byte's
end. -/
theorem streamBits_packBytes (n : Nat) : ∀ bs : Bits, bs.length ≤ 8 * n →
    streamBits (packBytes n bs) = bs ++ List.replicate (8 * n - bs.length) false := by
  induction n with
  | zero => intro bs h; simp at h; simp [packBytes, h, streamBits]
  | succ n ih =>
    intro bs h
    have hstep : streamBits (packBytes (n + 1) bs) = bitsOfByte (byteOfBits bs) ++ streamBits (packBytes n (bs.drop 8)) := by
      simp [packBytes, streamBits]
    rw [hstep, ih _ (by simp; omega), bitsOfByte_byteOfBits]
    apply List.ext_getElem
    · simp; omega
    · intro k h₁ h₂
      simp only [List.getElem_append, List.length_map, List.length_range, List.getElem_map, List.getElem_range,
        List.getElem_drop, List.getElem_replicate, List.length_drop]
      split <;> rename_i hk
      · split <;> rename_i hb
        · simp [List.getD_eq_getElem?_getD, hb]
        · simp [List.getD_eq_getElem?_getD, List.getElem?_eq_none (Nat.not_lt.1 hb)]
      · split <;> rename_i hb
        · rw [dif_pos (by omega)]; congr 1; omega
        · rw [dif_neg (by omega)]

theorem streamBits_packBits (bs : Bits) :
    streamBits (packBits bs) = bs ++ List.replicate (8 * ((bs.length + 7) / 8) - bs.length) false :=
  streamBits_packBytes _ bs (by omega)

end Sys2Proof.Machine
end

