-- ==== Sys2Proof/Laws/PerInstr.lean ====
section
/-!
SUPPORT. Statements made for every command, one lemma for each constructor of `Instr`.
-/
namespace Sys2Proof.Laws.LegalWord

/-- The command is well formed and its word is legal by the table of units (spec/30_encoding.md R101, R104), which the
decoder was not written from; the word fits the low byte, and decoding gives the command back (R103). -/
def Statement (i : Instr) : Prop :=
  i.wellFormed = true ∧ wellFormedWord (encode i) = true ∧ (encode i).toNat < 256 ∧ decodeWord (encode i) = .ok i

theorem nop : Statement .nop := by unfold Statement; decide
theorem freqCount : Statement .freqCount := by unfold Statement; decide
theorem freqCountFloor : Statement .freqCountFloor := by unfold Statement; decide
theorem freqNorm : Statement .freqNorm := by unfold Statement; decide
theorem hufBuild : Statement .hufBuild := by unfold Statement; decide
theorem hufEncode : Statement .hufEncode := by unfold Statement; decide
theorem hufDecode : Statement .hufDecode := by unfold Statement; decide
theorem rcBuild : Statement .rcBuild := by unfold Statement; decide
theorem rcEncode : Statement .rcEncode := by unfold Statement; decide
theorem rcDecode : Statement .rcDecode := by unfold Statement; decide
theorem ransBuild : Statement .ransBuild := by unfold Statement; decide
theorem ransEncode : Statement .ransEncode := by unfold Statement; decide
theorem ransDecode : Statement .ransDecode := by unfold Statement; decide
theorem planeCompress : Statement .planeCompress := by unfold Statement; decide
theorem planeDecompress : Statement .planeDecompress := by unfold Statement; decide
theorem softReset : Statement .softReset := by unfold Statement; decide

end Sys2Proof.Laws.LegalWord
end

