-- ==== Sys2Proof/Laws/Serialise.lean ====
section
/-!
SUPPORT. The serialised table (spec/20_memory.md R72) byte by byte, that loading undoes serialising, and what a command
reads of an `IN` that was filled with bytes.
-/
namespace Sys2Proof.Machine

/-- Byte `j` of the chunk of index `e`, when all chunks of a flattened list have four bytes. -/
theorem getElem?_flatMap_four {α : Type} (f : α → List Byte) (hf : ∀ a, (f a).length = 4) :
    ∀ (l : List α) (e j : Nat), j < 4 → (l.flatMap f)[4 * e + j]? = l[e]?.bind fun a => (f a)[j]? := by
  intro l
  induction l with
  | nil => intro e j _; simp
  | cons a l ih =>
    intro e j hj
    rw [List.flatMap_cons]
    cases e with
    | zero => rw [List.getElem?_append_left (by rw [hf]; omega)]; simp
    | succ e =>
      rw [List.getElem?_append_right (by rw [hf]; omega), hf,
        show 4 * (e + 1) + j - 4 = 4 * e + j by omega, ih e j hj]
      simp

theorem FreqTable.serialise_getElem? (F : FreqTable) (e j : Nat) (he : e < 256) (hj : j < 4) :
    F.serialise[4 * e + j]? = some (F[e].extractLsb' (8 * j) 8) := by
  rw [FreqTable.serialise, getElem?_flatMap_four _ (fun _ => rfl) _ _ _ hj]
  have : F.toList[e]? = some F[e] := by simp [he]
  rw [this]
  match j, hj with
  | 0, _ | 1, _ | 2, _ | 3, _ => rfl

@[simp] theorem FreqTable.serialise_length (F : FreqTable) : F.serialise.length = 1024 := by
  have : ∀ l : List Word, (l.flatMap fun w =>
      [w.extractLsb' 0 8, w.extractLsb' 8 8, w.extractLsb' 16 8, w.extractLsb' 24 8]).length = 4 * l.length := by
    intro l
    induction l with
    | nil => rfl
    | cons w l ih => rw [List.flatMap_cons, List.length_append, ih, List.length_cons]; simp; omega
  rw [FreqTable.serialise, this, Vector.length_toList]

/-- The number that the four bytes of an entry hold. -/
theorem FreqTable.load_at (byte : Nat → Byte) (b : Byte) :
    (FreqTable.load byte).at b = (byte (4 * b.toNat)).toNat + 256 * (byte (4 * b.toNat + 1)).toNat +
      65536 * (byte (4 * b.toNat + 2)).toNat + 16777216 * (byte (4 * b.toNat + 3)).toNat := by
  simp only [FreqTable.load, FreqTable.at, tabulate_getElem, BitVec.toNat_append]
  have h₀ := (byte (4 * b.toNat)).isLt
  have h₁ := (byte (4 * b.toNat + 1)).isLt
  have h₂ := (byte (4 * b.toNat + 2)).isLt
  rw [← Nat.shiftLeft_add_eq_or_of_lt h₀, ← Nat.shiftLeft_add_eq_or_of_lt h₁, ← Nat.shiftLeft_add_eq_or_of_lt h₂]
  simp only [Nat.shiftLeft_eq]
  omega

/-- Loading undoes serialising (R72). -/
theorem FreqTable.load_serialise (F : FreqTable) (byte : Nat → Byte)
    (h : ∀ k < 1024, F.serialise[k]? = some (byte k)) : FreqTable.load byte = F := by
  apply Vector.ext
  intro e he
  have hb : ∀ j < 4, byte (4 * e + j) = F[e].extractLsb' (8 * j) 8 := fun j hj => by
    have := h (4 * e + j) (by omega)
    rw [FreqTable.serialise_getElem? F e j he hj] at this
    exact (Option.some.inj this).symm
  have h₀ := hb 0 (by omega)
  have h₁ := hb 1 (by omega)
  have h₂ := hb 2 (by omega)
  have h₃ := hb 3 (by omega)
  simp only [FreqTable.load, tabulate_getElem, h₁, h₂, h₃]
  rw [show 4 * e = 4 * e + 0 by omega, h₀]
  apply BitVec.eq_of_getLsbD_eq
  intro i hi
  simp only [BitVec.getLsbD_append, BitVec.getLsbD_extractLsb']
  split
  · simp_all
  · rename_i h₁
    split
    · rename_i h₂
      rw [show 8 * 1 + (i - 8) = i by omega]; simp [h₂]
    · rename_i h₂
      split
      · rename_i h₃
        rw [show 8 * 2 + (i - 8 - 8) = i by omega]; simp [h₃]
      · rename_i h₃
        rw [show 8 * 3 + (i - 8 - 8 - 8) = i by omega]
        have : i - 8 - 8 - 8 < 8 := by omega
        simp [this]

/-! ## `IN` filled with bytes -/

theorem State.inByte_of_cells {s : State} {bs : List Byte} (h : s.mem = cellsFrom Config.inBase bs) {k : Nat}
    (hk : k < bs.length) : s.inByte k = bs[k] := by
  rw [State.inByte, h, read_cellsFrom, if_pos (by omega), Nat.add_sub_cancel_left]
  simp [hk]

theorem State.inBytes_of_cells {s : State} {bs : List Byte} (h : s.mem = cellsFrom Config.inBase bs) {off n : Nat}
    (hn : off + n ≤ bs.length) : s.inBytes off n = (bs.drop off).take n := by
  apply List.ext_getElem
  · simp [State.inBytes]; omega
  · intro k h₁ h₂
    have hk : k < n := by simpa [State.inBytes] using h₁
    simp only [State.inBytes, List.getElem_map, List.getElem_range, List.getElem_take, List.getElem_drop]
    exact State.inByte_of_cells h (by omega)

theorem State.input_of_cells {s : State} {bs : List Byte} (h : s.mem = cellsFrom Config.inBase bs)
    (hl : s.inLen.toNat = bs.length) : s.input = bs := by
  rw [State.input, State.inBytes_of_cells h (by omega), hl]
  simp

end Sys2Proof.Machine
end

