-- ==== Sys2Proof/Laws/Units.lean ====
section
/-!
SUPPORT. What each unit's operation can do, once: the six coder operations, the plane commands, the counting operation
and the two table builds answer in one of the ways listed here, and a proof about a command cites the lemma instead of
unfolding the operation.
-/
namespace Sys2Proof.Machine

/-! ## Frequency model -/

/-- Counting checks `IN_LEN` and then completes. -/
theorem freqCountOp_cases (floor : Nat) (s : State) :
    (Config.inCap < s.inLen.toNat ∧ freqCountOp floor s = .error (capacityError 0)) ∨
    (s.inLen.toNat ≤ Config.inCap ∧
      freqCountOp floor s = .ok (({ s with freq := countTable s.input floor }).setCursors 0 s.inLen.toNat 0)) := by
  rcases Nat.lt_or_ge Config.inCap s.inLen.toNat with h | h
  · exact .inl ⟨h, State.withInput_of_gt _ h⟩
  · exact .inr ⟨h, State.withInput_of_le _ h⟩

/-! ## Huffman -/

/-- The encoder from "build" on either writes the loop's bits or raises what the loop raises. -/
theorem hufEncodeOp_cases (pre : List Byte) (s : State) :
    (∃ w, hufEncodeLoop (hufCode (hufTree s.freq)) (Config.outCap - pre.length) 0 s.input ⟨[]⟩ = .ok w ∧
      hufEncodeOp pre s = .ok ((s.hufBuild.setOut (pre ++ packBits w.bits)).setCursors
        (pre.length + (w.bits.length + 7) / 8) s.inLen.toNat w.bits.length)) ∨
    (∃ e, hufEncodeLoop (hufCode (hufTree s.freq)) (Config.outCap - pre.length) 0 s.input ⟨[]⟩ = .error e ∧
      hufEncodeOp pre s = .error e) := by
  cases h : hufEncodeLoop (hufCode (hufTree s.freq)) (Config.outCap - pre.length) 0 s.input ⟨[]⟩ with
  | ok w => exact .inl ⟨w, rfl, by rw [hufEncodeOp]; simp only [State.hufBuild, h]⟩
  | error e => exact .inr ⟨e, rfl, by rw [hufEncodeOp]; simp only [State.hufBuild, h]⟩

/-- The decoder from "build" on refuses the table, or raises what the loop raises, or delivers the loop's symbols. -/
theorem hufDecodeOp_cases (P : List Byte) (s : State) :
    ((s.freq.total ≠ s.expectedCount.toNat ∨ 8 * P.length < hufNeed s.freq (hufTree s.freq)) ∧
      hufDecodeOp P s = .error formatError) ∨
    (s.freq.total = s.expectedCount.toNat ∧ hufNeed s.freq (hufTree s.freq) ≤ 8 * P.length ∧
      ((∃ e, hufDecodeSymbols (hufTree s.freq) s.expectedCount.toNat (streamBits P) = .error e ∧
          hufDecodeOp P s = .error e) ∨
       (∃ q, hufDecodeSymbols (hufTree s.freq) s.expectedCount.toNat (streamBits P) = .ok q ∧
          hufDecodeOp P s =
            .ok ((s.hufBuild.setOut q.1).setCursors s.expectedCount.toNat q.2 s.expectedCount.toNat)))) := by
  by_cases h₁ : s.freq.total = s.expectedCount.toNat
  · by_cases h₂ : 8 * P.length < hufNeed s.freq (hufTree s.freq)
    · exact .inl ⟨.inr h₂, by simp [hufDecodeOp, State.hufBuild, h₁, h₂]⟩
    · refine .inr ⟨h₁, Nat.not_lt.1 h₂, ?_⟩
      cases h : hufDecodeSymbols (hufTree s.freq) s.expectedCount.toNat (streamBits P) with
      | error e => exact .inl ⟨e, rfl, by simp [hufDecodeOp, State.hufBuild, h₁, h₂, h]⟩
      | ok q => exact .inr ⟨q, rfl, by simp [hufDecodeOp, State.hufBuild, h₁, h₂, h]⟩
  · exact .inl ⟨.inl h₁, by simp [hufDecodeOp, h₁]⟩

theorem hufEncodeLoop_cons (code : Byte → Bits) (room i : Nat) (b : Byte) (bs : List Byte) (w : BitWriter) :
    hufEncodeLoop code room i (b :: bs) w =
      if code b = [] then .error (internalError i)
      else if w.bits.length + (code b).length ≤ 8 * room then
        hufEncodeLoop code room (i + 1) bs ⟨w.bits ++ code b⟩
      else .error (capacityError i) := by
  rw [hufEncodeLoop]
  by_cases hc : code b = []
  · simp [hc]
  · rw [if_neg hc, if_neg hc, BitWriter.putAll_eq]
    by_cases hr : w.bits.length + (code b).length ≤ 8 * room
    · simp [hr]
    · simp [hc, hr]

/-- All the encoding loop can do on a plane that it codes whole. -/
theorem hufEncodeLoop_ok (code : Byte → Bits) (room : Nat) : ∀ (bs : List Byte) (i : Nat) (w w' : BitWriter),
    w.bits.length ≤ 8 * room → hufEncodeLoop code room i bs w = .ok w' →
    w'.bits = w.bits ++ bs.flatMap code ∧ w'.bits.length ≤ 8 * room ∧ ∀ b ∈ bs, code b ≠ [] := by
  intro bs
  induction bs with
  | nil => intro i w w' hw h; cases h; simp [hw]
  | cons b bs ih =>
    intro i w w' hw h
    rw [hufEncodeLoop_cons] at h
    split at h
    · cases h
    · rename_i hc
      split at h
      · rename_i hr
        obtain ⟨h₁, h₂, h₃⟩ := ih (i + 1) ⟨w.bits ++ code b⟩ w' (by simpa using hr) h
        refine ⟨by simp [h₁], h₂, fun c hcm => ?_⟩
        rcases List.mem_cons.1 hcm with rfl | hcm
        · exact hc
        · exact h₃ c hcm
      · cases h

/-- A code tree's entry of the table `HLEN` (R165). -/
theorem State.hufBuild_hlen (s : State) :
    s.hufBuild.hlen = tabulate 256 fun k => BitVec.ofNat 8 (hufCode (hufTree s.freq) (BitVec.ofNat 8 k)).length := rfl

/-- The entries of the table `HCODE` (R165). -/
theorem State.hufBuild_hcode (s : State) :
    s.hufBuild.hcode = tabulate 256 fun k => packCode (hufCode (hufTree s.freq) (BitVec.ofNat 8 k)) := rfl

/-! ## Range coder -/

/-- `RC_BUILD` after its prologue checks the table and then completes. -/
theorem rcBuildOp_cases (s : State) :
    (rcTableOk s.freq = false ∧ rcBuildOp s = .error formatError) ∨
    (rcTableOk s.freq = true ∧ rcBuildOp s = .ok (s.rcBuild.setCursors 0 0 0)) := by
  cases h : rcTableOk s.freq
  · exact .inl ⟨rfl, by simp [rcBuildOp, h]⟩
  · exact .inr ⟨rfl, by simp [rcBuildOp, h]⟩

/-- The table check in the words of R202. -/
theorem rcTableOk_iff (F : FreqTable) : rcTableOk F = true ↔ (∀ b, F.at b ≠ 0) ∧ F.total ≤ Config.rcTop := by
  simp [rcTableOk, FreqTable.counts_eq]

/-- The encoder from "build" on refuses the table, or raises what the encode raises, or writes its bits and registers. -/
theorem rcEncodeOp_cases (pre : List Byte) (s : State) :
    (rcTableOk s.freq = false ∧ rcEncodeOp pre s = .error formatError) ∨
    (rcTableOk s.freq = true ∧
      ((∃ e, rcEncodeAll s.freq.cumulative (Config.outCap - pre.length) s.input = .error e ∧
          rcEncodeOp pre s = .error e) ∨
       (∃ q, rcEncodeAll s.freq.cumulative (Config.outCap - pre.length) s.input = .ok q ∧
          rcEncodeOp pre s =
            .ok { (s.rcBuild.setOut (pre ++ packBits q.2.bits)).setCursors
                    (pre.length + (q.2.bits.length + 7) / 8) s.inLen.toNat q.2.bits.length with
                  rcLow := BitVec.ofNat 32 q.1.low
                  rcHigh := BitVec.ofNat 32 q.1.high
                  rcPending := BitVec.ofNat 32 q.1.pending }))) := by
  cases h : rcTableOk s.freq
  · exact .inl ⟨rfl, by simp [rcEncodeOp, h]⟩
  · refine .inr ⟨rfl, ?_⟩
    cases he : rcEncodeAll s.freq.cumulative (Config.outCap - pre.length) s.input with
    | error e => exact .inl ⟨e, rfl, by rw [rcEncodeOp, h]; simp only [State.rcBuild, he]; rfl⟩
    | ok q => exact .inr ⟨q, rfl, by rw [rcEncodeOp, h]; simp only [State.rcBuild, he]; rfl⟩

/-- The decoder from "build" on refuses the table, or raises what the loop raises, or delivers its symbols and
registers. -/
theorem rcDecodeOp_cases (P : List Byte) (s : State) :
    (rcTableOk s.freq = false ∧ rcDecodeOp P s = .error formatError) ∨
    (rcTableOk s.freq = true ∧
      ((∃ e, rcDecodeLoop s.freq.cumulative s.expectedCount.toNat 0 (rcDecoderStart (streamBits P)) = .error e ∧
          rcDecodeOp P s = .error e) ∨
       (∃ q, rcDecodeLoop s.freq.cumulative s.expectedCount.toNat 0 (rcDecoderStart (streamBits P)) = .ok q ∧
          rcDecodeOp P s =
            .ok { (s.rcBuild.setOut q.1).setCursors s.expectedCount.toNat q.2.pos s.expectedCount.toNat with
                  rcLow := BitVec.ofNat 32 q.2.low
                  rcHigh := BitVec.ofNat 32 q.2.high
                  rcValue := BitVec.ofNat 32 q.2.value
                  rcPending := 0 }))) := by
  cases h : rcTableOk s.freq
  · exact .inl ⟨rfl, by simp [rcDecodeOp, h]⟩
  · refine .inr ⟨rfl, ?_⟩
    cases he : rcDecodeLoop s.freq.cumulative s.expectedCount.toNat 0 (rcDecoderStart (streamBits P)) with
    | error e => exact .inl ⟨e, rfl, by rw [rcDecodeOp, h]; simp only [State.rcBuild, he]; rfl⟩
    | ok q => exact .inr ⟨q, rfl, by rw [rcDecodeOp, h]; simp only [State.rcBuild, he]; rfl⟩

/-! ## rANS -/

/-- The table check in the words of R242. -/
theorem ransTableOk_iff (F : FreqTable) : ransTableOk F = true ↔ F.total = 4096 := by
  simp [ransTableOk, Config.tot]

/-- `RANS_BUILD` after its prologue checks the table and then completes. -/
theorem ransBuildOp_cases (s : State) :
    (s.freq.total ≠ 4096 ∧ ransBuildOp s = .error formatError) ∨
    (s.freq.total = 4096 ∧ ransBuildOp s = .ok (s.ransBuild.setCursors 0 0 0)) := by
  by_cases h : s.freq.total = 4096
  · exact .inr ⟨h, by simp [ransBuildOp, (ransTableOk_iff _).2 h]⟩
  · exact .inl ⟨h, by simp [ransBuildOp, ransTableOk, Config.tot, h]⟩

/-- The encoder from "build" on refuses the table, or raises what the encode raises, or writes its stream and `RANS_X`. -/
theorem ransEncodeOp_cases (pre : List Byte) (s : State) :
    (s.freq.total ≠ 4096 ∧ ransEncodeOp pre s = .error formatError) ∨
    (s.freq.total = 4096 ∧
      ((∃ e, ransEncodeAll s.freq s.freq.cumulative (Config.outCap - pre.length) s.input = .error e ∧
          ransEncodeOp pre s = .error e) ∨
       (∃ q, ransEncodeAll s.freq s.freq.cumulative (Config.outCap - pre.length) s.input = .ok q ∧
          ransEncodeOp pre s =
            .ok { (s.ransBuild.setOut (pre ++ q.2)).setCursors (pre.length + q.2.length) s.inLen.toNat q.2.length with
                  ransX := BitVec.ofNat 64 q.1 }))) := by
  by_cases h : s.freq.total = 4096
  · refine .inr ⟨h, ?_⟩
    cases he : ransEncodeAll s.freq s.freq.cumulative (Config.outCap - pre.length) s.input with
    | error e => exact .inl ⟨e, rfl, by rw [ransEncodeOp, (ransTableOk_iff _).2 h]; simp only [State.ransBuild, he]; rfl⟩
    | ok q => exact .inr ⟨q, rfl, by rw [ransEncodeOp, (ransTableOk_iff _).2 h]; simp only [State.ransBuild, he]; rfl⟩
  · exact .inl ⟨h, by simp [ransEncodeOp, ransTableOk, Config.tot, h]⟩

/-- The decoder from "build" on refuses the table, or raises what the decode raises, or delivers its symbols and
`RANS_X`. -/
theorem ransDecodeOp_cases (P : List Byte) (s : State) :
    (s.freq.total ≠ 4096 ∧ ransDecodeOp P s = .error formatError) ∨
    (s.freq.total = 4096 ∧
      ((∃ e, ransDecodeAll s.freq s.freq.cumulative (ransSymtab s.freq) s.expectedCount.toNat P = .error e ∧
          ransDecodeOp P s = .error e) ∨
       (∃ q, ransDecodeAll s.freq s.freq.cumulative (ransSymtab s.freq) s.expectedCount.toNat P = .ok q ∧
          ransDecodeOp P s =
            .ok { (s.ransBuild.setOut q.1).setCursors s.expectedCount.toNat (P.length - q.2.2.length)
                    s.expectedCount.toNat with
                  ransX := BitVec.ofNat 64 q.2.1 }))) := by
  by_cases h : s.freq.total = 4096
  · refine .inr ⟨h, ?_⟩
    cases he : ransDecodeAll s.freq s.freq.cumulative (ransSymtab s.freq) s.expectedCount.toNat P with
    | error e => exact .inl ⟨e, rfl, by rw [ransDecodeOp, (ransTableOk_iff _).2 h]; simp only [State.ransBuild, he]; rfl⟩
    | ok q => exact .inr ⟨q, rfl, by rw [ransDecodeOp, (ransTableOk_iff _).2 h]; simp only [State.ransBuild, he]; rfl⟩
  · exact .inl ⟨h, by simp [ransDecodeOp, ransTableOk, Config.tot, h]⟩

/-! ## Plane commands -/

/-- `PLANE_COMPRESS` after its prologue: the two entry checks that can fail, then the unit encoder over the plane's own
table. -/
theorem planeCompressOp_cases (s : State) :
    (Config.inCap < s.inLen.toNat ∧ planeCompressOp s = .error (capacityError 0)) ∨
    (s.inLen.toNat ≤ Config.inCap ∧
      ((backendOf s.backend = none ∧ planeCompressOp s = .error formatError) ∨
       (∃ b, backendOf s.backend = some b ∧
          planeCompressOp s = planeEncodeOp b (planeTable b s.input).serialise { s with freq := planeTable b s.input }))) := by
  rcases Nat.lt_or_ge Config.inCap s.inLen.toNat with h | h
  · exact .inl ⟨h, State.withInput_of_gt _ h⟩
  · refine .inr ⟨h, ?_⟩
    rw [planeCompressOp, State.withInput_of_le _ h]
    cases hb : backendOf s.backend with
    | none => exact .inl ⟨rfl, rfl⟩
    | some b => exact .inr ⟨b, rfl, if_neg (by simp [Config.outCap, Config.tableBytes])⟩

/-- The entry checks of `PLANE_DECOMPRESS` pass exactly for lengths within the buffers, a mode flag of a backend, and a
payload that holds the table. -/
theorem planeDecompressChecks_ok_iff (s : State) (b : Backend) :
    planeDecompressChecks s = .ok b ↔
      s.inLen.toNat ≤ Config.inCap ∧ s.expectedCount.toNat ≤ Config.outCap ∧ backendOf s.backend = some b ∧
        Config.tableBytes ≤ s.inLen.toNat := by
  unfold planeDecompressChecks
  by_cases h₁ : Config.inCap < s.inLen.toNat
  · simp [h₁]
  by_cases h₂ : Config.outCap < s.expectedCount.toNat
  · simp [h₁, h₂]
  by_cases h₃ : s.inLen.toNat < Config.tableBytes
  · cases backendOf s.backend <;> simp [h₁, h₂, h₃]
  · cases backendOf s.backend <;> simp [h₁, h₂, h₃, Nat.not_lt.1 h₁, Nat.not_lt.1 h₂, Nat.not_lt.1 h₃]

end Sys2Proof.Machine
end

