-- ==== Sys2Proof/Laws/Step.lean ====
section
/-!
SUPPORT. What a command and a step can do: every command answers a next state, a step takes the head of the host's list,
and the five transactions one by one.
-/
namespace Sys2Proof.Machine

/-! ## Commands -/

/-- No command stops: a fault of the block is a next state (R340). -/
theorem exec_next (i : Instr) (s : State) : ∃ t, exec i s = .next t := by
  cases i <;> exact ⟨_, rfl⟩

/-- While `ERROR` is 1 every command but `SOFT_RESET` leaves the state as it is (R345). -/
theorem exec_of_error {i : Instr} {s : State} (hi : i ≠ .softReset) (h : s.error = true) : exec i s = .next s := by
  cases i <;>
    first
      | exact absurd rfl hi
      | exact congrArg Host.Outcome.next (State.command_of_error _ h)

/-- A write to `CMD` runs the word's command, or is an illegal command. -/
theorem State.writeCmd_cases (s : State) (v : Word) :
    (∃ i, decodeWord v = .ok i ∧ s.writeCmd v = exec i s) ∨
    (∃ e, decodeWord v = .error e ∧ s.writeCmd v = .next (s.illegalCommand v)) := by
  cases h : decodeWord v with
  | ok i => exact .inl ⟨i, rfl, by simp [State.writeCmd, h]⟩
  | error e => exact .inr ⟨e, rfl, by simp [State.writeCmd, h]⟩

/-! ## Transactions -/

@[simp] theorem answer_next (r : Reply) (s : State) : answer r (.next s) = .next { s with reply := r } := rfl

/-- The check of a buffer access that passes: the region holds every byte of the range, and it is not the register
region. -/
theorem checkRange_next {a n : Nat} {r : Region} (h : checkRange a n = .next r) :
    1 ≤ n ∧ regionOf a = some r ∧ a + n ≤ r.base + r.size ∧ r ≠ .reg := by
  unfold checkRange at h
  split at h
  · cases h
  · split at h
    · cases h
    · rename_i r' hr'
      split at h
      · split at h
        · cases h
        · cases h; exact ⟨by omega, hr', by assumption, by assumption⟩
      · split at h <;> cases h

/-- The region of an address holds it. -/
theorem regionOf_holds {a : Nat} {r : Region} (h : regionOf a = some r) : r.base ≤ a ∧ a < r.base + r.size := by
  have := List.find?_some h
  simpa [Region.holds] using this

/-- Everything a transaction that answers a next state can have done. -/
theorem State.transact_cases {s t : State} {x : Txn} (h : s.transact x = .next t) :
    (∃ off, x = .regRead off ∧ checkOffset off = none ∧ t = { s with reply := .word (s.readOffset off) }) ∨
    (∃ off v u, x = .regWrite off v ∧ checkOffset off = none ∧ s.writeOffset off v = .next u ∧
      t = { u with reply := .empty }) ∨
    (∃ addr n r, x = .bufRead addr n ∧ checkRange addr.toNat n = .next r ∧
      t = { s with reply := .bytes ((List.range n).map fun j => s.regionByte r (addr.toNat + j - r.base)) }) ∨
    (∃ addr bs r, x = .bufWrite addr bs ∧ checkRange addr.toNat bs.length = .next r ∧
      t = { s.writeRegion r (addr.toNat - r.base) bs with reply := .empty }) ∨
    (x = .reset ∧ t = { s.restart with reply := .empty }) := by
  cases x with
  | regRead off =>
    simp only [State.transact] at h
    split at h
    · cases h
    · rename_i hc; cases h; exact .inl ⟨off, rfl, hc, rfl⟩
  | regWrite off v =>
    simp only [State.transact] at h
    split at h
    · cases h
    · rename_i hc
      cases hw : s.writeOffset off v with
      | next u => rw [hw] at h; cases h; exact .inr (.inl ⟨off, v, u, rfl, hc, hw, rfl⟩)
      | fault f => rw [hw] at h; cases h
      | refused e => rw [hw] at h; cases h
  | bufRead addr n =>
    simp only [State.transact] at h
    split at h
    · rename_i r hr; cases h; exact .inr (.inr (.inl ⟨addr, n, r, rfl, hr, rfl⟩))
    · cases h
    · cases h
  | bufWrite addr bs =>
    simp only [State.transact] at h
    split at h
    · rename_i r hr; cases h; exact .inr (.inr (.inr (.inl ⟨addr, bs, r, rfl, hr, rfl⟩)))
    · cases h
    · cases h
  | reset => cases h; exact .inr (.inr (.inr (.inr ⟨rfl, rfl⟩)))

/-- A write to a register offset runs a `CMD` write, stores in one register, or does nothing. -/
theorem State.writeOffset_cases {s t : State} {off v : Word} (h : s.writeOffset off v = .next t) :
    (Reg.ofNumber (off.toNat / 4) = some .cmd ∧ s.writeCmd v = .next t) ∨
    (∃ r, r ≠ .cmd ∧ Reg.ofNumber (off.toNat / 4) = some r ∧ t = s.writeReg v r) ∨
    (Reg.ofNumber (off.toNat / 4) = none ∧ t = s) := by
  unfold State.writeOffset at h
  split at h
  · rename_i hr; exact .inl ⟨hr, h⟩
  · rename_i r hne hr; cases h; exact .inr (.inl ⟨r, hne, hr, rfl⟩)
  · rename_i hr; cases h; exact .inr (.inr ⟨hr, rfl⟩)

/-! ## The step -/

/-- With no transaction coming the block is idle (R365). -/
theorem step_idle {s : State} (h : s.host = []) : step s = .next s := by
  simp [step, State.advance, h]

/-- A step is the host's next transaction, taken off the list (R20). -/
theorem step_transact {s : State} {x : Txn} {rest : List Txn} (h : s.host = x :: rest) :
    step s = ({ s with host := rest }).transact x := by
  simp [step, State.advance, h]

end Sys2Proof.Machine
end

