-- ==== Sys2Proof/Laws/Streams.lean ====
section
/-!
SUPPORT. Coded streams before the capacity of `OUT` limits them: symbols coded one after another, and the encoders' loops
where the stream fits.
-/
namespace Sys2Proof.Machine

/-! ## Range coder -/

@[simp] theorem rcBits_nil (C : CumTable) (c : RcEncoder) : rcBits C [] c = some ([], c) := rfl

/-- One symbol first, then the others. -/
theorem rcBits_cons {C : CumTable} {b : Byte} {bs : List Byte} {c c₁ c₂ : RcEncoder} {x w : Bits}
    (h₁ : rcBits C [b] c = some (x, c₁)) (h₂ : rcBits C bs c₁ = some (w, c₂)) :
    rcBits C (b :: bs) c = some (x ++ w, c₂) := by
  cases hn : rcNarrow C b c.low c.high with
  | none => simp [rcBits, hn] at h₁
  | some q =>
    simp only [rcBits, hn, List.append_nil, Option.some.injEq, Prod.mk.injEq] at h₁ ⊢
    obtain ⟨rfl, rfl⟩ := h₁
    rw [h₂]

/-- What coding a plane of at least one symbol did: a narrowing, the loop, and the rest. -/
theorem rcBits_cons_some {C : CumTable} {b : Byte} {bs : List Byte} {c : RcEncoder} {q : Bits × RcEncoder}
    (h : rcBits C (b :: bs) c = some q) :
    ∃ n r, rcNarrow C b c.low c.high = some n ∧
      rcBits C bs (rcRenormEncode rcFuel ⟨n.1, n.2, c.pending⟩).2 = some r ∧
      q = ((rcRenormEncode rcFuel ⟨n.1, n.2, c.pending⟩).1 ++ r.1, r.2) := by
  rw [rcBits] at h
  cases hn : rcNarrow C b c.low c.high with
  | none => simp [hn] at h
  | some n =>
    cases hr : rcBits C bs (rcRenormEncode rcFuel ⟨n.1, n.2, c.pending⟩).2 with
    | none => simp [hn, hr] at h
    | some r => exact ⟨n, r, rfl, hr, by simpa [hn, hr] using h.symm⟩

/-- The encoder's loop writes those bits where they fit. -/
theorem rcEncodeLoop_of_fits (C : CumTable) (room : Nat) : ∀ (B : List Byte) (i : Nat) (c : RcEncoder) (w : BitWriter)
    (q : Bits × RcEncoder), rcBits C B c = some q → w.bits.length + q.1.length ≤ 8 * room →
    rcEncodeLoop C room i B c w = .ok (q.2, ⟨w.bits ++ q.1⟩) := by
  intro B
  induction B with
  | nil => intro i c w q h _; cases h; simp [rcEncodeLoop]
  | cons b B ih =>
    intro i c w q h hf
    obtain ⟨n, r, hn, hr, rfl⟩ := rcBits_cons_some h
    simp only [List.length_append] at hf
    simp only [rcEncodeLoop, hn, BitWriter.putAll_eq]
    rw [if_pos (.inr (by omega))]
    simp only
    rw [ih (i + 1) _ ⟨w.bits ++ _⟩ r hr (by simp only [List.length_append]; omega)]
    simp only [List.append_assoc]

/-- The encoder's loop reports the symbol whose bits do not fit. -/
theorem rcEncodeLoop_of_overflow (C : CumTable) (room : Nat) (s : Byte) (post : List Byte) : ∀ (pre : List Byte) (i : Nat)
    (c : RcEncoder) (w : BitWriter) (q q' : Bits × RcEncoder), rcBits C pre c = some q →
    rcBits C (pre ++ [s]) c = some q' → w.bits.length + q.1.length ≤ 8 * room →
    8 * room < w.bits.length + q'.1.length →
    rcEncodeLoop C room i (pre ++ s :: post) c w = .error (capacityError (i + pre.length)) := by
  intro pre
  induction pre with
  | nil =>
    intro i c w q q' h h' hf ho
    cases h
    obtain ⟨n, r, hn, hr, rfl⟩ := rcBits_cons_some h'
    cases hr
    simp only [List.append_nil, List.length_nil, Nat.add_zero] at hf ho
    simp only [List.nil_append, rcEncodeLoop, hn, BitWriter.putAll_eq]
    rw [if_neg (by
      rintro (he | hl)
      · rw [he] at ho; simp at ho; omega
      · omega)]
    rfl
  | cons b pre ih =>
    intro i c w q q' h h' hf ho
    obtain ⟨n, r, hn, hr, rfl⟩ := rcBits_cons_some h
    obtain ⟨n', r', hn', hr', rfl⟩ := rcBits_cons_some h'
    obtain rfl : n = n' := by simpa [hn] using hn'
    simp only [List.length_append] at hf ho
    simp only [List.cons_append, rcEncodeLoop, hn, BitWriter.putAll_eq]
    rw [if_pos (.inr (by omega))]
    simp only
    rw [ih (i + 1) _ ⟨w.bits ++ _⟩ r r' hr hr' (by simp only [List.length_append]; omega)
      (by simp only [List.length_append]; omega)]
    simp only [List.length_cons, Nat.add_assoc, Nat.add_comm 1]

/-! ## rANS -/

@[simp] theorem ransBytes_nil (F : FreqTable) (x : Nat) : ransBytes F [] x = (x, []) := rfl

/-- One symbol first, then the others. -/
theorem ransBytes_cons (F : FreqTable) (b : Byte) (bs : List Byte) (x : Nat) :
    ransBytes F (b :: bs) x =
      ((ransBytes F bs (ransCode F b x).1).1, (ransCode F b x).2 ++ (ransBytes F bs (ransCode F b x).1).2) := by
  rw [ransBytes]

/-- Symbols coded one after another. -/
theorem ransBytes_append (F : FreqTable) : ∀ (u v : List Byte) (x : Nat),
    ransBytes F (u ++ v) x =
      ((ransBytes F v (ransBytes F u x).1).1, (ransBytes F u x).2 ++ (ransBytes F v (ransBytes F u x).1).2) := by
  intro u
  induction u with
  | nil => intro v x; rfl
  | cons b u ih => intro v x; rw [List.cons_append, ransBytes_cons, ransBytes_cons, ih, List.append_assoc]

/-- Emitting into `OUT`: the bytes the state gives off, where they fit, and else the symbol's index. -/
theorem ransEmit_eq (room i bound : Nat) : ∀ (n x : Nat) (e : List Byte),
    e.length ≤ room →
    ransEmit room i bound n x e =
      if e.length + (ransShed bound n x).2.length ≤ room then
        .ok ((ransShed bound n x).1, (ransShed bound n x).2.reverse ++ e)
      else .error (capacityError i) := by
  intro n
  induction n with
  | zero => intro x e h; simp [ransEmit, ransShed, h]
  | succ n ih =>
    intro x e h
    rw [ransEmit, ransShed]
    by_cases hb : bound ≤ x
    · have hx : BitVec.ofNat 8 (x % 256) = BitVec.ofNat 8 x := by
        apply BitVec.eq_of_toNat_eq
        simp
      rw [if_pos hb, if_pos hb, ransPut, hx]
      by_cases hr : room ≤ e.length
      · rw [if_pos hr, if_neg (by simp; omega)]
      · rw [if_neg hr]
        simp only [ih _ (BitVec.ofNat 8 x :: e) (by simp; omega), List.length_cons, List.reverse_cons, List.append_assoc,
          List.singleton_append]
        by_cases hf : e.length + 1 + (ransShed bound n (x / 256)).2.length ≤ room
        · rw [if_pos hf, if_pos (by omega)]
        · rw [if_neg hf, if_neg (by omega)]
    · simp [hb, h]

/-- The encoder's loop from one symbol on. -/
theorem ransEncodeLoop_cons (F : FreqTable) (room : Nat) (s : Byte) (rest : List Byte) (x : Nat) (e : List Byte)
    (he : e.length ≤ room) (hs : F.at s ≠ 0) :
    ransEncodeLoop F F.cumulative room (s :: rest) x e =
      if e.length + (ransCode F s x).2.length ≤ room then
        ransEncodeLoop F F.cumulative room rest (ransCode F s x).1 ((ransCode F s x).2.reverse ++ e)
      else .error (capacityError rest.length) := by
  rw [ransEncodeLoop, if_neg hs, ransEmit_eq _ _ _ _ _ _ he]
  by_cases hf : e.length + (ransShed (F.at s <<< 28) ransFuel x).2.length ≤ room
  · rw [if_pos hf, ransCode, if_pos hf]
  · rw [if_neg hf, ransCode, if_neg hf]

/-- The encoder's loop writes those bytes where they fit. -/
theorem ransEncodeLoop_of_fits (F : FreqTable) (room : Nat) (rest : List Byte) : ∀ (u : List Byte) (x : Nat) (e : List Byte),
    (∀ c ∈ u, F.at c ≠ 0) → e.length + (ransBytes F u x).2.length ≤ room →
    ransEncodeLoop F F.cumulative room (u ++ rest) x e =
      ransEncodeLoop F F.cumulative room rest (ransBytes F u x).1 ((ransBytes F u x).2.reverse ++ e) := by
  intro u
  induction u with
  | nil => intro x e _ _; rfl
  | cons s u ih =>
    intro x e hz hf
    rw [ransBytes_cons, List.length_append] at hf
    rw [List.cons_append, ransEncodeLoop_cons _ _ _ _ _ _ (by omega) (hz s List.mem_cons_self), if_pos (by omega),
      ih _ _ (fun c hc => hz c (List.mem_cons_of_mem _ hc))
        (by simp only [List.length_append, List.length_reverse]; omega), ransBytes_cons, List.reverse_append,
      List.append_assoc]

/-- The encoder's loop reports the symbol whose bytes do not fit. -/
theorem ransEncodeLoop_of_overflow (F : FreqTable) (room : Nat) (u : List Byte) (s : Byte) (rest : List Byte) (x : Nat)
    (hz : ∀ c ∈ u, F.at c ≠ 0) (hs : F.at s ≠ 0) (hf : (ransBytes F u x).2.length ≤ room)
    (ho : room < (ransBytes F (u ++ [s]) x).2.length) :
    ransEncodeLoop F F.cumulative room (u ++ s :: rest) x [] = .error (capacityError rest.length) := by
  rw [ransBytes_append, ransBytes_cons] at ho
  simp only [List.length_append, ransBytes_nil, List.length_nil, Nat.add_zero] at ho
  rw [ransEncodeLoop_of_fits F room (s :: rest) u x [] hz (by simpa using hf),
    ransEncodeLoop_cons _ _ _ _ _ _ (by simpa using hf) hs, if_neg (by
      simp only [List.append_nil, List.length_reverse]; omega)]

/-! ## The size of a stream -/

theorem streamSize_huffman (F : FreqTable) (B : List Byte) :
    streamSize .huffman F B = some (((B.flatMap (codeOf F)).length + 7) / 8) := rfl

theorem streamSize_range {F : FreqTable} {B : List Byte} {q : Bits × RcEncoder}
    (h : rcBits F.cumulative B rcStart = some q) :
    streamSize .range F B = some ((q.1.length + q.2.pending + 2 + 7) / 8) := by
  rw [streamSize, h, Option.map_some]

theorem streamSize_rans (F : FreqTable) (B : List Byte) :
    streamSize .rans F B = some ((ransPlane F B).2.length + 5) := rfl

end Sys2Proof.Machine
end

