-- ==== Sys2Proof/Tests/Slice0.lean ====
section
/-!
SUPPORT. Tests: words written out from the spec's encoding, the smoke test of well-formedness, one step of each command
against the vectors of spec/95_test_vectors.md (named beside each test), and for every statement with hypotheses a witness
that meets them.
-/
namespace Sys2Proof.Tests
open Sys2Proof.Machine

set_option Elab.async false

/-! ## Words (spec/30_encoding.md R100, R103, R104) -/

theorem test_decode_nop : decodeWord 0b00000000_00000000_00000000_0000_0000 = .ok .nop := by decide
theorem test_decode_freqCount : decodeWord 0b00000000_00000000_00000000_0000_0001 = .ok .freqCount := by decide
theorem test_decode_freqCountFloor : decodeWord 0b00000000_00000000_00000000_0000_0010 = .ok .freqCountFloor := by decide
theorem test_decode_freqNorm : decodeWord 0b00000000_00000000_00000000_0000_0011 = .ok .freqNorm := by decide
theorem test_decode_hufBuild : decodeWord 0b00000000_00000000_00000000_0001_0000 = .ok .hufBuild := by decide
theorem test_decode_hufEncode : decodeWord 0b00000000_00000000_00000000_0001_0001 = .ok .hufEncode := by decide
theorem test_decode_hufDecode : decodeWord 0b00000000_00000000_00000000_0001_0010 = .ok .hufDecode := by decide
theorem test_decode_rcBuild : decodeWord 0b00000000_00000000_00000000_0010_0000 = .ok .rcBuild := by decide
theorem test_decode_rcEncode : decodeWord 0b00000000_00000000_00000000_0010_0001 = .ok .rcEncode := by decide
theorem test_decode_rcDecode : decodeWord 0b00000000_00000000_00000000_0010_0010 = .ok .rcDecode := by decide
theorem test_decode_ransBuild : decodeWord 0b00000000_00000000_00000000_0011_0000 = .ok .ransBuild := by decide
theorem test_decode_ransEncode : decodeWord 0b00000000_00000000_00000000_0011_0001 = .ok .ransEncode := by decide
theorem test_decode_ransDecode : decodeWord 0b00000000_00000000_00000000_0011_0010 = .ok .ransDecode := by decide
theorem test_decode_planeCompress : decodeWord 0b00000000_00000000_00000000_0100_0000 = .ok .planeCompress := by decide
theorem test_decode_planeDecompress : decodeWord 0b00000000_00000000_00000000_0100_0001 = .ok .planeDecompress := by
  decide
theorem test_decode_softReset : decodeWord 0b00000000_00000000_00000000_1111_1111 = .ok .softReset := by decide

/-- The bytes of a word stand least significant first (R71). -/
theorem test_decode_bytes : decodeBytes [0x31, 0x00, 0x00, 0x00, 0xAA] = .ok (.ransEncode, [0xAA]) := by decide
theorem test_decode_too_short : decodeBytes [0x31, 0x00, 0x00] = .error .tooShort := by decide
theorem test_decode_reserved_bits : decodeWord 0x00000100 = .error .reservedBits := by decide
theorem test_decode_unassigned : decodeWord 0x00000013 = .error .unassignedOpcode := by decide
theorem test_decode_table_word : decodeTableWord 32 0x41 = some .planeDecompress := by decide
theorem test_decode_table_word_refuses : decodeTableWord 32 0x1FF = none := by decide

/-! ## Well-formedness: each check refuses an ill-formed word (R101, R104) -/

theorem test_wf_refuses_reserved_bits : wellFormedWord 0x00000100 = false := by decide
theorem test_wf_refuses_unit_0_func_4 : wellFormedWord 0x00000004 = false := by decide
theorem test_wf_refuses_unit_1_func_3 : wellFormedWord 0x00000013 = false := by decide
theorem test_wf_refuses_unit_4_func_2 : wellFormedWord 0x00000042 = false := by decide
theorem test_wf_refuses_unit_5 : wellFormedWord 0x00000050 = false := by decide
theorem test_wf_refuses_unit_15_func_0 : wellFormedWord 0x000000F0 = false := by decide
theorem test_wf_accepts_soft_reset : wellFormedWord 0x000000FF = true := by decide

/-! ## Small states -/

/-- A table with the entries of `es` and `d` elsewhere. -/
def table (d : Nat) (es : List (Nat × Nat)) : FreqTable :=
  tabulate 256 fun k => BitVec.ofNat 32 ((es.lookup k).getD d)

/-- The reset state with bytes in `IN` and their number in `IN_LEN`. -/
def plane (bs : List Byte) : State :=
  { State.reset with mem := cellsFrom Config.inBase bs, inLen := BitVec.ofNat 32 bs.length }

/-- The reset state with a high-plane payload in `IN`. -/
def payload (flag : Byte) (F : FreqTable) (P : List Byte) (n : Nat) : State :=
  { plane (F.serialise ++ P) with backend := flag, expectedCount := BitVec.ofNat 32 n }

/-- The state after a command. -/
def after (i : Instr) (s : State) : State := match exec i s with | .next t => t | _ => s

/-- The reset state after the illegal word 0x13. -/
def faulty : State := State.reset.illegalCommand 0x13

/-- The reset state with `IN_LEN` one above the capacity. -/
def tooLong : State := { State.reset with inLen := 1048577 }

theorem exec_after (i : Instr) (s : State) : exec i s = .next (after i s) := by
  obtain ⟨t, h⟩ := exec_next i s
  simp [after, h]

theorem plane_input (bs : List Byte) (h : bs.length < 2 ^ 32) : (plane bs).input = bs :=
  State.input_of_cells rfl (by simpa [plane] using h)

theorem payload_inLen (flag : Byte) (F : FreqTable) (P : List Byte) (n : Nat) (h : P.length < 2 ^ 31) :
    (payload flag F P n).inLen.toNat = 1024 + P.length := by
  simp [payload, plane]; omega

theorem payload_load (s : State) (F : FreqTable) (P : List Byte)
    (hs : s.mem = cellsFrom Config.inBase (F.serialise ++ P)) : FreqTable.load s.inByte = F := by
  refine FreqTable.load_serialise F _ fun k hk => ?_
  rw [State.inByte_of_cells hs (by simp; omega), List.getElem_append_left (by simpa using hk)]
  simp [hk]

theorem payload_stream (s : State) (F : FreqTable) (P : List Byte)
    (hs : s.mem = cellsFrom Config.inBase (F.serialise ++ P)) (hl : s.inLen.toNat = 1024 + P.length) :
    s.payloadStream = P := by
  have he : s.inLen.toNat - Config.tableBytes = P.length := by rw [hl]; simp [Config.tableBytes]
  rw [State.payloadStream, he, State.inBytes_of_cells hs (by simp [Config.tableBytes])]
  rw [List.drop_append_of_le_length (by simp [Config.tableBytes]), List.drop_eq_nil_of_le (by simp [Config.tableBytes])]
  simp

/-- "ABRACADABRA". -/
def abra : List Byte := [0x41, 0x42, 0x52, 0x41, 0x43, 0x41, 0x44, 0x41, 0x42, 0x52, 0x41]

/-- The table of V-FQ1. -/
def abraTable : FreqTable := table 0 [(0x41, 5), (0x42, 2), (0x43, 1), (0x44, 1), (0x52, 2)]

/-- The table of V-FQ4. -/
def abraNorm : FreqTable := table 0 [(0x41, 1862), (0x42, 745), (0x43, 372), (0x44, 372), (0x52, 745)]

/-- The plane of S1. -/
def extremes : List Byte := [0x00, 0xFF, 0x00, 0xFF, 0x00, 0xFF, 0x00, 0xFF]

/-- The floor table of S1's plane. -/
def extremesTable : FreqTable := table 1 [(0x00, 5), (0xFF, 5)]

theorem table_at (d : Nat) (es : List (Nat × Nat)) (b : Byte) :
    (table d es).at b = (BitVec.ofNat 32 ((es.lookup b.toNat).getD d)).toNat := by
  simp [table, FreqTable.at]

theorem extremesTable_at (b : Byte) : extremesTable.at b ≠ 0 := by
  rw [extremesTable, table_at]; revert b; decide +kernel

theorem extremesTable_total : extremesTable.total = 264 := by decide +kernel
theorem abraTable_total : abraTable.total = 11 := by decide +kernel
theorem abraNorm_total : abraNorm.total = 4096 := by decide +kernel
theorem abraTable_bitsNeeded : bitsNeeded abraTable = 23 := by decide +kernel

/-! ## One step of each command -/

/-- V-SY2. -/
theorem test_nop : (after .nop State.reset).statusWord = 1 ∧ (after .nop State.reset).outLen = 0 := by decide +kernel

/-- V-FQ1. -/
theorem test_freq_count :
    let t := after .freqCount (plane abra)
    t.freq.at 0x41 = 5 ∧ t.freq.at 0x52 = 2 ∧ t.freq.at 0x45 = 0 ∧ t.inPos = 11 := by decide +kernel

/-- V-FQ13. -/
theorem test_freq_count_capacity : (after .freqCount tooLong).faulted .capacity 0 := by decide +kernel

/-- V-FQ2. -/
theorem test_freq_count_floor :
    let t := after .freqCountFloor (plane abra)
    t.freq.at 0x41 = 6 ∧ t.freq.at 0x43 = 2 ∧ t.freq.at 0x45 = 1 ∧ t.outPos = 0 := by decide +kernel

/-- V-FQ8: the residue goes to the lesser symbol of a tie. -/
theorem test_freq_norm_adds :
    let t := after .freqNorm { State.reset with freq := table 0 [(1, 3), (2, 3), (3, 3)] }
    t.freq.at 1 = 1366 ∧ t.freq.at 2 = 1365 ∧ t.freq.at 0 = 0 := by decide +kernel

/-- As V-FQ5 with four small entries, by hand from R145: floors 4095, 0, 0, 0, 0; the four are raised to 1; the excess of 3
comes from the only entry above 1, one unit a pass. -/
theorem test_freq_norm_removes :
    let t := after .freqNorm { State.reset with freq := table 0 [(0, 100000), (1, 1), (2, 1), (3, 1), (4, 1)] }
    t.freq.at 0 = 4092 ∧ t.freq.at 4 = 1 := by decide +kernel

/-- V-HUF1: the code of `B`, and its window bytes. -/
theorem test_huf_build :
    (after .hufBuild { State.reset with freq := abraTable }).tableCode 0x42 = [true, true, false] ∧
    (after .hufBuild { State.reset with freq := abraTable }).regionByte .hcode (32 * 0x42) = 0xC0 := by decide +kernel

/-- V-HUF7: ties, a leaf before a node of equal weight and the lesser symbol first. -/
theorem test_huf_build_ties : let F := table 0 [(7, 1), (8, 1), (9, 1)]
    codeOf F 7 = [true, false] ∧ codeOf F 8 = [true, true] ∧ codeOf F 9 = [false] := by decide +kernel

/-- V-HUF2. -/
theorem test_huf_encode : (after .hufEncode { plane abra with freq := abraTable }).result = [0x6E, 0x8A, 0xDC] := by
  decide +kernel

/-- V-HUF10. -/
theorem test_huf_encode_no_code :
    (after .hufEncode { plane [0x41, 0x42, 0x5A] with freq := table 0 [(0x41, 1), (0x42, 1)] }).faulted
      .internalConsistency 2 := by decide +kernel

/-- V-HUF3: a trailing byte is ignored. -/
theorem test_huf_decode :
    let t := after .hufDecode { plane [0x6E, 0x8A, 0xDC, 0xFF] with freq := abraTable, expectedCount := 11 }
    t.result = abra ∧ t.inPos = 23 ∧ t.outPos = 11 := by decide +kernel

/-- V-HUF9. -/
theorem test_huf_decode_exhausted :
    (after .hufDecode { plane [0xFF, 0xFF, 0xFF] with freq := abraTable, expectedCount := 11 }).faulted
      .decodeConsistency 8 := by decide +kernel

/-- V-RC9: the largest total that is accepted. -/
theorem test_rc_build :
    let t := after .rcBuild { State.reset with freq := table 0x01000000 [(0, 0x00FFFFFF)] }
    t.done = true ∧ t.cum[256] = 0xFFFFFFFF ∧ t.cum[1] = 0x00FFFFFF := by decide +kernel

/-- V-RC9: a total of 2^32. -/
theorem test_rc_build_total :
    (after .rcBuild { State.reset with freq := table 0x01000000 [] }).faulted .format 0 := by decide +kernel

/-- V-RC2. -/
theorem test_rc_encode :
    let t := after .rcEncode { plane extremes with freq := extremesTable }
    t.result = [0x04, 0xC2, 0x24, 0x29, 0x4B, 0xE0] ∧ t.outPos = 46 ∧ t.rcLow = 0x75D560E0 ∧ t.rcHigh = 0xC063F7FF := by
  decide +kernel

/-- V-RC10. -/
theorem test_rc_encode_zero_width :
    (after .rcEncode { plane [0x00] with freq := table 0x00FFFFFF [(0, 1)] }).faulted .internalConsistency 0 := by
  decide +kernel

/-- V-RC2: the decoder's side. -/
theorem test_rc_decode :
    let t := after .rcDecode
      { plane [0x04, 0xC2, 0x24, 0x29, 0x4B, 0xE0] with freq := extremesTable, expectedCount := 8 }
    t.result = extremes ∧ t.inPos = 76 ∧ t.rcValue = 0x80000000 := by decide +kernel

/-- V-RC12: a stream of no byte reads as zeros. -/
theorem test_rc_decode_empty_stream :
    (after .rcDecode { State.reset with freq := table 1 [(0, 5)], expectedCount := 3 }).result = [0, 0, 0] := by
  decide +kernel

/-- V-RN1. -/
theorem test_rans_build :
    let t := after .ransBuild { State.reset with freq := abraNorm }
    t.symtab[1861] = 0x41 ∧ t.symtab[1862] = 0x42 ∧ t.cum[0x43] = 2607 := by decide +kernel

/-- V-RN8. -/
theorem test_rans_build_sum : (after .ransBuild { State.reset with freq := abraTable }).faulted .format 0 := by
  decide +kernel

/-- V-RN1. -/
theorem test_rans_encode :
    let t := after .ransEncode { plane abra with freq := abraNorm }
    t.result = [0x57, 0x11, 0xFE, 0xB1, 0xC2, 0x69, 0x35] ∧ t.ransX = 0x5711FEB1C2 := by decide +kernel

/-- V-RN9. -/
theorem test_rans_encode_no_frequency :
    (after .ransEncode { plane [0x41, 0x42, 0x5A] with freq := table 0 [(0x41, 2048), (0x42, 2048)] }).faulted
      .internalConsistency 2 := by decide +kernel

/-- V-RN2: the decoder's side, with a refill. -/
theorem test_rans_decode :
    let t := after .ransDecode { plane [0x01, 0x00, 0x00, 0x03, 0xC0, 0x00] with
      freq := table 0 [(0x61, 2048), (0x62, 2048)], expectedCount := 8 }
    t.result = [0x61, 0x61, 0x61, 0x61, 0x62, 0x62, 0x62, 0x62] ∧ t.inPos = 6 ∧ t.ransX = 0x100000000 := by
  decide +kernel

/-- V-RN10: the stream cut to six bytes. -/
theorem test_rans_decode_exhausted :
    (after .ransDecode { plane [0x57, 0x11, 0xFE, 0xB1, 0xC2, 0x69] with freq := abraNorm, expectedCount := 11 }).faulted
      .decodeConsistency 6 := by decide +kernel

/-- V-PL1, backend 0. -/
theorem test_plane_compress :
    let t := after .planeCompress (plane abra)
    t.outBytes 1024 3 = [0x6E, 0x8A, 0xDC] ∧ t.outBytes 0x104 5 = [5, 0, 0, 0, 2] ∧ t.outLen = 1027 ∧ t.outPos = 23 := by
  decide +kernel

/-- V-PL7. -/
theorem test_plane_compress_flag : (after .planeCompress { plane abra with backend := 3 }).faulted .format 0 := by
  decide +kernel

/-- What `PLANE_DECOMPRESS` does on a payload, its table and stream named. -/
theorem payload_run (flag : Byte) (F : FreqTable) (P : List Byte) (n : Nat) (b : Backend) (hb : backendOf flag = some b)
    (hP : 1024 + P.length ≤ Config.inCap) (hn : n ≤ Config.outCap) :
    after .planeDecompress (payload flag F P n) =
      (({ (payload flag F P n).accept with freq := F }).finish { planeDecompressFootprint flag with freq := false }
        (planeDecodeOp b P { (payload flag F P n).accept with freq := F })) := by
  have hc : Config.inCap = 1048576 := rfl
  have ho : Config.outCap = 1048576 := rfl
  have hl : (payload flag F P n).accept.inLen.toNat = 1024 + P.length := payload_inLen flag F P n (by omega)
  have he : (payload flag F P n).accept.expectedCount.toNat = n := by simp [payload]; omega
  have hm : (payload flag F P n).accept.mem = cellsFrom Config.inBase (F.serialise ++ P) := rfl
  have hk : planeDecompressChecks (payload flag F P n).accept = .ok b :=
    (planeDecompressChecks_ok_iff _ _).2 ⟨by omega, by omega, hb, by rw [hl, Config.tableBytes]; omega⟩
  have : after .planeDecompress (payload flag F P n) = planeDecompressRun (payload flag F P n).accept := by
    show (payload flag F P n).command planeDecompressRun = _
    exact State.command_of_ok _ rfl
  rw [this, planeDecompressRun, hk]
  simp only [payload_stream _ F P hm hl, State.loadTable, payload_load _ F P hm]
  rfl

/-- V-PL2, backend 0. -/
theorem test_plane_decompress :
    (after .planeDecompress (payload 0 abraTable [0x6E, 0x8A, 0xDC] 11)).result = abra := by
  rw [payload_run 0 abraTable _ 11 .huffman rfl (by decide) (by decide)]
  decide +kernel

/-- V-PL5. -/
theorem test_plane_decompress_short :
    (after .planeDecompress { State.reset with inLen := 1023 }).faulted .format 0 := by decide +kernel

/-- V-SY7, after V-SY3. -/
theorem test_soft_reset :
    faulty.statusWord = 2 ∧ faulty.errInfo = 0x13 ∧ (after .softReset faulty).statusWord = 0 ∧
    (after .softReset faulty).errInfo = 0 ∧ (after .softReset faulty).rcHigh = 0xFFFFFFFF := by decide +kernel

/-- V-SY9, and the transaction that a fetched word stands for. -/
theorem test_step_runs_the_word :
    (match step (State.reset.withFetchWord 32 0x21) with
      | .next t => decide (t.errCode = 2 ∧ t.host = [])
      | _ => false) = true := by decide +kernel

/-! ## Streams of long planes, for the witnesses of capacity faults -/

/-- The table whose lightest symbols have codes of sixteen bits. -/
def deepTable : FreqTable := table 0 ((0, 1) :: (List.range 16).map fun k => (k + 1, 2 ^ k))

theorem deepTable_code : (codeOf deepTable 0).length = 16 := by decide +kernel

/-- The table whose symbol 0 takes twelve bits from the start interval back to it, and in rANS three bytes for two. -/
def twelveTable : FreqTable := table 1 [(255, 3841)]

/-- Every symbol as often as every other. -/
def uniform (n : Nat) : FreqTable := table n []

/-- `n` bytes 0. -/
def zeros (n : Nat) : List Byte := List.replicate n 0

theorem zeros_length (n : Nat) : (zeros n).length = n := List.length_replicate
theorem zeros_succ (n : Nat) : zeros (n + 1) = 0 :: zeros n := rfl
theorem zeros_append_one (n : Nat) : zeros n ++ [0] = zeros (n + 1) := List.replicate_succ'.symm
theorem zeros_reverse (n : Nat) : (zeros n).reverse = zeros n := List.reverse_replicate ..
theorem of_mem_zeros {n : Nat} {b : Byte} (h : b ∈ zeros n) : b = 0 := List.eq_of_mem_replicate h

theorem plane_zeros_input (n : Nat) (h : n < 2 ^ 32) : (plane (zeros n)).input = zeros n :=
  plane_input _ (by rw [zeros_length]; exact h)

theorem plane_zeros_inLen (n : Nat) (h : n < 2 ^ 32) : (plane (zeros n)).inLen.toNat = n := by
  show (BitVec.ofNat 32 (zeros n).length).toNat = n
  rw [zeros_length, BitVec.toNat_ofNat, Nat.mod_eq_of_lt h]

theorem flatMap_length_const {α β : Type} (f : α → List β) (k : Nat) : ∀ l : List α, (∀ a ∈ l, (f a).length = k) →
    (l.flatMap f).length = k * l.length := by
  intro l
  induction l with
  | nil => intro _; simp
  | cons a l ih =>
    intro h
    rw [List.flatMap_cons, List.length_append, ih fun b hb => h b (List.mem_cons_of_mem _ hb),
      h a List.mem_cons_self, List.length_cons]
    ring

/-- A plane of symbols that each take `k` bits from the start interval back to it. -/
theorem rcBits_of_returning {C : CumTable} {k : Nat} : ∀ B : List Byte,
    (∀ b ∈ B, ∃ x, rcBits C [b] rcStart = some (x, rcStart) ∧ x.length = k) →
    ∃ w, rcBits C B rcStart = some (w, rcStart) ∧ w.length = k * B.length := by
  intro B
  induction B with
  | nil => intro _; exact ⟨[], rfl, rfl⟩
  | cons b B ih =>
    intro h
    obtain ⟨w, hw, hl⟩ := ih fun c hc => h c (List.mem_cons_of_mem _ hc)
    obtain ⟨x, hx, hk⟩ := h b List.mem_cons_self
    exact ⟨x ++ w, rcBits_cons hx hw, by rw [List.length_append, hk, hl, List.length_cons]; ring⟩

theorem returning_of {C : CumTable} {b : Byte} {k : Nat}
    (h : (match rcBits C [b] rcStart with | some (x, c) => decide (x.length = k ∧ c = rcStart) | none => false) = true) :
    ∃ x, rcBits C [b] rcStart = some (x, rcStart) ∧ x.length = k := by
  split at h
  · rename_i x c hx
    obtain ⟨hk, rfl⟩ := of_decide_eq_true h
    exact ⟨x, hx, hk⟩
  · cases h

/-- Symbols that lead from a state back to it, repeated. -/
theorem ransBytes_of_returning {F : FreqTable} {u e : List Byte} {x : Nat} (h : ransBytes F u x = (x, e)) : ∀ m : Nat,
    (ransBytes F (List.replicate m u).flatten x).1 = x ∧
    (ransBytes F (List.replicate m u).flatten x).2.length = m * e.length := by
  intro m
  induction m with
  | zero => simp
  | succ m ih =>
    rw [List.replicate_succ, List.flatten_cons, ransBytes_append, h]
    exact ⟨ih.1, by simp only [List.length_append, ih.2]; ring⟩

theorem zeros_pairs (m : Nat) : zeros (2 * m) = (List.replicate m [0, 0]).flatten := by
  induction m with
  | zero => rfl
  | succ m ih => rw [Nat.mul_succ, List.replicate_succ (n := m), List.flatten_cons, ← ih]; rfl

/-- A plane of `n` times all 256 symbols. -/
def copies (n : Nat) : List Byte := (List.replicate n allBytes).flatten

theorem copies_length (n : Nat) : (copies n).length = n * 256 := by
  rw [copies, List.length_flatten, List.map_replicate, List.sum_replicate_nat]
  simp [allBytes]

theorem copies_count (n : Nat) (b : Byte) : (copies n).count b = n := by
  have h : allBytes.count b = 1 := List.count_eq_one_of_mem allBytes_nodup (mem_allBytes b)
  rw [copies, List.count_flatten, List.map_replicate, List.sum_replicate_nat, h, Nat.mul_one]

theorem countTable_copies (n d : Nat) : countTable (copies n) d = uniform (d + n) := by
  have h : ∀ k : Nat, BitVec.ofNat 32 (d + (copies n).count (BitVec.ofNat 8 k)) =
      BitVec.ofNat 32 ((([] : List (Nat × Nat)).lookup k).getD (d + n)) := fun k => by
    rw [copies_count, List.lookup_nil, Option.getD_none]
  exact congrArg (tabulate 256) (funext h)

/-- A plane of 1,048,576 symbols, each of the 256 as often as every other. -/
def evenPlane : List Byte := copies 4096

theorem evenPlane_length : evenPlane.length = 1048576 := copies_length 4096

theorem evenPlane_input : (plane evenPlane).input = evenPlane := plane_input _ (by rw [evenPlane_length]; decide)

theorem evenPlane_inLen : (plane evenPlane).inLen.toNat = 1048576 := by
  show (BitVec.ofNat 32 evenPlane.length).toNat = _
  rw [evenPlane_length]; decide

/-- The balanced tree of depth `d` over symbols of frequency 4096, the `i`-th of its level. -/
def balanced : Nat → Nat → HufNode
  | 0, i => .leaf (BitVec.ofNat 8 i) 4096
  | d + 1, i =>
    .inner (512 - 2 ^ (8 - d) + i) (BitVec.ofNat 64 (4096 * 2 ^ (d + 1))) (balanced d (2 * i)) (balanced d (2 * i + 1))

theorem uniform_tree : hufTree (uniform 4096) = some (balanced 8 0) := by decide +kernel

/-- The path to a symbol in a balanced tree: `d` bits where the tree holds it, and none where it does not. -/
theorem balanced_path (b : Byte) : ∀ d i : Nat, d ≤ 8 → i < 2 ^ (8 - d) →
    (b.toNat / 2 ^ d = i → ∃ p, (balanced d i).path b = some p ∧ p.length = d) ∧
    (b.toNat / 2 ^ d ≠ i → (balanced d i).path b = none) := by
  have hb := b.isLt
  intro d
  induction d with
  | zero =>
    intro i _ hi
    have hn : BitVec.ofNat 8 i = b ↔ b.toNat / 2 ^ 0 = i := by
      rw [← BitVec.toNat_inj, BitVec.toNat_ofNat, Nat.mod_eq_of_lt (by simpa using hi)]
      omega
    exact ⟨fun h => ⟨[], by simp [balanced, HufNode.path, hn.2 h], rfl⟩, fun h => by
      simp [balanced, HufNode.path, mt hn.1 h]⟩
  | succ d ih =>
    intro i hd hi
    have h2 : 2 ^ (8 - d) = 2 * 2 ^ (8 - (d + 1)) := by
      rw [← Nat.pow_succ']; congr 1; omega
    have hq : b.toNat / 2 ^ (d + 1) = b.toNat / 2 ^ d / 2 := by
      rw [Nat.pow_succ, Nat.div_div_eq_div_mul]
    obtain ⟨l₁, l₂⟩ := ih (2 * i) (by omega) (by omega)
    obtain ⟨r₁, r₂⟩ := ih (2 * i + 1) (by omega) (by omega)
    rw [hq, balanced, HufNode.path]
    by_cases hl : b.toNat / 2 ^ d = 2 * i
    · obtain ⟨p, hp, hk⟩ := l₁ hl
      exact ⟨fun _ => ⟨false :: p, by rw [hp], by rw [List.length_cons, hk]⟩, fun h => absurd (by omega) h⟩
    · rw [l₂ hl]
      by_cases hr : b.toNat / 2 ^ d = 2 * i + 1
      · obtain ⟨p, hp, hk⟩ := r₁ hr
        exact ⟨fun _ => ⟨true :: p, by rw [hp], by rw [List.length_cons, hk]⟩, fun h => absurd (by omega) h⟩
      · rw [r₂ hr]
        exact ⟨fun h => absurd h (by omega), fun _ => rfl⟩

theorem uniform_codes (b : Byte) : (codeOf (uniform 4096) b).length = 8 := by
  obtain ⟨p, hp, hl⟩ := (balanced_path b 8 0 (by decide) (by decide)).1 (by have := b.isLt; omega)
  have hc : hufCode (some (balanced 8 0)) b = ((balanced 8 0).path b).getD [] := rfl
  rw [codeOf, uniform_tree, hc, hp, Option.getD_some, hl]

theorem uniform_at (n : Nat) (h : n < 2 ^ 32) (b : Byte) : (uniform n).at b = n := by
  rw [uniform, table_at]
  exact Nat.mod_eq_of_lt h

theorem uniform_counts (n : Nat) (h : n < 2 ^ 32) : (uniform n).counts = List.replicate 256 n := by
  rw [FreqTable.counts_eq, ← allBytes_length]
  exact List.map_eq_replicate_iff.2 fun b _ => uniform_at n h b

theorem uniform_total (n : Nat) (h : n < 2 ^ 32) : (uniform n).total = 256 * n := by
  rw [FreqTable.total, uniform_counts n h, List.sum_replicate_nat]

theorem uniform_cum (n k : Nat) (hk : k ≤ 256) (h : 256 * n < 2 ^ 32) :
    CumTable.at (uniform n).cumulative k = k * n := by
  rw [cumulative_at _ k hk (by rw [uniform_total n (by omega)]; exact h), uniform_counts n (by omega), List.take_replicate,
    Nat.min_eq_left hk, List.sum_replicate_nat]

/-- One of 256 equal parts of the start interval takes eight bits and leads back to it. -/
theorem renorm_part (b : Byte) :
    (let q := rcRenormEncode rcFuel ⟨b.toNat * 2 ^ 24, b.toNat * 2 ^ 24 + (2 ^ 24 - 1), 0⟩
     q.2 == rcStart && q.1.length == 8) = true := by
  revert b; decide +kernel

theorem uniform_rcBits (b : Byte) :
    ∃ x, rcBits (uniform 4097).cumulative [b] rcStart = some (x, rcStart) ∧ x.length = 8 := by
  have hb := b.isLt
  have hn : rcNarrow (uniform 4097).cumulative b rcStart.low rcStart.high =
      some (b.toNat * 2 ^ 24, b.toNat * 2 ^ 24 + (2 ^ 24 - 1)) := by
    rw [rcNarrow, uniform_cum 4097 256 (by omega) (by omega), uniform_cum 4097 _ (by omega) (by omega),
      uniform_cum 4097 _ (by omega) (by omega), show rcStart.low = 0 from rfl, show rcStart.high = 4294967295 from rfl]
    rw [if_neg (by omega)]
    congr 2 <;> omega
  have hr := renorm_part b
  simp only [Bool.and_eq_true, beq_iff_eq] at hr
  exact ⟨_, by simp only [rcBits, hn, List.append_nil]; rw [show rcStart.pending = 0 from rfl, hr.1], hr.2⟩

theorem uniform_of_counts (n : Nat) :
    (tableOf 256 0 (List.replicate 256 n)).map (BitVec.ofNat 32) = uniform n := by
  have hg : ∀ (l : List Nat) (k : Nat), l = List.replicate 256 n → k < 256 → l.getD k 0 = n := fun l k hl hk => by
    rw [hl, List.getD_eq_getElem?_getD, List.getElem?_replicate_of_lt hk, Option.getD_some]
  apply Vector.ext
  intro k hk
  rw [Vector.getElem_map, tableOf_getElem _ _ _ k hk, hg _ k rfl hk, uniform, table, tabulate_getElem, List.lookup_nil,
    Option.getD_none]

theorem uniform_normal : normalize (uniform 4096) = uniform 16 := by
  have hN : rescale (uniform 4096) 1048576 = tableOf 256 0 (List.replicate 256 16) := by
    rw [rescale, uniform_counts _ (by decide), List.map_replicate]; rfl
  have ht : Counts.total (tableOf 256 0 (List.replicate 256 16)) = 4096 := by
    rw [Counts.total, tableOf_toList _ _ _ List.length_replicate, List.sum_replicate_nat]
  have hc : normalizeCounts (uniform 4096) = tableOf 256 0 (List.replicate 256 16) := by
    simp only [normalizeCounts, uniform_total 4096 (by decide)]
    rw [show 256 * 4096 = 1048576 from rfl, hN, ht, Config.tot, if_neg (by decide), if_neg (by decide),
      if_neg (by decide)]
  rw [Machine.normalize, hc]
  exact uniform_of_counts 16

/-- With the uniform table a symbol takes one byte, and the state stays near 2^32. -/
theorem uniform_ransCode (b : Byte) (x : Nat) (h₁ : 2 ^ 32 ≤ x) (h₂ : x < 2 ^ 32 + 4096) :
    (ransCode (uniform 16) b x).2.length = 1 ∧ 2 ^ 32 ≤ (ransCode (uniform 16) b x).1 ∧
    (ransCode (uniform 16) b x).1 < 2 ^ 32 + 4096 := by
  have hb := b.isLt
  have hs : ransShed (16 <<< 28) ransFuel x = (x / 256, [BitVec.ofNat 8 x]) := by
    rw [ransFuel, ransShed, if_pos (by omega), ransShed, if_neg (by omega)]
  rw [ransCode, uniform_at 16 (by decide), uniform_cum 16 _ (by omega) (by omega), hs]
  simp only [ransUpdate, Nat.shiftLeft_eq]
  exact ⟨rfl, by omega, by omega⟩

theorem uniform_ransBytes : ∀ (B : List Byte) (x : Nat), 2 ^ 32 ≤ x → x < 2 ^ 32 + 4096 →
    (ransBytes (uniform 16) B x).2.length = B.length := by
  intro B
  induction B with
  | nil => intro x _ _; rfl
  | cons b B ih =>
    intro x h₁ h₂
    obtain ⟨h₃, h₄, h₅⟩ := uniform_ransCode b x h₁ h₂
    rw [ransBytes, List.length_append, ih _ h₄ h₅, h₃, List.length_cons, Nat.add_comm]

/-! ## The host's side -/

/-- V-HB2, V-HB4. -/
theorem test_rle : rle [5, 0, 0, 0, 7, 0] = [5, 0, 3, 7, 0, 1] ∧ unrle [5, 0, 3, 7, 0, 1] = .ok [5, 0, 0, 0, 7, 0] := by
  decide +kernel

/-- S5. -/
theorem test_rle_long_run : lowPayload .range (List.replicate 300 0) = [0x01, 0x00, 0xFF, 0x00, 0x2D] := by decide +kernel

/-- V-HB1. -/
theorem test_split : splitPlanes [0x10, 0x20, 0x11, 0x21, 0x12, 0x22] = ([0x10, 0x11, 0x12], [0x20, 0x21, 0x22]) := by
  decide

/-- The host gives a file up on which the block raised an error, and leaves the block reset. -/
theorem test_host_resets_after_error :
    let r := decodeFile (Container.mk [] 1 (BlockRecord.mk [1, 2, 3, 4] [0]).bytes).bytes State.reset
    r.1 = .error (.block 2 0) ∧ r.2.statusWord = 0 ∧ r.2.backend = 0 ∧ exitCode r.1 = 1 := by decide +kernel

/-- A file too short for its header length, and a container that ends before its mode flag. -/
theorem test_host_malformed :
    readOriginal [5, 0, 0, 0, 0, 0, 0, 0, 1] = .error .format ∧ readContainer [0, 0, 0, 0, 0, 0, 0, 0] = .error .format := by
  decide

/-! ## Witnesses: for each statement with hypotheses, concrete states and operands that meet all of them -/

/-- The tree of V-HUF1. -/
def abraTree : HufNode :=
  .inner 259 11 (.leaf 0x41 5)
    (.inner 258 6 (.inner 256 2 (.leaf 0x43 1) (.leaf 0x44 1)) (.inner 257 4 (.leaf 0x42 2) (.leaf 0x52 2)))

theorem ok_of_isOk {ε α : Type} {x : Except ε α} (h : (match x with | .ok _ => true | .error _ => false) = true) :
    ∃ a, x = .ok a := by
  cases x with
  | ok a => exact ⟨a, rfl⟩
  | error e => exact absurd h (by simp)

theorem run_of_result {α : Type} {r : HostRun α} {x : Except HostError α} (h : r.1 = x) : ∃ t, r = (x, t) :=
  ⟨r.2, by rw [← h]⟩

theorem witness_StepRunsTheDecodedCommand :
    ∃ t, (State.reset.withFetchWord 32 0x10).host = .regWrite 0x00 0x10 :: [] ∧ decodeWord 0x10 = .ok .hufBuild ∧
      exec .hufBuild { State.reset.withFetchWord 32 0x10 with host := [] } = .next t :=
  ⟨_, rfl, rfl, rfl⟩

theorem witness_IllegalWordsRaiseIllegalCommand :
    State.reset.error = false ∧ (0x00000100 : Word).toNat / 256 ≠ 0 ∧
    (0x00000013 : Word).toNat ∉ [0, 1, 2, 3, 16, 17, 18, 32, 33, 34, 48, 49, 50, 64, 65, 255] ∧
    (0x000000FE : Word).toNat ∉ [0, 1, 2, 3, 16, 17, 18, 32, 33, 34, 48, 49, 50, 64, 65, 255] := by decide

theorem witness_OnlySoftResetIsAcceptedWhileError : faulty.error = true ∧ (0x00000000 : Word) ≠ 0xFF := by decide

theorem witness_AfterACommandExactlyOneFlagIsSet : State.reset.flagsSound ∧ faulty.flagsSound ∧ (0x40 : Word) ≠ 0xFF := by
  decide

theorem witness_AFaultOffersNoOutputAndKeepsTheOperands :
    ∃ t, State.reset.error = false ∧ exec .rcBuild State.reset = .next t ∧ t.error = true :=
  ⟨after .rcBuild State.reset, rfl, exec_after _ _, by decide +kernel⟩

theorem witness_EachCommandRaisesOnlyItsKinds :
    tooLong.error = false ∧
    ∀ i ∈ [Instr.freqCount, .freqCountFloor, .hufEncode, .hufDecode, .rcEncode, .rcDecode, .ransEncode, .ransDecode,
      .planeCompress, .planeDecompress], exec i tooLong = .next (after i tooLong) ∧ (after i tooLong).error = true :=
  ⟨rfl, fun i hi => ⟨exec_after _ _, by revert i; decide +kernel⟩⟩

theorem witness_NoCommandWritesInput :
    Instr.hufEncode ≠ .softReset ∧ exec .hufEncode (plane abra) = .next (after .hufEncode (plane abra)) :=
  ⟨by decide, exec_after _ _⟩

theorem witness_NoCommandWritesBeyondItsList :
    Instr.planeCompress ≠ .softReset ∧ (plane abra).error = false ∧
    exec .planeCompress (plane abra) = .next (after .planeCompress (plane abra)) :=
  ⟨by decide, rfl, exec_after _ _⟩

theorem witness_EveryStepKeepsTheStateSound :
    ∃ t, ({ plane [0x41] with host := [cmd .nop] } : State).Sound ∧ step { plane [0x41] with host := [cmd .nop] } = .next t :=
  ⟨_, by decide, rfl⟩

/-- Two states that differ in a table, a working register and the result. -/
theorem witness_ACommandDependsOnlyOnWhatItReads :
    let s := plane abra
    let s' := { plane abra with rcLow := 5, symtab := Vector.replicate 4096 7, mem := (plane abra).mem.setOut [1, 2] }
    Instr.planeCompress ≠ .softReset ∧ s.error = false ∧ s'.error = false ∧ s.freq = s'.freq ∧ s.inLen = s'.inLen ∧
    s.expectedCount = s'.expectedCount ∧ s.backend = s'.backend ∧ (∀ k < s.inLen.toNat, s.inByte k = s'.inByte k) ∧
    exec .planeCompress s = .next (after .planeCompress s) ∧ exec .planeCompress s' = .next (after .planeCompress s') :=
  ⟨by decide, rfl, rfl, rfl, rfl, rfl, rfl, by decide +kernel, exec_after _ _, exec_after _ _⟩

theorem witness_NopClearsTheCursors : (plane abra).error = false ∧ faulty.error = true := ⟨rfl, rfl⟩

theorem witness_CountingCountsEachSymbol :
    (plane abra).error = false ∧ (plane abra).inLen.toNat ≤ Config.inCap ∧
    (Instr.freqCountFloor, 1) ∈ [(Instr.freqCount, 0), (Instr.freqCountFloor, 1)] := by decide

theorem witness_LengthsBeyondCapacityRaiseCapacityError :
    (tooLong.error = false ∧ Config.inCap < tooLong.inLen.toNat) ∧
    (let s := { plane abra with expectedCount := 1048577 }
     s.error = false ∧ s.inLen.toNat ≤ Config.inCap ∧ Config.outCap < s.expectedCount.toNat) := by decide

theorem witness_NormalisingSumsTo4096AndKeepsSymbols :
    State.reset.error = false ∧ State.reset.freq.total = 0 ∧ abraNorm.total = 4096 ∧ abraTable.total ≠ 0 ∧
    abraTable.at 0x41 ≠ 0 ∧ abraTable.at 0x40 = 0 :=
  ⟨rfl, by decide +kernel, abraNorm_total, by rw [abraTable_total]; decide, by decide +kernel, by decide +kernel⟩

/-- One table for each case: the entries fall short, they exceed 4096, they sum to 4096. -/
theorem witness_NormalisingPlacesTheResidue :
    let base : FreqTable → Byte → Nat := fun F b => if F.at b = 0 then 0 else max 1 (F.at b * 4096 / F.total)
    (∀ F ∈ [abraTable, table 0 [(0, 100000), (1, 1), (2, 1), (3, 1), (4, 1)], abraNorm],
      let s := { State.reset with freq := F }
      s.error = false ∧ s.freq.total ≠ 0 ∧ exec .freqNorm s = .next (after .freqNorm s) ∧
      (∀ b, base F b = if s.freq.at b = 0 then 0 else max 1 (s.freq.at b * 4096 / s.freq.total))) ∧
    (allBytes.map (base abraTable)).sum < 4096 ∧
    4096 < (allBytes.map (base (table 0 [(0, 100000), (1, 1), (2, 1), (3, 1), (4, 1)]))).sum ∧
    (allBytes.map (base abraNorm)).sum = 4096 := by
  have ht : (table 0 [(0, 100000), (1, 1), (2, 1), (3, 1), (4, 1)]).total = 100004 := by decide +kernel
  refine ⟨fun F hF => ⟨rfl, ?_, exec_after _ _, fun _ => rfl⟩, ?_, ?_, ?_⟩
  · show F.total ≠ 0
    simp only [List.mem_cons, List.not_mem_nil, or_false] at hF
    rcases hF with rfl | rfl | rfl
    · rw [abraTable_total]; decide
    · rw [ht]; decide
    · rw [abraNorm_total]; decide
  · dsimp only; rw [abraTable_total]; simp only [abraTable, table_at]; decide +kernel
  · dsimp only; rw [ht]; simp only [table_at]; decide +kernel
  · dsimp only; rw [abraNorm_total]; simp only [abraNorm, table_at]; decide +kernel

/-- For `LUT`, an index that starts with a code, and one that leads to an internal node. -/
theorem witness_HufBuildMakesAPrefixFreeCode :
    State.reset.error = false ∧ (0x41 : Byte) ≠ 0x42 ∧ abraTable.at 0x41 ≠ 0 ∧ abraTable.at 0x42 ≠ 0 ∧
    (table 0 [(0x41, 9)]).occurring = [0x41] ∧ 2 ≤ abraTable.occurring.length ∧
    codeOf abraTable 0x42 <+: indexBits 12 0xC00 ∧ 2 ≤ deepTable.occurring.length ∧
    (∀ b, deepTable.at b ≠ 0 → ¬ codeOf deepTable b <+: indexBits 12 4095) := by decide +kernel

theorem witness_TheHuffmanCodeIsComplete : 2 ≤ abraTable.occurring.length := by decide +kernel

/-- The node 256 was made while the leaf 0x42 was live, which is merged into the node 257. -/
theorem witness_EveryTreeNodeFollowsTheMergeRule :
    hufTree abraTable = some abraTree ∧ 2 ≤ abraTable.occurring.length ∧
    HufNode.inner 256 2 (.leaf 0x43 1) (.leaf 0x44 1) ∈ abraTree.nodes ∧
    ((HufNode.inner 257 4 (.leaf 0x42 2) (.leaf 0x52 2), HufNode.leaf 0x42 2) ∈ abraTree.edges ∧
      (HufNode.leaf 0x42 2).number < 256 ∧ 256 < 257) := by decide +kernel

theorem witness_HufEncodeConcatenatesTheCodes :
    let s := { plane abra with freq := abraTable }
    s.error = false ∧ s.inLen.toNat ≤ Config.inCap ∧ (∀ b ∈ s.input, s.freq.at b ≠ 0) ∧
    (s.input.flatMap (codeOf s.freq)).length ≤ 8 * Config.outCap := by decide +kernel

/-- A symbol without a code after two with one, and a symbol whose code would pass the end of a full `OUT`. -/
theorem witness_HufEncodeFaultsAtTheSymbolItCannotWrite :
    (let s := { plane [0x41, 0x42, 0x5A] with freq := table 0 [(0x41, 1), (0x42, 1)] }
     s.error = false ∧ s.inLen.toNat ≤ Config.inCap ∧ s.input = [0x41, 0x42] ++ 0x5A :: [] ∧
     (∀ c ∈ ([0x41, 0x42] : List Byte), s.freq.at c ≠ 0) ∧ s.freq.at 0x5A = 0 ∧
     (([0x41, 0x42] : List Byte).flatMap (codeOf s.freq)).length ≤ 8 * Config.outCap) ∧
    (let s := { plane (zeros 524289) with freq := deepTable }
     s.error = false ∧ s.inLen.toNat ≤ Config.inCap ∧ overflowsAt .huffman s.freq Config.outCap 524288 s.input) := by
  have hc : ∀ n, ((zeros n).flatMap (codeOf deepTable)).length = 16 * n := fun n => by
    rw [flatMap_length_const _ 16 _ fun a ha => by rw [of_mem_zeros ha]; exact deepTable_code, zeros_length]
  refine ⟨by decide +kernel, rfl, ?_, zeros 524288, [], 0, ?_, (zeros_length _).symm, ?_, ?_, ?_⟩
  · show (plane (zeros 524289)).inLen.toNat ≤ _
    rw [plane_zeros_inLen _ (by decide)]; decide
  · show (plane (zeros 524289)).input = _
    rw [plane_zeros_input _ (by decide), zeros_append_one]
  · intro c hm
    rw [zeros_append_one] at hm
    rw [of_mem_zeros hm]
    decide +kernel
  · show ((zeros 524288).flatMap (codeOf deepTable)).length ≤ _
    rw [hc]; decide
  · rw [zeros_append_one]
    show _ < ((zeros 524289).flatMap (codeOf deepTable)).length
    rw [hc]; decide

/-- Five symbols; one symbol, over a stream that is not zero; no symbol. -/
theorem witness_HufDecodeReadsTheCodes :
    (let s := { plane [0x6E, 0x8A, 0xDC] with freq := abraTable, expectedCount := 11 }
     s.error = false ∧ s.inLen.toNat ≤ Config.inCap ∧ s.expectedCount.toNat ≤ Config.outCap ∧
     s.freq.total = s.expectedCount.toNat ∧ bitsNeeded s.freq ≤ 8 * s.inLen.toNat ∧
     abra.length = s.expectedCount.toNat ∧ (∀ b ∈ abra, s.freq.at b ≠ 0) ∧
     streamBits s.input = abra.flatMap (codeOf s.freq) ++ [false]) ∧
    (let s := { plane [0xFF, 0xFF] with freq := table 0 [(0x41, 9)], expectedCount := 9 }
     s.error = false ∧ s.inLen.toNat ≤ Config.inCap ∧ s.expectedCount.toNat ≤ Config.outCap ∧
     s.freq.total = s.expectedCount.toNat ∧ bitsNeeded s.freq ≤ 8 * s.inLen.toNat ∧
     (List.replicate 9 (0x41 : Byte)).length = s.expectedCount.toNat ∧
     (∀ b ∈ List.replicate 9 (0x41 : Byte), s.freq.at b ≠ 0) ∧ ¬ 2 ≤ s.freq.occurring.length) ∧
    (let s := State.reset
     s.error = false ∧ s.inLen.toNat ≤ Config.inCap ∧ s.expectedCount.toNat ≤ Config.outCap ∧
     s.freq.total = s.expectedCount.toNat ∧ bitsNeeded s.freq ≤ 8 * s.inLen.toNat ∧
     ([] : List Byte).length = s.expectedCount.toNat ∧ ¬ 2 ≤ s.freq.occurring.length) :=
  ⟨⟨rfl, by decide, by decide, abraTable_total, by rw [show bitsNeeded _ = 23 from abraTable_bitsNeeded]; decide, rfl,
      by decide +kernel, by decide +kernel⟩, by decide +kernel, by decide +kernel⟩

theorem witness_HufDecodeChecksTheTable :
    (let s := { plane [0x6E, 0x8A, 0xDC] with freq := abraTable, expectedCount := 10 }
     s.error = false ∧ s.inLen.toNat ≤ Config.inCap ∧ s.expectedCount.toNat ≤ Config.outCap ∧
     s.freq.total ≠ s.expectedCount.toNat) ∧
    (let s := { plane [0x6E, 0x8A] with freq := abraTable, expectedCount := 11 }
     s.error = false ∧ s.inLen.toNat ≤ Config.inCap ∧ s.expectedCount.toNat ≤ Config.outCap ∧
     8 * s.inLen.toNat < bitsNeeded s.freq) :=
  ⟨⟨rfl, by decide, by decide, by rw [show FreqTable.total _ = 11 from abraTable_total]; decide⟩,
    ⟨rfl, by decide, by decide, by rw [show bitsNeeded _ = 23 from abraTable_bitsNeeded]; decide⟩⟩

theorem witness_HufDecodeReportsAnExhaustedStream :
    let s := { plane [0xFF, 0xFF, 0xFF] with freq := abraTable, expectedCount := 11 }
    let B : List Byte := List.replicate 8 0x52
    s.error = false ∧ s.inLen.toNat ≤ Config.inCap ∧ s.expectedCount.toNat ≤ Config.outCap ∧
    s.freq.total = s.expectedCount.toNat ∧ bitsNeeded s.freq ≤ 8 * s.inLen.toNat ∧ 2 ≤ s.freq.occurring.length ∧
    B.length < s.expectedCount.toNat ∧ (∀ c ∈ B, s.freq.at c ≠ 0) ∧ s.freq.at 0x52 ≠ 0 ∧
    [] <+: codeOf s.freq 0x52 ∧ [] ≠ codeOf s.freq 0x52 ∧ streamBits s.input = B.flatMap (codeOf s.freq) ++ [] :=
  ⟨rfl, by decide, by decide, abraTable_total, by rw [show bitsNeeded _ = 23 from abraTable_bitsNeeded]; decide,
    by decide +kernel, by decide, by decide +kernel, by decide +kernel, List.nil_prefix, by decide +kernel,
    by decide +kernel⟩

theorem witness_HuffmanRoundTrip :
    let s := { plane [0x41, 0x42] with freq := table 0 [(0x41, 1), (0x42, 1)] }
    let t := after .hufEncode s
    let u := { plane [0x40, 0xFF] with freq := s.freq, expectedCount := 2 }
    s.error = false ∧ s.inLen.toNat ≤ Config.inCap ∧ s.inLen.toNat ≤ Config.outCap ∧
    (∀ b, s.freq.at b = s.input.count b) ∧ exec .hufEncode s = .next t ∧ t.error = false ∧ u.error = false ∧
    u.freq = s.freq ∧ u.expectedCount = s.inLen ∧ u.inLen.toNat ≤ Config.inCap ∧ t.result <+: u.input :=
  ⟨rfl, by decide, by decide, fun b => by
      show (table 0 [(0x41, 1), (0x42, 1)]).at b = (plane [0x41, 0x42]).input.count b
      rw [plane_input _ (by decide), table_at]; revert b; decide +kernel,
    exec_after _ _, by decide +kernel, rfl, rfl, rfl, by decide, by decide +kernel⟩

theorem witness_LookupDecodingEqualsTheTreeWalk :
    2 ≤ abraTable.occurring.length ∧ hufTree abraTable = some abraTree := by decide +kernel

theorem witness_RangeCoderChecksItsTable :
    (State.reset.error = false ∧ State.reset.freq.at 0 = 0 ∧
      Instr.rcDecode ∈ [Instr.rcBuild, .rcEncode, .rcDecode] ∧ State.reset.inLen.toNat ≤ Config.inCap ∧
      State.reset.expectedCount.toNat ≤ Config.outCap) ∧
    0xFFFFFFFF < (table 0x01000000 []).total ∧
    (let s := { State.reset with freq := extremesTable }
     s.error = false ∧ rcAccepts s.freq ∧ exec .rcBuild s = .next (after .rcBuild s)) :=
  ⟨by decide +kernel, by decide +kernel, rfl,
    ⟨extremesTable_at, by rw [show FreqTable.total _ = 264 from extremesTable_total]; decide⟩, exec_after _ _⟩

theorem witness_RcBuildFormsThePrefixSums :
    (let s := { State.reset with freq := extremesTable }
     s.error = false ∧ rcAccepts s.freq) ∧ (table 0x01000000 [(0, 0x00FFFFFF)]).total = 0xFFFFFFFF :=
  ⟨⟨rfl, extremesTable_at, by rw [show FreqTable.total _ = 264 from extremesTable_total]; decide⟩, by decide +kernel⟩

theorem witness_RenormalisationEndsAndKeepsValueInside :
    let d : RcDecoder := ⟨0x50000000, 0x50000001, 0x50000001, [], 32⟩
    d.low < d.high ∧ d.high ≤ 0xFFFFFFFF ∧ d.low ≤ d.value ∧ d.value ≤ d.high := by decide

theorem witness_TheSearchFindsTheSymbolOfTheTarget :
    let d : RcDecoder := ⟨0, 0xFFFFFFFF, 0xFFFFFFFF, [], 32⟩
    rcAccepts extremesTable ∧ d.low ≤ d.value ∧ d.value ≤ d.high ∧
    (rcNarrow extremesTable.cumulative (rcSymbol extremesTable.cumulative d) d.low d.high).isSome = true :=
  ⟨⟨extremesTable_at, by rw [extremesTable_total]; decide⟩, by decide, by decide, by decide +kernel⟩

/-- A plane that is coded; one with a symbol that passes the end of `OUT`, one whose flush does, and a narrowing without
width. -/
theorem witness_RcEncodeCompletesOrNamesTheSymbol :
    (let s := { plane extremes with freq := extremesTable }
     s.error = false ∧ s.inLen.toNat ≤ Config.inCap ∧ rcAccepts s.freq ∧ s.freq.total ≤ 2 ^ 29 ∧
     ∃ q, rcBits s.freq.cumulative s.input rcStart = some q ∧ q.1.length + q.2.pending + 2 ≤ 8 * Config.outCap) ∧
    (let s := { plane (zeros 699051) with freq := twelveTable }
     s.error = false ∧ s.inLen.toNat ≤ Config.inCap ∧ rcAccepts s.freq ∧
     overflowsAt .range s.freq Config.outCap 699050 s.input) ∧
    (let s := { plane evenPlane with freq := uniform 4097 }
     s.error = false ∧ s.inLen.toNat ≤ Config.inCap ∧ rcAccepts s.freq ∧
     overflowsAt .range s.freq Config.outCap 1048576 s.input) ∧
    (let s := { plane [0x00] with freq := table 0x00FFFFFF [(0, 1)] }
     s.error = false ∧ s.inLen.toNat ≤ Config.inCap ∧ rcAccepts s.freq ∧ s.input = [] ++ 0x00 :: [] ∧
     rcBits s.freq.cumulative [] rcStart = some ([], rcStart) ∧ rcNarrow s.freq.cumulative 0x00 0 0xFFFFFFFF = none) := by
  have h12 : ∃ x, rcBits twelveTable.cumulative [0] rcStart = some (x, rcStart) ∧ x.length = 12 :=
    returning_of (by decide +kernel)
  have hr : ∀ n, ∃ w, rcBits twelveTable.cumulative (zeros n) rcStart = some (w, rcStart) ∧ w.length = 12 * n :=
    fun n => by
      obtain ⟨w, hw, hl⟩ := rcBits_of_returning (C := twelveTable.cumulative) (zeros n)
        fun b hb => by rw [of_mem_zeros hb]; exact h12
      exact ⟨w, hw, by rw [hl, zeros_length]⟩
  have acc : ∀ F : FreqTable, rcTableOk F = true → rcAccepts F := fun F h => (rcTableOk_iff F).1 h
  refine ⟨⟨rfl, by decide, acc _ (by decide +kernel),
      by rw [show FreqTable.total _ = 264 from extremesTable_total]; decide, ?_⟩,
    ⟨rfl, by show (plane (zeros 699051)).inLen.toNat ≤ _; rw [plane_zeros_inLen _ (by decide)]; decide,
      acc _ (by decide +kernel), .inl ?_⟩,
    ⟨rfl, by show (plane evenPlane).inLen.toNat ≤ _; rw [evenPlane_inLen]; decide, acc _ (by decide +kernel), .inr ⟨?_, ?_⟩⟩,
    ⟨rfl, by decide, acc _ (by decide +kernel), by decide +kernel, rfl, by decide +kernel⟩⟩
  · have h : (match rcBits extremesTable.cumulative (plane extremes).input rcStart with
        | some q => decide (q.1.length + q.2.pending + 2 ≤ 8 * Config.outCap)
        | none => false) = true := by decide +kernel
    split at h
    · rename_i q hq; exact ⟨q, hq, of_decide_eq_true h⟩
    · cases h
  · obtain ⟨w, hw, hl⟩ := hr 699050
    obtain ⟨w', hw', hl'⟩ := hr 699051
    refine ⟨zeros 699050, [], 0, (w, rcStart), (w', rcStart), ?_, (zeros_length _).symm, hw, ?_, ?_, ?_⟩
    · show (plane (zeros 699051)).input = _
      rw [plane_zeros_input _ (by decide), zeros_append_one]
    · rw [zeros_append_one]; exact hw'
    · show w.length ≤ _
      rw [hl]; decide
    · show _ < w'.length
      rw [hl']; decide
  · show 1048576 = (plane evenPlane).input.length
    rw [evenPlane_input, evenPlane_length]
  · obtain ⟨w, hw, hl⟩ := rcBits_of_returning (C := (uniform 4097).cumulative) evenPlane fun b _ => uniform_rcBits b
    refine ⟨(w, rcStart), ?_, ?_, ?_⟩
    · show rcBits _ (plane evenPlane).input rcStart = _
      rw [evenPlane_input, hw]
    · show w.length ≤ _
      rw [hl, evenPlane_length]; decide
    · show _ < w.length + 0 + 2
      rw [hl, evenPlane_length]; decide

/-- A total below 2^29; one above it, with a width in every narrowing, and without one. -/
theorem witness_RcDecodeCompletesOnEveryStream :
    (let s := { plane [0x04] with freq := extremesTable, expectedCount := 8 }
     s.error = false ∧ s.inLen.toNat ≤ Config.inCap ∧ s.expectedCount.toNat ≤ Config.outCap ∧
     rcAccepts s.freq ∧ s.freq.total ≤ 2 ^ 29) ∧
    (let s := { State.reset with freq := table 0x01000000 [(0, 0x00FFFFFF)], expectedCount := 1 }
     s.error = false ∧ s.inLen.toNat ≤ Config.inCap ∧ s.expectedCount.toNat ≤ Config.outCap ∧ rcAccepts s.freq ∧
     ∃ q, rcDecodeLoop s.freq.cumulative s.expectedCount.toNat 0 (rcDecoderStart (streamBits s.input)) = .ok q) ∧
    (let s := { State.reset with freq := table 0x00FFFFFF [(0, 1)], expectedCount := 1 }
     s.error = false ∧ s.inLen.toNat ≤ Config.inCap ∧ s.expectedCount.toNat ≤ Config.outCap ∧ rcAccepts s.freq ∧
     0 < s.expectedCount.toNat ∧
     rcDecodeLoop s.freq.cumulative 0 0 (rcDecoderStart (streamBits s.input)) =
       .ok ([], rcDecoderStart (streamBits s.input)) ∧
     (let d := rcDecoderStart (streamBits s.input)
      rcNarrow s.freq.cumulative (rcSymbol s.freq.cumulative d) d.low d.high = none)) :=
  ⟨⟨rfl, by decide, by decide, (rcTableOk_iff _).1 (by decide +kernel),
      by rw [show FreqTable.total _ = 264 from extremesTable_total]; decide⟩,
    ⟨rfl, by decide, by decide, (rcTableOk_iff _).1 (by decide +kernel), ok_of_isOk (by decide +kernel)⟩,
    ⟨rfl, by decide, by decide, (rcTableOk_iff _).1 (by decide +kernel), by decide, rfl, by decide +kernel⟩⟩

theorem witness_RangeCoderRoundTrip :
    let s := { plane extremes with freq := extremesTable }
    let t := after .rcEncode s
    let u := { plane [0x04, 0xC2, 0x24, 0x29, 0x4B, 0xE0, 0xAA] with freq := extremesTable, expectedCount := 8 }
    s.error = false ∧ s.inLen.toNat ≤ Config.inCap ∧ s.inLen.toNat ≤ Config.outCap ∧ exec .rcEncode s = .next t ∧
    t.error = false ∧ u.error = false ∧ u.freq = s.freq ∧ u.expectedCount = s.inLen ∧ u.inLen.toNat ≤ Config.inCap ∧
    t.result <+: u.input :=
  ⟨rfl, by decide, by decide, exec_after _ _, by decide +kernel, rfl, rfl, rfl, by decide, by decide +kernel⟩

theorem witness_RansChecksItsTable :
    State.reset.error = false ∧ State.reset.freq.total ≠ 4096 ∧
    Instr.ransDecode ∈ [Instr.ransBuild, .ransEncode, .ransDecode] ∧ State.reset.inLen.toNat ≤ Config.inCap ∧
    State.reset.expectedCount.toNat ≤ Config.outCap := by decide +kernel

theorem witness_RansBuildSpreadsTheSymbols :
    (let s := { State.reset with freq := abraNorm }
     s.error = false ∧ s.freq.total = 4096) ∧
    CumTable.at abraNorm.cumulative 0x52 ≤ 4095 ∧ 4095 < CumTable.at abraNorm.cumulative 0x53 := by decide +kernel

theorem witness_TheRansDecoderStepUndoesTheEncoderStep :
    abraNorm.total = 4096 ∧ abraNorm.at 0x41 ≠ 0 ∧
    (abraNorm.at 0x41 * 2 ^ 20 ≤ 1862 * 2 ^ 20 ∧ 1862 * 2 ^ 20 < abraNorm.at 0x41 * 2 ^ 28) ∧
    (abraNorm.at 0x41 * 2 ^ 20 ≤ 1862 * 2 ^ 28 - 1 ∧ 1862 * 2 ^ 28 - 1 < abraNorm.at 0x41 * 2 ^ 28) := by decide +kernel

theorem witness_RansEncodeCompletesWithinItsBound :
    let s := { plane abra with freq := abraNorm }
    s.error = false ∧ s.inLen.toNat ≤ Config.inCap ∧ s.freq.total = 4096 ∧ (∀ b ∈ s.input, s.freq.at b ≠ 0) ∧
    (ransPlane s.freq s.input).2.length + 5 ≤ Config.outCap := by decide +kernel

/-- A symbol without a frequency before one with it; a symbol whose bytes pass the end of `OUT`, and a flush that does. -/
theorem witness_RansEncodeFaultsAtTheSymbolItCannotWrite :
    (let s := { plane [0x41, 0x5A, 0x42] with freq := table 0 [(0x41, 2048), (0x42, 2048)] }
     s.error = false ∧ s.inLen.toNat ≤ Config.inCap ∧ s.freq.total = 4096 ∧ s.input = [0x41] ++ 0x5A :: [0x42] ∧
     (∀ c ∈ ([0x42] : List Byte), s.freq.at c ≠ 0) ∧ s.freq.at 0x5A = 0 ∧
     (ransPlane s.freq [0x42]).2.length ≤ Config.outCap) ∧
    (let s := { plane (zeros 699052) with freq := twelveTable }
     s.error = false ∧ s.inLen.toNat ≤ Config.inCap ∧ s.freq.total = 4096 ∧
     overflowsAt .rans s.freq Config.outCap 0 s.input) ∧
    (let s := { plane evenPlane with freq := uniform 16 }
     s.error = false ∧ s.inLen.toNat ≤ Config.inCap ∧ s.freq.total = 4096 ∧
     overflowsAt .rans s.freq Config.outCap 1048576 s.input) := by
  have h2 : ∃ e, ransBytes twelveTable [0, 0] 0x100000000 = (0x100000000, e) ∧ e.length = 3 :=
    ⟨(ransBytes twelveTable [0, 0] 0x100000000).2, Prod.ext (by decide +kernel) rfl, by decide +kernel⟩
  have h1 : (ransBytes twelveTable [0] 0x100000000).2.length = 1 := by decide +kernel
  obtain ⟨e, he, hl⟩ := h2
  have hp := ransBytes_of_returning he
  refine ⟨by decide +kernel, ⟨rfl, by
      show (plane (zeros 699052)).inLen.toNat ≤ _; rw [plane_zeros_inLen _ (by decide)]; decide, by decide +kernel,
      .inl ?_⟩,
    ⟨rfl, by show (plane evenPlane).inLen.toNat ≤ _; rw [evenPlane_inLen]; decide, by decide +kernel, .inr ⟨?_, ?_, ?_, ?_⟩⟩⟩
  · refine ⟨[], zeros 699051, 0, ?_, rfl, ?_, ?_, ?_⟩
    · show (plane (zeros 699052)).input = _
      rw [plane_zeros_input _ (by decide), List.nil_append, ← zeros_succ]
    · intro c hm
      rw [← zeros_succ] at hm
      rw [of_mem_zeros hm]
      decide +kernel
    · show (ransPlane twelveTable _).2.length ≤ _
      rw [ransPlane, zeros_reverse, show 699051 = 2 * 349525 + 1 from rfl, ← zeros_append_one, zeros_pairs,
        ransBytes_append, (hp _).1, List.length_append, (hp _).2, h1, hl]
      decide
    · show _ < (ransPlane twelveTable _).2.length
      rw [← zeros_succ, ransPlane, zeros_reverse, show 699051 + 1 = 2 * 349526 from rfl, zeros_pairs, (hp _).2, hl]
      decide
  · show 1048576 = (plane evenPlane).input.length
    rw [evenPlane_input, evenPlane_length]
  · intro c _
    show (uniform 16).at c ≠ 0
    rw [uniform_at 16 (by decide)]; decide
  · show (ransPlane (uniform 16) (plane evenPlane).input).2.length ≤ _
    rw [evenPlane_input, ransPlane, uniform_ransBytes _ _ (by decide) (by decide),
      List.length_reverse, evenPlane_length]
    decide
  · show _ < (ransPlane (uniform 16) (plane evenPlane).input).2.length + 5
    rw [evenPlane_input, ransPlane, uniform_ransBytes _ _ (by decide) (by decide),
      List.length_reverse, evenPlane_length]
    decide

/-- A stream of two bytes a symbol, a count of 0, and the shorter stream of V-RN1. -/
theorem witness_RansDecodeCompletesOnALongEnoughStream :
    (let s := { plane (0 :: 0 :: List.replicate 27 1) with freq := abraNorm, expectedCount := 11 }
     s.error = false ∧ s.inLen.toNat ≤ Config.inCap ∧ s.expectedCount.toNat ≤ Config.outCap ∧ s.freq.total = 4096 ∧
     s.expectedCount ≠ 0 ∧ 5 + leadingZeros s.input + 2 * s.expectedCount.toNat ≤ s.inLen.toNat) ∧
    (let s := { State.reset with freq := abraNorm }
     s.error = false ∧ s.inLen.toNat ≤ Config.inCap ∧ s.expectedCount.toNat ≤ Config.outCap ∧ s.freq.total = 4096 ∧
     s.expectedCount = 0) ∧
    (let s := { plane [0x57, 0x11, 0xFE, 0xB1, 0xC2, 0x69, 0x35] with freq := abraNorm, expectedCount := 11 }
     s.error = false ∧ s.inLen.toNat ≤ Config.inCap ∧ s.expectedCount.toNat ≤ Config.outCap ∧ s.freq.total = 4096 ∧
     ∃ x bs q, ransRefill 0 s.input = some (x, bs) ∧
       ransDecodeLoop s.freq s.freq.cumulative (ransSymtab s.freq) s.expectedCount.toNat 0 x bs = .ok q) := by
  refine ⟨by decide +kernel, by decide +kernel, rfl, by decide, by decide, abraNorm_total, 0x5711FEB1C2, [0x69, 0x35], ?_⟩
  obtain ⟨q, hq⟩ := ok_of_isOk (x := ransDecodeLoop abraNorm abraNorm.cumulative (ransSymtab abraNorm) 11 0 0x5711FEB1C2
    [0x69, 0x35]) (by decide +kernel)
  exact ⟨q, by decide +kernel, hq⟩

/-- Four bytes; nine bytes, five of them leading zeros; and V-RN10, the refill after the symbol of index 6. -/
theorem witness_RansDecodeReportsAnExhaustedStream :
    (∀ P ∈ ([[1, 2, 3, 4], [0, 0, 0, 0, 0, 1, 2, 3, 4]] : List (List Byte)),
      let s := { plane P with freq := abraNorm, expectedCount := 11 }
      s.error = false ∧ s.inLen.toNat ≤ Config.inCap ∧ s.expectedCount.toNat ≤ Config.outCap ∧ s.freq.total = 4096 ∧
      s.expectedCount ≠ 0 ∧ s.inLen.toNat < 5 + leadingZeros s.input) ∧
    (let s := { plane [0x57, 0x11, 0xFE, 0xB1, 0xC2, 0x69] with freq := abraNorm, expectedCount := 11 }
     s.error = false ∧ s.inLen.toNat ≤ Config.inCap ∧ s.expectedCount.toNat ≤ Config.outCap ∧ s.freq.total = 4096 ∧
     6 < s.expectedCount.toNat ∧ ransRefill 0 s.input = some (0x5711FEB1C2, [0x69]) ∧
     ∃ out y left, ransDecodeLoop s.freq s.freq.cumulative (ransSymtab s.freq) 6 0 0x5711FEB1C2 [0x69] =
       .ok (out, y, left) ∧
       (let b := ransSymbol (ransSymtab s.freq) y
        ransRefill (ransBack (s.freq.at b) (CumTable.at s.freq.cumulative b.toNat) y) left = none)) := by
  refine ⟨by decide +kernel, rfl, by decide, by decide, abraNorm_total, by decide, by decide +kernel, ?_⟩
  have h : (match ransDecodeLoop abraNorm abraNorm.cumulative (ransSymtab abraNorm) 6 0 0x5711FEB1C2 [0x69] with
      | .ok (_, y, left) =>
        let b := ransSymbol (ransSymtab abraNorm) y
        decide (ransRefill (ransBack (abraNorm.at b) (CumTable.at abraNorm.cumulative b.toNat) y) left = none)
      | .error _ => false) = true := by decide +kernel
  split at h
  · rename_i out y left hq; exact ⟨out, y, left, hq, of_decide_eq_true h⟩
  · cases h

theorem witness_RansRoundTrip :
    let s := { plane abra with freq := abraNorm }
    let t := after .ransEncode s
    let u := { plane [0x57, 0x11, 0xFE, 0xB1, 0xC2, 0x69, 0x35, 0xAA, 0xBB] with freq := abraNorm, expectedCount := 11 }
    s.error = false ∧ s.inLen.toNat ≤ Config.inCap ∧ s.inLen.toNat ≤ Config.outCap ∧ exec .ransEncode s = .next t ∧
    t.error = false ∧ u.error = false ∧ u.freq = s.freq ∧ u.expectedCount = s.inLen ∧ u.inLen.toNat ≤ Config.inCap ∧
    t.result <+: u.input ∧ s.inLen ≠ 0 :=
  ⟨rfl, by decide, by decide, exec_after _ _, by decide +kernel, rfl, rfl, rfl, by decide, by decide +kernel, by decide⟩

theorem witness_PlaneCommandsRefuseBadFlagsAndShortPayloads :
    (let s := { plane abra with backend := 3 }
     s.error = false ∧ s.inLen.toNat ≤ Config.inCap ∧ 2 < s.backend.toNat ∧ s.expectedCount.toNat ≤ Config.outCap) ∧
    (let s := { State.reset with inLen := 1023 }
     s.error = false ∧ s.inLen.toNat ≤ Config.inCap ∧ s.expectedCount.toNat ≤ Config.outCap ∧
     ¬ 2 < s.backend.toNat ∧ s.inLen.toNat < 1024) := by decide

theorem input_with_backend (s : State) (b : Byte) : ({ s with backend := b } : State).input = s.input := rfl

/-- Under each of the three backends a plane whose stream fits beside the table, and one whose stream does not. -/
theorem witness_PlaneCompressFramesTheTable :
    ∀ p ∈ [((0 : Byte), Backend.huffman), (1, .range), (2, .rans)],
      (let s := { plane abra with backend := p.1 }
       s.error = false ∧ s.inLen.toNat ≤ Config.inCap ∧ backendOf s.backend = some p.2 ∧
       ∃ m, streamSize p.2 (planeTable p.2 s.input) s.input = some m ∧ 1024 + m ≤ Config.outCap) ∧
      (let s := { plane evenPlane with backend := p.1 }
       s.error = false ∧ s.inLen.toNat ≤ Config.inCap ∧ backendOf s.backend = some p.2 ∧
       ∃ m, streamSize p.2 (planeTable p.2 s.input) s.input = some m ∧ Config.outCap < 1024 + m) := by
  have small : ∀ b : Backend, ∃ m, streamSize b (planeTable b (plane abra).input) (plane abra).input = some m ∧
      1024 + m ≤ Config.outCap := by
    intro b
    have h : ((streamSize b (planeTable b (plane abra).input) (plane abra).input).any
        fun m => decide (1024 + m ≤ Config.outCap)) = true := by cases b <;> decide +kernel
    cases hm : streamSize b (planeTable b (plane abra).input) (plane abra).input with
    | none => rw [hm] at h; cases h
    | some m => rw [hm] at h; exact ⟨m, rfl, of_decide_eq_true h⟩
  have large : ∀ b : Backend, ∃ m, streamSize b (planeTable b (plane evenPlane).input) (plane evenPlane).input = some m ∧
      Config.outCap < 1024 + m := by
    intro b
    rw [evenPlane_input]
    cases b with
    | huffman =>
      have hF : planeTable .huffman evenPlane = uniform 4096 := countTable_copies 4096 0
      rw [hF]
      refine ⟨_, streamSize_huffman _ _, ?_⟩
      rw [flatMap_length_const _ 8 _ fun a _ => uniform_codes a, evenPlane_length]
      decide
    | range =>
      obtain ⟨w, hw, hl⟩ := rcBits_of_returning (C := (uniform 4097).cumulative) evenPlane fun b _ => uniform_rcBits b
      have hF : planeTable .range evenPlane = uniform 4097 := countTable_copies 4096 1
      rw [hF]
      refine ⟨_, streamSize_range hw, ?_⟩
      show _ < 1024 + (w.length + 0 + 2 + 7) / 8
      rw [hl, evenPlane_length]
      decide
    | rans =>
      have hF : planeTable .rans evenPlane = uniform 16 := by
        rw [planeTable, evenPlane, countTable_copies]; exact uniform_normal
      refine ⟨_, streamSize_rans _ _, ?_⟩
      rw [hF, ransPlane, uniform_ransBytes _ _ (by decide) (by decide), List.length_reverse, evenPlane_length]
      decide
  intro p hp
  have hb : backendOf p.1 = some p.2 := by
    simp only [List.mem_cons, List.not_mem_nil, or_false] at hp
    rcases hp with rfl | rfl | rfl <;> rfl
  have hs := small p.2
  have hl := large p.2
  rw [← input_with_backend (plane abra) p.1] at hs
  rw [← input_with_backend (plane evenPlane) p.1] at hl
  exact ⟨⟨rfl, by show (plane abra).inLen.toNat ≤ Config.inCap; decide, hb, hs⟩,
    ⟨rfl, by show (plane evenPlane).inLen.toNat ≤ Config.inCap; rw [evenPlane_inLen]; decide, hb, hl⟩⟩

theorem compress_two : ∀ flag ∈ ([0, 1, 2] : List Byte),
    (after .planeCompress { plane [0x41, 0x42] with backend := flag }).error = false ∧
    (after .planeCompress { plane [0x41, 0x42] with backend := flag }).outLen.toNat ≤ 1048576 := by decide +kernel

theorem witness_PlaneCompressEqualsTheUnitCommands :
    ∀ flag ∈ ([0, 1, 2] : List Byte),
      let s := { plane [0x41, 0x42] with backend := flag }
      s.error = false ∧ exec .planeCompress s = .next (after .planeCompress s) ∧
      (after .planeCompress s).error = false :=
  fun flag hf => ⟨rfl, exec_after _ _, (compress_two flag hf).1⟩

/-- Tables and streams of V-PL1, one for each backend. -/
theorem witness_PlaneDecompressEqualsTheUnitDecoder :
    ∀ p ∈ [((0 : Byte), abraTable, ([0x6E, 0x8A, 0xDC] : List Byte)), (1, extremesTable, [0x04, 0xC2]),
        (2, abraNorm, [0x57, 0x11, 0xFE])],
      let s := payload p.1 p.2.1 p.2.2 11
      let u := { plane p.2.2 with freq := p.2.1, expectedCount := 11 }
      s.error = false ∧ u.error = false ∧ (s.backend = 0 ∨ s.backend = 1 ∨ s.backend = 2) ∧ 1024 ≤ s.inLen.toNat ∧
      s.inLen.toNat ≤ Config.inCap ∧
      (∀ b : Byte, u.freq.at b = (s.inByte (4 * b.toNat)).toNat + 256 * (s.inByte (4 * b.toNat + 1)).toNat +
        65536 * (s.inByte (4 * b.toNat + 2)).toNat + 16777216 * (s.inByte (4 * b.toNat + 3)).toNat) ∧
      u.inLen.toNat = s.inLen.toNat - 1024 ∧ (∀ k < u.inLen.toNat, u.inByte k = s.inByte (1024 + k)) ∧
      u.expectedCount = s.expectedCount := by
  intro p hp
  have hf : p.1 = 0 ∨ p.1 = 1 ∨ p.1 = 2 := by
    simp only [List.mem_cons, List.not_mem_nil, or_false] at hp
    rcases hp with rfl | rfl | rfl <;> simp
  have hP : p.2.2.length ≤ 3 := by
    simp only [List.mem_cons, List.not_mem_nil, or_false] at hp
    rcases hp with rfl | rfl | rfl <;> simp
  have hl := payload_inLen p.1 p.2.1 p.2.2 11 (by omega)
  have hu : (plane p.2.2).inLen.toNat = p.2.2.length := by simp [plane]; omega
  have hc : Config.inCap = 1048576 := rfl
  refine ⟨rfl, rfl, hf, by omega, by omega, fun b => ?_, ?_, fun k hk => ?_, rfl⟩
  · rw [← FreqTable.load_at, payload_load _ p.2.1 p.2.2 rfl]
  · rw [hl]; show (plane p.2.2).inLen.toNat = _; omega
  · have hk' : k < p.2.2.length := by rw [← hu]; exact hk
    rw [State.inByte_of_cells (bs := p.2.2) rfl hk',
      State.inByte_of_cells (bs := p.2.1.serialise ++ p.2.2) (k := 1024 + k) rfl (by simp; omega)]
    rw [List.getElem_append_right (by simp)]
    simp

theorem witness_PlaneDecompressCompletesOnAGoodPayload :
    (let s := payload 0 abraTable [0x6E, 0x8A, 0xDC] 11
     s.error = false ∧ abraTable = FreqTable.load s.inByte ∧ 1024 ≤ s.inLen.toNat ∧ s.inLen.toNat ≤ Config.inCap ∧
     s.expectedCount.toNat ≤ Config.outCap ∧ s.backend = 0 ∧ abraTable.total = s.expectedCount.toNat ∧
     bitsNeeded abraTable ≤ 8 * (s.inLen.toNat - 1024) ∧ abra.length = s.expectedCount.toNat ∧
     (∀ b ∈ abra, abraTable.at b ≠ 0) ∧ streamBits s.payloadStream = abra.flatMap (codeOf abraTable) ++ [false]) ∧
    (let s := payload 1 extremesTable [0x04] 8
     s.error = false ∧ extremesTable = FreqTable.load s.inByte ∧ 1024 ≤ s.inLen.toNat ∧ s.inLen.toNat ≤ Config.inCap ∧
     s.expectedCount.toNat ≤ Config.outCap ∧ s.backend = 1 ∧ (∀ b, extremesTable.at b ≠ 0) ∧
     extremesTable.total ≤ 2 ^ 29) ∧
    (let s := payload 2 abraNorm [1, 2, 3, 4, 5, 6, 7] 1
     s.error = false ∧ abraNorm = FreqTable.load s.inByte ∧ 1024 ≤ s.inLen.toNat ∧ s.inLen.toNat ≤ Config.inCap ∧
     s.expectedCount.toNat ≤ Config.outCap ∧ s.backend = 2 ∧ abraNorm.total = 4096 ∧
     5 + leadingZeros s.payloadStream + 2 * s.expectedCount.toNat ≤ s.inLen.toNat - 1024) := by
  have h₀ := payload_inLen 0 abraTable [0x6E, 0x8A, 0xDC] 11 (by decide)
  have h₁ := payload_inLen 1 extremesTable [0x04] 8 (by decide)
  have h₂ := payload_inLen 2 abraNorm [1, 2, 3, 4, 5, 6, 7] 1 (by decide)
  have p₀ := payload_stream (payload 0 abraTable [0x6E, 0x8A, 0xDC] 11) _ _ rfl h₀
  have p₂ := payload_stream (payload 2 abraNorm [1, 2, 3, 4, 5, 6, 7] 1) _ _ rfl h₂
  have hc : Config.inCap = 1048576 := rfl
  simp only [List.length_cons, List.length_nil] at h₀ h₁ h₂
  refine ⟨⟨rfl, (payload_load _ abraTable [0x6E, 0x8A, 0xDC] rfl).symm, by omega, by omega, by decide, rfl,
      abraTable_total, ?_, rfl, by decide +kernel, ?_⟩,
    ⟨rfl, (payload_load _ extremesTable [0x04] rfl).symm, by omega, by omega, by decide, rfl, extremesTable_at,
      by rw [extremesTable_total]; decide⟩,
    ⟨rfl, (payload_load _ abraNorm [1, 2, 3, 4, 5, 6, 7] rfl).symm, by omega, by omega, by decide, rfl, by decide +kernel,
      ?_⟩⟩
  · have := abraTable_bitsNeeded
    omega
  · rw [p₀]; decide +kernel
  · rw [p₂, h₂]; decide

/-- The payload of a plane of two symbols, back in `IN`, for each backend. -/
theorem witness_PlaneRoundTrip :
    ∀ flag ∈ ([0, 1, 2] : List Byte),
      let s := { plane [0x41, 0x42] with backend := flag }
      let t := after .planeCompress s
      let u := { plane t.result with backend := flag, expectedCount := 2 }
      s.error = false ∧ s.inLen.toNat ≤ Config.inCap ∧ s.inLen.toNat ≤ Config.outCap ∧ exec .planeCompress s = .next t ∧
      t.error = false ∧ u.error = false ∧ u.backend = s.backend ∧ u.expectedCount = s.inLen ∧
      u.inLen.toNat ≤ Config.inCap ∧ t.result <+: u.input := by
  intro flag hf
  obtain ⟨he, hl⟩ := compress_two flag hf
  have hr : ∀ t : State, t.outLen.toNat ≤ 1048576 →
      (plane t.result).inLen.toNat ≤ Config.inCap ∧ (plane t.result).input = t.result := fun t ht => by
    have hn : t.result.length = t.outLen.toNat := by simp [State.result, State.outBytes]
    exact ⟨by simp [plane, Config.inCap]; omega, plane_input _ (by omega)⟩
  refine ⟨rfl, ?_, ?_, exec_after _ _, he, rfl, rfl, rfl, (hr _ hl).1, ?_⟩
  · show (plane [0x41, 0x42]).inLen.toNat ≤ Config.inCap; decide
  · show (plane [0x41, 0x42]).inLen.toNat ≤ Config.outCap; decide
  · show _ <+: (plane _).input
    rw [(hr _ hl).2]

theorem witness_OnlyCommandsAndResetHaveSideEffects :
    (∃ t, faulty.transact (.regRead 0x04) = .next t) ∧ (∃ t, State.reset.transact (.bufRead 0x02000000 1) = .next t) ∧
    (∃ t, State.reset.transact (.bufWrite 0x01000000 [7]) = .next t) ∧
    (0x10 : Word) ≠ 0 ∧ (∃ t, State.reset.transact (.regWrite 0x10 1) = .next t) :=
  ⟨⟨_, rfl⟩, ⟨_, rfl⟩, ⟨_, rfl⟩, by decide, ⟨_, rfl⟩⟩

theorem witness_ReservedSpaceReadsZeroAndIgnoresWrites :
    ((0x40 : Word).toNat % 4 = 0 ∧ 0x40 ≤ (0x40 : Word).toNat ∧ (0xFFC : Word).toNat < 0x1000 ∧
      (0xFFC : Word).toNat % 4 = 0) ∧
    (0x3C : Word) ∈ ([0x04, 0x08, 0x0C, 0x1C, 0x20, 0x24, 0x28, 0x2C, 0x30, 0x34, 0x38, 0x3C] : List Word) ∧
    (State.reset.error = false ∧ (0x000001FF : Word).toNat / 256 ≠ 0) ∧
    ((0xFFF : Word).toNat < 0x1000 ∧ (0xFFF : Word).toNat % 4 ≠ 0) := by decide

theorem witness_RegisterReadsShowTheState :
    let s := State.reset
    ((0x2C : Word), s.rcHigh) ∈ ([(0x00, 0), (0x04, BitVec.ofNat 32 (s.done.toNat + 2 * s.error.toNat)),
      (0x08, s.errCode.setWidth 32), (0x0C, s.errInfo), (0x10, s.backend.setWidth 32), (0x14, s.inLen),
      (0x18, s.expectedCount), (0x1C, s.outLen), (0x20, s.inPos), (0x24, s.outPos), (0x28, s.rcLow), (0x2C, s.rcHigh),
      (0x30, s.rcPending), (0x34, s.rcValue), (0x38, BitVec.ofNat 32 (s.ransX.toNat % 2 ^ 32)),
      (0x3C, BitVec.ofNat 32 (s.ransX.toNat / 2 ^ 32))] : List (Word × Word)) := by decide

/-- A range at the end of each window. -/
theorem witness_WindowsShowTheBytesOfTheTables :
    (1 ≤ 1 ∧ 1023 + 1 ≤ 1024) ∧ (1 ≤ 8 ∧ 1020 + 8 ≤ 1028) ∧ (1 ≤ 256 ∧ 0 + 256 ≤ 256) ∧ (1 ≤ 32 ∧ 8160 + 32 ≤ 8192) ∧
    (1 ≤ 2 ∧ 4094 + 2 ≤ 4096) := by decide

theorem witness_FreqWindowIsTheSerialisedTable : abraTable.serialise.length = 1024 := FreqTable.serialise_length _

theorem witness_WritesToReadOnlyWindowsHaveNoEffect :
    Region.cum ∈ [Region.cum, .hlen, .hcode, .symtab, .output] ∧ ([7] : List Byte) ≠ [] ∧
    1027 + ([7] : List Byte).length ≤ Region.cum.size := by decide

theorem witness_InputBytesReadBackAsWritten :
    ([7, 9] : List Byte) ≠ [] ∧ 1048574 + ([7, 9] : List Byte).length ≤ Config.inCap := by decide

theorem witness_AccessesOutsideTheMapAreNoSteps :
    (regionOf (0x00005000 : Word).toNat = none ∧ regionOf (0x00001804 : Word).toNat = none ∧
      regionOf (0x02100000 : Word).toNat = none ∧ ([7] : List Byte) ≠ []) ∧
    (∃ t, State.reset.transact (.bufRead 0x00001803 1) = .next t) ∧
    (∃ t, State.reset.transact (.bufWrite 0x010FFFFF [7]) = .next t) ∧ 0x1000 ≤ (0x1000 : Word).toNat :=
  ⟨by decide, ⟨_, rfl⟩, ⟨_, rfl⟩, by decide⟩

/-- A file with plane data of odd length, two pairs and one byte; and a container whose one record has a payload shorter
than the table, on which the block raises `FormatError`. -/
theorem witness_FileRoundTrip :
    (∃ f t, ([0xAA] : List Byte).length < 2 ^ 64 ∧
      encodeFile 0 (Original.mk [0xAA] [0x10, 0x41, 0x11, 0x42, 0x12]).bytes State.reset = (.ok f, t) ∧
      State.reset.error = false) ∧
    (∃ t, decodeFile (Container.mk [] 0 (BlockRecord.mk [1, 2, 3, 4] []).bytes).bytes State.reset =
      (.error (.block 2 0), t)) := by
  constructor
  · obtain ⟨f, h⟩ := ok_of_isOk
      (x := (encodeFile 0 (Original.mk [0xAA] [0x10, 0x41, 0x11, 0x42, 0x12]).bytes State.reset).1) (by decide +kernel)
    obtain ⟨t, ht⟩ := run_of_result h
    exact ⟨f, t, by decide, ht, rfl⟩
  · exact run_of_result (by decide +kernel)

end Sys2Proof.Tests
end

section
/-!
The registers of the block (spec/10_state.md R24 to R37): what one register transaction does, at a register's own offset,
at a reserved offset and at a misaligned one, and the statements about the host's register accesses.
-/
namespace Sys2Proof.Machine

/-! ## Offsets (R24, R37, R81) -/

theorem checkOffset_of_aligned {off : Word} (hlt : off.toNat < 0x1000) (hal : off.toNat % 4 = 0) :
    checkOffset off = none := by
  simp [checkOffset, hal, Nat.not_le.2 hlt]

theorem checkOffset_of_misaligned {off : Word} (hlt : off.toNat < 0x1000) (hmis : off.toNat % 4 ≠ 0) :
    checkOffset off = some .misalignedRegister := by
  simp [checkOffset, hmis, Nat.not_le.2 hlt]

@[simp] theorem Reg.ofNumber_offset (r : Reg) : Reg.ofNumber (r.offset.toNat / 4) = some r := by
  cases r <;> rfl

@[simp] theorem checkOffset_offset (r : Reg) : checkOffset r.offset = none := by
  cases r <;> rfl

/-- There are sixteen registers; the numbers from 16 on are reserved. -/
theorem Reg.ofNumber_of_ge {n : Nat} (h : 16 ≤ n) : Reg.ofNumber n = none := by
  obtain ⟨k, rfl⟩ := Nat.exists_eq_add_of_le' h
  rfl

theorem Reg.ofNumber_of_reserved {off : Word} (h : 0x40 ≤ off.toNat) : Reg.ofNumber (off.toNat / 4) = none :=
  Reg.ofNumber_of_ge (by omega)

/-! ## Writes to `CMD` (R25, R101, R350) -/

theorem State.writeCmd_of_decode {v : Word} {i : Instr} (s : State) (h : decodeWord v = .ok i) :
    s.writeCmd v = exec i s := by
  simp [State.writeCmd, h]

theorem State.writeCmd_of_reject {v : Word} {e : Reject} (s : State) (h : decodeWord v = .error e) :
    s.writeCmd v = .next (s.illegalCommand v) := by
  simp [State.writeCmd, h]

theorem State.illegalCommand_of_ok {s : State} (v : Word) (h : s.error = false) :
    s.illegalCommand v = s.recordFault ⟨.illegalCommand, v⟩ := by
  simp [State.illegalCommand, h]

theorem decodeWord_of_reservedBits {v : Word} (h : v.toNat / 256 ≠ 0) : decodeWord v = .error .reservedBits :=
  if_pos h

/-! ## Register transactions -/

/-- Reading a register by its name. -/
theorem State.transact_rd (s : State) (r : Reg) :
    s.transact (rd r) = .next { s with reply := .word (s.readReg r) } := by
  simp [State.transact, rd, State.readOffset]

/-- A write to `CMD` is the command of its word, with the host's reply emptied. -/
theorem State.transact_wr_cmd (s : State) (v : Word) : s.transact (wr .cmd v) = answer .empty (s.writeCmd v) := rfl

/-- A write to any other register is that register's own write. -/
theorem State.transact_wr {r : Reg} (s : State) (v : Word) (hr : r ≠ .cmd) :
    s.transact (wr r v) = .next { s.writeReg v r with reply := .empty } := by
  cases r with
  | cmd => exact absurd rfl hr
  | _ => rfl

/-- A reserved offset reads 0 (R37). -/
theorem State.transact_regRead_of_reserved {off : Word} (s : State) (hlt : off.toNat < 0x1000)
    (hal : off.toNat % 4 = 0) (hres : 0x40 ≤ off.toNat) :
    s.transact (.regRead off) = .next { s with reply := .word 0 } := by
  simp [State.transact, checkOffset_of_aligned hlt hal, State.readOffset, Reg.ofNumber_of_reserved hres]

/-- A reserved offset ignores writes (R37). -/
theorem State.transact_regWrite_of_reserved {off : Word} (s : State) (v : Word) (hlt : off.toNat < 0x1000)
    (hal : off.toNat % 4 = 0) (hres : 0x40 ≤ off.toNat) :
    s.transact (.regWrite off v) = .next { s with reply := .empty } := by
  simp [State.transact, checkOffset_of_aligned hlt hal, State.writeOffset, Reg.ofNumber_of_reserved hres]

theorem State.transact_regRead_of_misaligned {off : Word} (s : State) (hlt : off.toNat < 0x1000)
    (hmis : off.toNat % 4 ≠ 0) : s.transact (.regRead off) = .refused .misalignedRegister := by
  simp [State.transact, checkOffset_of_misaligned hlt hmis]

theorem State.transact_regWrite_of_misaligned {off : Word} (s : State) (v : Word) (hlt : off.toNat < 0x1000)
    (hmis : off.toNat % 4 ≠ 0) : s.transact (.regWrite off v) = .refused .misalignedRegister := by
  simp [State.transact, checkOffset_of_misaligned hlt hmis]

/-! ## Reserved space (R29, R37) -/

/-- The registers a host write does not reach (R24). -/
def Reg.readOnly : List Reg :=
  [.status, .err, .errInfo, .outLen, .inPos, .outPos, .rcLow, .rcHigh, .rcPending, .rcValue, .ransXLo, .ransXHi]

/-- The host writes four registers, and every other one is read-only. -/
theorem Reg.mem_readOnly_iff (r : Reg) :
    r ∈ Reg.readOnly ↔ r ≠ .cmd ∧ r ≠ .backend ∧ r ≠ .inLen ∧ r ≠ .expectedCount := by
  cases r <;> decide

theorem State.writeReg_of_readOnly {r : Reg} (s : State) (v : Word) (h : r ∈ Reg.readOnly) : s.writeReg v r = s := by
  obtain ⟨-, hbackend, hinLen, hcount⟩ := (Reg.mem_readOnly_iff r).1 h
  cases r with
  | backend => exact absurd rfl hbackend
  | inLen => exact absurd rfl hinLen
  | expectedCount => exact absurd rfl hcount
  | _ => rfl

theorem State.transact_wr_of_readOnly {r : Reg} (s : State) (v : Word) (h : r ∈ Reg.readOnly) :
    s.transact (wr r v) = .next { s with reply := .empty } := by
  obtain ⟨hcmd, -⟩ := (Reg.mem_readOnly_iff r).1 h
  rw [s.transact_wr v hcmd, s.writeReg_of_readOnly v h]

/-- The low byte of a word, read back as a word. -/
theorem setWidth_low_byte (v : Word) : (v.setWidth 8).setWidth 32 = v &&& 0xFF := by
  apply BitVec.eq_of_toNat_eq
  have hmask : v.toNat &&& (0xFF : Word).toNat = v.toNat % 2 ^ 8 := Nat.and_two_pow_sub_one_eq_mod v.toNat 8
  have hlow : v.toNat % 2 ^ 8 < 2 ^ 8 := Nat.mod_lt _ (by decide)
  rw [BitVec.toNat_setWidth, BitVec.toNat_setWidth, BitVec.toNat_and, hmask]
  omega

/-- Settles O53: each clause is one register transaction, by where its offset lies. -/
theorem reservedSpaceReadsZeroAndIgnoresWrites : Obligations.ReservedSpaceReadsZeroAndIgnoresWrites := by
  intro s off v hlt
  refine ⟨fun hal hres => ?reserved, fun hro => ?readOnly, ?backend, fun herr hv => ?illegal, fun hmis => ?misaligned⟩
  case reserved =>
    exact ⟨s.transact_regRead_of_reserved hlt hal hres, s.transact_regWrite_of_reserved v hlt hal hres⟩
  case readOnly =>
    obtain ⟨r, hr, rfl⟩ := List.mem_map.1 (show off ∈ Reg.readOnly.map Reg.offset from hro)
    exact s.transact_wr_of_readOnly v hr
  case backend =>
    exact ⟨_, s.transact_wr (r := .backend) v (by decide), setWidth_low_byte v, rfl⟩
  case illegal =>
    have hcmd : s.writeCmd v = .next (s.recordFault ⟨.illegalCommand, v⟩) := by
      rw [s.writeCmd_of_reject (decodeWord_of_reservedBits hv), State.illegalCommand_of_ok v herr]
    exact (s.transact_wr_cmd v).trans (congrArg (answer .empty) hcmd)
  case misaligned =>
    exact ⟨s.transact_regRead_of_misaligned hlt hmis, s.transact_regWrite_of_misaligned v hlt hmis⟩

/-! ## The step that is a command (R25, R344) -/

/-- A step whose transaction writes `CMD` is that write, with the transaction taken off the list. -/
theorem step_of_cmdWrite {s : State} {v : Word} {rest : List Txn} (h : s.host = .regWrite 0x00 v :: rest) :
    step s = answer .empty (({ s with host := rest } : State).writeCmd v) :=
  (step_transact h).trans (State.transact_wr_cmd _ v)

/-- Settles O3: the step is the `CMD` write, and that is the word's command. -/
theorem stepRunsTheDecodedCommand : Obligations.StepRunsTheDecodedCommand := by
  intro s t v i rest hhost hdecode hexec
  rw [step_of_cmdWrite hhost, State.writeCmd_of_decode _ hdecode, hexec, answer_next]

/-! ## What the host reads (R24, R44) -/

/-- The registers in the order of their offsets. -/
def Reg.all : List Reg :=
  [.cmd, .status, .err, .errInfo, .backend, .inLen, .expectedCount, .outLen,
    .inPos, .outPos, .rcLow, .rcHigh, .rcPending, .rcValue, .ransXLo, .ransXHi]

theorem Reg.mem_all (r : Reg) : r ∈ Reg.all := by
  cases r <;> decide

theorem State.readReg_ransXLo (s : State) :
    s.readReg .ransXLo = BitVec.ofNat 32 (s.ransX.toNat % 2 ^ 32) := by
  apply BitVec.eq_of_toNat_eq
  simp [State.readReg]

theorem State.readReg_ransXHi (s : State) :
    s.readReg .ransXHi = BitVec.ofNat 32 (s.ransX.toNat / 2 ^ 32) := by
  apply BitVec.eq_of_toNat_eq
  simp [State.readReg, Nat.shiftRight_eq_div_pow]

/-- Settles O54: the pairs of the statement are the registers' offsets with what each of them reads. -/
theorem registerReadsShowTheState : Obligations.RegisterReadsShowTheState := by
  intro s p hp
  rw [← s.readReg_ransXLo, ← s.readReg_ransXHi] at hp
  obtain ⟨r, -, rfl⟩ := List.mem_map.1 (show p ∈ Reg.all.map fun r => (r.offset, s.readReg r) from hp)
  exact s.transact_rd r

end Sys2Proof.Machine
end

section
/-!
The state after reset (spec/10_state.md R52) and the entry checks of the lengths (R31, R32).
-/
namespace Sys2Proof.Machine

/-! ## Reset values -/

theorem State.resetAt_freq_at (d : Nat) (host : List Txn) (b : Byte) : (State.resetAt d host).freq.at b = 0 := by
  simp [State.resetAt, FreqTable.at]

/-- Settles O13: the registers stand at their values in the reset state itself; `FREQ` is zero entry by entry. -/
theorem resetValuesAreTheTables : Obligations.ResetValuesAreTheTables :=
  ⟨rfl, rfl, rfl, rfl, rfl, rfl, rfl, rfl, rfl, rfl, rfl, rfl, rfl, rfl, State.resetAt_freq_at 0 []⟩

/-! ## The entry checks of a command -/

/-- A fault records its kind and its value (R342). -/
theorem State.takeFault_faulted (s : State) (fp : Footprint) (e : Raise) : (s.takeFault fp e).faulted e.kind e.info :=
  ⟨rfl, rfl, rfl, rfl, rfl⟩

/-- A command whose operation raises ends in the record of what it raised. -/
theorem State.command_faulted {s : State} {fp : State → Footprint} {op : State → Except Raise State} {e : Raise}
    (herr : s.error = false) (hop : op s.accept = .error e) :
    (s.command fun t => t.finish (fp t) (op t)).faulted e.kind e.info := by
  rw [State.command_of_ok _ herr, hop]
  exact State.takeFault_faulted _ _ _

/-- The commands that read `IN` and whose operation starts with the check of `IN_LEN` (R31). `PLANE_DECOMPRESS` reads `IN`
too; its checks stand in `planeDecompressChecks`. -/
def inputCommands : List Instr :=
  [.freqCount, .freqCountFloor, .hufEncode, .hufDecode, .rcEncode, .rcDecode, .ransEncode, .ransDecode, .planeCompress]

/-- The decode commands of the units, which check `EXPECTED_COUNT` after `IN_LEN` (R32). -/
def decodeCommands : List Instr := [.hufDecode, .rcDecode, .ransDecode]

theorem exec_of_mem_inputCommands {i : Instr} (s : State) (h : i ∈ inputCommands) :
    ∃ (fp : State → Footprint) (k : State → Except Raise State),
      exec i s = .next (s.command fun t => t.finish (fp t) (t.withInput (k t))) := by
  simp only [inputCommands, List.mem_cons, List.not_mem_nil, or_false] at h
  rcases h with rfl | rfl | rfl | rfl | rfl | rfl | rfl | rfl | rfl <;> exact ⟨_, _, rfl⟩

theorem exec_of_mem_decodeCommands {i : Instr} (s : State) (h : i ∈ decodeCommands) :
    ∃ (fp : State → Footprint) (k : State → Except Raise State),
      exec i s = .next (s.command fun t => t.finish (fp t) (t.withInput (t.withCount (k t)))) := by
  simp only [decodeCommands, List.mem_cons, List.not_mem_nil, or_false] at h
  rcases h with rfl | rfl | rfl <;> exact ⟨_, _, rfl⟩

theorem planeDecompressChecks_of_inLen_gt {s : State} (h : Config.inCap < s.inLen.toNat) :
    planeDecompressChecks s = .error (capacityError 0) := if_pos h

theorem planeDecompressChecks_of_count_gt {s : State} (hin : s.inLen.toNat ≤ Config.inCap)
    (h : Config.outCap < s.expectedCount.toNat) : planeDecompressChecks s = .error (capacityError 0) := by
  rw [planeDecompressChecks, if_neg (Nat.not_lt.2 hin), if_pos h]

theorem planeDecompressRun_of_check {s : State} {e : Raise} (h : planeDecompressChecks s = .error e) :
    planeDecompressRun s = s.takeFault (planeDecompressFootprint s.backend) e := by
  simp [planeDecompressRun, h]

/-- A failed entry check of `PLANE_DECOMPRESS` is recorded (R282). -/
theorem exec_planeDecompress_faulted {s : State} {e : Raise} (herr : s.error = false)
    (h : planeDecompressChecks s.accept = .error e) :
    ∃ t, exec .planeDecompress s = .next t ∧ t.faulted e.kind e.info := by
  refine ⟨_, rfl, ?_⟩
  rw [State.command_of_ok _ herr, planeDecompressRun_of_check h]
  exact State.takeFault_faulted _ _ _

theorem exec_faulted_of_inLen_gt {s : State} {i : Instr} (herr : s.error = false) (hin : Config.inCap < s.inLen.toNat)
    (hi : i ∈ inputCommands ++ [.planeDecompress]) : ∃ t, exec i s = .next t ∧ t.faulted .capacity 0 := by
  rcases List.mem_append.1 hi with hi | hi
  · obtain ⟨fp, k, hexec⟩ := exec_of_mem_inputCommands s hi
    exact ⟨_, hexec, State.command_faulted (e := capacityError 0) herr (State.withInput_of_gt _ hin)⟩
  · obtain rfl := List.mem_singleton.1 hi
    exact exec_planeDecompress_faulted herr (planeDecompressChecks_of_inLen_gt hin)

theorem exec_faulted_of_count_gt {s : State} {i : Instr} (herr : s.error = false) (hin : s.inLen.toNat ≤ Config.inCap)
    (hcount : Config.outCap < s.expectedCount.toNat) (hi : i ∈ decodeCommands ++ [.planeDecompress]) :
    ∃ t, exec i s = .next t ∧ t.faulted .capacity 0 := by
  rcases List.mem_append.1 hi with hi | hi
  · obtain ⟨fp, k, hexec⟩ := exec_of_mem_decodeCommands s hi
    have hcheck : s.accept.withInput (s.accept.withCount (k s.accept)) = .error (capacityError 0) :=
      (State.withInput_of_le _ hin).trans (State.withCount_of_gt _ hcount)
    exact ⟨_, hexec, State.command_faulted (e := capacityError 0) herr hcheck⟩
  · obtain rfl := List.mem_singleton.1 hi
    exact exec_planeDecompress_faulted herr (planeDecompressChecks_of_count_gt hin hcount)

/-- Settles O18: `IN_LEN` is checked first, `EXPECTED_COUNT` after it has passed. -/
theorem lengthsBeyondCapacityRaiseCapacityError : Obligations.LengthsBeyondCapacityRaiseCapacityError :=
  ⟨fun _ herr hin _ hi => exec_faulted_of_inLen_gt herr hin hi,
    fun _ herr hin hcount _ hi => exec_faulted_of_count_gt herr hin hcount hi⟩

end Sys2Proof.Machine
end

section
/-!
The address map (spec/20_memory.md R78 to R82) and the buffer transactions of the host: which accesses are transactions,
and what one that lies in a region reads and stores.
-/
namespace Sys2Proof.Machine

/-! ## The regions (R78) -/

theorem Region.holds_iff (r : Region) (a : Nat) : r.holds a = true ↔ r.base ≤ a ∧ a < r.base + r.size := by
  simp [Region.holds]

/-- One of two regions ends before the other begins (R78, R85). -/
theorem Region.disjoint {r q : Region} (h : r ≠ q) : r.base + r.size ≤ q.base ∨ q.base + q.size ≤ r.base := by
  revert h
  cases r <;> cases q <;> decide

theorem Region.eq_of_holds {r q : Region} {a : Nat} (hr : r.holds a = true) (hq : q.holds a = true) : r = q := by
  obtain ⟨hrlo, hrhi⟩ := (r.holds_iff a).1 hr
  obtain ⟨hqlo, hqhi⟩ := (q.holds_iff a).1 hq
  by_contra hne
  have hdisjoint := Region.disjoint hne
  omega

/-- Each region ends within the 32-bit address space. -/
theorem Region.end_lt (r : Region) : r.base + r.size < 2 ^ 32 := by
  cases r <;> decide

/-- An address belongs to the region that holds it. -/
theorem regionOf_eq_some_iff {a : Nat} {r : Region} : regionOf a = some r ↔ r.holds a = true := by
  constructor
  · exact fun h => (r.holds_iff a).2 (regionOf_holds h)
  · intro h
    have hfound : (regionOf a).isSome = true :=
      List.find?_isSome.2 ⟨r, by cases r <;> decide, h⟩
    obtain ⟨q, hq⟩ := Option.isSome_iff_exists.1 hfound
    rw [hq, Region.eq_of_holds ((q.holds_iff a).2 (regionOf_holds hq)) h]

/-! ## The check of a buffer access (R79, R82) -/

@[simp] theorem checkRange_zero (a : Nat) : checkRange a 0 = .refused .emptyTransfer := rfl

theorem checkRange_of_unmapped {a n : Nat} (h : regionOf a = none) (hn : 1 ≤ n) :
    checkRange a n = .fault .unmappedAddress := by
  simp [checkRange, h, Nat.ne_of_gt hn]

theorem checkRange_of_fits {r : Region} {k n : Nat} (hr : r ≠ .reg) (hn : 1 ≤ n) (hfit : k + n ≤ r.size) :
    checkRange (r.base + k) n = .next r := by
  have hregion : regionOf (r.base + k) = some r :=
    regionOf_eq_some_iff.2 ((r.holds_iff _).2 ⟨by omega, by omega⟩)
  have hend : r.base + k + n ≤ r.base + r.size := by omega
  simp [checkRange, Nat.ne_of_gt hn, hregion, hend, hr]

/-- An access that passes the check lies in its region byte for byte. -/
theorem regionOf_of_checkRange {a n : Nat} {r : Region} (h : checkRange a n = .next r) :
    r ≠ .reg ∧ ∀ j < n, regionOf (a + j) = some r := by
  obtain ⟨-, hregion, hend, hr⟩ := checkRange_next h
  obtain ⟨hlo, -⟩ := regionOf_holds hregion
  exact ⟨hr, fun j hj => regionOf_eq_some_iff.2 ((r.holds_iff _).2 ⟨by omega, by omega⟩)⟩

theorem checkOffset_of_beyond {off : Word} (h : 0x1000 ≤ off.toNat) : checkOffset off = some .noSuchRegister :=
  if_pos h

/-! ## Buffer transactions -/

/-- The check passed where a buffer read answers a state. -/
theorem State.transact_bufRead_next {s t : State} {a : Word} {n : Nat} (h : s.transact (.bufRead a n) = .next t) :
    ∃ r, checkRange a.toNat n = .next r ∧
      t = { s with reply := .bytes ((List.range n).map fun j => s.regionByte r (a.toNat + j - r.base)) } := by
  rcases State.transact_cases h with ⟨_, hx, _⟩ | ⟨_, _, _, hx, _⟩ | ⟨_, _, r, hx, hcheck, ht⟩ | ⟨_, _, _, hx, _⟩ | ⟨hx, _⟩
  case inr.inr.inl => cases hx; exact ⟨r, hcheck, ht⟩
  all_goals cases hx

/-- The check passed where a buffer write answers a state. -/
theorem State.transact_bufWrite_next {s t : State} {a : Word} {bs : List Byte}
    (h : s.transact (.bufWrite a bs) = .next t) :
    ∃ r, checkRange a.toNat bs.length = .next r ∧
      t = { s.writeRegion r (a.toNat - r.base) bs with reply := .empty } := by
  rcases State.transact_cases h with ⟨_, hx, _⟩ | ⟨_, _, _, hx, _⟩ | ⟨_, _, _, hx, _⟩ | ⟨_, _, r, hx, hcheck, ht⟩ | ⟨hx, _⟩
  case inr.inr.inr.inl => cases hx; exact ⟨r, hcheck, ht⟩
  all_goals cases hx

theorem State.transact_bufRead_of_check {s : State} {r : Region} {a : Word} {n : Nat}
    (h : checkRange a.toNat n = .next r) : s.transact (.bufRead a n) =
      .next { s with reply := .bytes ((List.range n).map fun j => s.regionByte r (a.toNat + j - r.base)) } := by
  simp [State.transact, h]

theorem State.transact_bufWrite_of_check {s : State} {r : Region} {a : Word} {bs : List Byte}
    (h : checkRange a.toNat bs.length = .next r) : s.transact (.bufWrite a bs) =
      .next { s.writeRegion r (a.toNat - r.base) bs with reply := .empty } := by
  simp [State.transact, h]

/-- The bytes at consecutive offsets of a region as the host reads them. -/
def State.regionBytes (s : State) (r : Region) (k n : Nat) : List Byte :=
  (List.range n).map fun j => s.regionByte r (k + j)

@[simp] theorem State.regionBytes_length (s : State) (r : Region) (k n : Nat) : (s.regionBytes r k n).length = n := by
  simp [State.regionBytes]

theorem State.regionBytes_getElem? (s : State) (r : Region) {k n j : Nat} (h : j < n) :
    (s.regionBytes r k n)[j]? = some (s.regionByte r (k + j)) := by
  simp [State.regionBytes, h]

/-- The address of an offset that its region holds. -/
theorem Region.toNat_address {r : Region} {k : Nat} (h : k < r.size) :
    (BitVec.ofNat 32 (r.base + k)).toNat = r.base + k := by
  have hend := r.end_lt
  rw [BitVec.toNat_ofNat, Nat.mod_eq_of_lt (by omega)]

/-- A read that lies in a region answers the region's bytes. -/
theorem State.transact_dump (s : State) {r : Region} {k n : Nat} (hr : r ≠ .reg) (hn : 1 ≤ n) (hfit : k + n ≤ r.size) :
    s.transact (dump r k n) = .next { s with reply := .bytes (s.regionBytes r k n) } := by
  have haddr := Region.toNat_address (r := r) (k := k) (by omega)
  have hcheck := checkRange_of_fits hr hn hfit
  rw [← haddr] at hcheck
  rw [dump, State.transact_bufRead_of_check hcheck, haddr]
  simp only [State.regionBytes, Nat.add_assoc, Nat.add_sub_cancel_left]

/-- A write that lies in a region stores there. -/
theorem State.transact_load (s : State) {r : Region} {k : Nat} {bs : List Byte} (hr : r ≠ .reg) (hne : bs ≠ [])
    (hfit : k + bs.length ≤ r.size) :
    s.transact (load r k bs) = .next { s.writeRegion r k bs with reply := .empty } := by
  have hlen := List.length_pos_iff.2 hne
  have haddr := Region.toNat_address (r := r) (k := k) (by omega)
  have hcheck := checkRange_of_fits hr hlen hfit
  rw [← haddr] at hcheck
  rw [load, State.transact_bufWrite_of_check hcheck, haddr, Nat.add_sub_cancel_left]

/-- Settles O59: a request outside the map fails its check, and one that answers a state passed it. -/
theorem accessesOutsideTheMapAreNoSteps : Obligations.AccessesOutsideTheMapAreNoSteps := by
  refine ⟨fun s a n bs hmap hn hne => ⟨?_, ?_⟩, fun s a => ⟨rfl, rfl⟩, fun s t a n h => ?_, fun s t a bs h => ?_,
    fun s off v hoff => ⟨?_, ?_⟩⟩
  · simp [State.transact, checkRange_of_unmapped hmap hn]
  · simp [State.transact, checkRange_of_unmapped hmap (List.length_pos_iff.2 hne)]
  · obtain ⟨r, hcheck, -⟩ := State.transact_bufRead_next h
    exact ⟨r, regionOf_of_checkRange hcheck⟩
  · obtain ⟨r, hcheck, -⟩ := State.transact_bufWrite_next h
    exact ⟨r, regionOf_of_checkRange hcheck⟩
  · simp [State.transact, checkOffset_of_beyond hoff]
  · simp [State.transact, checkOffset_of_beyond hoff]

/-! ## Read-only windows (R80) -/

/-- The windows a host write does not reach (R78). -/
def Region.readOnly : List Region := [.cum, .hlen, .hcode, .symtab, .output]

theorem State.writeRegion_of_readOnly {r : Region} (s : State) (k : Nat) (bs : List Byte) (h : r ∈ Region.readOnly) :
    s.writeRegion r k bs = s := by
  cases r with
  | freq | input => exact absurd h (by decide)
  | _ => rfl

/-- Settles O57: the write is a transaction, and its region stores nothing. -/
theorem writesToReadOnlyWindowsHaveNoEffect : Obligations.WritesToReadOnlyWindowsHaveNoEffect := by
  intro s r k bs hr hne hfit
  have hreg : r ≠ .reg := by rintro rfl; exact absurd hr (by decide)
  exact (s.transact_load hreg hne hfit).trans (by rw [s.writeRegion_of_readOnly k bs hr])

/-! ## The input buffer (R45, R79) -/

/-- What `IN` holds after the host stored bytes in it. -/
theorem State.inByte_writeRegion_input (s : State) (k : Nat) (bs : List Byte) (j : Nat) :
    (s.writeRegion .input k bs).inByte j = if k ≤ j ∧ j < k + bs.length then bs.getD (j - k) 0 else s.inByte j := by
  have hread : (s.writeRegion .input k bs).mem.read (Config.inBase + j) = _ := Memory.read_writeBytes bs s.mem _ _
  have hoff : Config.inBase + j - (Config.inBase + k) = j - k := by omega
  rw [State.inByte, hread, hoff]
  by_cases h : k ≤ j ∧ j < k + bs.length
  · have hlt : j - k < bs.length := by omega
    rw [if_pos h, if_pos (by omega), List.getD_eq_getElem?_getD, List.getElem?_eq_getElem hlt]
    rfl
  · rw [if_neg h, if_neg (by omega)]
    rfl

theorem State.regionBytes_writeRegion_input (s : State) (k : Nat) (bs : List Byte) :
    (s.writeRegion .input k bs).regionBytes .input k bs.length = bs := by
  refine List.ext_getElem (by simp) fun j hj hlt => ?_
  have hbyte := s.inByte_writeRegion_input k bs (k + j)
  rw [if_pos (by omega), Nat.add_sub_cancel_left] at hbyte
  simpa [State.regionBytes, State.regionByte, hlt] using hbyte

/-- Settles O58: the write stores into `IN` alone, and the read of the same range answers what was stored. -/
theorem inputBytesReadBackAsWritten : Obligations.InputBytesReadBackAsWritten := by
  intro s k bs hne hfit
  refine ⟨_, s.transact_load (r := .input) (by decide) hne hfit, rfl, s.inByte_writeRegion_input k bs, fun a ha => ?_, ?_⟩
  · have hread : (s.writeRegion .input k bs).mem.read a = _ := Memory.read_writeBytes bs s.mem _ _
    exact hread.trans (if_neg (by simp only [Config.inBase]; omega))
  · refine (State.transact_dump _ (r := .input) (by decide) (List.length_pos_iff.2 hne) hfit).trans ?_
    have hback : ({ s.writeRegion .input k bs with reply := .empty } : State).regionBytes .input k bs.length = bs :=
      s.regionBytes_writeRegion_input k bs
    rw [hback]

end Sys2Proof.Machine
end

section
/-!
The transactions without a side effect (spec/20_memory.md R83): reads, buffer writes, and register writes but to `CMD`.
-/
namespace Sys2Proof.Machine

/-! ## What a read depends on -/

theorem State.readOffset_reply (s : State) (p : Reply) (off : Word) :
    ({ s with reply := p } : State).readOffset off = s.readOffset off := rfl

theorem State.regionByte_reply (s : State) (p : Reply) (r : Region) (k : Nat) :
    ({ s with reply := p } : State).regionByte r k = s.regionByte r k := rfl

/-- A register read answers the register and changes nothing else, so the next one answers the same. -/
theorem State.transact_regRead_next {s t : State} {off : Word} (h : s.transact (.regRead off) = .next t) :
    t = { s with reply := t.reply } ∧ t.transact (.regRead off) = .next t := by
  rcases State.transact_cases h with ⟨_, hx, hcheck, rfl⟩ | ⟨_, _, _, hx, _⟩ | ⟨_, _, _, hx, _⟩ | ⟨_, _, _, hx, _⟩ | ⟨hx, _⟩
  case inl =>
    cases hx
    exact ⟨rfl, by simp [State.transact, hcheck, State.readOffset_reply]⟩
  all_goals cases hx

/-- A buffer read answers the bytes and changes nothing else, so the next one answers the same. -/
theorem State.transact_bufRead_again {s t : State} {a : Word} {n : Nat} (h : s.transact (.bufRead a n) = .next t) :
    t = { s with reply := t.reply } ∧ t.transact (.bufRead a n) = .next t := by
  obtain ⟨r, hcheck, rfl⟩ := State.transact_bufRead_next h
  exact ⟨rfl, by simp only [State.transact_bufRead_of_check hcheck, State.regionByte_reply]⟩

/-! ## What a write stores -/

theorem State.writeRegion_frame (s : State) (r : Region) (k : Nat) (bs : List Byte) :
    s.writeRegion r k bs = { s with freq := (s.writeRegion r k bs).freq, mem := (s.writeRegion r k bs).mem } := by
  cases r <;> rfl

theorem State.writeRegion_freq_of_ne {r : Region} (s : State) (k : Nat) (bs : List Byte) (h : r ≠ .freq) :
    (s.writeRegion r k bs).freq = s.freq := by
  cases r with
  | freq => exact absurd rfl h
  | _ => rfl

theorem State.writeRegion_mem_of_ne {r : Region} (s : State) (k : Nat) (bs : List Byte) (h : r ≠ .input) :
    (s.writeRegion r k bs).mem = s.mem := by
  cases r with
  | input => exact absurd rfl h
  | _ => rfl

/-- A write to a region leaves every stored byte outside its range. -/
theorem State.writeRegion_read_outside (s : State) (r : Region) {k : Nat} {bs : List Byte} {c : Nat}
    (h : c < r.base + k ∨ r.base + k + bs.length ≤ c) : (s.writeRegion r k bs).mem.read c = s.mem.read c := by
  by_cases hr : r = .input
  · subst hr
    have hread : (s.writeRegion .input k bs).mem.read c = _ := Memory.read_writeBytes bs s.mem _ _
    exact hread.trans (if_neg (by change c < Config.inBase + k ∨ Config.inBase + k + bs.length ≤ c at h; omega))
  · rw [s.writeRegion_mem_of_ne k bs hr]

/-! ## Register writes (R24, R37) -/

theorem Reg.number_of_ofNumber {n : Nat} {r : Reg} (h : Reg.ofNumber n = some r) : n = r.offset.toNat / 4 := by
  unfold Reg.ofNumber at h
  split at h <;> cases h <;> rfl

theorem aligned_of_checkOffset {off : Word} (h : checkOffset off = none) : off.toNat % 4 = 0 := by
  by_contra hmis
  rcases Nat.lt_or_ge off.toNat 0x1000 with hlt | hge
  · simp [checkOffset_of_misaligned hlt hmis] at h
  · simp [checkOffset_of_beyond hge] at h

/-- An access that passed its check and names a register is at that register's offset. -/
theorem Reg.eq_offset_of_ofNumber {off : Word} {r : Reg} (hcheck : checkOffset off = none)
    (hr : Reg.ofNumber (off.toNat / 4) = some r) : off = r.offset := by
  have hoff := aligned_of_checkOffset hcheck
  have hreg := aligned_of_checkOffset (checkOffset_offset r)
  have hnumber := Reg.number_of_ofNumber hr
  exact BitVec.eq_of_toNat_eq (by omega)

theorem Reg.ne_offset_of_ofNumber_none {off : Word} (h : Reg.ofNumber (off.toNat / 4) = none) (r : Reg) :
    off ≠ r.offset := by
  rintro rfl
  simp at h

/-- A register write that answers a state and is not the `CMD` write stores in one register, or its offset is
reserved. -/
theorem State.transact_regWrite_next {s t : State} {off v : Word} (hoff : off ≠ Reg.cmd.offset)
    (h : s.transact (.regWrite off v) = .next t) :
    (∃ r, r ≠ .cmd ∧ off = r.offset ∧ t = { s.writeReg v r with reply := .empty }) ∨
    ((∀ r : Reg, off ≠ r.offset) ∧ t = { s with reply := .empty }) := by
  rcases State.transact_cases h with ⟨_, hx, _⟩ | ⟨_, _, u, hx, hcheck, hwrite, rfl⟩ | ⟨_, _, _, hx, _⟩ |
    ⟨_, _, _, hx, _⟩ | ⟨hx, _⟩
  case inr.inl =>
    cases hx
    rcases State.writeOffset_cases hwrite with ⟨hcmd, -⟩ | ⟨r, hr, hreg, rfl⟩ | ⟨hreserved, rfl⟩
    · exact absurd (Reg.eq_offset_of_ofNumber hcheck hcmd) hoff
    · exact .inl ⟨r, hr, Reg.eq_offset_of_ofNumber hcheck hreg, rfl⟩
    · exact .inr ⟨Reg.ne_offset_of_ofNumber_none hreserved, rfl⟩
  all_goals cases hx

/-- Settles O52: each transaction by the region or the register that its check names. -/
theorem onlyCommandsAndResetHaveSideEffects : Obligations.OnlyCommandsAndResetHaveSideEffects := by
  refine ⟨fun s t off h => State.transact_regRead_next h, fun s t a n h => State.transact_bufRead_again h,
    fun s t a bs h => ?bufWrite, fun s t off v hoff h => ?regWrite⟩
  case bufWrite =>
    obtain ⟨r, hcheck, rfl⟩ := State.transact_bufWrite_next h
    obtain ⟨-, hregion, -, -⟩ := checkRange_next hcheck
    obtain ⟨hlo, hhi⟩ := regionOf_holds hregion
    refine ⟨?frame, fun ha => ?freq, fun ha => ?mem, fun c hc => ?outside⟩
    case frame => rw [s.writeRegion_frame r _ bs]
    case freq =>
      refine s.writeRegion_freq_of_ne _ bs fun hr => ?_
      subst hr
      exact absurd hhi (Nat.not_lt.2 ha)
    case mem =>
      refine s.writeRegion_mem_of_ne _ bs fun hr => ?_
      subst hr
      exact absurd hlo (Nat.not_le.2 ha)
    case outside => exact s.writeRegion_read_outside r (by omega)
  case regWrite =>
    rcases State.transact_regWrite_next hoff h with ⟨r, hr, rfl, rfl⟩ | ⟨hreserved, rfl⟩
    · cases r with
      | cmd => exact absurd rfl hr
      | _ => rfl
    · exact (((if_neg (hreserved .backend)).trans (if_neg (hreserved .inLen))).trans
        (if_neg (hreserved .expectedCount))).symm

end Sys2Proof.Machine
end

section
/-!
The windows of the tables (spec/20_memory.md R71 to R73): the byte at an offset of a window, what a host write replaces
in `FREQ`, and the serialised table.
-/
namespace Sys2Proof.Machine

/-! ## Bytes of a word (R71, R73) -/

theorem wordByte_getLsbD (w : Word) (j i : Nat) :
    (wordByte w j).getLsbD i = (decide (i < 8) && w.getLsbD (8 * j + i)) := by
  simp [wordByte, BitVec.getLsbD_extractLsb']

/-- A bit of a word stands in one of its bytes. -/
theorem getLsbD_eq_wordByte (w : Word) (q : Nat) : w.getLsbD q = (wordByte w (q / 8)).getLsbD (q % 8) := by
  have hlt : q % 8 < 8 := Nat.mod_lt _ (by decide)
  rw [wordByte_getLsbD, Nat.div_add_mod]
  simp [hlt]

theorem lowByteMask_getLsbD (i : Nat) : (0xFF : Word).getLsbD i = decide (i < 8) := by
  have hmask : (0xFF : Word).getLsbD i = (2 ^ 8 - 1).testBit i := rfl
  rw [hmask, Nat.testBit_two_pow_sub_one]

/-- Replacing byte `j` of a word. -/
theorem wordByte_setWordByte (w : Word) {i : Nat} (hi : i < 4) (j : Nat) (b : Byte) :
    wordByte (setWordByte w j b) i = if i = j then b else wordByte w i := by
  apply BitVec.eq_of_getLsbD_eq
  intro q hq
  have hbit : 8 * i + q < 32 := by omega
  rw [wordByte_getLsbD, setWordByte]
  simp only [BitVec.getLsbD_or, BitVec.getLsbD_and, BitVec.getLsbD_not, BitVec.getLsbD_shiftLeft, BitVec.getLsbD_setWidth,
    lowByteMask_getLsbD, hq, hbit, decide_true, Bool.true_and]
  rcases Nat.lt_trichotomy i j with hlt | rfl | hgt
  · have hbelow : 8 * i + q < 8 * j := by omega
    rw [if_neg (Nat.ne_of_lt hlt), wordByte_getLsbD]
    simp [hbelow, hq]
  · simp [hq, Nat.lt_trans hq]
  · have habove : ¬ 8 * i + q < 8 * j := by omega
    have hbeyond : 8 ≤ 8 * i + q - 8 * j := by omega
    rw [if_neg (Nat.ne_of_gt hgt), wordByte_getLsbD]
    simp [habove, Nat.not_lt.2 hbeyond, BitVec.getLsbD_of_ge b _ hbeyond, hq]

/-! ## The bytes of `FREQ` -/

/-- The byte at an offset of the window of `FREQ`. -/
def FreqTable.byteAt (F : FreqTable) (k : Nat) : Byte := wordByte (F[k / 4]?.getD 0) (k % 4)

theorem State.regionByte_freq (s : State) (k : Nat) : s.regionByte .freq k = s.freq.byteAt k := rfl

/-- Byte `j` of entry `e`. -/
theorem FreqTable.byteAt_entry (F : FreqTable) (e : Fin 256) (j : Fin 4) :
    F.byteAt (4 * e.val + j.val) = wordByte F[e] j.val := by
  have hentry : (4 * e.val + j.val) / 4 = e.val := by omega
  have hbyte : (4 * e.val + j.val) % 4 = j.val := by omega
  rw [FreqTable.byteAt, hentry, hbyte]
  simp

/-- A bit of an entry in the bytes of the window. -/
theorem FreqTable.getLsbD_eq_byteAt (F : FreqTable) (e : Fin 256) (q : Fin 32) :
    F[e].getLsbD q.val = (F.byteAt (4 * e.val + q.val / 8)).getLsbD (q.val % 8) := by
  rw [getLsbD_eq_wordByte, ← F.byteAt_entry e ⟨q.val / 8, by omega⟩]

/-- A poke replaces one byte of the window. -/
theorem FreqTable.byteAt_poke (F : FreqTable) {k p : Nat} (hk : k < 1024) (b : Byte) :
    (F.poke k b).byteAt p = if p = k then b else F.byteAt p := by
  have hentry : k / 4 < 256 := by omega
  rw [FreqTable.byteAt, FreqTable.poke, Vector.getElem?_setIfInBounds, FreqTable.byteAt]
  by_cases hp : k / 4 = p / 4
  · rw [if_pos hp, if_pos hentry, Option.getD_some,
      wordByte_setWordByte _ (Nat.mod_lt _ (by decide)), hp]
    have hsame : p % 4 = k % 4 ↔ p = k := by omega
    simp only [hsame]
  · rw [if_neg hp, if_neg (by rintro rfl; exact hp rfl)]

/-- Poking bytes replaces their range of the window. -/
theorem FreqTable.byteAt_pokeAll (bs : List Byte) : ∀ (F : FreqTable) (k p : Nat), k + bs.length ≤ 1024 →
    (F.pokeAll k bs).byteAt p = if k ≤ p ∧ p < k + bs.length then bs.getD (p - k) 0 else F.byteAt p := by
  induction bs with
  | nil =>
    intro F k p _
    rw [if_neg (by simp)]
    rfl
  | cons b bs ih =>
    intro F k p hfit
    rw [List.length_cons] at hfit ⊢
    rw [FreqTable.pokeAll, ih _ _ _ (by omega), FreqTable.byteAt_poke F (by omega)]
    by_cases hlater : k + 1 ≤ p ∧ p < k + 1 + bs.length
    · rw [if_pos hlater, if_pos (by omega), show p - k = p - (k + 1) + 1 by omega, List.getD_cons_succ]
    · rw [if_neg hlater]
      by_cases hp : p = k
      · subst hp; simp
      · rw [if_neg hp, if_neg (by omega)]

/-- The serialised table is the window byte by byte (R72). -/
theorem FreqTable.serialise_getElem?_eq_byteAt (F : FreqTable) {p : Nat} (hp : p < 1024) :
    F.serialise[p]? = some (F.byteAt p) := by
  have hentry : p / 4 < 256 := by omega
  have hbyte : p % 4 < 4 := Nat.mod_lt _ (by decide)
  have hpos : 4 * (p / 4) + p % 4 = p := Nat.div_add_mod p 4
  rw [← hpos, F.serialise_getElem? _ _ hentry hbyte, F.byteAt_entry ⟨p / 4, hentry⟩ ⟨p % 4, hbyte⟩]
  rfl

/-- A list of 1024 bytes that are the window's is the serialised table. -/
theorem FreqTable.serialise_eq {F : FreqTable} {bs : List Byte} (hlen : bs.length = 1024)
    (h : ∀ p < 1024, bs[p]? = some (F.byteAt p)) : F.serialise = bs := by
  refine List.ext_getElem? fun p => ?_
  rcases Nat.lt_or_ge p 1024 with hp | hp
  · rw [F.serialise_getElem?_eq_byteAt hp, h p hp]
  · rw [List.getElem?_eq_none (by simp [hp]), List.getElem?_eq_none (by omega)]

/-- Settles O56: window and serialised table agree byte by byte, and a whole write replaces every byte. -/
theorem freqWindowIsTheSerialisedTable : Obligations.FreqWindowIsTheSerialisedTable := by
  refine ⟨fun s => ?read, fun s bs hlen => ?write, fun F => ⟨F.serialise_length, fun e j => ?bytes⟩⟩
  case read =>
    have hwindow : s.freq.serialise = s.regionBytes .freq 0 1024 := by
      refine FreqTable.serialise_eq (s.regionBytes_length .freq 0 1024) fun p hp => ?_
      rw [s.regionBytes_getElem? .freq hp, Nat.zero_add, s.regionByte_freq]
    rw [hwindow]
    exact s.transact_dump (r := .freq) (k := 0) (by decide) (by decide) (by decide)
  case write =>
    have hne : bs ≠ [] := by rintro rfl; cases hlen
    refine ⟨_, s.transact_load (r := .freq) (k := 0) (by decide) hne (by rw [hlen]; decide), ?_, rfl⟩
    refine FreqTable.serialise_eq hlen fun p hp => ?_
    have hbyte := FreqTable.byteAt_pokeAll bs s.freq 0 p (by omega)
    rw [if_pos (by omega), Nat.sub_zero, List.getD_eq_getElem?_getD, List.getElem?_eq_getElem (by omega)] at hbyte
    rw [List.getElem?_eq_getElem (by omega)]
    exact congrArg some hbyte.symm
  case bytes => exact F.serialise_getElem? e.val j.val e.isLt j.isLt

/-! ## Reads of a window (R71, R73) -/

/-- A read of a range of a window answers the window's bytes. -/
theorem State.transact_dump_bytes (s : State) {r : Region} {k n : Nat} (hr : r ≠ .reg) (hn : 1 ≤ n)
    (hfit : k + n ≤ r.size) :
    ∃ bs, s.transact (dump r k n) = .next { s with reply := .bytes bs } ∧ bs.length = n ∧
      ∀ p, k ≤ p → p < k + n → bs[p - k]? = some (s.regionByte r p) := by
  refine ⟨_, s.transact_dump hr hn hfit, s.regionBytes_length r k n, fun p hlo hhi => ?_⟩
  rw [s.regionBytes_getElem? r (by omega), Nat.add_sub_cancel' hlo]

theorem State.regionByte_cum (s : State) (e : Fin 257) (j : Fin 4) :
    s.regionByte .cum (4 * e.val + j.val) = wordByte s.cum[e] j.val := by
  have hentry : (4 * e.val + j.val) / 4 = e.val := by omega
  have hbyte : (4 * e.val + j.val) % 4 = j.val := by omega
  simp only [State.regionByte, hentry, hbyte]
  simp

theorem State.regionByte_hlen (s : State) (e : Fin 256) : s.regionByte .hlen e.val = s.hlen[e] := by
  simp [State.regionByte]

theorem State.regionByte_symtab (s : State) (e : Fin 4096) : s.regionByte .symtab e.val = s.symtab[e] := by
  simp [State.regionByte]

/-- Bit `j` of an entry of `HCODE` in stream order stands in byte `j / 8` of the entry, most significant bit first
(R41). -/
theorem State.regionByte_hcode_getLsbD (s : State) (e j : Fin 256) :
    (s.regionByte .hcode (32 * e.val + j.val / 8)).getLsbD (7 - j.val % 8) = s.hcode[e].getLsbD (255 - j.val) := by
  have hentry : (32 * e.val + j.val / 8) / 32 = e.val := by omega
  have hbyte : (32 * e.val + j.val / 8) % 32 = j.val / 8 := by omega
  have hbit : 8 * (31 - j.val / 8) + (7 - j.val % 8) = 255 - j.val := by omega
  have hlow : 7 - j.val % 8 < 8 := by omega
  simp only [State.regionByte, hentry, hbyte, BitVec.getLsbD_extractLsb', hbit]
  simp [hlow]

/-- A write of one byte into `FREQ` replaces eight bits of one entry (R73). -/
theorem FreqTable.getLsbD_poke (F : FreqTable) (e e' : Fin 256) (j : Fin 4) (q : Fin 32) (b : Byte) :
    (F.poke (4 * e.val + j.val) b)[e'].getLsbD q.val =
      if e' = e ∧ q.val / 8 = j.val then b.getLsbD (q.val % 8) else F[e'].getLsbD q.val := by
  have hsame : 4 * e'.val + q.val / 8 = 4 * e.val + j.val ↔ e' = e ∧ q.val / 8 = j.val := by
    rw [Fin.ext_iff]; omega
  rw [FreqTable.getLsbD_eq_byteAt, FreqTable.byteAt_poke F (by omega), FreqTable.getLsbD_eq_byteAt]
  simp only [hsame]
  split <;> rfl

/-- Settles O55: the write is one poke of `FREQ`, and each read answers the bytes of its window. -/
theorem windowsShowTheBytesOfTheTables : Obligations.WindowsShowTheBytesOfTheTables := by
  refine ⟨fun s e j b => ?poke, fun s k n hn hfit => ?freq, fun s k n hn hfit => ?cum, fun s k n hn hfit => ?hlen,
    fun s k n hn hfit => ?hcode, fun s k n hn hfit => ?symtab⟩
  case poke =>
    have hwrite := s.transact_load (r := .freq) (k := 4 * e.val + j.val) (bs := [b]) (by decide) (by simp)
      (by simp only [Region.size, List.length_singleton]; omega)
    rw [load, ← Nat.add_assoc] at hwrite
    exact ⟨_, hwrite, rfl, fun e' q => s.freq.getLsbD_poke e e' j q b⟩
  case freq =>
    obtain ⟨bs, hread, hlen, hbytes⟩ := s.transact_dump_bytes (r := .freq) (by decide) hn hfit
    exact ⟨bs, hread, hlen, fun e j hlo hhi => (hbytes _ hlo hhi).trans (congrArg some (s.freq.byteAt_entry e j))⟩
  case cum =>
    obtain ⟨bs, hread, hlen, hbytes⟩ := s.transact_dump_bytes (r := .cum) (by decide) hn hfit
    exact ⟨bs, hread, hlen, fun e j hlo hhi => (hbytes _ hlo hhi).trans (congrArg some (s.regionByte_cum e j))⟩
  case hlen =>
    obtain ⟨bs, hread, hlen, hbytes⟩ := s.transact_dump_bytes (r := .hlen) (by decide) hn hfit
    exact ⟨bs, hread, hlen, fun e hlo hhi => (hbytes _ hlo hhi).trans (congrArg some (s.regionByte_hlen e))⟩
  case hcode =>
    obtain ⟨bs, hread, hlen, hbytes⟩ := s.transact_dump_bytes (r := .hcode) (by decide) hn hfit
    refine ⟨bs, hread, hlen, fun e j hlo hhi => ?_⟩
    rw [List.getD_eq_getElem?_getD, hbytes _ hlo hhi, Option.getD_some]
    exact s.regionByte_hcode_getLsbD e j
  case symtab =>
    obtain ⟨bs, hread, hlen, hbytes⟩ := s.transact_dump_bytes (r := .symtab) (by decide) hn hfit
    exact ⟨bs, hread, hlen, fun e hlo hhi => (hbytes _ hlo hhi).trans (congrArg some (s.regionByte_symtab e))⟩

end Sys2Proof.Machine
end

section
/-!
The input buffer through a command (spec/20_memory.md R85): every operation of a command leaves the stored bytes of `IN`
and the key of its unwritten bytes, and so does the command, completed or faulted.
-/
namespace Sys2Proof.Machine

/-- `IN` and `OUT` are disjoint (R78, R85). -/
theorem not_inOutBuffer_of_inInBuffer {a : Nat} (hin : inInBuffer a = true) : inOutBuffer a = false :=
  Bool.eq_false_iff.2 fun hout => nomatch Region.eq_of_holds (r := .input) (q := .output) hin hout

theorem lt_outBase_of_inInBuffer {a : Nat} (h : inInBuffer a = true) : a < Config.outBase := by
  have hend : a < Config.inBase + Config.inCap := ((Region.input.holds_iff a).1 h).2
  have hbase : Config.inBase + Config.inCap ≤ Config.outBase := by decide
  omega

/-- `IN` is the same in both states: its stored bytes, and the key of its unwritten ones. -/
def State.keepsInput (s t : State) : Prop :=
  t.bufDraw = s.bufDraw ∧ ∀ a, inInBuffer a = true → t.mem.read a = s.mem.read a

theorem State.keepsInput.inByte {s t : State} (h : s.keepsInput t) {k : Nat} (hk : k < Config.inCap) :
    t.inByte k = s.inByte k := by
  obtain ⟨hdraw, hread⟩ := h
  have hin : inInBuffer (Config.inBase + k) = true := by simp [inInBuffer, hk]
  rw [State.inByte, State.inByte, hread _ hin, hdraw]

/-! ## The ways a command changes the memory -/

theorem State.keepsInput_of_mem {s t : State} (hdraw : t.bufDraw = s.bufDraw) (hmem : t.mem = s.mem) :
    s.keepsInput t :=
  ⟨hdraw, fun _ _ => by rw [hmem]⟩

/-- A result in `OUT` leaves `IN`, whatever its length: it is stored from `OUT`'s base on. -/
theorem State.keepsInput_of_setOut {s t : State} (bs : List Byte) (hdraw : t.bufDraw = s.bufDraw)
    (hmem : t.mem = s.mem.setOut bs) : s.keepsInput t := by
  refine ⟨hdraw, fun a ha => ?_⟩
  have hbelow : ¬ Config.outBase ≤ a := Nat.not_le.2 (lt_outBase_of_inInBuffer ha)
  rw [hmem, Memory.setOut, Memory.read_append, Memory.read_dropOut, read_cellsFrom, if_neg hbelow,
    not_inOutBuffer_of_inInBuffer ha]
  simp

theorem State.keepsInput_takeFault (s : State) (fp : Footprint) (e : Raise) : s.keepsInput (s.takeFault fp e) :=
  ⟨rfl, fun a ha => by simp [State.takeFault_read, not_inOutBuffer_of_inInBuffer ha]⟩

/-! ## Operations -/

/-- Where the operation completes, `IN` is the same. -/
def opKeepsInput (s : State) (result : Except Raise State) : Prop := ∀ t, result = .ok t → s.keepsInput t

@[simp] theorem opKeepsInput_error (s : State) (e : Raise) : opKeepsInput s (.error e) := by
  rintro t ⟨⟩

@[simp] theorem opKeepsInput_ok {s t : State} : opKeepsInput s (.ok t) ↔ s.keepsInput t :=
  ⟨fun h => h t rfl, by rintro h _ ⟨⟩; exact h⟩

theorem opKeepsInput.withInput {s : State} {k : Except Raise State} (h : opKeepsInput s k) :
    opKeepsInput s (s.withInput k) := fun t ht => h t (State.withInput_ok ht).2

theorem opKeepsInput.withCount {s : State} {k : Except Raise State} (h : opKeepsInput s k) :
    opKeepsInput s (s.withCount k) := fun t ht => h t (State.withCount_ok ht).2

theorem opKeepsInput_freqCountOp (floor : Nat) (s : State) : opKeepsInput s (freqCountOp floor s) := by
  rcases freqCountOp_cases floor s with ⟨-, h⟩ | ⟨-, h⟩ <;> rw [h]
  · exact opKeepsInput_error _ _
  · exact opKeepsInput_ok.2 (State.keepsInput_of_mem rfl rfl)

theorem opKeepsInput_hufEncodeOp (pre : List Byte) (s : State) : opKeepsInput s (hufEncodeOp pre s) := by
  rcases hufEncodeOp_cases pre s with ⟨w, -, h⟩ | ⟨e, -, h⟩ <;> rw [h]
  · exact opKeepsInput_ok.2 (State.keepsInput_of_setOut _ rfl rfl)
  · exact opKeepsInput_error _ _

theorem opKeepsInput_hufDecodeOp (P : List Byte) (s : State) : opKeepsInput s (hufDecodeOp P s) := by
  rcases hufDecodeOp_cases P s with ⟨-, h⟩ | ⟨-, -, ⟨e, -, h⟩ | ⟨q, -, h⟩⟩ <;> rw [h]
  · exact opKeepsInput_error _ _
  · exact opKeepsInput_error _ _
  · exact opKeepsInput_ok.2 (State.keepsInput_of_setOut _ rfl rfl)

theorem opKeepsInput_rcBuildOp (s : State) : opKeepsInput s (rcBuildOp s) := by
  rcases rcBuildOp_cases s with ⟨-, h⟩ | ⟨-, h⟩ <;> rw [h]
  · exact opKeepsInput_error _ _
  · exact opKeepsInput_ok.2 (State.keepsInput_of_mem rfl rfl)

theorem opKeepsInput_rcEncodeOp (pre : List Byte) (s : State) : opKeepsInput s (rcEncodeOp pre s) := by
  rcases rcEncodeOp_cases pre s with ⟨-, h⟩ | ⟨-, ⟨e, -, h⟩ | ⟨q, -, h⟩⟩ <;> rw [h]
  · exact opKeepsInput_error _ _
  · exact opKeepsInput_error _ _
  · exact opKeepsInput_ok.2 (State.keepsInput_of_setOut (pre ++ packBits q.2.bits) (by simp) (by simp))

theorem opKeepsInput_rcDecodeOp (P : List Byte) (s : State) : opKeepsInput s (rcDecodeOp P s) := by
  rcases rcDecodeOp_cases P s with ⟨-, h⟩ | ⟨-, ⟨e, -, h⟩ | ⟨q, -, h⟩⟩ <;> rw [h]
  · exact opKeepsInput_error _ _
  · exact opKeepsInput_error _ _
  · exact opKeepsInput_ok.2 (State.keepsInput_of_setOut q.1 (by simp) (by simp))

theorem opKeepsInput_ransBuildOp (s : State) : opKeepsInput s (ransBuildOp s) := by
  rcases ransBuildOp_cases s with ⟨-, h⟩ | ⟨-, h⟩ <;> rw [h]
  · exact opKeepsInput_error _ _
  · exact opKeepsInput_ok.2 (State.keepsInput_of_mem rfl rfl)

theorem opKeepsInput_ransEncodeOp (pre : List Byte) (s : State) : opKeepsInput s (ransEncodeOp pre s) := by
  rcases ransEncodeOp_cases pre s with ⟨-, h⟩ | ⟨-, ⟨e, -, h⟩ | ⟨q, -, h⟩⟩ <;> rw [h]
  · exact opKeepsInput_error _ _
  · exact opKeepsInput_error _ _
  · exact opKeepsInput_ok.2 (State.keepsInput_of_setOut (pre ++ q.2) (by simp) (by simp))

theorem opKeepsInput_ransDecodeOp (P : List Byte) (s : State) : opKeepsInput s (ransDecodeOp P s) := by
  rcases ransDecodeOp_cases P s with ⟨-, h⟩ | ⟨-, ⟨e, -, h⟩ | ⟨q, -, h⟩⟩ <;> rw [h]
  · exact opKeepsInput_error _ _
  · exact opKeepsInput_error _ _
  · exact opKeepsInput_ok.2 (State.keepsInput_of_setOut q.1 (by simp) (by simp))

theorem opKeepsInput_planeEncodeOp (b : Backend) (pre : List Byte) (s : State) :
    opKeepsInput s (planeEncodeOp b pre s) := by
  cases b with
  | huffman => exact opKeepsInput_hufEncodeOp pre s
  | range => exact opKeepsInput_rcEncodeOp pre s
  | rans => exact opKeepsInput_ransEncodeOp pre s

theorem opKeepsInput_planeDecodeOp (b : Backend) (P : List Byte) (s : State) :
    opKeepsInput s (planeDecodeOp b P s) := by
  cases b with
  | huffman => exact opKeepsInput_hufDecodeOp P s
  | range => exact opKeepsInput_rcDecodeOp P s
  | rans => exact opKeepsInput_ransDecodeOp P s

/-- The table that `PLANE_COMPRESS` puts in `FREQ` is none of `IN`. -/
theorem opKeepsInput_planeCompressOp (s : State) : opKeepsInput s (planeCompressOp s) := by
  rcases planeCompressOp_cases s with ⟨-, h⟩ | ⟨-, ⟨-, h⟩ | ⟨b, -, h⟩⟩ <;> rw [h]
  · exact opKeepsInput_error _ _
  · exact opKeepsInput_error _ _
  · exact opKeepsInput_planeEncodeOp b _ { s with freq := planeTable b s.input }

/-! ## Commands -/

theorem State.keepsInput_finish {s : State} {r : Except Raise State} (fp : Footprint) (h : opKeepsInput s r) :
    s.keepsInput (s.finish fp r) := by
  rcases s.finish_cases fp r with ⟨t, hr, ht⟩ | ⟨e, -, he⟩
  · rw [ht]; exact h t hr
  · rw [he]; exact s.keepsInput_takeFault fp e

theorem State.keepsInput_planeDecompressRun (s : State) : s.keepsInput (planeDecompressRun s) := by
  cases h : planeDecompressChecks s with
  | error e =>
    rw [planeDecompressRun_of_check h]
    exact s.keepsInput_takeFault _ e
  | ok b =>
    rw [planeDecompressRun, h]
    exact State.keepsInput_finish (s := s.loadTable) _ (opKeepsInput_planeDecodeOp b s.payloadStream s.loadTable)

/-- A command leaves `IN` where its run does, from whatever state accepts it. -/
theorem State.keepsInput_command {run : State → State} (h : ∀ t : State, t.keepsInput (run t)) (s : State) :
    s.keepsInput (s.command run) := by
  cases herr : s.error with
  | true => rw [State.command_of_error run herr]; exact State.keepsInput_of_mem rfl rfl
  | false => rw [State.command_of_ok run herr]; exact h s.accept

theorem exec_keepsInput {i : Instr} {s t : State} (hi : i ≠ .softReset) (h : exec i s = .next t) : s.keepsInput t := by
  cases i <;> cases h
  case softReset => exact absurd rfl hi
  case nop | freqNorm | hufBuild =>
    refine State.keepsInput_command (fun t => ?_) s
    exact State.keepsInput_of_mem rfl rfl
  case freqCount | freqCountFloor =>
    exact State.keepsInput_command (fun t => State.keepsInput_finish _ (opKeepsInput_freqCountOp _ t)) s
  case hufEncode =>
    exact State.keepsInput_command (fun t => State.keepsInput_finish _ (opKeepsInput_hufEncodeOp [] t).withInput) s
  case hufDecode =>
    exact State.keepsInput_command
      (fun t => State.keepsInput_finish _ (opKeepsInput_hufDecodeOp t.input t).withCount.withInput) s
  case rcBuild => exact State.keepsInput_command (fun t => State.keepsInput_finish _ (opKeepsInput_rcBuildOp t)) s
  case rcEncode =>
    exact State.keepsInput_command (fun t => State.keepsInput_finish _ (opKeepsInput_rcEncodeOp [] t).withInput) s
  case rcDecode =>
    exact State.keepsInput_command
      (fun t => State.keepsInput_finish _ (opKeepsInput_rcDecodeOp t.input t).withCount.withInput) s
  case ransBuild => exact State.keepsInput_command (fun t => State.keepsInput_finish _ (opKeepsInput_ransBuildOp t)) s
  case ransEncode =>
    exact State.keepsInput_command (fun t => State.keepsInput_finish _ (opKeepsInput_ransEncodeOp [] t).withInput) s
  case ransDecode =>
    exact State.keepsInput_command
      (fun t => State.keepsInput_finish _ (opKeepsInput_ransDecodeOp t.input t).withCount.withInput) s
  case planeCompress =>
    exact State.keepsInput_command (fun t => State.keepsInput_finish _ (opKeepsInput_planeCompressOp t)) s
  case planeDecompress => exact State.keepsInput_command State.keepsInput_planeDecompressRun s

/-- Settles O9: the buffers are disjoint, and every operation of a command leaves `IN`. -/
theorem noCommandWritesInput : Obligations.NoCommandWritesInput := by
  refine ⟨fun a ⟨hin, hout⟩ => ?_, fun s t i hi h => ?_⟩
  · rw [not_inOutBuffer_of_inInBuffer hin] at hout
    cases hout
  · have hkeeps := exec_keepsInput hi h
    exact ⟨hkeeps.2, fun k hk => hkeeps.inByte hk⟩

end Sys2Proof.Machine
end

section
/-!
The command words (spec/30_encoding.md R100 to R104): the decoder and the encoder are inverse to each other, exactly the
words of the assigned opcodes decode, and the bytes of a word give the word back (R71).
-/
namespace Sys2Proof

/-! ## Decode and encode -/

theorem legalWord (i : Instr) : Laws.LegalWord.Statement i := by
  cases i with
  | nop => exact Laws.LegalWord.nop
  | freqCount => exact Laws.LegalWord.freqCount
  | freqCountFloor => exact Laws.LegalWord.freqCountFloor
  | freqNorm => exact Laws.LegalWord.freqNorm
  | hufBuild => exact Laws.LegalWord.hufBuild
  | hufEncode => exact Laws.LegalWord.hufEncode
  | hufDecode => exact Laws.LegalWord.hufDecode
  | rcBuild => exact Laws.LegalWord.rcBuild
  | rcEncode => exact Laws.LegalWord.rcEncode
  | rcDecode => exact Laws.LegalWord.rcDecode
  | ransBuild => exact Laws.LegalWord.ransBuild
  | ransEncode => exact Laws.LegalWord.ransEncode
  | ransDecode => exact Laws.LegalWord.ransDecode
  | planeCompress => exact Laws.LegalWord.planeCompress
  | planeDecompress => exact Laws.LegalWord.planeDecompress
  | softReset => exact Laws.LegalWord.softReset

@[simp] theorem decodeWord_encode (i : Instr) : decodeWord (encode i) = .ok i := by
  obtain ⟨-, -, -, hdecode⟩ := legalWord i
  exact hdecode

/-- The opcode map has no opcode but the one the command's word holds (R103). -/
theorem eq_encode_of_decodeOpcode {op : Nat} {i : Instr} (h : decodeOpcode op = some i) : op = (encode i).toNat := by
  unfold decodeOpcode at h
  split at h <;> cases h <;> rfl

/-- A word that decodes has bits [31:8] zero, and the opcode map names its command (R101). -/
theorem decodeOpcode_of_decodeWord {v : Word} {i : Instr} (h : decodeWord v = .ok i) :
    v.toNat < 256 ∧ decodeOpcode v.toNat = some i := by
  have hlow : v.toNat < 256 := by
    by_contra hge
    rw [Machine.decodeWord_of_reservedBits (by omega)] at h
    cases h
  have hzero : ¬ v.toNat / 256 ≠ 0 := by omega
  rw [decodeWord, if_neg hzero, Nat.mod_eq_of_lt hlow] at h
  cases hop : decodeOpcode v.toNat with
  | none => rw [hop] at h; cases h
  | some j => rw [hop] at h; cases h; exact ⟨hlow, rfl⟩

theorem decodeWord_eq_ok_iff {v : Word} {i : Instr} : decodeWord v = .ok i ↔ v = encode i := by
  constructor
  · intro h
    obtain ⟨-, hop⟩ := decodeOpcode_of_decodeWord h
    exact BitVec.eq_of_toNat_eq (eq_encode_of_decodeOpcode hop)
  · rintro rfl
    exact decodeWord_encode i

/-! ## The assigned opcodes -/

/-- The sixteen opcodes of the command map, in its order (R103). -/
def opcodes : List Nat := [0, 1, 2, 3, 16, 17, 18, 32, 33, 34, 48, 49, 50, 64, 65, 255]

theorem encode_mem_opcodes (i : Instr) : (encode i).toNat ∈ opcodes := by cases i <;> decide

theorem exists_encode_of_mem_opcodes {op : Nat} (h : op ∈ opcodes) : ∃ i, op = (encode i).toNat := by
  simp only [opcodes, List.mem_cons, List.not_mem_nil, or_false] at h
  rcases h with rfl | rfl | rfl | rfl | rfl | rfl | rfl | rfl | rfl | rfl | rfl | rfl | rfl | rfl | rfl | rfl
  exacts [⟨.nop, rfl⟩, ⟨.freqCount, rfl⟩, ⟨.freqCountFloor, rfl⟩, ⟨.freqNorm, rfl⟩,
    ⟨.hufBuild, rfl⟩, ⟨.hufEncode, rfl⟩, ⟨.hufDecode, rfl⟩, ⟨.rcBuild, rfl⟩, ⟨.rcEncode, rfl⟩, ⟨.rcDecode, rfl⟩,
    ⟨.ransBuild, rfl⟩, ⟨.ransEncode, rfl⟩, ⟨.ransDecode, rfl⟩,
    ⟨.planeCompress, rfl⟩, ⟨.planeDecompress, rfl⟩, ⟨.softReset, rfl⟩]

theorem exists_decodeWord_iff_mem_opcodes (v : Word) : (∃ i, decodeWord v = .ok i) ↔ v.toNat ∈ opcodes := by
  simp only [decodeWord_eq_ok_iff]
  constructor
  · rintro ⟨i, rfl⟩
    exact encode_mem_opcodes i
  · intro h
    obtain ⟨i, hi⟩ := exists_encode_of_mem_opcodes h
    exact ⟨i, BitVec.eq_of_toNat_eq hi⟩

/-- The opcodes by unit, bits [7:4], and function, bits [3:0] (R104). -/
theorem mem_opcodes_iff (op : Nat) :
    op ∈ opcodes ↔ op < 256 ∧
      ((op / 16 = 0 ∧ op % 16 ≤ 3) ∨
       ((op / 16 = 1 ∨ op / 16 = 2 ∨ op / 16 = 3) ∧ op % 16 ≤ 2) ∨
       (op / 16 = 4 ∧ op % 16 ≤ 1) ∨ (op / 16 = 15 ∧ op % 16 = 15)) := by
  simp only [opcodes, List.mem_cons, List.not_mem_nil, or_false]
  omega

/-! ## The bytes of a word (R71) -/

@[simp] theorem wordOfBytes_extract (v : Word) :
    wordOfBytes (v.extractLsb' 0 8) (v.extractLsb' 8 8) (v.extractLsb' 16 8) (v.extractLsb' 24 8) = v := by
  rw [wordOfBytes, BitVec.extractLsb'_append_extractLsb'_eq_extractLsb' (by rfl),
    BitVec.extractLsb'_append_extractLsb'_eq_extractLsb' (by rfl),
    BitVec.extractLsb'_append_extractLsb'_eq_extractLsb' (by rfl)]
  exact BitVec.extractLsb'_eq_self

/-- Where a word decodes, so do its bytes, and the bytes after them are left. -/
theorem decodeBytes_bytesOfWord_append {v : Word} {i : Instr} (h : decodeWord v = .ok i) (rest : List Byte) :
    decodeBytes (bytesOfWord v ++ rest) = .ok (i, rest) := by
  simp [bytesOfWord, decodeBytes, h]

/-- Settles O2: decode and encode are inverse, the sixteen opcodes are those of the table of units, and the named words
are those of their commands. -/
theorem exactlyTheAssignedWordsDecode : Obligations.ExactlyTheAssignedWordsDecode :=
  ⟨fun v => (exists_decodeWord_iff_mem_opcodes v).trans (mem_opcodes_iff v.toNat),
    fun _ _ => decodeWord_eq_ok_iff,
    fun i rest => decodeBytes_bytesOfWord_append (decodeWord_encode i) rest,
    decodeWord_encode .hufBuild, decodeWord_encode .rcBuild, decodeWord_encode .ransBuild,
    decodeWord_encode .hufEncode, decodeWord_encode .rcEncode, decodeWord_encode .ransEncode,
    decodeWord_encode .hufDecode, decodeWord_encode .rcDecode, decodeWord_encode .ransDecode⟩

end Sys2Proof
end

section
/-!
The entry checks of the plane commands on the mode flag and the payload's length (spec/60_exceptions.md R349 a, b).
-/
namespace Sys2Proof.Machine

/-- A mode flag above 2 selects no backend (R116). -/
theorem backendOf_of_gt {flag : Byte} (h : 2 < flag.toNat) : backendOf flag = none := by
  have hne : ∀ n : Byte, n.toNat ≤ 2 → flag ≠ n := by
    rintro n hn rfl
    omega
  rw [backendOf, if_neg (hne 0 (by decide)), if_neg (hne 1 (by decide)), if_neg (hne 2 (by decide))]

theorem planeCompressOp_of_badFlag {s : State} (hin : s.inLen.toNat ≤ Config.inCap) (hflag : 2 < s.backend.toNat) :
    planeCompressOp s = .error formatError := by
  rw [planeCompressOp, State.withInput_of_le _ hin, backendOf_of_gt hflag]

/-- After the length checks of `PLANE_DECOMPRESS` a bad mode flag and a payload shorter than the table are the same
`FormatError` (R282): the flag is checked first, the payload's length only under a flag that selects a backend. -/
theorem planeDecompressChecks_of_badPayload {s : State} (hin : s.inLen.toNat ≤ Config.inCap)
    (hcount : s.expectedCount.toNat ≤ Config.outCap) (hbad : 2 < s.backend.toNat ∨ s.inLen.toNat < Config.tableBytes) :
    planeDecompressChecks s = .error formatError := by
  rw [planeDecompressChecks, if_neg (Nat.not_lt.2 hin), if_neg (Nat.not_lt.2 hcount)]
  cases hb : backendOf s.backend with
  | none => rfl
  | some b =>
    have hflag : ¬ 2 < s.backend.toNat := fun h => by rw [backendOf_of_gt h] at hb; cases hb
    exact if_pos (hbad.resolve_left hflag)

/-- Settles O46: each command's entry checks end in `FormatError(0)`, which it records. -/
theorem planeCommandsRefuseBadFlagsAndShortPayloads :
    Obligations.PlaneCommandsRefuseBadFlagsAndShortPayloads := by
  refine ⟨fun s herr hin hflag => ?_, fun s herr hin hcount hbad => ?_⟩
  · have hop : planeCompressOp s.accept = .error formatError := planeCompressOp_of_badFlag hin hflag
    exact ⟨_, rfl, State.command_faulted herr hop⟩
  · have hchecks : planeDecompressChecks s.accept = .error formatError :=
      planeDecompressChecks_of_badPayload hin hcount hbad
    exact exec_planeDecompress_faulted herr hchecks

end Sys2Proof.Machine
end

section
/-!
The counting commands (spec/40_frequency_model.md R140 to R143): the entries of a counted table, their sum, and what a
command of the frequency model leaves as it was.
-/
namespace Sys2Proof.Machine

/-! ## Sums over the 256 symbols -/

/-- Every element of a list of symbols is counted once. -/
theorem sum_count_allBytes (l : List Byte) : (allBytes.map fun b => l.count b).sum = l.length := by
  have hcard := Multiset.sum_count_eq_card (s := allBytes.toFinset) (m := (l : Multiset Byte)) (by simp)
  simpa [List.sum_toFinset _ allBytes_nodup] using hcard

theorem FreqTable.total_of_at {F : FreqTable} {f : Byte → Nat} (h : ∀ b, F.at b = f b) :
    F.total = (allBytes.map f).sum := by
  rw [FreqTable.total_eq, funext h]

/-- Tables with the same entries are the same. -/
theorem FreqTable.ext_at {F G : FreqTable} (h : ∀ b, F.at b = G.at b) : F = G := by
  refine Vector.ext fun k hk => BitVec.eq_of_toNat_eq ?_
  have hentry := h (BitVec.ofNat 8 k)
  simpa [FreqTable.at, Nat.mod_eq_of_lt hk] using hentry

/-! ## The counted table (R140, R141) -/

theorem countTable_at {B : List Byte} {floor : Nat} (hlen : floor + B.length < 2 ^ 32) (b : Byte) :
    (countTable B floor).at b = floor + B.count b := by
  have hcount := B.count_le_length (a := b)
  simp only [FreqTable.at, countTable, tabulate_getElem, BitVec.ofNat_toNat, BitVec.setWidth_eq, BitVec.toNat_ofNat]
  exact Nat.mod_eq_of_lt (by omega)

theorem countTable_total {B : List Byte} {floor : Nat} (hlen : floor + B.length < 2 ^ 32) :
    (countTable B floor).total = B.length + 256 * floor := by
  have hfloor : (allBytes.map fun _ => floor).sum = 256 * floor := by
    rw [List.map_const', List.sum_replicate_nat, allBytes_length]
  rw [FreqTable.total_of_at (countTable_at hlen), List.sum_map_add, hfloor, sum_count_allBytes, Nat.add_comm]

@[simp] theorem State.input_length (s : State) : s.input.length = s.inLen.toNat := by
  simp [State.input, State.inBytes]

/-- How often a symbol stands in the input, by the offsets that hold it. -/
theorem State.input_count (s : State) (b : Byte) :
    s.input.count b = ((List.range s.inLen.toNat).filter fun k => s.inByte k = b).length := by
  rw [State.input, State.inBytes, List.count, List.countP_map, List.countP_eq_length_filter]
  refine congrArg List.length (List.filter_congr fun k _ => ?_)
  rw [Function.comp_apply, Nat.zero_add]
  rfl

/-! ## The end of a command of the frequency model -/

/-- The state after a command of the frequency model that raised nothing: a table in `FREQ`, and the cursors. -/
def State.freqDone (s : State) (F : FreqTable) (inPos : Nat) : State :=
  (({ s.accept with freq := F }).setCursors 0 inPos 0).complete

@[simp] theorem State.freqDone_freq (s : State) (F : FreqTable) (inPos : Nat) : (s.freqDone F inPos).freq = F := rfl

theorem State.freqDone_completed {s : State} (F : FreqTable) (inPos : Nat) (herr : s.error = false) :
    (s.freqDone F inPos).completed := ⟨rfl, herr⟩

/-- `FREQ` and the cursors are all that such a command writes (R142, R146). -/
theorem State.freqDone_frame (s : State) (F : FreqTable) {inPos : Nat} (hpos : inPos < 2 ^ 32) :
    (s.freqDone F inPos).cursorsAre 0 inPos 0 ∧ s.keepsOperands (s.freqDone F inPos) ∧
    (s.freqDone F inPos).cum = s.cum ∧ s.keepsHuffman (s.freqDone F inPos) ∧ (s.freqDone F inPos).symtab = s.symtab ∧
    s.keepsWorking (s.freqDone F inPos) ∧ s.keepsMemory (s.freqDone F inPos) := by
  have hcursor : (BitVec.ofNat 32 inPos).toNat = inPos := by rw [BitVec.toNat_ofNat, Nat.mod_eq_of_lt hpos]
  exact ⟨⟨rfl, hcursor, rfl⟩, ⟨rfl, rfl, rfl, rfl, rfl, rfl, rfl, rfl⟩, rfl, ⟨rfl, rfl, rfl, rfl⟩, rfl,
    ⟨⟨rfl, rfl, rfl⟩, rfl, rfl⟩, fun _ => rfl⟩

/-- Counting an input that fits completes with the counted table. -/
theorem State.command_freqCountOp {s : State} (floor : Nat) (herr : s.error = false)
    (hin : s.inLen.toNat ≤ Config.inCap) :
    (s.command fun t => t.finish freqFootprint (freqCountOp floor t)) =
      s.freqDone (countTable s.input floor) s.inLen.toNat := by
  rw [State.command_of_ok _ herr]
  rcases freqCountOp_cases floor s.accept with ⟨hgt, -⟩ | ⟨-, hop⟩
  · exact absurd hgt (Nat.not_lt.2 hin)
  · rw [hop]; rfl

/-- Settles O17: both commands count the input, from the floor 0 or 1. -/
theorem countingCountsEachSymbol : Obligations.CountingCountsEachSymbol := by
  intro s herr hin p hp
  have hcap : Config.inCap = 1048576 := rfl
  have hcommand : p.2 ≤ 1 ∧
      exec p.1 s = .next (s.command fun t => t.finish freqFootprint (freqCountOp p.2 t)) := by
    simp only [List.mem_cons, List.not_mem_nil, or_false] at hp
    rcases hp with rfl | rfl
    · exact ⟨by decide, rfl⟩
    · exact ⟨by decide, rfl⟩
  obtain ⟨hfloor, hexec⟩ := hcommand
  rw [State.command_freqCountOp _ herr hin] at hexec
  have hfits : p.2 + s.input.length < 2 ^ 32 := by rw [s.input_length]; omega
  refine ⟨_, hexec, State.freqDone_completed _ _ herr, fun b => ?entry, ?sum, s.freqDone_frame _ s.inLen.isLt⟩
  case entry => rw [State.freqDone_freq, countTable_at hfits, s.input_count]
  case sum => rw [State.freqDone_freq, countTable_total hfits, s.input_length]

end Sys2Proof.Machine
end

section
/-!
Normalisation to 4096 (spec/40_frequency_model.md R145 to R147): the rescaled entries, what the passes over an order of
the symbols add and take, and the table that results.
-/
namespace Sys2Proof.Machine

/-! ## Counts by symbol -/

theorem Counts.at_put (N : Counts) (s b : Byte) (n : Nat) : (N.put s n).at b = if s = b then n else N.at b := by
  simp only [Counts.at, Counts.put, Vector.getElem_set, BitVec.toNat_inj]

theorem Counts.total_eq (N : Counts) : N.total = (allBytes.map N.at).sum := by
  refine congrArg List.sum (List.ext_getElem (by simp) fun k h₁ h₂ => ?_)
  have hk : k < 256 := by simpa using h₁
  simp [Counts.at, allBytes, Nat.mod_eq_of_lt hk]

theorem Counts.at_le_total (N : Counts) (b : Byte) : N.at b ≤ N.total := by
  rw [Counts.total_eq]
  exact List.single_le_sum (by simp) _ (List.mem_map_of_mem (mem_allBytes b))

/-- Where two tables differ entry by entry in how often a list names the symbol, their sums differ in its length. -/
theorem Counts.total_of_at_add_count {M N : Counts} {l : List Byte} (h : ∀ b, M.at b = N.at b + l.count b) :
    M.total = N.total + l.length := by
  rw [Counts.total_eq, Counts.total_eq, funext h, List.sum_map_add, sum_count_allBytes]

/-- A sum above 256 needs an entry above 1. -/
theorem Counts.exists_one_lt_of_total {N : Counts} (h : 256 < N.total) : ∃ b, 1 < N.at b := by
  by_contra hall
  have hsum : (allBytes.map N.at).sum ≤ (allBytes.map N.at).length • 1 := by
    refine List.sum_le_card_nsmul _ 1 fun x hx => ?_
    obtain ⟨b, -, rfl⟩ := List.mem_map.1 hx
    exact Nat.not_lt.1 fun hb => hall ⟨b, hb⟩
  rw [← Counts.total_eq, List.length_map, allBytes_length] at hsum
  exact absurd h (Nat.not_lt.2 hsum)

/-! ## Adding the missing units -/

/-- A pass adds one unit for each of the first `d` places of the order. -/
theorem addPass_spec (order : List Byte) : ∀ (d : Nat) (N : Counts),
    (addPass order d N).1 = d - order.length ∧
    ∀ b, (addPass order d N).2.at b = N.at b + (order.take d).count b := by
  induction order with
  | nil => intro d N; simp [addPass]
  | cons s ss ih =>
    rintro (_ | d) N
    · simp [addPass]
    · obtain ⟨hleft, hat⟩ := ih d (N.put s (N.at s + 1))
      refine ⟨by rw [addPass, hleft, List.length_cons]; omega, fun b => ?_⟩
      rw [addPass, hat, Counts.at_put, List.take_succ_cons, List.count_cons]
      by_cases hb : s = b
      · subst hb
        rw [if_pos rfl, if_pos (beq_self_eq_true s)]
        omega
      · simp [hb]

/-- Units that one pass can place are placed by the first. -/
theorem addPasses_at {order : List Byte} {d : Nat} (hd : d ≤ order.length) (N : Counts) (b : Byte) :
    (addPasses order d d N).at b = N.at b + (order.take d).count b := by
  obtain ⟨hleft, hat⟩ := addPass_spec order d N
  cases d with
  | zero => simp [addPasses]
  | succ d =>
    have hnone : (addPass order (d + 1) N).1 = 0 := by omega
    rw [← hat b]
    cases hpass : addPass order (d + 1) N with
    | mk left M =>
      rw [hpass] at hnone
      cases hnone
      rw [addPasses, hpass]

/-! ## Taking the excess units -/

/-- The symbols of an order whose entries a pass can take from. -/
def aboveOne (N : Counts) (order : List Byte) : List Byte := order.filter fun s => 1 < N.at s

/-- A pass takes one unit from each of the first `d` entries above 1. -/
theorem removePass_spec {order : List Byte} (hnodup : order.Nodup) : ∀ (d : Nat) (N : Counts),
    (removePass order d N).1 = d - (aboveOne N order).length ∧
    ∀ b, N.at b = (removePass order d N).2.at b + ((aboveOne N order).take d).count b := by
  induction order with
  | nil => intro d N; simp [removePass, aboveOne]
  | cons s ss ih =>
    obtain ⟨hs, hss⟩ := List.nodup_cons.1 hnodup
    rintro (_ | d) N
    · simp [removePass]
    · by_cases habove : 1 < N.at s
      · have hcons : aboveOne N (s :: ss) = s :: aboveOne N ss := List.filter_cons_of_pos (by simpa using habove)
        have hsame : aboveOne (N.put s (N.at s - 1)) ss = aboveOne N ss := by
          refine List.filter_congr fun c hc => ?_
          have hne : s ≠ c := by rintro rfl; exact hs hc
          rw [Counts.at_put, if_neg hne]
        obtain ⟨hleft, hat⟩ := ih hss d (N.put s (N.at s - 1))
        rw [removePass, if_pos habove, hcons]
        refine ⟨by rw [hleft, hsame, List.length_cons]; omega, fun b => ?_⟩
        have hb := hat b
        rw [hsame, Counts.at_put] at hb
        rw [List.take_succ_cons, List.count_cons]
        by_cases hsb : s = b
        · subst hsb
          rw [if_pos rfl] at hb
          rw [if_pos (beq_self_eq_true s)]
          omega
        · simpa [hsb] using hb
      · have hcons : aboveOne N (s :: ss) = aboveOne N ss := List.filter_cons_of_neg (by simpa using habove)
        rw [removePass, if_neg habove, hcons]
        exact ih hss (d + 1) N

theorem removePasses_none (order : List Byte) (n : Nat) (N : Counts) : removePasses order n 0 N = N := by
  cases n with
  | zero => rfl
  | succ n => cases order <;> rfl

/-- The passes go on with what a pass leaves. -/
theorem removePasses_succ (order : List Byte) (n d : Nat) (N : Counts) :
    removePasses order (n + 1) d N = removePasses order n (removePass order d N).1 (removePass order d N).2 := by
  rw [removePasses]
  cases removePass order d N with
  | mk left M =>
    cases left with
    | zero => exact (removePasses_none order n M).symm
    | succ left => rfl

/-- An entry after `m` whole passes over the order and one more that takes from the first `r` entries still above 1. -/
def removedAt (order : List Byte) (m r : Nat) (base : Byte → Nat) (b : Byte) : Nat :=
  if base b ≤ m + 1 then min 1 (base b)
  else base b - m - if b ∈ (order.filter fun c => m + 1 < base c).take r then 1 else 0

/-- No pass takes the last unit of an entry. -/
theorem removedAt_pos {order : List Byte} {m r : Nat} {base : Byte → Nat} {b : Byte} (hb : base b ≠ 0) :
    1 ≤ removedAt order m r base b := by
  unfold removedAt
  split
  · omega
  · split <;> omega

theorem removedAt_zero {order : List Byte} {m r : Nat} {base : Byte → Nat} {b : Byte} (hb : base b = 0) :
    removedAt order m r base b = 0 := by
  simp [removedAt, hb]

theorem removedAt_none (order : List Byte) (base : Byte → Nat) (b : Byte) : removedAt order 0 0 base b = base b := by
  simp only [removedAt, List.take_zero, List.not_mem_nil, if_false]
  split <;> omega

/-- The pass that ends the removal. -/
theorem removePass_at_last {order : List Byte} (hnodup : order.Nodup) (d : Nat) (N : Counts) (b : Byte) :
    (removePass order d N).2.at b = removedAt order 0 d N.at b := by
  obtain ⟨-, hat⟩ := removePass_spec hnodup d N
  have htake : ((aboveOne N order).take d).Nodup := (hnodup.filter _).sublist (List.take_sublist _ _)
  have hb := hat b
  rw [htake.count] at hb
  by_cases hle : N.at b ≤ 1
  · have hnot : b ∉ (aboveOne N order).take d := fun hmem => by
      have habove := (List.mem_filter.1 (List.mem_of_mem_take hmem)).2
      exact absurd (of_decide_eq_true habove) (Nat.not_lt.2 hle)
    rw [if_neg hnot] at hb
    rw [removedAt, if_pos (by omega)]
    omega
  · rw [removedAt, if_neg (by omega)]
    have hfilter : aboveOne N order = order.filter fun c => 0 + 1 < N.at c := rfl
    rw [hfilter] at hb
    omega

/-- A whole pass takes one unit from every entry above 1. -/
theorem removePass_at_whole {order : List Byte} {d : Nat} {N : Counts} (hnodup : order.Nodup)
    (hcover : ∀ b, N.at b ≠ 0 → b ∈ order) (hd : (aboveOne N order).length ≤ d) (b : Byte) :
    (removePass order d N).2.at b = if 1 < N.at b then N.at b - 1 else N.at b := by
  obtain ⟨-, hat⟩ := removePass_spec hnodup d N
  have hb := hat b
  have habove : (aboveOne N order).Nodup := hnodup.filter _
  rw [List.take_of_length_le hd, habove.count] at hb
  have hmem : b ∈ aboveOne N order ↔ 1 < N.at b := by
    simp only [aboveOne, List.mem_filter, decide_eq_true_eq, and_iff_right_iff_imp]
    exact fun h => hcover b (by omega)
  simp only [hmem] at hb
  by_cases hlt : 1 < N.at b
  · rw [if_pos hlt] at hb ⊢; omega
  · rw [if_neg hlt] at hb ⊢; omega

/-- Passes after a whole pass. -/
theorem removedAt_of_whole {order : List Byte} {m r : Nat} {base rest : Byte → Nat}
    (h : ∀ b, rest b = if 1 < base b then base b - 1 else base b) (b : Byte) :
    removedAt order m r rest b = removedAt order (m + 1) r base b := by
  have hlt : ∀ c, m + 1 < rest c ↔ m + 1 + 1 < base c := fun c => by rw [h c]; split <;> omega
  have hle : rest b ≤ m + 1 ↔ base b ≤ m + 1 + 1 := by rw [h b]; split <;> omega
  simp only [removedAt, hlt, hle]
  rw [h b]
  by_cases hbase : base b ≤ m + 1 + 1
  · rw [if_pos hbase, if_pos hbase]; split <;> omega
  · rw [if_neg hbase, if_neg hbase, if_pos (by omega)]; omega

/-- The passes take the whole excess over 4096, as long as the order names every entry: each pass finds an entry above 1
(R147 d). -/
theorem removePasses_spec {order : List Byte} (hnodup : order.Nodup) : ∀ (n d : Nat) (N : Counts),
    (∀ b, N.at b ≠ 0 → b ∈ order) → N.total = 4096 + d → d ≤ n →
    (removePasses order n d N).total = 4096 ∧
    ∃ m r, ∀ b, (removePasses order n d N).at b = removedAt order m r N.at b := by
  intro n
  induction n with
  | zero =>
    intro d N _ htotal hd
    obtain rfl : d = 0 := by omega
    rw [removePasses_none]
    exact ⟨htotal, 0, 0, fun b => (removedAt_none order N.at b).symm⟩
  | succ n ih =>
    intro d N hcover htotal hd
    obtain ⟨hleft, hat⟩ := removePass_spec hnodup d N
    have hsum := Counts.total_of_at_add_count hat
    rw [List.length_take] at hsum
    rw [removePasses_succ]
    by_cases hlast : d ≤ (aboveOne N order).length
    · have hnone : (removePass order d N).1 = 0 := by omega
      rw [hnone, removePasses_none]
      exact ⟨by omega, 0, d, removePass_at_last hnodup d N⟩
    · have hwhole := removePass_at_whole hnodup hcover (by omega : (aboveOne N order).length ≤ d)
      have hprogress : 0 < (aboveOne N order).length := by
        obtain ⟨b, hb⟩ := Counts.exists_one_lt_of_total (N := N) (by omega)
        exact List.length_pos_of_mem (List.mem_filter.2 ⟨hcover b (by omega), by simpa using hb⟩)
      have hcover' : ∀ b, (removePass order d N).2.at b ≠ 0 → b ∈ order := fun b hb =>
        hcover b (by have := hat b; omega)
      obtain ⟨hdone, m, r, hrest⟩ := ih (removePass order d N).1 _ hcover' (by omega) (by omega)
      exact ⟨hdone, m + 1, r, fun b => (hrest b).trans (removedAt_of_whole hwhole b)⟩


/-! ## The orders of R145 -/

/-- Insertion sort by a total order puts distinct elements in its strict order. -/
theorem insertionSort_pairwise_strict {r R : Byte → Byte → Prop} [DecidableRel r] (htotal : ∀ a b, r a b ∨ r b a)
    (htrans : ∀ a b c, r a b → r b c → r a c) (hstrict : ∀ a b, r a b → a ≠ b → R a b) {l : List Byte} (hl : l.Nodup) :
    (l.insertionSort r).Pairwise R := by
  have : Std.Total r := ⟨htotal⟩
  have : IsTrans Byte r := ⟨htrans⟩
  have hsorted := l.pairwise_insertionSort r
  have hnodup : (l.insertionSort r).Nodup := (l.perm_insertionSort r).nodup_iff.2 hl
  exact (hsorted.and hnodup).imp fun ⟨hle, hne⟩ => hstrict _ _ hle hne

theorem FreqTable.occurring_nodup (F : FreqTable) : F.occurring.Nodup :=
  (entries_nodup F).sublist (List.filter_sublist.map _)

/-- `a` comes before `b` in the order "largest first" (R145). -/
abbrev FreqTable.largerFirst (F : FreqTable) (a b : Byte) : Prop :=
  F.at b < F.at a ∨ (F.at a = F.at b ∧ a.toNat < b.toNat)

/-- `a` comes before `b` in the order "smallest first" (R145). -/
abbrev FreqTable.smallerFirst (F : FreqTable) (a b : Byte) : Prop :=
  F.at a < F.at b ∨ (F.at a = F.at b ∧ a.toNat < b.toNat)

theorem largestFirst_perm (F : FreqTable) : (largestFirst F).Perm F.occurring := List.perm_insertionSort _ _

theorem smallestFirst_perm (F : FreqTable) : (smallestFirst F).Perm F.occurring := List.perm_insertionSort _ _

theorem largestFirst_pairwise (F : FreqTable) : (largestFirst F).Pairwise F.largerFirst := by
  refine insertionSort_pairwise_strict (fun a b => by omega) (fun a b c => by omega) (fun a b h hne => ?_)
    F.occurring_nodup
  rw [ne_eq, ← BitVec.toNat_inj] at hne
  unfold FreqTable.largerFirst
  omega

theorem smallestFirst_pairwise (F : FreqTable) : (smallestFirst F).Pairwise F.smallerFirst := by
  refine insertionSort_pairwise_strict (fun a b => by omega) (fun a b c => by omega) (fun a b h hne => ?_)
    F.occurring_nodup
  rw [ne_eq, ← BitVec.toNat_inj] at hne
  unfold FreqTable.smallerFirst
  omega

theorem FreqTable.largerFirst_asymm (F : FreqTable) (a b : Byte) : F.largerFirst a b → ¬ F.largerFirst b a := by
  unfold FreqTable.largerFirst; omega

theorem FreqTable.smallerFirst_asymm (F : FreqTable) (a b : Byte) : F.smallerFirst a b → ¬ F.smallerFirst b a := by
  unfold FreqTable.smallerFirst; omega

/-- In a list in strict order an element is among the first `n` exactly when fewer than `n` come before it. -/
theorem mem_take_iff_of_pairwise {R : Byte → Byte → Prop} [DecidableRel R] (hasymm : ∀ a b, R a b → ¬ R b a)
    {l : List Byte} (hl : l.Pairwise R) {b : Byte} (hb : b ∈ l) :
    ∀ n, b ∈ l.take n ↔ (l.filter fun c => R c b).length < n := by
  induction l with
  | nil => cases hb
  | cons a l ih =>
    obtain ⟨ha, hl⟩ := List.pairwise_cons.1 hl
    rintro (_ | n)
    · simp
    · rw [List.take_succ_cons, List.mem_cons]
      by_cases hab : b = a
      · subst hab
        have hfirst : (b :: l).filter (fun c => R c b) = [] := by
          refine List.filter_eq_nil_iff.2 fun c hc => ?_
          rcases List.mem_cons.1 hc with rfl | hc
          · simpa using fun h => hasymm c c h h
          · simpa using hasymm b c (ha c hc)
        simp [hfirst]
      · have hmem : b ∈ l := (List.mem_cons.1 hb).resolve_left hab
        rw [List.filter_cons_of_pos (by simpa using ha b hmem), List.length_cons, Nat.add_lt_add_iff_right, ← ih hl hmem n]
        simp [hab]

/-- The place of a symbol among those of an order that a condition selects, counted over all symbols. -/
theorem mem_take_order_iff {F : FreqTable} {order : List Byte} {R : Byte → Byte → Prop} [DecidableRel R]
    (hperm : order.Perm F.occurring) (hpair : order.Pairwise R) (hasymm : ∀ a b, R a b → ¬ R b a)
    {p : Byte → Prop} [DecidablePred p] (hp : ∀ c, p c → F.at c ≠ 0) {b : Byte} (hb : p b) (n : Nat) :
    b ∈ (order.filter fun c => p c).take n ↔ (allBytes.filter fun c => p c ∧ R c b).length < n := by
  have hmem : ∀ c, p c → c ∈ order := fun c hc => hperm.mem_iff.2 ((F.mem_occurring c).2 (hp c hc))
  have hnodup : order.Nodup := hperm.nodup_iff.2 F.occurring_nodup
  have hcount : ((order.filter fun c => p c).filter fun c => R c b).Perm (allBytes.filter fun c => p c ∧ R c b) := by
    refine (List.perm_ext_iff_of_nodup ((hnodup.filter _).filter _) (allBytes_nodup.filter _)).2 fun c => ?_
    simp only [List.mem_filter, decide_eq_true_eq, mem_allBytes, true_and]
    exact ⟨fun ⟨⟨_, hc⟩, hR⟩ => ⟨hc, hR⟩, fun ⟨hc, hR⟩ => ⟨⟨hmem c hc, hc⟩, hR⟩⟩
  rw [mem_take_iff_of_pairwise hasymm (hpair.filter _) (List.mem_filter.2 ⟨hmem b hb, by simpa using hb⟩) n,
    hcount.length_eq]

/-! ## The rescaled entries (R145) -/

/-- The rescaled entry of a symbol. -/
def rescaled (F : FreqTable) (b : Byte) : Nat := if F.at b = 0 then 0 else max 1 (F.at b * 4096 / F.total)

/-- The sum of the rescaled entries. -/
def rescaledSum (F : FreqTable) : Nat := (allBytes.map (rescaled F)).sum

theorem rescaled_eq_zero_iff (F : FreqTable) (b : Byte) : rescaled F b = 0 ↔ F.at b = 0 := by
  unfold rescaled
  split <;> omega

theorem rescale_at (F : FreqTable) (b : Byte) : (rescale F F.total).at b = rescaled F b := by
  have hb := b.isLt
  simp [Counts.at, rescale, tableOf_getElem, FreqTable.counts_eq, rescaled, Config.tot, allBytes_getElem, hb]

theorem rescale_total (F : FreqTable) : (rescale F F.total).total = rescaledSum F := by
  rw [Counts.total_eq, funext (rescale_at F), rescaledSum]

/-- Rescaling loses less than one unit for each symbol that occurs (R147 c). -/
theorem lt_rescaledSum_add_length {F : FreqTable} (hT : F.total ≠ 0) : 4096 < rescaledSum F + F.occurring.length := by
  have hpos : 0 < F.total := Nat.pos_of_ne_zero hT
  have hcount : ∀ b, F.occurring.count b = if F.at b = 0 then 0 else 1 := fun b => by
    rw [F.occurring_nodup.count]
    simp only [F.mem_occurring, ne_eq, ite_not]
  have hlt : ∀ b, F.at b ≠ 0 → F.at b * 4096 < (rescaled F b + F.occurring.count b) * F.total := fun b hb => by
    rw [rescaled, hcount, if_neg hb, if_neg hb]
    have hfloor := Nat.lt_mul_div_succ (F.at b * 4096) hpos
    refine hfloor.trans_le ?_
    rw [Nat.mul_comm]
    exact Nat.mul_le_mul_right _ (Nat.add_le_add_right (le_max_right _ _) 1)
  obtain ⟨b, hb⟩ : ∃ b, F.at b ≠ 0 := by
    by_contra hnone
    refine hT ?_
    rw [FreqTable.total_of_at fun b => not_not.1 fun hb => hnone ⟨b, hb⟩]
    exact List.sum_eq_zero fun x hx => by obtain ⟨-, -, rfl⟩ := List.mem_map.1 hx; rfl
  have hsum : (allBytes.map fun b => F.at b * 4096).sum <
      (allBytes.map fun b => (rescaled F b + F.occurring.count b) * F.total).sum := by
    refine List.sum_lt_sum _ _ (fun c _ => ?_) ⟨b, mem_allBytes b, hlt b hb⟩
    by_cases hc : F.at c = 0
    · rw [hc, Nat.zero_mul]; exact Nat.zero_le _
    · exact (hlt c hc).le
  rw [List.sum_map_mul_right, List.sum_map_mul_right, List.sum_map_add, sum_count_allBytes, ← FreqTable.total_eq,
    Nat.mul_comm] at hsum
  exact Nat.lt_of_mul_lt_mul_right hsum

/-- A table whose sum is 4096 is its own rescaling (R147 e). -/
theorem rescaled_of_total {F : FreqTable} (hT : F.total = 4096) (b : Byte) : rescaled F b = F.at b := by
  rw [rescaled, hT, Nat.mul_div_cancel _ (by decide)]
  split <;> omega

/-! ## The counts of `Normalize`, case by case -/

theorem normalizeCounts_of_empty {F : FreqTable} (hT : F.total = 0) :
    normalizeCounts F = (Vector.replicate 256 0).set 0 4096 := if_pos hT

theorem emptyCounts_total : Counts.total ((Vector.replicate 256 0).set 0 4096) = 4096 := by
  rw [Counts.total, Vector.toList_set, Vector.toList_replicate, List.replicate_succ, List.set_cons_zero, List.sum_cons,
    List.sum_replicate_nat]

theorem normalizeCounts_of_occurring {F : FreqTable} (hT : F.total ≠ 0) :
    normalizeCounts F =
      if rescaledSum F < 4096 then
        addPasses (largestFirst F) (4096 - rescaledSum F) (4096 - rescaledSum F) (rescale F F.total)
      else if 4096 < rescaledSum F then
        removePasses (smallestFirst F) (rescaledSum F - 4096) (rescaledSum F - 4096) (rescale F F.total)
      else rescale F F.total := by
  rw [← rescale_total]
  exact if_neg hT

/-- The missing units go to the first symbols of the order, one each. -/
theorem normalizeCounts_of_short {F : FreqTable} (hT : F.total ≠ 0) (hS : rescaledSum F < 4096) :
    (normalizeCounts F).total = 4096 ∧
    ∀ b, (normalizeCounts F).at b = rescaled F b + ((largestFirst F).take (4096 - rescaledSum F)).count b := by
  have hroom : 4096 - rescaledSum F ≤ (largestFirst F).length := by
    have := lt_rescaledSum_add_length hT
    rw [(largestFirst_perm F).length_eq]
    omega
  have hat := addPasses_at hroom (rescale F F.total)
  rw [normalizeCounts_of_occurring hT, if_pos hS]
  refine ⟨?_, fun b => by rw [hat b, rescale_at]⟩
  rw [Counts.total_of_at_add_count hat, rescale_total, List.length_take]
  omega

theorem normalizeCounts_of_exact {F : FreqTable} (hT : F.total ≠ 0) (hS : rescaledSum F = 4096) :
    (normalizeCounts F).total = 4096 ∧ ∀ b, (normalizeCounts F).at b = rescaled F b := by
  rw [normalizeCounts_of_occurring hT, if_neg (by omega), if_neg (by omega)]
  exact ⟨(rescale_total F).trans hS, rescale_at F⟩

/-- The excess units are taken in passes over the order. -/
theorem normalizeCounts_of_excess {F : FreqTable} (hT : F.total ≠ 0) (hS : 4096 < rescaledSum F) :
    (normalizeCounts F).total = 4096 ∧
    ∃ m r, ∀ b, (normalizeCounts F).at b = removedAt (smallestFirst F) m r (rescaled F) b := by
  have hperm := smallestFirst_perm F
  have hnodup : (smallestFirst F).Nodup := hperm.nodup_iff.2 F.occurring_nodup
  have hcover : ∀ b, (rescale F F.total).at b ≠ 0 → b ∈ smallestFirst F := fun b hb => by
    rw [hperm.mem_iff, F.mem_occurring, ne_eq, ← rescaled_eq_zero_iff, ← rescale_at]
    exact hb
  rw [normalizeCounts_of_occurring hT, if_neg (by omega), if_pos hS, ← funext (rescale_at F)]
  exact removePasses_spec hnodup _ _ _ hcover (by rw [rescale_total]; omega) le_rfl

theorem normalizeCounts_total (F : FreqTable) : (normalizeCounts F).total = 4096 := by
  by_cases hT : F.total = 0
  · rw [normalizeCounts_of_empty hT, emptyCounts_total]
  · rcases Nat.lt_trichotomy (rescaledSum F) 4096 with hS | hS | hS
    · exact (normalizeCounts_of_short hT hS).1
    · exact (normalizeCounts_of_exact hT hS).1
    · exact (normalizeCounts_of_excess hT hS).1

/-! ## The normalised table -/

/-- The counts fit the entries of `FREQ`. -/
theorem normalize_at (F : FreqTable) (b : Byte) : (normalize F).at b = (normalizeCounts F).at b := by
  have hle := (normalizeCounts F).at_le_total b
  rw [normalizeCounts_total] at hle
  simp only [FreqTable.at, normalize, Vector.getElem_map, BitVec.toNat_ofNat]
  exact Nat.mod_eq_of_lt (by change (normalizeCounts F).at b < _; omega)

theorem normalize_total (F : FreqTable) : (normalize F).total = 4096 := by
  rw [FreqTable.total_of_at (normalize_at F), ← normalizeCounts_total F, Counts.total_eq]

theorem normalize_at_of_empty {F : FreqTable} (hT : F.total = 0) : (normalize F).at 0 = 4096 := by
  rw [normalize_at, normalizeCounts_of_empty hT]
  rfl

theorem normalize_at_of_short {F : FreqTable} (hT : F.total ≠ 0) (hS : rescaledSum F < 4096) (b : Byte) :
    (normalize F).at b = rescaled F b + if F.at b ≠ 0 ∧
      (allBytes.filter fun c => F.at c ≠ 0 ∧ F.largerFirst c b).length < 4096 - rescaledSum F then 1 else 0 := by
  have hperm := largestFirst_perm F
  have hnodup : (largestFirst F).Nodup := hperm.nodup_iff.2 F.occurring_nodup
  have hall : (largestFirst F).filter (fun c => F.at c ≠ 0) = largestFirst F :=
    List.filter_eq_self.2 fun c hc => by simpa using (F.mem_occurring c).1 (hperm.mem_iff.1 hc)
  have hplace : b ∈ (largestFirst F).take (4096 - rescaledSum F) ↔ F.at b ≠ 0 ∧
      (allBytes.filter fun c => F.at c ≠ 0 ∧ F.largerFirst c b).length < 4096 - rescaledSum F := by
    by_cases hb : F.at b = 0
    · have hnot : b ∉ largestFirst F := fun h => (F.mem_occurring b).1 (hperm.mem_iff.1 h) hb
      exact ⟨fun h => absurd (List.mem_of_mem_take h) hnot, fun h => absurd hb h.1⟩
    · have hrank := mem_take_order_iff hperm (largestFirst_pairwise F) F.largerFirst_asymm
        (p := fun c => F.at c ≠ 0) (fun _ => id) hb (4096 - rescaledSum F)
      rw [hall] at hrank
      rw [hrank, and_iff_right hb]
  rw [normalize_at, (normalizeCounts_of_short hT hS).2, (hnodup.sublist (List.take_sublist _ _)).count]
  simp only [hplace]

theorem normalize_at_of_exact {F : FreqTable} (hT : F.total ≠ 0) (hS : rescaledSum F = 4096) (b : Byte) :
    (normalize F).at b = rescaled F b := by
  rw [normalize_at, (normalizeCounts_of_exact hT hS).2]

theorem normalize_at_of_excess {F : FreqTable} (hT : F.total ≠ 0) (hS : 4096 < rescaledSum F) :
    ∃ m r, ∀ b, (normalize F).at b = removedAt (smallestFirst F) m r (rescaled F) b := by
  obtain ⟨-, m, r, hat⟩ := normalizeCounts_of_excess hT hS
  exact ⟨m, r, fun b => (normalize_at F b).trans (hat b)⟩

/-- The passes over "smallest first", each place counted over all symbols. -/
theorem removedAt_smallestFirst (F : FreqTable) (m r : Nat) (b : Byte) :
    removedAt (smallestFirst F) m r (rescaled F) b =
      if rescaled F b ≤ m + 1 then min 1 (rescaled F b)
      else rescaled F b - m -
        if (allBytes.filter fun c => m + 1 < rescaled F c ∧ F.smallerFirst c b).length < r then 1 else 0 := by
  by_cases hb : rescaled F b ≤ m + 1
  · rw [removedAt, if_pos hb, if_pos hb]
  · have hoccurs : ∀ c, m + 1 < rescaled F c → F.at c ≠ 0 := fun c hc => by
      rw [ne_eq, ← rescaled_eq_zero_iff]; omega
    have hplace := mem_take_order_iff (smallestFirst_perm F) (smallestFirst_pairwise F) F.smallerFirst_asymm
      (p := fun c => m + 1 < rescaled F c) hoccurs (Nat.not_le.1 hb) r
    rw [removedAt, if_neg hb, if_neg hb]
    simp only [hplace]

/-- A symbol that occurs keeps an entry (R147 b). -/
theorem normalize_at_pos {F : FreqTable} {b : Byte} (hb : F.at b ≠ 0) : 1 ≤ (normalize F).at b := by
  have hT : F.total ≠ 0 := by have := F.at_le_total b; omega
  have hbase : rescaled F b ≠ 0 := mt (rescaled_eq_zero_iff F b).1 hb
  rcases Nat.lt_trichotomy (rescaledSum F) 4096 with hS | hS | hS
  · rw [normalize_at_of_short hT hS]; omega
  · rw [normalize_at_of_exact hT hS]; omega
  · obtain ⟨m, r, hat⟩ := normalize_at_of_excess hT hS
    rw [hat]
    exact removedAt_pos hbase

/-- A symbol that does not occur stays at 0, unless none occurs (R147 b). -/
theorem normalize_at_zero {F : FreqTable} (hT : F.total ≠ 0) {b : Byte} (hb : F.at b = 0) : (normalize F).at b = 0 := by
  have hbase : rescaled F b = 0 := (rescaled_eq_zero_iff F b).2 hb
  rcases Nat.lt_trichotomy (rescaledSum F) 4096 with hS | hS | hS
  · rw [normalize_at_of_short hT hS, hbase, if_neg fun h => h.1 hb]
  · rw [normalize_at_of_exact hT hS, hbase]
  · obtain ⟨m, r, hat⟩ := normalize_at_of_excess hT hS
    rw [hat, removedAt_zero hbase]

/-- Normalising is idempotent (R147 e). -/
theorem normalize_of_total {F : FreqTable} (hT : F.total = 4096) : normalize F = F := by
  have hsum : rescaledSum F = 4096 := by
    rw [rescaledSum, funext (rescaled_of_total hT), ← FreqTable.total_eq, hT]
  exact FreqTable.ext_at fun b => (normalize_at_of_exact (by omega) hsum b).trans (rescaled_of_total hT b)

/-! ## The command (R146) -/

theorem exec_freqNorm {s : State} (herr : s.error = false) :
    exec .freqNorm s = .next (s.freqDone (normalize s.freq) 0) := by
  refine congrArg Host.Outcome.next ?_
  rw [State.command_of_ok _ herr]
  rfl

/-- Settles O19: the command leaves the normalised table, whose entries are those of the three cases of the rescaled
sum. -/
theorem normalisingSumsTo4096AndKeepsSymbols : Obligations.NormalisingSumsTo4096AndKeepsSymbols := fun s herr =>
  ⟨_, exec_freqNorm herr, State.freqDone_completed _ _ herr, normalize_total s.freq, fun _ => normalize_at_pos,
    fun hT _ => normalize_at_zero hT, normalize_at_of_empty, normalize_of_total, s.freqDone_frame _ (by decide)⟩

/-- Settles O20: the orders of the model are those of the statement, each place counted over all symbols. -/
theorem normalisingPlacesTheResidue : Obligations.NormalisingPlacesTheResidue := by
  intro s t base herr hT hexec hbase
  obtain rfl : base = rescaled s.freq := funext hbase
  obtain rfl : s.freqDone (normalize s.freq) 0 = t := Host.Outcome.next.inj ((exec_freqNorm herr).symm.trans hexec)
  refine ⟨normalize_total s.freq, fun hshort => normalize_at_of_short hT hshort,
    fun hexact => normalize_at_of_exact hT hexact, fun hexcess => ?_⟩
  obtain ⟨m, r, hat⟩ := normalize_at_of_excess hT hexcess
  exact ⟨m, r, fun b => (hat b).trans (removedAt_smallestFirst s.freq m r b)⟩

end Sys2Proof.Machine
end

section
/-!
Trees and paths (spec/41_huffman.md R163, R165, R172): where a path leads, what a walk over the bits of a path does, and
the leaf that ends it.
-/
namespace Sys2Proof.Machine

/-! ## Where a path leads -/

theorem HufNode.descend_append (q : Bits) : ∀ (p : Bits) (t : HufNode),
    t.descend (p ++ q) = (t.descend p).bind (HufNode.descend q)
  | [], _ => by simp [HufNode.descend]
  | _ :: _, .leaf _ _ => by simp [HufNode.descend]
  | false :: p, .inner _ _ l _ => l.descend_append q p
  | true :: p, .inner _ _ _ r => r.descend_append q p

/-- No path goes on from a leaf. -/
theorem HufNode.descend_leaf {p : Bits} {b : Byte} {w : BitVec 64} {x : HufNode}
    (h : (HufNode.leaf b w).descend p = some x) : p = [] ∧ x = .leaf b w := by
  cases p with
  | nil => exact ⟨rfl, (Option.some.inj h).symm⟩
  | cons c p => cases h

/-- The node at the end of a path is a node of the tree. -/
theorem HufNode.mem_nodes_of_descend : ∀ {p : Bits} {t x : HufNode}, t.descend p = some x → x ∈ t.nodes
  | [], .leaf _ _, _, h => by cases h; simp [HufNode.nodes]
  | [], .inner _ _ _ _, _, h => by cases h; simp [HufNode.nodes]
  | _ :: _, .leaf _ _, _, h => by cases h
  | false :: _, .inner _ _ l _, x, h => by
    have hx : x ∈ l.nodes := HufNode.mem_nodes_of_descend h
    simp [HufNode.nodes, hx]
  | true :: _, .inner _ _ _ r, x, h => by
    have hx : x ∈ r.nodes := HufNode.mem_nodes_of_descend h
    simp [HufNode.nodes, hx]

/-- The leaves among the nodes are those that `leaves` lists. -/
theorem HufNode.leaf_mem_nodes {b : Byte} {w : BitVec 64} {t : HufNode} :
    HufNode.leaf b w ∈ t.nodes ↔ (b, w.toNat) ∈ t.leaves := by
  induction t with
  | leaf c v => simp [HufNode.nodes, HufNode.leaves, BitVec.toNat_inj]
  | inner n v l r ihl ihr => simp [HufNode.nodes, HufNode.leaves, ihl, ihr]

/-! ## Walks (R172) -/

/-- A walk over the bits of a path goes on from the node where the path leads. -/
theorem HufNode.walk_append (rest : Bits) : ∀ {p : Bits} {t x : HufNode}, t.descend p = some x →
    t.walk (p ++ rest) = x.walk rest
  | [], _, _, h => by cases h; rfl
  | _ :: _, .leaf _ _, _, h => by cases h
  | false :: _, .inner _ _ l _, x, h => HufNode.walk_append (t := l) (x := x) rest h
  | true :: _, .inner _ _ _ r, x, h => HufNode.walk_append (t := r) (x := x) rest h

/-- A walk over fewer bits than a path has runs out before a leaf. -/
theorem HufNode.walk_of_lt_path {bs q : Bits} {c : Bool} {t x : HufNode} (h : t.descend (bs ++ c :: q) = some x) :
    t.walk bs = none := by
  rw [HufNode.descend_append] at h
  obtain ⟨y, hy, hx⟩ := Option.bind_eq_some_iff.1 h
  have hwalk := HufNode.walk_append [] hy
  rw [List.append_nil] at hwalk
  rw [hwalk]
  cases y with
  | leaf b w => cases hx
  | inner n w l r => rfl

/-! ## The path of a symbol (R165) -/

/-- Below an internal node the path of a symbol starts with the side on which its leaf lies. -/
theorem HufNode.path_inner (n : Nat) (w : BitVec 64) (l r : HufNode) (b : Byte) :
    (HufNode.inner n w l r).path b = ((l.path b).map (false :: ·)).or ((r.path b).map (true :: ·)) := by
  rw [HufNode.path]
  cases l.path b <;> cases r.path b <;> rfl

/-- A symbol has a path exactly when it has a leaf. -/
theorem HufNode.exists_path_iff {t : HufNode} {b : Byte} : (∃ p, t.path b = some p) ↔ b ∈ t.leaves.map Prod.fst := by
  rw [← Option.ne_none_iff_exists', ne_eq, HufNode.path_eq_none, not_not]

theorem HufNode.path_inner_left {n : Nat} {w : BitVec 64} {l r : HufNode} {b : Byte}
    (hb : b ∈ l.leaves.map Prod.fst) : (HufNode.inner n w l r).path b = (l.path b).map (false :: ·) := by
  obtain ⟨p, hp⟩ := HufNode.exists_path_iff.2 hb
  rw [HufNode.path_inner, hp, Option.map_some, Option.some_or]

theorem HufNode.path_inner_right {n : Nat} {w : BitVec 64} {l r : HufNode} {b : Byte}
    (hb : b ∉ l.leaves.map Prod.fst) : (HufNode.inner n w l r).path b = (r.path b).map (true :: ·) := by
  rw [HufNode.path_inner, (HufNode.path_eq_none b l).2 hb, Option.map_none, Option.none_or]

/-- The symbols under the two children of a node are different. -/
theorem HufNode.leaves_nodup_inner {n : Nat} {w : BitVec 64} {l r : HufNode}
    (h : ((HufNode.inner n w l r).leaves.map Prod.fst).Nodup) :
    (l.leaves.map Prod.fst).Nodup ∧ (r.leaves.map Prod.fst).Nodup ∧
      ∀ b, b ∈ r.leaves.map Prod.fst → b ∉ l.leaves.map Prod.fst := by
  rw [HufNode.leaves, List.map_append, List.nodup_append] at h
  obtain ⟨hl, hr, hlr⟩ := h
  exact ⟨hl, hr, fun b hb hb' => hlr b hb' b hb rfl⟩

/-- The path of a symbol leads to its leaf. -/
theorem HufNode.descend_path {b : Byte} : ∀ {t : HufNode} {p : Bits}, t.path b = some p →
    ∃ w, t.descend p = some (.leaf b w) := by
  intro t
  induction t with
  | leaf c w =>
    intro p h
    rw [HufNode.path] at h
    split at h
    · rename_i hc
      subst hc
      cases h
      exact ⟨w, rfl⟩
    · cases h
  | inner n w l r ihl ihr =>
    intro p h
    rw [HufNode.path_inner, Option.or_eq_some_iff, Option.map_eq_some_iff, Option.map_eq_some_iff] at h
    rcases h with ⟨q, hq, rfl⟩ | ⟨-, q, hq, rfl⟩
    · exact ihl hq
    · exact ihr hq

/-- Where the leaves have different symbols, a path to a leaf is the path of its symbol. -/
theorem HufNode.path_of_descend {b : Byte} {w : BitVec 64} : ∀ {p : Bits} {t : HufNode},
    (t.leaves.map Prod.fst).Nodup → t.descend p = some (.leaf b w) → t.path b = some p
  | p, .leaf c v, _, h => by
    obtain ⟨rfl, hx⟩ := HufNode.descend_leaf h
    cases hx
    simp [HufNode.path]
  | [], .inner _ _ _ _, _, h => by cases h
  | false :: p, .inner _ _ l _, hd, h => by
    obtain ⟨hl, -, -⟩ := HufNode.leaves_nodup_inner hd
    have hp : l.path b = some p := HufNode.path_of_descend hl h
    rw [HufNode.path_inner_left (HufNode.exists_path_iff.1 ⟨p, hp⟩), hp, Option.map_some]
  | true :: p, .inner _ _ _ r, hd, h => by
    obtain ⟨-, hr, hlr⟩ := HufNode.leaves_nodup_inner hd
    have hp : r.path b = some p := HufNode.path_of_descend hr h
    rw [HufNode.path_inner_right (hlr b (HufNode.exists_path_iff.1 ⟨p, hp⟩)), hp, Option.map_some]

/-- A walk over a stream that starts with the path of a symbol delivers the symbol and leaves the rest. -/
theorem HufNode.walk_path {t : HufNode} {b : Byte} {p : Bits} (h : t.path b = some p) (rest : Bits) :
    t.walk (p ++ rest) = some (b, rest) := by
  obtain ⟨w, hw⟩ := HufNode.descend_path h
  exact HufNode.walk_append rest hw

/-- The path of a symbol begins with no other symbol's (R167). -/
theorem HufNode.eq_of_path_prefix {t : HufNode} {b c : Byte} {p q : Bits} (hb : t.path b = some p)
    (hc : t.path c = some q) (h : p <+: q) : b = c := by
  obtain ⟨u, rfl⟩ := h
  have hwalk := HufNode.walk_path hc []
  rw [List.append_assoc, HufNode.walk_path hb] at hwalk
  obtain ⟨hbc, -⟩ := Prod.mk.inj (Option.some.inj hwalk)
  exact hbc

theorem HufNode.leaves_length_pos : ∀ t : HufNode, 0 < t.leaves.length
  | .leaf _ _ => Nat.zero_lt_one
  | .inner _ _ l _ => by
    rw [HufNode.leaves, List.length_append]
    exact Nat.add_pos_left l.leaves_length_pos _

/-- A path is shorter than the number of leaves (R166). -/
theorem HufNode.path_length_lt {b : Byte} : ∀ {t : HufNode} {p : Bits}, t.path b = some p → p.length < t.leaves.length := by
  intro t
  induction t with
  | leaf c w =>
    intro p h
    rw [HufNode.path] at h
    split at h
    · cases h; exact Nat.zero_lt_one
    · cases h
  | inner n w l r ihl ihr =>
    intro p h
    have hlpos := l.leaves_length_pos
    have hrpos := r.leaves_length_pos
    rw [HufNode.leaves, List.length_append]
    rw [HufNode.path_inner, Option.or_eq_some_iff, Option.map_eq_some_iff, Option.map_eq_some_iff] at h
    rcases h with ⟨q, hq, rfl⟩ | ⟨-, q, hq, rfl⟩
    · have hlt := ihl hq
      rw [List.length_cons]
      omega
    · have hlt := ihr hq
      rw [List.length_cons]
      omega

end Sys2Proof.Machine
end

section
/-!
The code of a table (spec/41_huffman.md R164 to R167): the tree by the number of symbols that occur, which symbols have a
code, how long a code is, that no code begins another one, and that the code is complete.
-/
namespace Sys2Proof.Machine

/-! ## The tree by the number of symbols (R164) -/

theorem hufMerge_isSome : ∀ (k next : Nat) {L : List HufNode}, L ≠ [] → ∃ t, hufMerge k next L = some t
  | _, _, [], h => absurd rfl h
  | _, _, [t], _ => ⟨t, by rw [hufMerge]⟩
  | 0, _, x :: _ :: _, _ => ⟨x, rfl⟩
  | k + 1, next, x :: y :: live, _ => by
    obtain ⟨a, b, rest, -, -, -, hstep⟩ := hufMerge_step k next x y live
    rw [hstep]
    exact hufMerge_isSome k (next + 1) (List.cons_ne_nil _ _)

theorem hufLeaves_length_eq (F : FreqTable) : (hufLeaves F).length = F.occurring.length := by
  rw [hufLeaves, List.length_map, FreqTable.occurring, List.length_map]

/-- A table without a symbol has no tree. -/
theorem hufTree_eq_none_iff {F : FreqTable} : hufTree F = none ↔ F.occurring = [] := by
  rw [← List.length_eq_zero_iff, ← hufLeaves_length_eq, List.length_eq_zero_iff]
  constructor
  · intro hnone
    by_contra hne
    obtain ⟨t, ht⟩ := hufMerge_isSome 255 256 hne
    exact Option.some_ne_none t (ht.symm.trans hnone)
  · intro hnil
    rw [hufTree, hnil, hufMerge]

/-- The symbols under the root are those that occur. -/
theorem hufTree_symbols {F : FreqTable} {t : HufNode} (h : hufTree F = some t) :
    (t.leaves.map Prod.fst).Perm F.occurring := (hufTree_leaves h).map Prod.fst

theorem hufTree_leaves_length {F : FreqTable} {t : HufNode} (h : hufTree F = some t) :
    t.leaves.length = F.occurring.length := by
  rw [← (hufTree_symbols h).length_eq, List.length_map]

theorem mem_hufTree_symbols {F : FreqTable} {t : HufNode} (h : hufTree F = some t) (b : Byte) :
    b ∈ t.leaves.map Prod.fst ↔ F.at b ≠ 0 := by
  rw [(hufTree_symbols h).mem_iff, F.mem_occurring]

theorem FreqTable.occurring_length_le (F : FreqTable) : F.occurring.length ≤ 256 := by
  rw [← hufLeaves_length_eq]
  exact hufLeaves_length F

/-- The only symbol of a table is the root. -/
theorem hufTree_of_single {F : FreqTable} {b : Byte} (h : F.occurring = [b]) : ∃ w, hufTree F = some (.leaf b w) := by
  cases ht : hufTree F with
  | none => rw [hufTree_eq_none_iff, h] at ht; cases ht
  | some t =>
    have hsymbols := hufTree_symbols ht
    rw [h, List.perm_singleton] at hsymbols
    have hcount := hufTree_leaves_length ht
    cases t with
    | leaf c w => cases hsymbols; exact ⟨w, rfl⟩
    | inner n w l r =>
      have hl := l.leaves_length_pos
      have hr := r.leaves_length_pos
      rw [h, HufNode.leaves, List.length_append, List.length_singleton] at hcount
      omega

/-- With two symbols or more the root is an internal node. -/
theorem hufTree_of_two {F : FreqTable} (h : 2 ≤ F.occurring.length) :
    ∃ n w l r, hufTree F = some (.inner n w l r) := by
  cases ht : hufTree F with
  | none =>
    rw [hufTree_eq_none_iff.1 ht] at h
    exact absurd h (by decide)
  | some t =>
    cases t with
    | leaf c w =>
      rw [← hufTree_leaves_length ht] at h
      exact absurd h (by simp [HufNode.leaves])
    | inner n w l r => exact ⟨n, w, l, r, rfl⟩

/-! ## Codes (R165 to R167) -/

/-- Where the root is an internal node the code of a symbol is its path. -/
theorem codeOf_of_inner {F : FreqTable} {n : Nat} {w : BitVec 64} {l r : HufNode} (h : hufTree F = some (.inner n w l r))
    (b : Byte) : codeOf F b = ((HufNode.inner n w l r).path b).getD [] := by
  rw [codeOf, h, hufCode]

/-- With two symbols or more the path of a symbol that occurs is its code. -/
theorem path_eq_codeOf {F : FreqTable} {t : HufNode} {b : Byte} (htwo : 2 ≤ F.occurring.length) (ht : hufTree F = some t)
    (hb : F.at b ≠ 0) : t.path b = some (codeOf F b) := by
  obtain ⟨n, w, l, r, hroot⟩ := hufTree_of_two htwo
  obtain rfl : t = .inner n w l r := Option.some.inj (ht.symm.trans hroot)
  obtain ⟨p, hp⟩ := HufNode.exists_path_iff.2 ((mem_hufTree_symbols ht b).2 hb)
  rw [codeOf_of_inner ht, hp, Option.getD_some]

/-- The only symbol of a table has the code 0 (R164). -/
theorem codeOf_of_single {F : FreqTable} {b : Byte} (h : F.occurring = [b]) : codeOf F b = [false] := by
  obtain ⟨w, ht⟩ := hufTree_of_single h
  simp [codeOf, ht, hufCode]

/-- A symbol that does not occur has no code. -/
theorem codeOf_of_zero {F : FreqTable} {b : Byte} (hb : F.at b = 0) : codeOf F b = [] := by
  cases ht : hufTree F with
  | none => rw [codeOf, ht, hufCode]
  | some t =>
    have hnone : t.path b = none := (HufNode.path_eq_none b t).2 fun hmem => (mem_hufTree_symbols ht b).1 hmem hb
    cases t with
    | leaf c w =>
      have hc : c ≠ b := by rintro rfl; simp [HufNode.path] at hnone
      simp [codeOf, ht, hufCode, hc]
    | inner n w l r => rw [codeOf_of_inner ht, hnone, Option.getD_none]

/-- A symbol that occurs is the only one of its table, or one of several. -/
theorem FreqTable.single_or_two {F : FreqTable} {b : Byte} (hb : F.at b ≠ 0) :
    F.occurring = [b] ∨ 2 ≤ F.occurring.length := by
  have hmem := (F.mem_occurring b).2 hb
  match hocc : F.occurring with
  | [] => rw [hocc] at hmem; cases hmem
  | [c] => rw [hocc, List.mem_singleton] at hmem; subst hmem; exact .inl rfl
  | _ :: _ :: _ => exact .inr (by simp)

/-- A symbol that occurs has a code (R165). -/
theorem codeOf_ne_nil {F : FreqTable} {b : Byte} (hb : F.at b ≠ 0) : codeOf F b ≠ [] := by
  rcases FreqTable.single_or_two hb with hone | htwo
  · rw [codeOf_of_single hone]
    exact List.cons_ne_nil _ _
  · obtain ⟨n, w, l, r, ht⟩ := hufTree_of_two htwo
    intro hnil
    obtain ⟨v, hleaf⟩ := HufNode.descend_path (path_eq_codeOf htwo ht hb)
    rw [hnil] at hleaf
    cases hleaf

theorem codeOf_eq_nil_iff (F : FreqTable) (b : Byte) : codeOf F b = [] ↔ F.at b = 0 :=
  ⟨fun h => by_contra fun hb => codeOf_ne_nil hb h, codeOf_of_zero⟩

/-- No code exceeds 255 bits (R166). -/
theorem codeOf_length_le (F : FreqTable) (b : Byte) : (codeOf F b).length ≤ 255 := by
  by_cases hb : F.at b = 0
  · rw [codeOf_of_zero hb]
    exact Nat.zero_le _
  · rcases FreqTable.single_or_two hb with hone | htwo
    · rw [codeOf_of_single hone]
      decide
    · obtain ⟨n, w, l, r, ht⟩ := hufTree_of_two htwo
      have hlt := HufNode.path_length_lt (path_eq_codeOf htwo ht hb)
      have hle := F.occurring_length_le
      rw [hufTree_leaves_length ht] at hlt
      omega

/-- No symbol's code begins with another symbol's (R167). -/
theorem codeOf_not_prefix {F : FreqTable} {b c : Byte} (hne : b ≠ c) (hb : F.at b ≠ 0) (hc : F.at c ≠ 0) :
    ¬ codeOf F b <+: codeOf F c := by
  rcases FreqTable.single_or_two hb with hone | htwo
  · have hmem := (F.mem_occurring c).2 hc
    rw [hone, List.mem_singleton] at hmem
    exact absurd hmem.symm hne
  · obtain ⟨n, w, l, r, ht⟩ := hufTree_of_two htwo
    exact fun hprefix => hne (HufNode.eq_of_path_prefix (path_eq_codeOf htwo ht hb) (path_eq_codeOf htwo ht hc) hprefix)

/-! ## The Kraft sum (R167) -/

/-- How much of the strings of `D` bits starts with the path of a symbol. -/
def HufNode.share (D : Nat) (t : HufNode) (b : Byte) : Nat := 2 ^ (D - ((t.path b).getD []).length)

/-- A symbol under a child has the same share of the strings one bit shorter there. -/
theorem HufNode.share_of_path {D : Nat} {t u : HufNode} {b : Byte} {c : Bool} (hb : b ∈ u.leaves.map Prod.fst)
    (hp : t.path b = (u.path b).map (c :: ·)) : t.share (D + 1) b = u.share D b := by
  obtain ⟨p, hu⟩ := HufNode.exists_path_iff.2 hb
  rw [HufNode.share, HufNode.share, hp, hu, Option.map_some, Option.getD_some, Option.getD_some, List.length_cons,
    Nat.add_sub_add_right]

/-- The leaves share all strings of `D` bits among them, where no path is longer. -/
theorem HufNode.sum_share : ∀ {t : HufNode} {D : Nat}, (t.leaves.map Prod.fst).Nodup → t.leaves.length ≤ D + 1 →
    ((t.leaves.map Prod.fst).map (t.share D)).sum = 2 ^ D := by
  intro t
  induction t with
  | leaf b w => intro D _ _; simp [HufNode.leaves, HufNode.share, HufNode.path]
  | inner n w l r ihl ihr =>
    intro D hd hD
    obtain ⟨hl, hr, hlr⟩ := HufNode.leaves_nodup_inner hd
    have hlpos := l.leaves_length_pos
    have hrpos := r.leaves_length_pos
    rw [HufNode.leaves, List.length_append] at hD
    obtain ⟨D, rfl⟩ : ∃ E, D = E + 1 := ⟨D - 1, by omega⟩
    have hleft : (l.leaves.map Prod.fst).map ((HufNode.inner n w l r).share (D + 1)) =
        (l.leaves.map Prod.fst).map (l.share D) :=
      List.map_congr_left fun b hb => HufNode.share_of_path hb (HufNode.path_inner_left hb)
    have hright : (r.leaves.map Prod.fst).map ((HufNode.inner n w l r).share (D + 1)) =
        (r.leaves.map Prod.fst).map (r.share D) :=
      List.map_congr_left fun b hb => HufNode.share_of_path hb (HufNode.path_inner_right (hlr b hb))
    rw [HufNode.leaves, List.map_append, List.map_append, List.sum_append, hleft, hright, ihl hl (by omega),
      ihr hr (by omega), Nat.pow_succ]
    omega

/-- Settles O22: the symbols under the root are those that occur, and their shares of the strings of 255 bits are all of
them. -/
theorem theHuffmanCodeIsComplete : Obligations.TheHuffmanCodeIsComplete := by
  intro F htwo
  refine ⟨codeOf_length_le F, ?_⟩
  obtain ⟨n, w, l, r, ht⟩ := hufTree_of_two htwo
  have hsum := HufNode.sum_share (D := 255) (hufTree_leaves_nodup ht)
    (by rw [hufTree_leaves_length ht]; exact F.occurring_length_le)
  have hshare : (F.occurring.map fun b => 2 ^ (255 - (codeOf F b).length)) =
      F.occurring.map ((HufNode.inner n w l r).share 255) :=
    List.map_congr_left fun b _ => by rw [HufNode.share, codeOf_of_inner ht]
  rw [hshare, ← ((hufTree_symbols ht).map _).sum_eq, hsum]

end Sys2Proof.Machine
end

section
/-!
The code tables and the end of a Huffman coder (spec/10_state.md R40, R41, spec/41_huffman.md R171, R175): a code in its
field of `HCODE`, what the two tables say together, and what a completed coder leaves.
-/
namespace Sys2Proof.Machine

/-! ## Bit strings as numbers -/

theorem natOfBits_concat (bs : Bits) (b : Bool) : natOfBits (bs ++ [b]) = 2 * natOfBits bs + b.toNat := by
  rw [natOfBits, List.foldl_append, List.foldl_cons, List.foldl_nil, ← natOfBits]

/-- The last bit of a string is the lowest of its number. -/
theorem natOfBits_testBit (bs : Bits) (k : Nat) : (natOfBits bs).testBit k = bs.reverse.getD k false := by
  induction bs using List.reverseRecOn generalizing k with
  | nil => simp [natOfBits]
  | append_singleton bs b ih =>
    rw [natOfBits_concat, List.reverse_concat]
    cases k with
    | zero => cases b <;> simp [Nat.testBit_zero, Nat.add_mod]
    | succ k =>
      have hhalf : (2 * natOfBits bs + b.toNat) / 2 = natOfBits bs := by
        have hb := b.toNat_lt
        omega
      rw [Nat.testBit_succ, hhalf, ih, List.getD_cons_succ]

theorem natOfBits_lt (bs : Bits) : natOfBits bs < 2 ^ bs.length := by
  refine Nat.lt_pow_two_of_testBit _ fun k hk => ?_
  rw [natOfBits_testBit, List.getD_eq_default _ _ (by simpa using hk)]

/-- The bit of index `j`, counted from the first, in the number of a string. -/
theorem natOfBits_testBit_index {bs : Bits} {j : Nat} (hj : j < bs.length) :
    (natOfBits bs).testBit (bs.length - 1 - j) = bs.getD j false := by
  have hback : bs.length - 1 - (bs.length - 1 - j) = j := by omega
  rw [natOfBits_testBit, List.getD_eq_getElem?_getD, List.getElem?_reverse (by omega), hback,
    List.getD_eq_getElem?_getD]

/-! ## The code tables (R40, R41) -/

/-- Bit `j` of a packed code is its bit of index `j`, and 0 after its end (R41). -/
theorem codeBit_packCode {c : Bits} (hc : c.length ≤ 256) {j : Nat} (hj : j < 256) :
    codeBit (packCode c) j = c.getD j false := by
  have hfield : 255 - j < 256 := by omega
  rw [codeBit, packCode, BitVec.getLsbD_ofNat, Nat.testBit_mul_two_pow]
  rcases Nat.lt_or_ge j c.length with hlt | hge
  · have hinside : 256 - c.length ≤ 255 - j := by omega
    have hshift : 255 - j - (256 - c.length) = c.length - 1 - j := by omega
    rw [hshift, natOfBits_testBit_index hlt]
    simp [hfield, hinside]
  · have hbelow : ¬ 256 - c.length ≤ 255 - j := by omega
    rw [List.getD_eq_default _ _ hge]
    simp [hbelow]

/-- The code tables of a state are those that a build makes of a table. -/
def State.holdsCode (t : State) (F : FreqTable) : Prop :=
  ∀ b : Byte, (t.hlen[b.toNat]'b.isLt).toNat = (codeOf F b).length ∧ t.hcode[b.toNat]'b.isLt = packCode (codeOf F b)

theorem State.holdsCode_of_hufBuild {s t : State} (hlen : t.hlen = s.hufBuild.hlen)
    (hcode : t.hcode = s.hufBuild.hcode) : t.holdsCode s.freq := by
  intro b
  have hlength := codeOf_length_le s.freq b
  rw [codeOf] at hlength
  constructor
  · simp only [hlen, State.hufBuild_hlen, tabulate_getElem, BitVec.ofNat_toNat, BitVec.setWidth_eq, BitVec.toNat_ofNat,
      codeOf]
    exact Nat.mod_eq_of_lt (by omega)
  · simp only [hcode, State.hufBuild_hcode, tabulate_getElem, BitVec.ofNat_toNat, BitVec.setWidth_eq, codeOf]

theorem State.holdsCode.tableCode {t : State} {F : FreqTable} (h : t.holdsCode F) (b : Byte) :
    t.tableCode b = codeOf F b := by
  obtain ⟨hlen, hcode⟩ := h b
  have hlength := codeOf_length_le F b
  rw [State.tableCode, hlen, hcode]
  refine List.ext_getElem (by simp) fun j _ hj => ?_
  rw [List.getElem_map, List.getElem_range, codeBit_packCode (by omega) (by omega), List.getD_eq_getElem _ _ hj]

/-- After a code its field holds zeros (R41). -/
theorem State.holdsCode.codeBit_beyond {t : State} {F : FreqTable} (h : t.holdsCode F) {b : Byte} {j : Nat}
    (hj : (codeOf F b).length ≤ j) (hfield : j < 256) : codeBit (t.hcode[b.toNat]'b.isLt) j = false := by
  obtain ⟨-, hcode⟩ := h b
  have hlength := codeOf_length_le F b
  rw [hcode, codeBit_packCode (by omega) hfield, List.getD_eq_default _ _ hj]

/-! ## The result of a command (R46) -/

/-- A result that fits `OUT` is what the host reads of it. -/
theorem State.result_of_setOut {t : State} {m : Memory} {bs : List Byte} (hmem : t.mem = m.setOut bs)
    (hlen : t.outLen.toNat = bs.length) (hfit : bs.length ≤ Config.outCap) : t.result = bs := by
  rw [State.result, State.outBytes, hlen]
  refine List.ext_getElem (by simp) fun k hk hk' => ?_
  have hin : inOutBuffer (Config.outBase + k) = true := by simp [inOutBuffer]; omega
  rw [List.getElem_map, List.getElem_range, Nat.zero_add, State.outByte, hlen, if_pos hk', hmem,
    Memory.read_setOut _ _ hfit, if_pos hin, Nat.add_sub_cancel_left, List.getElem?_eq_getElem hk', Option.getD_some]

/-! ## The end of a Huffman coder -/

/-- The state after a Huffman coder that raised nothing: the tables of the build, the result in `OUT`, the cursors. -/
def State.hufDone (s : State) (out : List Byte) (inPos outPos : Nat) : State :=
  ((s.accept.hufBuild.setOut out).setCursors out.length inPos outPos).complete

theorem State.hufDone_completed {s : State} (out : List Byte) (inPos outPos : Nat) (herr : s.error = false) :
    (s.hufDone out inPos outPos).completed := ⟨rfl, herr⟩

theorem State.hufDone_holdsCode (s : State) (out : List Byte) (inPos outPos : Nat) :
    (s.hufDone out inPos outPos).holdsCode s.freq :=
  State.holdsCode_of_hufBuild (s := s.accept) rfl rfl

theorem State.hufDone_outLen (s : State) {out : List Byte} (inPos outPos : Nat) (hfit : out.length ≤ Config.outCap) :
    (s.hufDone out inPos outPos).outLen.toNat = out.length := by
  have hcap : Config.outCap = 1048576 := rfl
  exact Nat.mod_eq_of_lt (by omega)

theorem State.hufDone_result (s : State) {out : List Byte} (inPos outPos : Nat) (hfit : out.length ≤ Config.outCap) :
    (s.hufDone out inPos outPos).result = out :=
  State.result_of_setOut (m := s.mem) rfl (s.hufDone_outLen inPos outPos hfit) hfit

theorem State.hufDone_cursors (s : State) {out : List Byte} {inPos outPos : Nat} (hfit : out.length ≤ Config.outCap)
    (hin : inPos < 2 ^ 32) (hout : outPos < 2 ^ 32) :
    (s.hufDone out inPos outPos).cursorsAre out.length inPos outPos :=
  ⟨s.hufDone_outLen inPos outPos hfit, Nat.mod_eq_of_lt hin, Nat.mod_eq_of_lt hout⟩

/-- What a Huffman coder does not write (R171, R175). -/
theorem State.hufDone_frame (s : State) {out : List Byte} (inPos outPos : Nat) (hfit : out.length ≤ Config.outCap) :
    s.keepsOperands (s.hufDone out inPos outPos) ∧ (s.hufDone out inPos outPos).freq = s.freq ∧
    (s.hufDone out inPos outPos).cum = s.cum ∧ (s.hufDone out inPos outPos).symtab = s.symtab ∧
    s.keepsWorking (s.hufDone out inPos outPos) ∧ s.keepsOutsideOut (s.hufDone out inPos outPos) := by
  refine ⟨⟨rfl, rfl, rfl, rfl, rfl, rfl, rfl, rfl⟩, rfl, rfl, rfl, ⟨⟨rfl, rfl, rfl⟩, rfl, rfl⟩, fun a ha => ?_⟩
  have hread := Memory.read_setOut s.mem out hfit a
  rw [ha] at hread
  exact hread

end Sys2Proof.Machine
end

section
/-!
`HUF_ENCODE` (spec/41_huffman.md R169 to R171): the loop over symbols that have a code, the completed command, and the
symbol at which it stops.
-/
namespace Sys2Proof.Machine

/-! ## The loop -/

/-- Symbols with a code whose codes fit are written, and the loop goes on after them. -/
theorem hufEncodeLoop_append (code : Byte → Bits) (room : Nat) (rest : List Byte) : ∀ (pre : List Byte) (i : Nat)
    (w : BitWriter), (∀ c ∈ pre, code c ≠ []) → w.bits.length + (pre.flatMap code).length ≤ 8 * room →
    hufEncodeLoop code room i (pre ++ rest) w =
      hufEncodeLoop code room (i + pre.length) rest ⟨w.bits ++ pre.flatMap code⟩ := by
  intro pre
  induction pre with
  | nil => intro i w _ _; simp
  | cons b pre ih =>
    intro i w hcodes hfit
    obtain ⟨hb, hpre⟩ := List.forall_mem_cons.1 hcodes
    rw [List.flatMap_cons, List.length_append] at hfit
    rw [List.cons_append, hufEncodeLoop_cons, if_neg hb, if_pos (by omega),
      ih _ _ hpre (by rw [List.length_append]; omega), List.flatMap_cons, List.append_assoc, List.length_cons,
      Nat.add_right_comm, Nat.add_assoc]

/-! ## The command (R171) -/

theorem exec_hufEncode {s : State} (herr : s.error = false) (hin : s.inLen.toNat ≤ Config.inCap) :
    exec .hufEncode s = .next (s.accept.finish hufCodeFootprint (hufEncodeOp [] s.accept)) := by
  refine congrArg Host.Outcome.next ?_
  rw [State.command_of_ok _ herr, State.withInput_of_le (s := s.accept) _ hin]

/-- Where the loop writes bits, they are the result. -/
theorem exec_hufEncode_done {s : State} {w : BitWriter} (herr : s.error = false) (hin : s.inLen.toNat ≤ Config.inCap)
    (hloop : hufEncodeLoop (codeOf s.freq) Config.outCap 0 s.input ⟨[]⟩ = .ok w) :
    exec .hufEncode s = .next (s.hufDone (packBits w.bits) s.inLen.toNat w.bits.length) := by
  rw [exec_hufEncode herr hin]
  rcases hufEncodeOp_cases [] s.accept with ⟨w', hw', hop⟩ | ⟨e, he, -⟩
  · obtain rfl : w = w' := Except.ok.inj (hloop.symm.trans hw')
    rw [hop, State.finish_ok, State.hufDone, packBits_length, List.nil_append, List.length_nil, Nat.zero_add]
    rfl
  · exact nomatch hloop.symm.trans he

/-- Where the loop raises, the command records it. -/
theorem exec_hufEncode_faulted {s : State} {e : Raise} (herr : s.error = false) (hin : s.inLen.toNat ≤ Config.inCap)
    (hloop : hufEncodeLoop (codeOf s.freq) Config.outCap 0 s.input ⟨[]⟩ = .error e) :
    ∃ t, exec .hufEncode s = .next t ∧ t.faulted e.kind e.info := by
  refine ⟨_, exec_hufEncode herr hin, ?_⟩
  rcases hufEncodeOp_cases [] s.accept with ⟨w', hw', -⟩ | ⟨e', he', hop⟩
  · exact nomatch hloop.symm.trans hw'
  · obtain rfl : e = e' := Except.error.inj (hloop.symm.trans he')
    rw [hop, State.finish_error]
    exact State.takeFault_faulted _ _ _

/-- A run that ends without an error wrote the codes of the input, each of at least one bit, and they fit. -/
theorem exec_hufEncode_of_no_error {s t : State} (herr : s.error = false) (hin : s.inLen.toNat ≤ Config.inCap)
    (h : exec .hufEncode s = .next t) (ht : t.error = false) :
    (s.input.flatMap (codeOf s.freq)).length ≤ 8 * Config.outCap ∧
      t = s.hufDone (packBits (s.input.flatMap (codeOf s.freq))) s.inLen.toNat
        (s.input.flatMap (codeOf s.freq)).length := by
  cases hloop : hufEncodeLoop (codeOf s.freq) Config.outCap 0 s.input ⟨[]⟩ with
  | ok w =>
    obtain ⟨hbits, hfit, -⟩ := hufEncodeLoop_ok _ _ _ _ _ _ (Nat.zero_le _) hloop
    rw [List.nil_append] at hbits
    rw [exec_hufEncode_done herr hin hloop, hbits] at h
    rw [hbits] at hfit
    exact ⟨hfit, (Host.Outcome.next.inj h).symm⟩
  | error e =>
    obtain ⟨t', ht', -, hfault, -⟩ := exec_hufEncode_faulted herr hin hloop
    obtain rfl : t' = t := Host.Outcome.next.inj (ht'.symm.trans h)
    rw [hfault] at ht
    cases ht

/-- Packed bits that fit `OUT` as bits fit it as bytes. -/
theorem packBits_length_le {bs : Bits} {room : Nat} (h : bs.length ≤ 8 * room) : (packBits bs).length ≤ room := by
  rw [packBits_length]
  omega

/-- Settles O24: the loop writes every code, and packing adds fewer than eight zeros. -/
theorem hufEncodeConcatenatesTheCodes : Obligations.HufEncodeConcatenatesTheCodes := by
  intro s herr hin hcodes hfit
  have hcap : Config.outCap = 1048576 := rfl
  have hloop := hufEncodeLoop_append (codeOf s.freq) Config.outCap [] s.input 0 ⟨[]⟩
    (fun b hb => codeOf_ne_nil (hcodes b hb)) (by simpa using hfit)
  rw [List.append_nil, List.nil_append] at hloop
  have hlen := packBits_length_le hfit
  have hcursors := s.hufDone_cursors (inPos := s.inLen.toNat) hlen s.inLen.isLt
    (outPos := (s.input.flatMap (codeOf s.freq)).length) (by omega)
  rw [packBits_length] at hcursors
  refine ⟨_, exec_hufEncode_done herr hin hloop, State.hufDone_completed _ _ _ herr, ?bits, hcursors,
    (s.hufDone_holdsCode _ _ _).tableCode, s.hufDone_frame _ _ hlen⟩
  case bits =>
    rw [s.hufDone_result _ _ hlen, streamBits_packBits]
    exact ⟨_, by omega, rfl⟩

/-- Settles O25: the symbols before the one that stops the loop are written, and at that one the loop raises. -/
theorem hufEncodeFaultsAtTheSymbolItCannotWrite : Obligations.HufEncodeFaultsAtTheSymbolItCannotWrite := by
  refine ⟨fun s pre rest b herr hin hinput hpre hb hfit => ?uncoded, fun s i herr hin hover => ?overflow⟩
  case uncoded =>
    refine exec_hufEncode_faulted (e := internalError pre.length) herr hin ?_
    rw [hinput, hufEncodeLoop_append _ _ _ _ _ _ (fun c hc => codeOf_ne_nil (hpre c hc)) (by simpa using hfit),
      hufEncodeLoop_cons, if_pos (codeOf_of_zero hb), Nat.zero_add]
  case overflow =>
    obtain ⟨pre, post, b, hinput, rfl, hcodes, hfit, hover⟩ := hover
    have hpre : ∀ c ∈ pre, codeOf s.freq c ≠ [] := fun c hc => codeOf_ne_nil (hcodes c (List.mem_append_left _ hc))
    have hb : codeOf s.freq b ≠ [] := codeOf_ne_nil (hcodes b (by simp))
    rw [List.flatMap_append, List.flatMap_singleton, List.length_append] at hover
    refine exec_hufEncode_faulted (e := capacityError pre.length) herr hin ?_
    rw [hinput, hufEncodeLoop_append _ _ _ _ _ _ hpre (by simpa using hfit), hufEncodeLoop_cons, if_neg hb,
      if_neg (by simpa using hover), Nat.zero_add]

end Sys2Proof.Machine
end

section
/-!
`HUF_DECODE` (spec/41_huffman.md R172 to R176): the checks of the table, the loop over a stream that starts with codes, the
symbol at which a stream runs out, and the round trip (R181).
-/
namespace Sys2Proof.Machine

/-! ## The loop (R175) -/

/-- The codes that a stream starts with are delivered as symbols, and the loop goes on after them. -/
theorem hufDecodeLoop_append {F : FreqTable} {t : HufNode} (htwo : 2 ≤ F.occurring.length) (ht : hufTree F = some t)
    (n : Nat) (rest : Bits) : ∀ (B : List Byte) (i : Nat), (∀ b ∈ B, F.at b ≠ 0) →
    hufDecodeLoop t (B.length + n) i (B.flatMap (codeOf F) ++ rest) =
      (hufDecodeLoop t n (i + B.length) rest).map fun q => (B ++ q.1, q.2) := by
  intro B
  induction B with
  | nil =>
    intro i _
    rw [List.length_nil, Nat.zero_add, List.flatMap_nil, List.nil_append, Nat.add_zero]
    cases hufDecodeLoop t n i rest <;> rfl
  | cons b B ih =>
    intro i hB
    obtain ⟨hb, hB⟩ := List.forall_mem_cons.1 hB
    have hwalk := HufNode.walk_path (path_eq_codeOf htwo ht hb) (B.flatMap (codeOf F) ++ rest)
    have hindex : i + 1 + B.length = i + (b :: B).length := by rw [List.length_cons]; omega
    rw [List.length_cons, Nat.add_right_comm, List.flatMap_cons, List.append_assoc, hufDecodeLoop, hwalk]
    simp only [ih (i + 1) hB, hindex]
    cases hufDecodeLoop t n (i + (b :: B).length) rest <;> rfl

/-- The symbols and the bits consumed, by the number of symbols in the table (R172). -/
theorem hufDecodeSymbols_of_codes {F : FreqTable} {B : List Byte} {bs rest : Bits} (hB : ∀ b ∈ B, F.at b ≠ 0)
    (hbits : 2 ≤ F.occurring.length → bs = B.flatMap (codeOf F) ++ rest) :
    hufDecodeSymbols (hufTree F) B.length bs =
      .ok (B, if F.occurring.length < 2 then 0 else (B.flatMap (codeOf F)).length) := by
  match hocc : F.occurring with
  | [] =>
    have hnil : B = [] := List.eq_nil_iff_forall_not_mem.2 fun b hb => by
      have hmem := (F.mem_occurring b).2 (hB b hb)
      rw [hocc] at hmem
      cases hmem
    rw [hufTree_eq_none_iff.2 hocc, hnil]
    rfl
  | [c] =>
    obtain ⟨w, ht⟩ := hufTree_of_single hocc
    have hall : B = List.replicate B.length c := List.eq_replicate_iff.2 ⟨rfl, fun b hb => by
      have hmem := (F.mem_occurring b).2 (hB b hb)
      rwa [hocc, List.mem_singleton] at hmem⟩
    rw [ht, hufDecodeSymbols, ← hall]
    rfl
  | c :: d :: l =>
    have htwo : 2 ≤ F.occurring.length := by rw [hocc]; simp
    obtain ⟨n, w, l, r, ht⟩ := hufTree_of_two htwo
    have hloop := hufDecodeLoop_append htwo ht 0 rest B 0 hB
    rw [Nat.add_zero, ← hbits htwo, hufDecodeLoop, Except.map] at hloop
    rw [← hocc, if_neg (Nat.not_lt.2 htwo), ht, hufDecodeSymbols, hloop, hbits htwo]
    simp

/-- A stream that ends inside a code of the next symbol raises that symbol's index (R351 a). -/
theorem hufDecodeSymbols_of_exhausted {F : FreqTable} {B : List Byte} {b : Byte} {n : Nat} {rest : Bits}
    (htwo : 2 ≤ F.occurring.length) (hn : B.length < n) (hB : ∀ c ∈ B, F.at c ≠ 0) (hb : F.at b ≠ 0)
    (hprefix : rest <+: codeOf F b) (hne : rest ≠ codeOf F b) :
    hufDecodeSymbols (hufTree F) n (B.flatMap (codeOf F) ++ rest) = .error (decodeError B.length) := by
  obtain ⟨m, w, l, r, ht⟩ := hufTree_of_two htwo
  obtain ⟨v, hleaf⟩ := HufNode.descend_path (path_eq_codeOf htwo ht hb)
  have hwalk : (HufNode.inner m w l r).walk rest = none := by
    obtain ⟨u, hu⟩ := hprefix
    cases u with
    | nil => exact absurd ((List.append_nil rest).symm.trans hu) hne
    | cons c q => rw [← hu] at hleaf; exact HufNode.walk_of_lt_path hleaf
  obtain ⟨k, rfl⟩ : ∃ k, n = B.length + (k + 1) := ⟨n - B.length - 1, by omega⟩
  rw [ht, hufDecodeSymbols, hufDecodeLoop_append htwo ht (k + 1) rest B 0 hB, hufDecodeLoop, hwalk, Nat.zero_add]
  rfl

/-! ## The command (R173, R175) -/

theorem hufNeed_eq (F : FreqTable) : hufNeed F (hufTree F) = bitsNeeded F := by
  rw [hufNeed, FreqTable.entries_eq, List.map_map]
  rfl

theorem exec_hufDecode {s : State} (herr : s.error = false) (hin : s.inLen.toNat ≤ Config.inCap)
    (hcount : s.expectedCount.toNat ≤ Config.outCap) :
    exec .hufDecode s = .next (s.accept.finish hufCodeFootprint (hufDecodeOp s.input s.accept)) := by
  refine congrArg Host.Outcome.next ?_
  rw [State.command_of_ok _ herr, State.withInput_of_le (s := s.accept) _ hin,
    State.withCount_of_le (s := s.accept) _ hcount]
  rfl

/-- What the operation raises, the command records. -/
theorem exec_hufDecode_faulted {s : State} {e : Raise} (herr : s.error = false) (hin : s.inLen.toNat ≤ Config.inCap)
    (hcount : s.expectedCount.toNat ≤ Config.outCap) (hop : hufDecodeOp s.input s.accept = .error e) :
    ∃ t, exec .hufDecode s = .next t ∧ t.faulted e.kind e.info := by
  refine ⟨_, exec_hufDecode herr hin hcount, ?_⟩
  rw [hop, State.finish_error]
  exact State.takeFault_faulted _ _ _

/-- What a decode raises once the table has passed its checks: what the symbols raise. -/
theorem hufDecodeOp_of_symbols_error {P : List Byte} {s : State} {e : Raise}
    (htotal : s.freq.total = s.expectedCount.toNat) (hneed : bitsNeeded s.freq ≤ 8 * P.length)
    (hsymbols : hufDecodeSymbols (hufTree s.freq) s.expectedCount.toNat (streamBits P) = .error e) :
    hufDecodeOp P s = .error e := by
  rcases hufDecodeOp_cases P s with ⟨hbad | hbad, -⟩ | ⟨-, -, ⟨e', he', hop⟩ | ⟨q, hq, -⟩⟩
  · exact absurd htotal hbad
  · rw [hufNeed_eq] at hbad
    omega
  · obtain rfl : e = e' := Except.error.inj (hsymbols.symm.trans he')
    exact hop
  · exact nomatch hsymbols.symm.trans hq

/-- What a decode leaves once the table has passed its checks and the symbols are delivered. -/
theorem exec_hufDecode_done {s : State} {out : List Byte} {pos : Nat} (herr : s.error = false)
    (hin : s.inLen.toNat ≤ Config.inCap) (hcount : s.expectedCount.toNat ≤ Config.outCap)
    (htotal : s.freq.total = s.expectedCount.toNat) (hneed : bitsNeeded s.freq ≤ 8 * s.inLen.toNat)
    (hlen : out.length = s.expectedCount.toNat)
    (hsymbols : hufDecodeSymbols (hufTree s.freq) out.length (streamBits s.input) = .ok (out, pos)) :
    exec .hufDecode s = .next (s.hufDone out pos out.length) := by
  rw [exec_hufDecode herr hin hcount]
  rw [hlen] at hsymbols
  rcases hufDecodeOp_cases s.input s.accept with ⟨hbad | hbad, -⟩ | ⟨-, -, ⟨e, he, -⟩ | ⟨q, hq, hop⟩⟩
  · exact absurd htotal hbad
  · rw [State.accept_freq, hufNeed_eq, s.input_length] at hbad
    omega
  · exact nomatch hsymbols.symm.trans he
  · obtain rfl : (out, pos) = q := Except.ok.inj (hsymbols.symm.trans hq)
    rw [hop, State.finish_ok, State.hufDone, hlen]
    rfl

/-- Settles O27: both checks answer the same error. -/
theorem hufDecodeChecksTheTable : Obligations.HufDecodeChecksTheTable := by
  intro s herr hin hcount hbad
  refine exec_hufDecode_faulted (e := formatError) herr hin hcount ?_
  rcases hufDecodeOp_cases s.input s.accept with ⟨-, hop⟩ | ⟨htotal, hneed, -⟩
  · exact hop
  · rw [State.accept_freq, hufNeed_eq, s.input_length] at hneed
    rcases hbad with hbad | hbad
    · exact absurd htotal hbad
    · omega

/-- Settles O28: the symbols before are delivered, and the walk of the next one runs out. -/
theorem hufDecodeReportsAnExhaustedStream : Obligations.HufDecodeReportsAnExhaustedStream := by
  intro s B b rest herr hin hcount htotal hneed htwo hn hB hb hprefix hne hbits
  refine exec_hufDecode_faulted (e := decodeError B.length) herr hin hcount ?_
  refine hufDecodeOp_of_symbols_error (s := s.accept) htotal (by rw [s.input_length]; exact hneed) ?_
  rw [hbits]
  exact hufDecodeSymbols_of_exhausted htwo hn hB hb hprefix hne

/-- The codes that a stream starts with are no longer than the stream. -/
theorem codes_length_le {F : FreqTable} {P B : List Byte} {rest : Bits}
    (h : streamBits P = B.flatMap (codeOf F) ++ rest) : (B.flatMap (codeOf F)).length ≤ 8 * P.length := by
  rw [← streamBits_length, h, List.length_append]
  exact Nat.le_add_right _ _

/-- `HUF_BUILD` completes with the tables of the build (R168). -/
theorem exec_hufBuild {s : State} (herr : s.error = false) :
    exec .hufBuild s = .next (s.accept.hufBuild.setCursors 0 0 0).complete :=
  congrArg Host.Outcome.next (State.command_of_ok _ herr)

/-- Settles O26: the symbols are delivered whatever the number of symbols in the table, and the tables are those of the
build under the same key. -/
theorem hufDecodeReadsTheCodes : Obligations.HufDecodeReadsTheCodes := by
  intro s B rest herr hin hcount htotal hneed hlen hB hbits
  have hin' : Config.inCap = 1048576 := rfl
  have hout' : Config.outCap = 1048576 := rfl
  have hfit : B.length ≤ Config.outCap := hlen ▸ hcount
  have hpos : (if s.freq.occurring.length < 2 then 0 else (B.flatMap (codeOf s.freq)).length) < 2 ^ 32 := by
    split
    · decide
    · have hle := codes_length_le (hbits (by omega))
      rw [s.input_length] at hle
      omega
  exact ⟨_, _, exec_hufDecode_done herr hin hcount htotal hneed hlen (hufDecodeSymbols_of_codes hB hbits),
    State.hufDone_completed _ _ _ herr, s.hufDone_result _ _ hfit, s.hufDone_cursors hfit hpos (by omega),
    (s.hufDone_holdsCode _ _ _).tableCode, exec_hufBuild herr, rfl, rfl, rfl, fun _ => rfl, s.hufDone_frame _ _ hfit⟩

/-! ## The round trip (R181) -/

/-- Summing over a list is summing over the symbols, each as often as it stands in the list. -/
theorem sum_count_mul (f : Byte → Nat) (B : List Byte) : (allBytes.map fun b => B.count b * f b).sum = (B.map f).sum := by
  rw [← List.sum_toFinset _ allBytes_nodup, Finset.sum_list_map_count]
  refine (Finset.sum_subset (fun b _ => by simp) fun b _ hb => ?_).symm
  rw [List.count_eq_zero_of_not_mem (by simpa using hb), Nat.zero_mul]

/-- A plane's own counts need as many bits as the plane's codes have (R173). -/
theorem bitsNeeded_of_counts {F : FreqTable} {B : List Byte} (h : ∀ b, F.at b = B.count b) :
    bitsNeeded F = (B.flatMap (codeOf F)).length := by
  rw [bitsNeeded, funext fun b => congrArg (· * (codeOf F b).length) (h b), sum_count_mul, List.length_flatMap]

theorem total_of_counts {F : FreqTable} {B : List Byte} (h : ∀ b, F.at b = B.count b) : F.total = B.length := by
  rw [FreqTable.total_of_at h, sum_count_allBytes]

theorem streamBits_append (P Q : List Byte) : streamBits (P ++ Q) = streamBits P ++ streamBits Q :=
  List.flatMap_append

/-- The stream of a packed bit string with bytes after it starts with the string. -/
theorem streamBits_packBits_append (bs : Bits) (rest : List Byte) :
    ∃ tail, streamBits (packBits bs ++ rest) = bs ++ tail :=
  ⟨_, by rw [streamBits_append, streamBits_packBits, List.append_assoc]⟩

/-- Settles O29: the input of the decode starts with the codes of the plane, and the plane's own counts agree with the
plane's length and the stream's. -/
theorem huffmanRoundTrip : Obligations.HuffmanRoundTrip := by
  intro s t u herr hin hout hcounts hexec ht huerr hfreq hcount huin hresult
  obtain ⟨hfit, rfl⟩ := exec_hufEncode_of_no_error herr hin hexec ht
  rw [s.hufDone_result _ _ (packBits_length_le hfit)] at hresult
  obtain ⟨rest, hinput⟩ := hresult
  obtain ⟨tail, hbits⟩ := streamBits_packBits_append (s.input.flatMap (codeOf s.freq)) rest
  rw [hinput, ← hfreq] at hbits
  rw [← hfreq] at hcounts
  have hB : ∀ b ∈ s.input, u.freq.at b ≠ 0 := fun b hb => by
    have hpos := List.count_pos_iff.2 hb
    rw [hcounts b]
    omega
  have htotal : u.freq.total = u.expectedCount.toNat := by rw [total_of_counts hcounts, s.input_length, hcount]
  have hneed : bitsNeeded u.freq ≤ 8 * u.inLen.toNat := by
    rw [bitsNeeded_of_counts hcounts, ← u.input_length]
    exact codes_length_le hbits
  have hlen : s.input.length = u.expectedCount.toNat := by rw [s.input_length, hcount]
  refine ⟨_, exec_hufDecode_done huerr huin (hcount ▸ hout) htotal hneed hlen
    (hufDecodeSymbols_of_codes hB fun _ => hbits), State.hufDone_completed _ _ _ huerr,
    u.hufDone_result _ _ (s.input_length ▸ hout), fun htwo => ?_⟩
  rw [← hfreq] at htwo ⊢
  rw [if_neg (Nat.not_lt.2 htwo)]
  rfl

end Sys2Proof.Machine
end

section
/-!
The merge rule (spec/41_huffman.md R161 to R163, R166): taking out the nodes of least key, what holds of the live nodes
while they are merged, and every node of the tree that results.
-/
namespace Sys2Proof.Machine

/-! ## The key order (R162) -/

theorem HufNode.before_iff (a b : HufNode) : a.before b = true ↔
    a.weight.toNat < b.weight.toNat ∨ (a.weight.toNat = b.weight.toNat ∧ a.number < b.number) := by
  simp [HufNode.before]

theorem HufNode.before_trans {a b c : HufNode} (hab : a.before b = true) (hbc : b.before c = true) :
    a.before c = true := by
  rw [HufNode.before_iff] at hab hbc ⊢
  omega

/-- Nodes of different numbers are ordered one way or the other. -/
theorem HufNode.before_of_not {a b : HufNode} (hne : a.number ≠ b.number) (h : ¬ a.before b = true) :
    b.before a = true := by
  rw [HufNode.before_iff] at h ⊢
  omega

/-! ## Taking out the least (R161) -/

/-- Among nodes of different numbers, the one taken out comes before every other. -/
theorem takeLeast_before : ∀ (live : List HufNode) (x : HufNode), ((x :: live).map HufNode.number).Nodup →
    ∀ z ∈ (takeLeast x live).2, (takeLeast x live).1.before z = true := by
  intro live
  induction live with
  | nil => intro x _ z hz; cases hz
  | cons y live ih =>
    have least : ∀ x z : HufNode, ((x :: live).map HufNode.number).Nodup → x.before z = true →
        (takeLeast x live).1.before z = true := fun x z hd hxz => by
      obtain ⟨hperm, -⟩ := takeLeast_spec live x
      rcases List.mem_cons.1 (hperm.mem_iff.2 List.mem_cons_self) with hx | hx
      · rwa [← hx]
      · exact HufNode.before_trans (ih x hd x hx) hxz
    intro x hd z hz
    simp only [List.map_cons, List.nodup_cons, List.mem_cons, not_or] at hd
    obtain ⟨⟨hxy, hx⟩, hy, hlive⟩ := hd
    have hdx : ((x :: live).map HufNode.number).Nodup := List.nodup_cons.2 ⟨hx, hlive⟩
    have hdy : ((y :: live).map HufNode.number).Nodup := List.nodup_cons.2 ⟨hy, hlive⟩
    rw [takeLeast] at hz ⊢
    by_cases hb : x.before y = true
    · rw [if_pos hb] at hz ⊢
      rcases List.mem_cons.1 hz with rfl | hz
      · exact least x z hdx hb
      · exact ih x hdx z hz
    · rw [if_neg hb] at hz ⊢
      rcases List.mem_cons.1 hz with rfl | hz
      · exact least y z hdy (HufNode.before_of_not hxy hb)
      · exact ih y hdy z hz

/-- A merge takes out the two nodes of least key, the lesser first. -/
theorem hufMerge_step_before (k next : Nat) {x y : HufNode} {live : List HufNode}
    (hd : ((x :: y :: live).map HufNode.number).Nodup) :
    ∃ a b rest, (a :: b :: rest).Perm (x :: y :: live) ∧ a.before b = true ∧ (∀ z ∈ rest, b.before z = true) ∧
      hufMerge (k + 1) next (x :: y :: live) =
        hufMerge k (next + 1) (.inner next (a.weight + b.weight) a b :: rest) := by
  obtain ⟨hperm, -⟩ := takeLeast_spec (y :: live) x
  have hleast := takeLeast_before (y :: live) x hd
  cases hr : (takeLeast x (y :: live)).2 with
  | nil => rw [hr] at hperm; exact absurd hperm.length_eq (by simp)
  | cons z zs =>
    rw [hr] at hperm hleast
    obtain ⟨hperm', -⟩ := takeLeast_spec zs z
    have hdz : ((z :: zs).map HufNode.number).Nodup :=
      (List.nodup_cons.1 ((hperm.map HufNode.number).nodup_iff.2 hd)).2
    refine ⟨_, _, _, (hperm'.cons _).trans hperm, hleast _ (hperm'.mem_iff.1 List.mem_cons_self),
      takeLeast_before zs z hdz, ?_⟩
    rw [hufMerge]
    simp only [hr]

/-! ## The live nodes -/

/-- A node that was live when node `n` was made, and not merged into it: made before `n`, and merged later or still live. -/
def liveAt (L : List HufNode) (n : Nat) (x : HufNode) : Prop :=
  x.number < n ∧ (x ∈ L ∨ ∃ p, (p, x) ∈ L.flatMap HufNode.edges ∧ n < p.number)

/-- What holds of the live nodes and everything under them before node `next` is made. -/
structure HufForest (next : Nat) (L : List HufNode) : Prop where
  distinct : ((L.flatMap HufNode.nodes).map HufNode.number).Nodup
  made : ∀ x ∈ L.flatMap HufNode.nodes, x.number < next
  ordered : ∀ x ∈ L, x.mergeOrdered
  weighed : ∀ x ∈ L, x.weight.toNat = x.mass
  total : (L.map HufNode.mass).sum < 2 ^ 64
  start : 256 ≤ next
  internal : ∀ n w l r, HufNode.inner n w l r ∈ L.flatMap HufNode.nodes → 256 ≤ n
  least : ∀ n w l r, HufNode.inner n w l r ∈ L.flatMap HufNode.nodes → ∀ x, liveAt L n x → r.before x = true

theorem HufNode.self_mem_nodes (t : HufNode) : t ∈ t.nodes := by
  cases t <;> simp [HufNode.nodes]

theorem mem_flatMap_nodes {L : List HufNode} {x : HufNode} (h : x ∈ L) : x ∈ L.flatMap HufNode.nodes :=
  List.mem_flatMap.2 ⟨x, h, x.self_mem_nodes⟩

theorem sublist_flatMap_nodes : ∀ L : List HufNode, List.Sublist L (L.flatMap HufNode.nodes)
  | [] => List.Sublist.refl _
  | x :: L => (List.singleton_sublist.2 x.self_mem_nodes).append (sublist_flatMap_nodes L)

/-- The live nodes have different numbers. -/
theorem HufForest.numbers_nodup {next : Nat} {L : List HufNode} (h : HufForest next L) :
    (L.map HufNode.number).Nodup := h.distinct.sublist ((sublist_flatMap_nodes L).map _)

theorem HufForest.perm {next : Nat} {L M : List HufNode} (h : HufForest next L) (hp : M.Perm L) : HufForest next M := by
  have hnodes := hp.flatMap_right HufNode.nodes
  have hedges := hp.flatMap_right HufNode.edges
  refine ⟨(hnodes.map _).nodup_iff.2 h.distinct, fun x hx => h.made x (hnodes.mem_iff.1 hx),
    fun x hx => h.ordered x (hp.mem_iff.1 hx), fun x hx => h.weighed x (hp.mem_iff.1 hx), ?_, h.start,
    fun n w l r hn => h.internal n w l r (hnodes.mem_iff.1 hn), fun n w l r hn x hx => ?_⟩
  · rw [(hp.map HufNode.mass).sum_eq]
    exact h.total
  · refine h.least n w l r (hnodes.mem_iff.1 hn) x ?_
    simpa only [liveAt, hp.mem_iff, hedges.mem_iff] using hx

section Merge
variable (next : Nat) (w : BitVec 64) (a b : HufNode) (rest : List HufNode)

/-- A merge adds one node. -/
theorem nodes_of_merge : (HufNode.inner next w a b :: rest).flatMap HufNode.nodes =
    .inner next w a b :: (a :: b :: rest).flatMap HufNode.nodes := by
  simp [HufNode.nodes]

/-- A merge adds the two edges of the new node. -/
theorem edges_of_merge : (HufNode.inner next w a b :: rest).flatMap HufNode.edges =
    (.inner next w a b, a) :: (.inner next w a b, b) :: (a :: b :: rest).flatMap HufNode.edges := by
  simp [HufNode.edges]

end Merge

/-- The parent of an edge is a node. -/
theorem HufNode.mem_nodes_of_edge {p x : HufNode} : ∀ {t : HufNode}, (p, x) ∈ t.edges → p ∈ t.nodes := by
  intro t
  induction t with
  | leaf b w => intro h; cases h
  | inner n w l r ihl ihr =>
    intro h
    simp only [HufNode.edges, List.mem_cons, List.mem_append, Prod.mk.injEq] at h
    simp only [HufNode.nodes, List.mem_cons, List.mem_append]
    rcases h with ⟨rfl, -⟩ | ⟨rfl, -⟩ | h | h
    · exact .inl rfl
    · exact .inl rfl
    · exact .inr (.inl (ihl h))
    · exact .inr (.inr (ihr h))

theorem mem_flatMap_nodes_of_edge {L : List HufNode} {p x : HufNode} (h : (p, x) ∈ L.flatMap HufNode.edges) :
    p ∈ L.flatMap HufNode.nodes := by
  obtain ⟨t, ht, hp⟩ := List.mem_flatMap.1 h
  exact List.mem_flatMap.2 ⟨t, ht, HufNode.mem_nodes_of_edge hp⟩

/-- A node that was live when an older node was made was so before the merge that makes `next`. -/
theorem HufForest.liveAt_of_merge {next n : Nat} {w : BitVec 64} {a b x : HufNode} {rest : List HufNode} (hn : n < next)
    (hx : liveAt (.inner next w a b :: rest) n x) : liveAt (a :: b :: rest) n x := by
  obtain ⟨hlt, hx⟩ := hx
  refine ⟨hlt, ?_⟩
  rw [edges_of_merge] at hx
  simp only [List.mem_cons, Prod.mk.injEq] at hx ⊢
  rcases hx with (rfl | hx) | ⟨p, ⟨-, rfl⟩ | ⟨-, rfl⟩ | hp, hnp⟩
  · exact absurd (hlt.trans hn) (Nat.lt_irrefl next)
  · exact .inl (.inr (.inr hx))
  · exact .inl (.inl rfl)
  · exact .inl (.inr (.inl rfl))
  · exact .inr ⟨p, hp, hnp⟩

/-- A node that was live when `next` was made is one of the others. -/
theorem HufForest.liveAt_next {next : Nat} {w : BitVec 64} {a b x : HufNode} {rest : List HufNode}
    (h : HufForest next (a :: b :: rest)) (hx : liveAt (.inner next w a b :: rest) next x) : x ∈ rest := by
  obtain ⟨hlt, hx⟩ := hx
  rw [edges_of_merge] at hx
  simp only [List.mem_cons, Prod.mk.injEq] at hx
  rcases hx with (rfl | hx) | ⟨p, ⟨rfl, -⟩ | ⟨rfl, -⟩ | hp, hnp⟩
  · exact absurd hlt (Nat.lt_irrefl next)
  · exact hx
  · exact absurd hnp (Nat.lt_irrefl next)
  · exact absurd hnp (Nat.lt_irrefl next)
  · exact absurd (h.made p (mem_flatMap_nodes_of_edge hp)) (Nat.lt_asymm hnp)

/-- A merge by the rule keeps what holds of the live nodes. -/
theorem HufForest.merge {next : Nat} {a b : HufNode} {rest : List HufNode} (h : HufForest next (a :: b :: rest))
    (hab : a.before b = true) (hrest : ∀ z ∈ rest, b.before z = true) :
    HufForest (next + 1) (.inner next (a.weight + b.weight) a b :: rest) := by
  have ha : a ∈ a :: b :: rest := by simp
  have hb : b ∈ a :: b :: rest := by simp
  have htotal := h.total
  have hwa := h.weighed a ha
  have hwb := h.weighed b hb
  simp only [List.map_cons, List.sum_cons] at htotal
  have hweight : (a.weight + b.weight).toNat = a.weight.toNat + b.weight.toNat := by
    rw [BitVec.toNat_add, Nat.mod_eq_of_lt (by omega)]
  refine ⟨?distinct, ?made, ?ordered, ?weighed, ?total, Nat.le_succ_of_le h.start, ?internal, ?least⟩
  case distinct =>
    rw [nodes_of_merge, List.map_cons, List.nodup_cons]
    refine ⟨fun hmem => ?_, h.distinct⟩
    obtain ⟨x, hx, hnumber⟩ := List.mem_map.1 hmem
    exact absurd hnumber (Nat.ne_of_lt (h.made x hx))
  case made =>
    rw [nodes_of_merge]
    intro x hx
    rcases List.mem_cons.1 hx with rfl | hx
    · exact Nat.lt_succ_self next
    · exact Nat.lt_succ_of_lt (h.made x hx)
  case ordered =>
    intro x hx
    rcases List.mem_cons.1 hx with rfl | hx
    · exact ⟨hab, hweight, h.made a (mem_flatMap_nodes ha), h.made b (mem_flatMap_nodes hb), h.ordered a ha,
        h.ordered b hb⟩
    · exact h.ordered x (by simp [hx])
  case weighed =>
    intro x hx
    rcases List.mem_cons.1 hx with rfl | hx
    · rw [HufNode.mass_inner, ← hwa, ← hwb]
      exact hweight
    · exact h.weighed x (by simp [hx])
  case total =>
    rw [List.map_cons, List.sum_cons, HufNode.mass_inner]
    omega
  case internal =>
    intro n w l r hn
    rw [nodes_of_merge] at hn
    rcases List.mem_cons.1 hn with hnew | hn
    · cases hnew; exact h.start
    · exact h.internal n w l r hn
  case least =>
    intro n w l r hn x hx
    rw [nodes_of_merge] at hn
    rcases List.mem_cons.1 hn with hnew | hn
    · cases hnew; exact hrest x (h.liveAt_next hx)
    · exact h.least n w l r hn x (HufForest.liveAt_of_merge (h.made _ hn) hx)

/-! ## The tree -/

/-- Merging ends in a tree of which all this holds. -/
theorem hufMerge_forest : ∀ (k next : Nat) {L : List HufNode} {t : HufNode}, HufForest next L → L.length ≤ k + 1 →
    hufMerge k next L = some t → ∃ m, HufForest m [t] := by
  intro k
  induction k with
  | zero =>
    intro next L t hL hlen h
    match L, h with
    | [x], h => cases h; exact ⟨next, hL⟩
    | _ :: _ :: _, _ => simp at hlen
  | succ k ih =>
    intro next L t hL hlen h
    match L, h with
    | [x], h => cases h; exact ⟨next, hL⟩
    | x :: y :: live, h =>
      obtain ⟨a, b, rest, hperm, hab, hrest, hstep⟩ := hufMerge_step_before k next hL.numbers_nodup
      have hcount := hperm.length_eq
      simp only [List.length_cons] at hcount hlen
      rw [hstep] at h
      exact ih (next + 1) ((hL.perm hperm).merge hab hrest) (by rw [List.length_cons]; omega) h

/-- Each merge numbers one node, so the last of them is known (R166). -/
theorem hufMerge_number : ∀ (k next : Nat) {L : List HufNode} {t : HufNode}, 2 ≤ L.length → L.length ≤ k + 1 →
    hufMerge k next L = some t → t.number + 2 = next + L.length := by
  intro k
  induction k with
  | zero => intro next L t htwo hlen; omega
  | succ k ih =>
    intro next L t htwo hlen h
    match L, htwo, h with
    | x :: y :: live, _, h =>
      obtain ⟨a, b, rest, hperm, -, -, hstep⟩ := hufMerge_step k next x y live
      have hcount := hperm.length_eq
      simp only [List.length_cons] at hcount hlen ⊢
      rw [hstep] at h
      cases rest with
      | nil =>
        rw [hufMerge] at h
        cases h
        simp only [HufNode.number, List.length_nil] at hcount ⊢
        omega
      | cons z zs =>
        have hnumber := ih (next + 1) (by simp) (by simp only [List.length_cons] at hcount ⊢; omega) h
        simp only [List.length_cons] at hcount hnumber
        omega

/-- The live nodes before any merge are leaves. -/
theorem mem_hufLeaves {F : FreqTable} {x : HufNode} (h : x ∈ hufLeaves F) : ∃ b w, x = .leaf b w := by
  obtain ⟨e, -, rfl⟩ := List.mem_map.1 h
  exact ⟨_, _, rfl⟩

theorem hufLeaves_nodes (F : FreqTable) : (hufLeaves F).flatMap HufNode.nodes = hufLeaves F := by
  have hself : ∀ x ∈ hufLeaves F, x.nodes = [x] := fun x hx => by
    obtain ⟨b, w, rfl⟩ := mem_hufLeaves hx
    rfl
  rw [List.flatMap_congr hself, List.flatMap_singleton']

theorem hufLeaves_numbers (F : FreqTable) : (hufLeaves F).map HufNode.number = F.occurring.map BitVec.toNat := by
  rw [hufLeaves, FreqTable.occurring, List.map_map, List.map_map]
  rfl

theorem sum_occurring_entries (F : FreqTable) : ((F.entries.filter fun e => e.2 ≠ 0).map Prod.snd).sum = F.total := by
  rw [sum_entries F Prod.snd fun _ h => h, FreqTable.entries_eq, List.map_map, FreqTable.total_eq]
  rfl

theorem hufLeaves_mass (F : FreqTable) : ((hufLeaves F).map HufNode.mass).sum = F.total := by
  rw [← sum_occurring_entries, ← hufLeaves_leaves]
  induction hufLeaves F with
  | nil => rfl
  | cons x L ih => rw [List.map_cons, List.sum_cons, ih, List.flatMap_cons, List.map_append, List.sum_append]; rfl

theorem hufLeaves_forest (F : FreqTable) : HufForest 256 (hufLeaves F) := by
  refine ⟨?distinct, ?made, ?ordered, ?weighed, ?total, le_rfl, ?internal, ?least⟩
  case distinct =>
    rw [hufLeaves_nodes, hufLeaves_numbers]
    exact F.occurring_nodup.map fun _ _ => BitVec.eq_of_toNat_eq
  case made =>
    rw [hufLeaves_nodes]
    intro x hx
    obtain ⟨b, w, rfl⟩ := mem_hufLeaves hx
    exact b.isLt
  case ordered =>
    intro x hx
    obtain ⟨b, w, rfl⟩ := mem_hufLeaves hx
    trivial
  case weighed =>
    intro x hx
    obtain ⟨b, w, rfl⟩ := mem_hufLeaves hx
    exact (HufNode.mass_leaf b w).symm
  case total =>
    rw [hufLeaves_mass]
    exact F.total_lt
  case internal =>
    rw [hufLeaves_nodes]
    intro n w l r hn
    obtain ⟨b, v, hleaf⟩ := mem_hufLeaves hn
    cases hleaf
  case least =>
    rw [hufLeaves_nodes]
    intro n w l r hn
    obtain ⟨b, v, hleaf⟩ := mem_hufLeaves hn
    cases hleaf

theorem hufTree_forest {F : FreqTable} {t : HufNode} (h : hufTree F = some t) : ∃ m, HufForest m [t] :=
  hufMerge_forest 255 256 (hufLeaves_forest F) (hufLeaves_length F) h

theorem hufTree_numbers_nodup {F : FreqTable} {t : HufNode} (h : hufTree F = some t) :
    (t.nodes.map HufNode.number).Nodup := by
  obtain ⟨m, hforest⟩ := hufTree_forest h
  simpa using hforest.distinct

theorem hufTree_mass {F : FreqTable} {t : HufNode} (h : hufTree F = some t) : t.mass = F.total := by
  rw [HufNode.mass, ((hufTree_leaves h).map Prod.snd).sum_eq, sum_occurring_entries]

/-- The entries above 0, each by its symbol. -/
theorem mem_occurring_entries (F : FreqTable) (b : Byte) (n : Nat) :
    (b, n) ∈ F.entries.filter (fun e => e.2 ≠ 0) ↔ F.at b ≠ 0 ∧ n = F.at b := by
  rw [FreqTable.entries_eq, List.mem_filter, List.mem_map]
  constructor
  · rintro ⟨⟨c, -, hc⟩, hn⟩
    obtain ⟨rfl, rfl⟩ := Prod.mk.inj hc
    exact ⟨by simpa using hn, rfl⟩
  · rintro ⟨hb, rfl⟩
    exact ⟨⟨b, mem_allBytes b, rfl⟩, by simpa using hb⟩

/-- Settles O23: what holds of the live nodes through every merge holds of the root left alone. -/
theorem everyTreeNodeFollowsTheMergeRule : Obligations.EveryTreeNodeFollowsTheMergeRule := by
  intro F t ht
  obtain ⟨m, hforest⟩ := hufTree_forest ht
  refine ⟨hforest.ordered t (by simp), fun b w => ?leaves, hufTree_numbers_nodup ht, fun n w l r hn => ?inner, ?weight,
    fun htwo => ?number⟩
  case leaves => rw [HufNode.leaf_mem_nodes, (hufTree_leaves ht).mem_iff, mem_occurring_entries]
  case inner =>
    have hmem : HufNode.inner n w l r ∈ [t].flatMap HufNode.nodes := by simpa using hn
    refine ⟨hforest.internal n w l r hmem, fun p x hedge hx hp => hforest.least n w l r hmem x ⟨hx, .inr ⟨p, ?_, hp⟩⟩⟩
    simpa using hedge
  case weight => rw [hforest.weighed t (by simp), hufTree_mass ht]
  case number =>
    have hnumber := hufMerge_number 255 256 (by rw [hufLeaves_length_eq]; exact htwo) (hufLeaves_length F) ht
    rw [hufLeaves_length_eq] at hnumber
    omega

end Sys2Proof.Machine
end

section
/-!
The lookup table (spec/41_huffman.md R178 to R180): where the walk of an entry stops, decoding by lookup against the tree
walk, and `HUF_BUILD`.
-/
namespace Sys2Proof.Machine

/-! ## The index of a lookup (R179) -/

/-- The bits of a number made of bits are those bits. -/
theorem indexBits_natOfBits (bs : Bits) : indexBits bs.length (natOfBits bs) = bs := by
  refine List.ext_getElem (by simp [indexBits]) fun j _ hj => ?_
  simp only [indexBits, List.getElem_map, List.getElem_range]
  rw [natOfBits_testBit_index hj, List.getD_eq_getElem _ _ hj]

@[simp] theorem indexBits_length (n w : Nat) : (indexBits n w).length = n := by simp [indexBits]

/-- The first bits of a stream, with zeros past its end. -/
theorem map_getD_range (n : Nat) (bs : Bits) :
    (List.range n).map (fun j => bs.getD j false) = (bs ++ List.replicate n false).take n := by
  refine List.ext_getElem (by simp) fun j hj _ => ?_
  rw [List.length_map, List.length_range] at hj
  rw [List.getElem_map, List.getElem_range, List.getElem_take, List.getElem_append]
  split
  · rename_i hlt
    rw [List.getD_eq_getElem _ _ hlt]
  · rename_i hge
    rw [List.getD_eq_default _ _ (Nat.not_lt.1 hge), List.getElem_replicate]

/-- The index holds the next twelve bits of the stream, zeros past its end. -/
theorem indexBits_lutIndex (bs : Bits) : indexBits 12 (lutIndex bs) = (bs ++ List.replicate 12 false).take 12 := by
  have hindex := indexBits_natOfBits ((List.range 12).map fun j => bs.getD j false)
  rw [List.length_map, List.length_range] at hindex
  rw [lutIndex, Config.hufLutBits, hindex, map_getD_range]

theorem lutIndex_lt (bs : Bits) : lutIndex bs < 4096 := by
  have hlt := natOfBits_lt ((List.range 12).map fun j => bs.getD j false)
  rwa [List.length_map, List.length_range] at hlt

/-! ## The entries (R178) -/

/-- A walk over index bits follows a part of them, and goes on to the end unless it meets a leaf. -/
theorem HufNode.lutWalk_spec : ∀ (bs : Bits) (t : HufNode) (used : Nat), ∃ p rest, bs = p ++ rest ∧
    t.descend p = some (t.lutWalk bs used).1 ∧ (t.lutWalk bs used).2 = used + p.length ∧
    (rest = [] ∨ ∃ b w, (t.lutWalk bs used).1 = .leaf b w)
  | bs, .leaf b w, used => ⟨[], bs, rfl, by rw [HufNode.lutWalk]; rfl, by rw [HufNode.lutWalk]; rfl,
      .inr ⟨b, w, by rw [HufNode.lutWalk]⟩⟩
  | [], .inner _ _ _ _, _ => ⟨[], [], rfl, rfl, rfl, .inl rfl⟩
  | false :: bs, .inner _ _ l _, used => by
    obtain ⟨p, rest, rfl, hx, hused, hstop⟩ := HufNode.lutWalk_spec bs l (used + 1)
    exact ⟨false :: p, rest, rfl, hx, hused.trans (by rw [List.length_cons]; omega), hstop⟩
  | true :: bs, .inner _ _ _ r, used => by
    obtain ⟨p, rest, rfl, hx, hused, hstop⟩ := HufNode.lutWalk_spec bs r (used + 1)
    exact ⟨true :: p, rest, rfl, hx, hused.trans (by rw [List.length_cons]; omega), hstop⟩

/-- An entry names the node that a part of the index bits leads to, and the length of that part: all of the index, unless
the node is a leaf. -/
theorem lutEntry_spec (t : HufNode) (w : Nat) : ∃ x p rest, indexBits 12 w = p ++ rest ∧ t.descend p = some x ∧
    lutEntry t w = ⟨x.number, p.length⟩ ∧ (rest = [] ∨ ∃ b v, x = .leaf b v) := by
  obtain ⟨p, rest, hbits, hx, hused, hstop⟩ := HufNode.lutWalk_spec (indexBits 12 w) t 0
  refine ⟨_, p, rest, hbits, hx, ?_, hstop⟩
  rw [Nat.zero_add] at hused
  rw [← hused]
  rfl

theorem lutTable_inner (d n : Nat) (w : BitVec 64) (l r : HufNode) : lutTable d (some (.inner n w l r)) =
    (List.range (2 ^ Config.hufLutBits)).map (lutEntry (.inner n w l r)) := rfl

/-- With two symbols or more the table has an entry for each index. -/
theorem lutTable_getElem? {F : FreqTable} {t : HufNode} (htwo : 2 ≤ F.occurring.length) (ht : hufTree F = some t)
    (d : Nat) {w : Nat} (hw : w < 4096) : (lutTable d (some t))[w]? = some (lutEntry t w) := by
  obtain ⟨n, v, l, r, hroot⟩ := hufTree_of_two htwo
  obtain rfl : t = .inner n v l r := Option.some.inj (ht.symm.trans hroot)
  rw [lutTable_inner, List.getElem?_map, List.getElem?_range (show w < 2 ^ Config.hufLutBits from hw), Option.map_some]

theorem lutTable_length {F : FreqTable} (htwo : 2 ≤ F.occurring.length) (d : Nat) :
    (lutTable d (hufTree F)).length = 4096 := by
  obtain ⟨n, v, l, r, ht⟩ := hufTree_of_two htwo
  rw [ht, lutTable_inner, List.length_map, List.length_range]
  rfl

/-- A path that goes on from the path to a leaf is that path. -/
theorem HufNode.descend_of_leaf_prefix {t x : HufNode} {p q : Bits} {b : Byte} {v : BitVec 64}
    (hq : t.descend q = some (.leaf b v)) (hp : t.descend p = some x) (h : q <+: p) : p = q ∧ x = .leaf b v := by
  obtain ⟨u, rfl⟩ := h
  rw [HufNode.descend_append, hq, Option.bind_some] at hp
  obtain ⟨rfl, hx⟩ := HufNode.descend_leaf hp
  exact ⟨List.append_nil q, hx⟩

/-- The entry of an index that starts with the code of a symbol: the symbol and the code's length. -/
theorem lutEntry_of_code {F : FreqTable} {t : HufNode} {b : Byte} {w : Nat} (htwo : 2 ≤ F.occurring.length)
    (ht : hufTree F = some t) (hb : F.at b ≠ 0) (hcode : codeOf F b <+: indexBits 12 w) :
    lutEntry t w = ⟨b.toNat, (codeOf F b).length⟩ := by
  obtain ⟨v, hleaf⟩ := HufNode.descend_path (path_eq_codeOf htwo ht hb)
  obtain ⟨x, p, rest, hbits, hx, hentry, hstop⟩ := lutEntry_spec t w
  have hsame : p = codeOf F b ∧ x = .leaf b v := by
    rcases hstop with rfl | ⟨c, u, rfl⟩
    · rw [hbits, List.append_nil] at hcode
      exact HufNode.descend_of_leaf_prefix hleaf hx hcode
    · have hp : p <+: indexBits 12 w := ⟨rest, hbits.symm⟩
      rcases List.prefix_or_prefix_of_prefix hcode hp with hprefix | hprefix
      · exact HufNode.descend_of_leaf_prefix hleaf hx hprefix
      · obtain ⟨hpath, hnode⟩ := HufNode.descend_of_leaf_prefix hx hleaf hprefix
        exact ⟨hpath.symm, hnode.symm⟩
  obtain ⟨rfl, rfl⟩ := hsame
  exact hentry

/-- The entry of an index that starts with no code: the internal node that its twelve bits lead to. -/
theorem lutEntry_of_no_code {F : FreqTable} {t : HufNode} {w : Nat} (htwo : 2 ≤ F.occurring.length)
    (ht : hufTree F = some t) (hcode : ∀ b, F.at b ≠ 0 → ¬ codeOf F b <+: indexBits 12 w) :
    ∃ n g l r, t.descend (indexBits 12 w) = some (.inner n g l r) ∧ lutEntry t w = ⟨n, 12⟩ := by
  obtain ⟨x, p, rest, hbits, hx, hentry, hstop⟩ := lutEntry_spec t w
  cases x with
  | leaf b v =>
    have hpath := HufNode.path_of_descend (hufTree_leaves_nodup ht) hx
    have hb := (mem_hufTree_symbols ht b).1 (HufNode.exists_path_iff.1 ⟨p, hpath⟩)
    have hp : codeOf F b = p := Option.some.inj ((path_eq_codeOf htwo ht hb).symm.trans hpath)
    exact absurd ⟨rest, by rw [hp, hbits]⟩ (hcode b hb)
  | inner n g l r =>
    obtain rfl : rest = [] := hstop.resolve_right (by rintro ⟨b, v, hleaf⟩; cases hleaf)
    rw [List.append_nil] at hbits
    rw [← hbits] at hx hentry
    rw [indexBits_length] at hentry
    exact ⟨n, g, l, r, hx, hentry⟩

/-! ## Finding a node by its number -/

theorem HufNode.find_eq_some {n : Nat} {x : HufNode} : ∀ {t : HufNode}, t.find n = some x → x ∈ t.nodes ∧ x.number = n := by
  intro t
  induction t with
  | leaf b w =>
    intro h
    rw [HufNode.find] at h
    split at h
    · rename_i hb
      cases h
      exact ⟨HufNode.self_mem_nodes _, hb⟩
    · cases h
  | inner m w l r ihl ihr =>
    intro h
    rw [HufNode.find] at h
    split at h
    · rename_i hm
      cases h
      exact ⟨HufNode.self_mem_nodes _, hm⟩
    · split at h
      · rename_i y hy
        cases h
        obtain ⟨hmem, hnumber⟩ := ihl hy
        exact ⟨by simp [HufNode.nodes, hmem], hnumber⟩
      · obtain ⟨hmem, hnumber⟩ := ihr h
        exact ⟨by simp [HufNode.nodes, hmem], hnumber⟩

theorem HufNode.exists_find {x : HufNode} : ∀ {t : HufNode}, x ∈ t.nodes → ∃ y, t.find x.number = some y := by
  intro t
  induction t with
  | leaf b w =>
    intro h
    obtain rfl := List.mem_singleton.1 h
    exact ⟨_, if_pos rfl⟩
  | inner m w l r ihl ihr =>
    intro h
    rw [HufNode.find]
    split
    · exact ⟨_, rfl⟩
    · rename_i hne
      rw [HufNode.nodes, List.mem_cons, List.mem_append] at h
      rcases h with rfl | h | h
      · exact absurd rfl hne
      · obtain ⟨y, hy⟩ := ihl h
        exact ⟨y, by rw [hy]⟩
      · cases l.find x.number with
        | some y => exact ⟨y, rfl⟩
        | none => exact ihr h

/-- Where the numbers are all different, a node's number finds it. -/
theorem HufNode.find_number {t x : HufNode} (hd : (t.nodes.map HufNode.number).Nodup) (h : x ∈ t.nodes) :
    t.find x.number = some x := by
  obtain ⟨y, hy⟩ := HufNode.exists_find h
  obtain ⟨hmem, hnumber⟩ := HufNode.find_eq_some hy
  rw [hy, List.inj_on_of_nodup_map hd hmem h hnumber]

/-! ## Decoding by lookup (R180) -/

/-- One symbol by lookup is one symbol by the walk: the bits of the entry are bits of the stream, or the walk runs out
among them. -/
theorem lutStep_eq_walk {F : FreqTable} {t : HufNode} (htwo : 2 ≤ F.occurring.length) (ht : hufTree F = some t)
    (d : Nat) (bs : Bits) : lutStep t (lutTable d (some t)) bs = t.walk bs := by
  obtain ⟨x, p, rest, hbits, hx, hentry, -⟩ := lutEntry_spec t (lutIndex bs)
  have hfind := HufNode.find_number (hufTree_numbers_nodup ht) (HufNode.mem_nodes_of_descend hx)
  have hp : p <+: bs ++ List.replicate 12 false := by
    rw [indexBits_lutIndex] at hbits
    exact List.IsPrefix.trans ⟨rest, hbits.symm⟩ (List.take_prefix _ _)
  rw [lutStep, lutTable_getElem? htwo ht d (lutIndex_lt bs), hentry]
  rcases Nat.lt_or_ge bs.length p.length with hlt | hge
  · obtain ⟨u, rfl⟩ := List.prefix_of_prefix_length_le (List.prefix_append bs _) hp (Nat.le_of_lt hlt)
    cases u with
    | nil => exact absurd hlt (by simp)
    | cons c q => exact (if_pos hlt).trans (HufNode.walk_of_lt_path hx).symm
  · obtain ⟨u, rfl⟩ := List.prefix_of_prefix_length_le hp (List.prefix_append bs _) hge
    simp only [hfind, Nat.not_lt.2 hge, if_false, List.drop_left]
    exact (HufNode.walk_append u hx).symm

/-- Settles O30: the two loops take the same step for each symbol. -/
theorem lookupDecodingEqualsTheTreeWalk : Obligations.LookupDecodingEqualsTheTreeWalk := by
  intro F t d n i bs htwo ht
  induction n generalizing i bs with
  | zero => rfl
  | succ n ih =>
    rw [lutDecodeLoop, hufDecodeLoop, lutStep_eq_walk htwo ht]
    simp only [ih]

/-! ## `HUF_BUILD` (R168) -/

/-- Settles O21: the tables hold the code, and an entry of `LUT` is that of a code or of an internal node. -/
theorem hufBuildMakesAPrefixFreeCode : Obligations.HufBuildMakesAPrefixFreeCode := by
  intro s herr
  refine ⟨_, exec_hufBuild herr, ⟨rfl, herr⟩, ?_⟩
  have hcode : (s.accept.hufBuild.setCursors 0 0 0).complete.holdsCode s.freq :=
    State.holdsCode_of_hufBuild (s := s.accept) rfl rfl
  simp only [hcode.tableCode]
  refine ⟨fun _ => trivial, fun b j => hcode.codeBit_beyond, codeOf_eq_nil_iff s.freq,
    fun b c => codeOf_not_prefix, fun b => codeOf_of_single, fun htwo => ⟨lutTable_length htwo _, fun w hw => ?lut⟩, rfl,
    ⟨rfl, rfl, rfl⟩, ⟨rfl, rfl, rfl, rfl, rfl, rfl, rfl, rfl⟩, rfl, rfl, rfl, ⟨⟨rfl, rfl, rfl⟩, rfl, rfl⟩,
    fun _ => rfl⟩
  case lut =>
    obtain ⟨n, v, l, r, ht⟩ := hufTree_of_two htwo
    have hentry := lutTable_getElem? htwo ht s.accept.draw hw
    rw [← ht] at hentry
    refine ⟨fun b hb hprefix => hentry.trans (congrArg some (lutEntry_of_code htwo ht hb hprefix)), fun hnone => ?_⟩
    obtain ⟨n', g, l', r', hx, hnode⟩ := lutEntry_of_no_code htwo ht hnone
    exact ⟨_, n', g, l', r', ht, hx, hentry.trans (congrArg some hnode)⟩

end Sys2Proof.Machine
end

section
/-!
The cumulative table (spec/42_range_coder.md R201 to R203): its sums entry by entry, the table check of the three commands
of the range coder, and `RC_BUILD`.
-/
namespace Sys2Proof.Machine

/-! ## The sums (R201) -/

theorem cumulative_zero (F : FreqTable) (hT : F.total < 2 ^ 32) : CumTable.at F.cumulative 0 = 0 := by
  rw [cumulative_at F 0 (Nat.zero_le _) hT, List.take_zero, List.sum_nil]

/-- Each entry is the one before it with its symbol's frequency. -/
theorem cumulative_succ (F : FreqTable) (hT : F.total < 2 ^ 32) (b : Byte) :
    CumTable.at F.cumulative (b.toNat + 1) = CumTable.at F.cumulative b.toNat + F.at b := by
  have hb : b.toNat < 256 := b.isLt
  have hcount : F.counts[b.toNat]'(by simpa using hb) = F.at b := by simp [FreqTable.counts, FreqTable.at]
  rw [cumulative_at F _ (by omega) hT, cumulative_at F _ (by omega) hT,
    List.sum_take_succ F.counts b.toNat (by simpa using hb), hcount]

theorem cumulative_last (F : FreqTable) (hT : F.total < 2 ^ 32) : CumTable.at F.cumulative 256 = F.total := by
  rw [cumulative_at F 256 (Nat.le_refl _) hT, List.take_of_length_le (by simp), FreqTable.total]

/-! ## Tables that pass the check (R202) -/

theorem rcAccepts_iff (F : FreqTable) : rcAccepts F ↔ rcTableOk F = true := (rcTableOk_iff F).symm

section Accepted
variable {F : FreqTable} (hF : rcAccepts F)
include hF

theorem rcAccepts.total_lt : F.total < 2 ^ 32 := by
  obtain ⟨-, hT⟩ := hF
  omega

/-- With no zero entry the table rises at each symbol. -/
theorem rcAccepts.cumulative_lt_succ {k : Nat} (hk : k < 256) :
    CumTable.at F.cumulative k < CumTable.at F.cumulative (k + 1) := by
  have hsucc := cumulative_succ F hF.total_lt (BitVec.ofNat 8 k)
  rw [BitVec.toNat_ofNat, Nat.mod_eq_of_lt (by omega)] at hsucc
  have hpos := hF.1 (BitVec.ofNat 8 k)
  omega

theorem rcAccepts.cumulative_lt {j k : Nat} (hjk : j < k) (hk : k ≤ 256) :
    CumTable.at F.cumulative j < CumTable.at F.cumulative k := by
  induction k, hjk using Nat.le_induction with
  | base => exact hF.cumulative_lt_succ hk
  | succ k hjk ih => exact (ih (by omega)).trans (hF.cumulative_lt_succ hk)

theorem rcAccepts.cumulative_le {j k : Nat} (hjk : j ≤ k) (hk : k ≤ 256) :
    CumTable.at F.cumulative j ≤ CumTable.at F.cumulative k := by
  rcases hjk.eq_or_lt with rfl | hjk
  · exact Nat.le_refl _
  · exact (hF.cumulative_lt hjk hk).le

/-- A table that rises at each symbol is at least the index. -/
theorem rcAccepts.le_cumulative {k : Nat} (hk : k ≤ 256) : k ≤ CumTable.at F.cumulative k := by
  induction k with
  | zero => exact Nat.zero_le _
  | succ k ih =>
    have hrise := hF.cumulative_lt_succ (k := k) (by omega)
    have hle := ih (by omega)
    omega

theorem rcAccepts.total_pos : 0 < CumTable.at F.cumulative 256 :=
  Nat.lt_of_lt_of_le (by decide) (hF.le_cumulative (Nat.le_refl _))

/-- The interval of the table that holds a number is one symbol's alone. -/
theorem rcAccepts.symbol_unique {a b : Byte} {target : Nat} (ha : CumTable.at F.cumulative a.toNat ≤ target)
    (ha' : target < CumTable.at F.cumulative (a.toNat + 1)) (hb : CumTable.at F.cumulative b.toNat ≤ target)
    (hb' : target < CumTable.at F.cumulative (b.toNat + 1)) : a = b := by
  have hle : ∀ {c d : Byte}, CumTable.at F.cumulative c.toNat ≤ target →
      target < CumTable.at F.cumulative (d.toNat + 1) → c.toNat ≤ d.toNat := by
    intro c d hc hd
    by_contra hlt
    have hmono := hF.cumulative_le (j := d.toNat + 1) (k := c.toNat) (by omega) (by omega)
    omega
  exact BitVec.eq_of_toNat_eq (Nat.le_antisymm (hle ha hb') (hle hb ha'))

end Accepted

/-! ## The commands (R202, R203) -/

theorem rcTableOk_of_bad {F : FreqTable} (h : (∃ b, F.at b = 0) ∨ 0xFFFFFFFF < F.total) : rcTableOk F = false := by
  refine Bool.eq_false_iff.2 fun hok => ?_
  obtain ⟨hpos, hT⟩ := (rcAccepts_iff F).2 hok
  rcases h with ⟨b, hb⟩ | h
  · exact hpos b hb
  · omega

/-- An operation that raises ends in the record of what it raised (R342). -/
theorem State.finish_faulted {s : State} {fp : Footprint} {r : Except Raise State} {e : Raise} (h : r = .error e) :
    (s.finish fp r).faulted e.kind e.info := by
  rw [h, State.finish_error]
  exact State.takeFault_faulted _ _ _

theorem exec_rcBuild {s : State} (herr : s.error = false) :
    exec .rcBuild s = .next (s.accept.finish rcBuildFootprint (rcBuildOp s.accept)) :=
  congrArg Host.Outcome.next (State.command_of_ok _ herr)

theorem exec_rcEncode {s : State} (herr : s.error = false) (hin : s.inLen.toNat ≤ Config.inCap) :
    exec .rcEncode s = .next (s.accept.finish rcEncodeFootprint (rcEncodeOp [] s.accept)) := by
  refine congrArg Host.Outcome.next ?_
  rw [State.command_of_ok _ herr, State.withInput_of_le (s := s.accept) _ hin]

theorem exec_rcDecode {s : State} (herr : s.error = false) (hin : s.inLen.toNat ≤ Config.inCap)
    (hcount : s.expectedCount.toNat ≤ Config.outCap) :
    exec .rcDecode s = .next (s.accept.finish rcDecodeFootprint (rcDecodeOp s.input s.accept)) := by
  refine congrArg Host.Outcome.next ?_
  rw [State.command_of_ok _ herr, State.withInput_of_le (s := s.accept) _ hin,
    State.withCount_of_le (s := s.accept) _ hcount]
  rfl

/-- With an accepted table `RC_BUILD` completes (R203). -/
theorem exec_rcBuild_done {s : State} (herr : s.error = false) (hF : rcAccepts s.freq) :
    exec .rcBuild s = .next (s.accept.rcBuild.setCursors 0 0 0).complete := by
  rw [exec_rcBuild herr]
  rcases rcBuildOp_cases s.accept with ⟨hbad, -⟩ | ⟨-, hop⟩
  · exact nomatch hbad.symm.trans ((rcAccepts_iff s.freq).1 hF)
  · rw [hop, State.finish_ok]

/-- A table that fails the check stops each operation of the range coder. -/
theorem rcOps_of_bad {s : State} (hbad : rcTableOk s.freq = false) (pre P : List Byte) :
    rcBuildOp s = .error formatError ∧ rcEncodeOp pre s = .error formatError ∧ rcDecodeOp P s = .error formatError := by
  refine ⟨?build, ?encode, ?decode⟩
  case build => exact (rcBuildOp_cases s).elim (·.2) fun h => nomatch hbad.symm.trans h.1
  case encode => exact (rcEncodeOp_cases pre s).elim (·.2) fun h => nomatch hbad.symm.trans h.1
  case decode => exact (rcDecodeOp_cases P s).elim (·.2) fun h => nomatch hbad.symm.trans h.1

/-- Settles O31: the check stands first in each operation; the sums rise strictly and end with the total. -/
theorem rangeCoderChecksItsTable : Obligations.RangeCoderChecksItsTable := by
  refine ⟨fun s herr hbad i hi hin hcount => ?checks, fun s t herr hF hexec => ?sums⟩
  case checks =>
    obtain ⟨hbuild, hencode, hdecode⟩ := rcOps_of_bad (s := s.accept) (rcTableOk_of_bad hbad) [] s.input
    simp only [List.mem_cons, List.not_mem_nil, or_false] at hi
    rcases hi with rfl | rfl | rfl
    · exact ⟨_, exec_rcBuild herr, State.finish_faulted hbuild⟩
    · exact ⟨_, exec_rcEncode herr (hin (by decide)), State.finish_faulted hencode⟩
    · exact ⟨_, exec_rcDecode herr (hin (by decide)) (hcount rfl), State.finish_faulted hdecode⟩
  case sums =>
    obtain rfl := Host.Outcome.next.inj ((exec_rcBuild_done herr hF).symm.trans hexec)
    have hlast := cumulative_last s.freq hF.total_lt
    exact ⟨fun j k hjk hk => hF.cumulative_lt hjk hk, hF.le_cumulative (Nat.le_refl _), hlast.trans_le hF.2, hlast⟩

/-- Settles O32: only `CUM` and the cursors are written. -/
theorem rcBuildFormsThePrefixSums : Obligations.RcBuildFormsThePrefixSums := fun s herr hF =>
  ⟨_, exec_rcBuild_done herr hF, ⟨rfl, herr⟩, cumulative_zero s.freq hF.total_lt, cumulative_succ s.freq hF.total_lt,
    ⟨rfl, rfl, rfl⟩, ⟨rfl, rfl, rfl, rfl, rfl, rfl, rfl, rfl⟩, rfl, ⟨rfl, rfl, rfl, rfl⟩, rfl,
    ⟨⟨rfl, rfl, rfl⟩, rfl, rfl⟩, fun _ => rfl⟩

end Sys2Proof.Machine
end

section
/-!
The interval of the range coder (spec/42_range_coder.md R204 to R207, R224, R225): what a narrowing leaves, when it leaves a
width, and the symbol that the decoder's search finds.
-/
namespace Sys2Proof.Machine

/-! ## Bounds (R204) -/

/-- The bounds of an interval that a narrowing leaves (R205): 32-bit, of at least two values. -/
structure RcOpen (low high : Nat) : Prop where
  lt : low < high
  top : high ≤ Config.rcTop

/-! ## The search (R224) -/

/-- The binary search halves a range that holds the target until one symbol is left. -/
theorem rcSearch_spec (C : CumTable) (target : Nat) : ∀ (n lo hi : Nat), lo < hi → hi - lo ≤ 2 ^ n →
    C.at lo ≤ target → target < C.at hi →
    rcSearch C target n lo hi < hi ∧ C.at (rcSearch C target n lo hi) ≤ target ∧
      target < C.at (rcSearch C target n lo hi + 1) := by
  intro n
  induction n with
  | zero =>
    intro lo hi hlt hsize hlo hhi
    obtain rfl : hi = lo + 1 := by omega
    exact ⟨hlt, hlo, hhi⟩
  | succ n ih =>
    intro lo hi hlt hsize hlo hhi
    rw [rcSearch]
    by_cases hone : 1 < hi - lo
    · rw [if_pos hone]
      by_cases hmid : C.at ((lo + hi) / 2) ≤ target
      · rw [if_pos hmid]
        exact ih _ _ (by omega) (by omega) hmid hhi
      · rw [if_neg hmid]
        obtain ⟨hbound, hspec⟩ := ih lo ((lo + hi) / 2) (by omega) (by omega) hlo (by omega)
        exact ⟨by omega, hspec⟩
    · rw [if_neg hone]
      obtain rfl : hi = lo + 1 := by omega
      exact ⟨hlt, hlo, hhi⟩

section Interval
variable {F : FreqTable} (hF : rcAccepts F)
include hF

/-! ## Narrowing (R205, R207) -/

/-- A narrowing by a symbol leaves the part of the interval between the symbol's two offsets. -/
theorem rcNarrow_eq_some {b : Byte} {low high l h : Nat} (hlow : low ≤ high)
    (hn : rcNarrow F.cumulative b low high = some (l, h)) :
    l = low + (high - low + 1) * CumTable.at F.cumulative b.toNat / CumTable.at F.cumulative 256 ∧
    h + 1 = low + (high - low + 1) * CumTable.at F.cumulative (b.toNat + 1) / CumTable.at F.cumulative 256 ∧
    low ≤ l ∧ l < h ∧ h ≤ high := by
  have hoff : (high - low + 1) * CumTable.at F.cumulative (b.toNat + 1) / CumTable.at F.cumulative 256 ≤
      high - low + 1 :=
    Nat.div_le_of_le_mul (Nat.mul_comm (CumTable.at F.cumulative 256) _ ▸
      Nat.mul_le_mul_left _ (hF.cumulative_le b.isLt (Nat.le_refl _)))
  rw [rcNarrow] at hn
  split at hn
  · cases hn
  · cases hn
    generalize (high - low + 1) * _ / CumTable.at F.cumulative 256 = hiOff at *
    generalize (high - low + 1) * _ / CumTable.at F.cumulative 256 = loOff at *
    omega

theorem rcNarrow_open {b : Byte} {low high l h : Nat} (hopen : RcOpen low high)
    (hn : rcNarrow F.cumulative b low high = some (l, h)) : RcOpen l h := by
  obtain ⟨-, -, -, hlt, hle⟩ := rcNarrow_eq_some hF hopen.lt.le hn
  exact ⟨hlt, hle.trans hopen.top⟩

/-- An interval of at least two values a unit of the total leaves each symbol a width (R207). -/
theorem rcNarrow_isSome {low high : Nat} (b : Byte) (hwide : 2 * F.total ≤ high - low + 1) :
    (rcNarrow F.cumulative b low high).isSome = true := by
  have hpos := hF.total_pos
  rw [← cumulative_last F hF.total_lt] at hwide
  have htwo : 2 * CumTable.at F.cumulative 256 ≤ (high - low + 1) * F.at b :=
    hwide.trans (Nat.le_mul_of_pos_right _ (Nat.pos_of_ne_zero (hF.1 b)))
  have hoff : (high - low + 1) * CumTable.at F.cumulative b.toNat / CumTable.at F.cumulative 256 + 2 ≤
      (high - low + 1) * CumTable.at F.cumulative (b.toNat + 1) / CumTable.at F.cumulative 256 := by
    rw [cumulative_succ F hF.total_lt, Nat.mul_add, ← Nat.add_mul_div_right _ _ hpos]
    exact Nat.div_le_div_right (Nat.add_le_add_left htwo _)
  rw [rcNarrow, if_neg (Nat.not_lt.2 hoff)]
  rfl

/-! ## The scaled value (R224) -/

/-- The scaled value is the largest count whose offset is not above the value's. -/
theorem le_rcTarget_iff (c : Nat) (d : RcDecoder) :
    c ≤ rcTarget F.cumulative d ↔
      (d.high - d.low + 1) * c / CumTable.at F.cumulative 256 ≤ d.value - d.low := by
  have hpos := hF.total_pos
  have hprod : 0 < (d.value - d.low + 1) * CumTable.at F.cumulative 256 := Nat.mul_pos (Nat.succ_pos _) hpos
  rw [rcTarget, Nat.le_div_iff_mul_le (Nat.succ_pos _), Nat.le_sub_one_iff_lt hprod, ← Nat.div_lt_iff_lt_mul hpos,
    Nat.lt_succ_iff, Nat.mul_comm]

/-- A value inside the interval scales to a count below the total. -/
theorem rcTarget_lt {d : RcDecoder} (hlow : d.low ≤ d.value) (hhigh : d.value ≤ d.high) :
    rcTarget F.cumulative d < CumTable.at F.cumulative 256 := by
  rw [← Nat.not_le, le_rcTarget_iff hF, Nat.mul_div_cancel _ hF.total_pos]
  omega

/-! ## The symbol found (R224, R225) -/

theorem rcSymbol_spec {d : RcDecoder} (hlow : d.low ≤ d.value) (hhigh : d.value ≤ d.high) :
    CumTable.at F.cumulative (rcSymbol F.cumulative d).toNat ≤ rcTarget F.cumulative d ∧
    rcTarget F.cumulative d < CumTable.at F.cumulative ((rcSymbol F.cumulative d).toNat + 1) := by
  obtain ⟨hlt, hspec⟩ := rcSearch_spec F.cumulative (rcTarget F.cumulative d) 8 0 256 (by decide) (by decide)
    (by rw [cumulative_zero F hF.total_lt]; exact Nat.zero_le _) (rcTarget_lt hF hlow hhigh)
  rwa [rcSymbol, BitVec.toNat_ofNat, Nat.mod_eq_of_lt hlt]

/-- The symbol's scaled interval holds the scaled value just when the narrowed interval holds the value (R225). -/
theorem target_mem_iff {b : Byte} {d : RcDecoder} {l h : Nat} (hlow : d.low ≤ d.value) (hhigh : d.value ≤ d.high)
    (hn : rcNarrow F.cumulative b d.low d.high = some (l, h)) :
    (CumTable.at F.cumulative b.toNat ≤ rcTarget F.cumulative d ∧
      rcTarget F.cumulative d < CumTable.at F.cumulative (b.toNat + 1)) ↔ l ≤ d.value ∧ d.value ≤ h := by
  obtain ⟨hl, hh, -⟩ := rcNarrow_eq_some hF (hlow.trans hhigh) hn
  rw [← Nat.not_le (b := rcTarget F.cumulative d), le_rcTarget_iff hF, le_rcTarget_iff hF]
  omega

/-- Narrowing by the symbol found keeps the value inside (R225). -/
theorem rcNarrow_rcSymbol_inside {d : RcDecoder} {l h : Nat} (hlow : d.low ≤ d.value) (hhigh : d.value ≤ d.high)
    (hn : rcNarrow F.cumulative (rcSymbol F.cumulative d) d.low d.high = some (l, h)) : l ≤ d.value ∧ d.value ≤ h :=
  (target_mem_iff hF hlow hhigh hn).1 (rcSymbol_spec hF hlow hhigh)

/-- A value in a symbol's narrowed interval is found to be that symbol (R224). -/
theorem rcSymbol_eq {b : Byte} {d : RcDecoder} {l h : Nat} (hdlh : d.low ≤ d.high)
    (hn : rcNarrow F.cumulative b d.low d.high = some (l, h)) (hl : l ≤ d.value) (hh : d.value ≤ h) :
    rcSymbol F.cumulative d = b := by
  obtain ⟨-, -, hlow, -, hhigh⟩ := rcNarrow_eq_some hF hdlh hn
  have hlow' := hlow.trans hl
  have hhigh' := hh.trans hhigh
  obtain ⟨hfound, hfound'⟩ := rcSymbol_spec hF hlow' hhigh'
  obtain ⟨hb, hb'⟩ := (target_mem_iff hF hlow' hhigh' hn).2 ⟨hl, hh⟩
  exact hF.symbol_unique hfound hfound' hb hb'

end Interval

/-- Settles O34: the search by its invariant, and the narrowing by the offsets of the symbol found. -/
theorem theSearchFindsTheSymbolOfTheTarget : Obligations.TheSearchFindsTheSymbolOfTheTarget := by
  intro F d hF hlow hhigh
  obtain ⟨hfound, hfound'⟩ := rcSymbol_spec hF hlow hhigh
  refine ⟨hfound, hfound', fun l h hn => ?_⟩
  obtain ⟨hl, hh⟩ := rcNarrow_rcSymbol_inside hF hlow hhigh hn
  obtain ⟨-, -, -, hlt, -⟩ := rcNarrow_eq_some hF (hlow.trans hhigh) hn
  exact ⟨hl, hh, hlt⟩

end Sys2Proof.Machine
end

section
/-!
Renormalisation (spec/42_range_coder.md R208 to R214, R223): the three regions, what one iteration does to the interval and
to a value inside it, where the loop ends, and that encoder and decoder take the same iterations.
-/
namespace Sys2Proof.Machine

/-! ## Where no region applies (R213) -/

/-- An interval that no region takes: it straddles `HALF` and leaves the middle half on one side (R213). -/
structure RcSettled (low high : Nat) : Prop where
  below : low < 0x80000000
  above : 0x80000000 ≤ high
  apart : low < 0x40000000 ∨ 0xC0000000 ≤ high
  top : high ≤ Config.rcTop

theorem RcSettled.isOpen {low high : Nat} (h : RcSettled low high) : RcOpen low high :=
  ⟨h.below.trans_le h.above, h.top⟩

/-- A settled interval has at least 2^30 + 2 values (R213). -/
theorem RcSettled.wide {low high : Nat} (h : RcSettled low high) : 0x40000002 ≤ high - low + 1 := by
  obtain ⟨hbelow, habove, hapart, -⟩ := h
  omega

theorem rcStart_settled : RcSettled rcStart.low rcStart.high :=
  ⟨by decide, by decide, .inl (by decide), by decide⟩

theorem rcRegion_eq_none_iff {low high : Nat} (htop : high ≤ Config.rcTop) :
    rcRegion low high = none ↔ RcSettled low high := by
  rw [rcRegion, Config.half, Config.quarter]
  constructor
  · intro h
    split_ifs at h
    exact ⟨by omega, by omega, by omega, htop⟩
  · rintro ⟨hbelow, habove, hapart, -⟩
    rw [if_neg (by omega), if_neg (by omega), if_neg (by omega)]

/-! ## One iteration (R208, R210, R211) -/

/-- A region lies above its base and is at most half of the 32-bit range. -/
theorem rcRegion_bounds {low high : Nat} {r : RcRegion} (hopen : RcOpen low high) (hr : rcRegion low high = some r) :
    r.base ≤ low ∧ high < r.base + 0x80000000 := by
  obtain ⟨hlt, htop⟩ := hopen
  rw [Config.rcTop] at htop
  rw [rcRegion, Config.half, Config.quarter] at hr
  split_ifs at hr with htop' hbottom hmiddle <;> cases hr <;>
    simp only [RcRegion.base, Config.half, Config.quarter] <;> omega

/-- The shift of a value inside the interval drops no bit (R210). -/
theorem rcShift_eq {low high v : Nat} {r : RcRegion} (hopen : RcOpen low high) (hr : rcRegion low high = some r)
    (hhigh : v ≤ high) (b : Bool) : rcShift r v b = 2 * (v - r.base) + b.toNat := by
  obtain ⟨hbase, hsize⟩ := rcRegion_bounds hopen hr
  have hb := b.toNat_lt
  rw [rcShift, Nat.mod_eq_of_lt (by omega)]

/-- The bounds after one iteration. -/
theorem rcShift_interval {low high : Nat} {r : RcRegion} (hopen : RcOpen low high) (hr : rcRegion low high = some r) :
    rcShift r low false = 2 * (low - r.base) ∧ rcShift r high true = 2 * (high - r.base) + 1 :=
  ⟨rcShift_eq hopen hr hopen.lt.le false, rcShift_eq hopen hr (Nat.le_refl _) true⟩

theorem rcShift_open {low high : Nat} {r : RcRegion} (hopen : RcOpen low high) (hr : rcRegion low high = some r) :
    RcOpen (rcShift r low false) (rcShift r high true) := by
  obtain ⟨hlow, hhigh⟩ := rcShift_interval hopen hr
  obtain ⟨hbase, hsize⟩ := rcRegion_bounds hopen hr
  have hlt := hopen.lt
  constructor
  · omega
  · rw [Config.rcTop]
    omega

/-- An iteration doubles the width (R211). -/
theorem rcShift_width {low high : Nat} {r : RcRegion} (hopen : RcOpen low high) (hr : rcRegion low high = some r) :
    rcShift r high true - rcShift r low false + 1 = 2 * (high - low + 1) := by
  obtain ⟨hlow, hhigh⟩ := rcShift_interval hopen hr
  obtain ⟨hbase, -⟩ := rcRegion_bounds hopen hr
  have hlt := hopen.lt
  omega

/-- The shifted bounds hold the shifted value just when the bounds hold the value, whatever bit comes in (R225). -/
theorem rcShift_inside_iff {low high v : Nat} {r : RcRegion} (hopen : RcOpen low high)
    (hr : rcRegion low high = some r) (hbase : r.base ≤ v) (b : Bool) :
    rcShift r low false ≤ 2 * (v - r.base) + b.toNat ∧ 2 * (v - r.base) + b.toNat ≤ rcShift r high true ↔
      low ≤ v ∧ v ≤ high := by
  obtain ⟨hlow, hhigh⟩ := rcShift_interval hopen hr
  obtain ⟨hbase', -⟩ := rcRegion_bounds hopen hr
  have hb := b.toNat_lt
  have hlt := hopen.lt
  omega

/-! ## The decoder's loop (R214, R223) -/

theorem rcRenormDecode_of_none {n : Nat} {d : RcDecoder} (h : rcRegion d.low d.high = none) :
    rcRenormDecode n d = d := by
  cases n with
  | zero => rfl
  | succ n => rw [rcRenormDecode, h]

theorem rcRenormDecode_of_some {n : Nat} {d : RcDecoder} {r : RcRegion} (h : rcRegion d.low d.high = some r) :
    rcRenormDecode (n + 1) d = rcRenormDecode n (d.shift r) := by
  rw [rcRenormDecode, h]

/-- With an iteration for each doubling that 32 bits leave room for, the loop ends where no region applies; the width has
doubled with each bit read. -/
theorem rcRenormDecode_settles (n : Nat) : ∀ d : RcDecoder, RcOpen d.low d.high →
    2 ^ 33 ≤ 2 ^ n * (d.high - d.low + 1) →
    RcSettled (rcRenormDecode n d).low (rcRenormDecode n d).high ∧
    ∃ k, (rcRenormDecode n d).pos = d.pos + k ∧
      2 ^ k * (d.high - d.low + 1) = (rcRenormDecode n d).high - (rcRenormDecode n d).low + 1 := by
  induction n with
  | zero =>
    intro d hopen hfuel
    have htop := hopen.top
    rw [Config.rcTop] at htop
    omega
  | succ n ih =>
    intro d hopen hfuel
    cases hr : rcRegion d.low d.high with
    | none =>
      rw [rcRenormDecode_of_none hr]
      exact ⟨(rcRegion_eq_none_iff hopen.top).1 hr, 0, rfl, by omega⟩
    | some r =>
      rw [rcRenormDecode_of_some hr]
      have hwidth : (d.shift r).high - (d.shift r).low + 1 = 2 * (d.high - d.low + 1) := rcShift_width hopen hr
      have hdouble : ∀ m w : Nat, 2 ^ (m + 1) * w = 2 ^ m * (2 * w) := fun m w => by rw [Nat.pow_succ, Nat.mul_assoc]
      rw [hdouble, ← hwidth] at hfuel
      obtain ⟨hsettled, k, hpos, hk⟩ := ih (d.shift r) (rcShift_open hopen hr) hfuel
      rw [hwidth, ← hdouble] at hk
      exact ⟨hsettled, k + 1, hpos.trans (by simp only [RcDecoder.shift]; omega), hk⟩

/-- After a narrowing the loop ends within its 32 iterations, having made at most 31 (R214). -/
theorem rcRenormDecode_rcFuel {d : RcDecoder} (hopen : RcOpen d.low d.high) :
    RcSettled (rcRenormDecode rcFuel d).low (rcRenormDecode rcFuel d).high ∧
    d.pos ≤ (rcRenormDecode rcFuel d).pos ∧ (rcRenormDecode rcFuel d).pos ≤ d.pos + 31 := by
  have hlt := hopen.lt
  obtain ⟨hsettled, k, hpos, hwidth⟩ := rcRenormDecode_settles rcFuel d hopen (by rw [rcFuel]; omega)
  have hdoubled : 2 ^ k * 2 ≤ 2 ^ k * (d.high - d.low + 1) := Nat.mul_le_mul_left _ (by omega)
  have htop := hsettled.top
  rw [Config.rcTop] at htop
  have hk : k ≤ 31 := (Nat.pow_le_pow_iff_right (a := 2) (by decide)).1 (by omega)
  exact ⟨hsettled, by omega, by omega⟩

/-- The loop keeps the value inside, whatever bits come in (R225). -/
theorem rcRenormDecode_inside (n : Nat) : ∀ d : RcDecoder, RcOpen d.low d.high → d.low ≤ d.value → d.value ≤ d.high →
    (rcRenormDecode n d).low ≤ (rcRenormDecode n d).value ∧ (rcRenormDecode n d).value ≤ (rcRenormDecode n d).high := by
  induction n with
  | zero => intro d _ hlow hhigh; exact ⟨hlow, hhigh⟩
  | succ n ih =>
    intro d hopen hlow hhigh
    cases hr : rcRegion d.low d.high with
    | none =>
      rw [rcRenormDecode_of_none hr]
      exact ⟨hlow, hhigh⟩
    | some r =>
      have hbase : r.base ≤ d.value := (rcRegion_bounds hopen hr).1.trans hlow
      have hvalue : (d.shift r).value = _ := rcShift_eq hopen hr hhigh (bitGetZero d.bits).1
      obtain ⟨hlow', hhigh'⟩ := (rcShift_inside_iff hopen hr hbase (bitGetZero d.bits).1).2 ⟨hlow, hhigh⟩
      rw [← hvalue] at hlow' hhigh'
      rw [rcRenormDecode_of_some hr]
      exact ih (d.shift r) (rcShift_open hopen hr) hlow' hhigh'

/-- Settles O33: the loop's end, its length and its invariant. -/
theorem renormalisationEndsAndKeepsValueInside : Obligations.RenormalisationEndsAndKeepsValueInside := by
  intro d hlt htop hlow hhigh
  have hopen : RcOpen d.low d.high := ⟨hlt, htop⟩
  obtain ⟨hsettled, hpos, hshifts⟩ := rcRenormDecode_rcFuel hopen
  obtain ⟨hlow', hhigh'⟩ := rcRenormDecode_inside rcFuel d hopen hlow hhigh
  exact ⟨(rcRegion_eq_none_iff hsettled.top).2 hsettled, hsettled.below, hsettled.above, hsettled.top, hsettled.wide,
    hlow', hhigh', hpos, hshifts⟩

/-! ## The encoder's loop (R208, R209) -/

/-- A region counts one bit, emitted or pending. -/
theorem RcRegion.emit_count (r : RcRegion) (pending : Nat) :
    (r.emit pending).1.length + (r.emit pending).2 = pending + 1 := by
  cases r <;> simp [RcRegion.emit, rcEmit]

theorem rcRenormEncode_of_none {n : Nat} {c : RcEncoder} (h : rcRegion c.low c.high = none) :
    rcRenormEncode n c = ([], c) := by
  cases n with
  | zero => rfl
  | succ n => rw [rcRenormEncode, h]

theorem rcRenormEncode_of_some {n : Nat} {c : RcEncoder} {r : RcRegion} (h : rcRegion c.low c.high = some r) :
    rcRenormEncode (n + 1) c =
      ((r.emit c.pending).1 ++ (rcRenormEncode n (c.shift r)).1, (rcRenormEncode n (c.shift r)).2) := by
  rw [rcRenormEncode, h]

/-- Encoder and decoder take the same iterations (R223): from equal bounds to equal bounds, with one bit read for each bit
emitted or deferred (R226). -/
theorem rcRenormDecode_agrees (n : Nat) : ∀ (c : RcEncoder) (d : RcDecoder), d.low = c.low → d.high = c.high →
    (rcRenormDecode n d).low = (rcRenormEncode n c).2.low ∧ (rcRenormDecode n d).high = (rcRenormEncode n c).2.high ∧
    (rcRenormDecode n d).pos + c.pending = d.pos + (rcRenormEncode n c).1.length + (rcRenormEncode n c).2.pending := by
  induction n with
  | zero => intro c d hlow hhigh; exact ⟨hlow, hhigh, rfl⟩
  | succ n ih =>
    intro c d hlow hhigh
    cases hr : rcRegion c.low c.high with
    | none =>
      rw [rcRenormEncode_of_none hr, rcRenormDecode_of_none (by rw [hlow, hhigh, hr])]
      exact ⟨hlow, hhigh, rfl⟩
    | some r =>
      rw [rcRenormEncode_of_some hr, rcRenormDecode_of_some (by rw [hlow, hhigh, hr])]
      obtain ⟨hlow', hhigh', hpos⟩ := ih (c.shift r) (d.shift r) (congrArg (rcShift r · false) hlow)
        (congrArg (rcShift r · true) hhigh)
      refine ⟨hlow', hhigh', ?_⟩
      have hcount := r.emit_count c.pending
      simp only [RcDecoder.shift, RcEncoder.shift, List.length_append] at hpos ⊢
      omega

/-- After a narrowing the encoder's loop ends where no region applies, with at most 31 bits more, pending ones included
(R214, R217). -/
theorem rcRenormEncode_rcFuel {c : RcEncoder} (hopen : RcOpen c.low c.high) :
    RcSettled (rcRenormEncode rcFuel c).2.low (rcRenormEncode rcFuel c).2.high ∧
    (rcRenormEncode rcFuel c).1.length + (rcRenormEncode rcFuel c).2.pending ≤ c.pending + 31 := by
  obtain ⟨hlow, hhigh, hpos⟩ := rcRenormDecode_agrees rcFuel c ⟨c.low, c.high, 0, [], 0⟩ rfl rfl
  obtain ⟨hsettled, -, hshifts⟩ := rcRenormDecode_rcFuel (d := ⟨c.low, c.high, 0, [], 0⟩) hopen
  rw [hlow, hhigh] at hsettled
  exact ⟨hsettled, by omega⟩

end Sys2Proof.Machine
end

section
/-!
`RC_ENCODE` (spec/42_range_coder.md R207, R215 to R220): what a completed coder leaves, the bits of a plane and their bound,
the loop and the flush where they fit and where they stop, and the command.
-/
namespace Sys2Proof.Machine

/-! ## The end of a range coder (R220, R226) -/

/-- The state after a coder of the range unit that raised nothing: `CUM`, the result in `OUT`, the cursors and the working
registers; `value` is what `RC_VALUE` holds. -/
def State.rcDone (s : State) (out : List Byte) (inPos outPos low high : Nat) (value : Word) : State :=
  State.complete { (s.accept.rcBuild.setOut out).setCursors out.length inPos outPos with
    rcLow := BitVec.ofNat 32 low
    rcHigh := BitVec.ofNat 32 high
    rcValue := value
    rcPending := 0 }

section Done
variable (s : State) {out : List Byte} {inPos outPos low high : Nat} {value : Word}

theorem State.rcDone_outLen (hfit : out.length ≤ Config.outCap) :
    (s.rcDone out inPos outPos low high value).outLen.toNat = out.length := by
  have hcap : Config.outCap = 1048576 := rfl
  exact Nat.mod_eq_of_lt (by omega)

theorem State.rcDone_result (hfit : out.length ≤ Config.outCap) :
    (s.rcDone out inPos outPos low high value).result = out :=
  State.result_of_setOut (m := s.mem) rfl (s.rcDone_outLen hfit) hfit

theorem State.rcDone_cursors (hfit : out.length ≤ Config.outCap) (hin : inPos < 2 ^ 32) (hout : outPos < 2 ^ 32) :
    (s.rcDone out inPos outPos low high value).cursorsAre out.length inPos outPos :=
  ⟨s.rcDone_outLen hfit, Nat.mod_eq_of_lt hin, Nat.mod_eq_of_lt hout⟩

/-- The registers hold the bounds, which fit them. -/
theorem State.rcDone_bounds (hsettled : RcSettled low high) :
    (s.rcDone out inPos outPos low high value).rcLow.toNat = low ∧
    (s.rcDone out inPos outPos low high value).rcHigh.toNat = high := by
  have hbelow := hsettled.below
  have htop := hsettled.top
  rw [Config.rcTop] at htop
  exact ⟨Nat.mod_eq_of_lt (by omega), Nat.mod_eq_of_lt (by omega)⟩

/-- What a coder of the range unit does not write (R216, R223). -/
theorem State.rcDone_frame (hfit : out.length ≤ Config.outCap) :
    s.keepsOperands (s.rcDone out inPos outPos low high value) ∧
    (s.rcDone out inPos outPos low high value).freq = s.freq ∧
    s.keepsHuffman (s.rcDone out inPos outPos low high value) ∧
    (s.rcDone out inPos outPos low high value).symtab = s.symtab ∧
    (s.rcDone out inPos outPos low high value).ransX = s.ransX ∧
    s.keepsOutsideOut (s.rcDone out inPos outPos low high value) := by
  refine ⟨⟨rfl, rfl, rfl, rfl, rfl, rfl, rfl, rfl⟩, rfl, ⟨rfl, rfl, rfl, rfl⟩, rfl, rfl, fun a ha => ?_⟩
  have hread := Memory.read_setOut s.mem out hfit a
  rw [ha] at hread
  exact hread

end Done

/-! ## The bits of a plane (R207, R217) -/

section Plane
variable {F : FreqTable} (hF : rcAccepts F)
include hF

/-- The first symbol of a plane: its narrowing leaves an interval, which the loop settles. -/
theorem rcBits_cons_settled {b : Byte} {B : List Byte} {c : RcEncoder} {q : Bits × RcEncoder}
    (hc : RcSettled c.low c.high) (h : rcBits F.cumulative (b :: B) c = some q) :
    ∃ l h x c₁ r, rcNarrow F.cumulative b c.low c.high = some (l, h) ∧ RcOpen l h ∧
      rcRenormEncode rcFuel ⟨l, h, c.pending⟩ = (x, c₁) ∧ RcSettled c₁.low c₁.high ∧
      x.length + c₁.pending ≤ c.pending + 31 ∧ rcBits F.cumulative B c₁ = some r ∧ q = (x ++ r.1, r.2) := by
  obtain ⟨⟨l, h⟩, r, hn, hr, hq⟩ := rcBits_cons_some h
  have hopen := rcNarrow_open hF hc.isOpen hn
  obtain ⟨hsettled, hbound⟩ := rcRenormEncode_rcFuel (c := ⟨l, h, c.pending⟩) hopen
  exact ⟨l, h, _, _, r, hn, hopen, rfl, hsettled, hbound, hr, hq⟩

/-- After the symbols of a plane the interval is settled, with at most 31 bits a symbol, pending ones included. -/
theorem rcBits_settled : ∀ (B : List Byte) (c : RcEncoder) (q : Bits × RcEncoder), RcSettled c.low c.high →
    rcBits F.cumulative B c = some q →
    RcSettled q.2.low q.2.high ∧ q.1.length + q.2.pending ≤ c.pending + 31 * B.length := by
  intro B
  induction B with
  | nil =>
    intro c q hc h
    cases h
    exact ⟨hc, by simp⟩
  | cons b B ih =>
    intro c q hc h
    obtain ⟨_, _, x, c₁, r, -, -, -, hc₁, hx, hr, rfl⟩ := rcBits_cons_settled hF hc h
    obtain ⟨hsettled, hbound⟩ := ih c₁ r hc₁ hr
    refine ⟨hsettled, ?_⟩
    simp only [List.length_append, List.length_cons]
    omega

/-- A total of at most 2^29 leaves every narrowing of a settled interval a width (R207). -/
theorem rcNarrow_isSome_of_total {low high : Nat} (b : Byte) (hc : RcSettled low high) (hT : F.total ≤ 2 ^ 29) :
    (rcNarrow F.cumulative b low high).isSome = true :=
  rcNarrow_isSome hF b (by have hwide := hc.wide; omega)

theorem rcBits_isSome (hT : F.total ≤ 2 ^ 29) : ∀ (B : List Byte) (c : RcEncoder), RcSettled c.low c.high →
    (rcBits F.cumulative B c).isSome = true := by
  intro B
  induction B with
  | nil => intro c _; rfl
  | cons b B ih =>
    intro c hc
    obtain ⟨⟨l, h⟩, hn⟩ := Option.isSome_iff_exists.1 (rcNarrow_isSome_of_total hF b hc hT)
    obtain ⟨hc₁, -⟩ := rcRenormEncode_rcFuel (c := ⟨l, h, c.pending⟩) (rcNarrow_open hF hc.isOpen hn)
    obtain ⟨r, hr⟩ := Option.isSome_iff_exists.1 (ih _ hc₁)
    simp only [rcBits, hn, hr, Option.isSome_some]

end Plane

/-! ## The loop and the flush (R216, R219) -/

/-- Symbols whose bits fit are written, and the loop goes on after them. -/
theorem rcEncodeLoop_append (C : CumTable) (room : Nat) (rest : List Byte) : ∀ (pre : List Byte) (i : Nat)
    (c : RcEncoder) (w : BitWriter) (q : Bits × RcEncoder), rcBits C pre c = some q →
    w.bits.length + q.1.length ≤ 8 * room →
    rcEncodeLoop C room i (pre ++ rest) c w = rcEncodeLoop C room (i + pre.length) rest q.2 ⟨w.bits ++ q.1⟩ := by
  intro pre
  induction pre with
  | nil => intro i c w q h _; cases h; simp
  | cons b pre ih =>
    intro i c w q h hfit
    obtain ⟨n, r, hn, hr, rfl⟩ := rcBits_cons_some h
    simp only [List.length_append] at hfit
    simp only [List.cons_append, rcEncodeLoop, hn, BitWriter.putAll_eq]
    rw [if_pos (.inr (by omega))]
    simp only
    rw [ih (i + 1) _ ⟨w.bits ++ _⟩ r hr (by simp only [List.length_append]; omega), List.append_assoc, List.length_cons,
      Nat.add_right_comm, Nat.add_assoc]

/-- A loop that comes through wrote the bits of the plane, and they fit. -/
theorem rcEncodeLoop_ok (C : CumTable) (room : Nat) : ∀ (B : List Byte) (i : Nat) (c : RcEncoder) (w : BitWriter)
    (q : RcEncoder × BitWriter), w.bits.length ≤ 8 * room → rcEncodeLoop C room i B c w = .ok q →
    ∃ x, rcBits C B c = some (x, q.1) ∧ q.2.bits = w.bits ++ x ∧ q.2.bits.length ≤ 8 * room := by
  intro B
  induction B with
  | nil =>
    intro i c w q hw h
    cases h
    exact ⟨[], rfl, by simp, hw⟩
  | cons b B ih =>
    intro i c w q hw h
    rw [rcEncodeLoop] at h
    cases hn : rcNarrow C b c.low c.high with
    | none => simp [hn] at h
    | some n =>
      cases hput : w.putAll room i (rcRenormEncode rcFuel ⟨n.1, n.2, c.pending⟩).1 with
      | error e => simp [hn, hput] at h
      | ok w' =>
        simp only [hn, hput] at h
        obtain ⟨hbits, hw'⟩ := BitWriter.putAll_ok hput hw
        obtain ⟨x, hx, hq, hfit⟩ := ih (i + 1) _ w' q hw' h
        refine ⟨(rcRenormEncode rcFuel ⟨n.1, n.2, c.pending⟩).1 ++ x, ?_, ?_, hfit⟩
        · simp only [rcBits, hn, hx]
        · rw [hq, hbits, List.append_assoc]

@[simp] theorem rcFlush_length (c : RcEncoder) : (rcFlush c).length = c.pending + 2 := by
  simp [rcFlush, rcEmit]

/-- What the loop raises, the encode raises. -/
theorem rcEncodeAll_of_loop_error {C : CumTable} {room : Nat} {B : List Byte} {e : Raise}
    (h : rcEncodeLoop C room 0 B rcStart ⟨[]⟩ = .error e) : rcEncodeAll C room B = .error e := by
  rw [rcEncodeAll, h]

/-- After symbols that fit, the flush is written where it fits too, and else reported under the plane's length. -/
theorem rcEncodeAll_of_bits {C : CumTable} {room : Nat} {B : List Byte} {w : Bits} {c : RcEncoder}
    (h : rcBits C B rcStart = some (w, c)) (hfit : w.length ≤ 8 * room) :
    rcEncodeAll C room B =
      if w.length + c.pending + 2 ≤ 8 * room then .ok ({ c with pending := 0 }, ⟨w ++ rcFlush c⟩)
      else .error (capacityError B.length) := by
  have hne : rcFlush c ≠ [] := by simp [rcFlush, rcEmit]
  rw [rcEncodeAll, rcEncodeLoop_of_fits C room B 0 rcStart ⟨[]⟩ (w, c) h (by simpa using hfit), List.nil_append]
  simp only [BitWriter.putAll_eq, hne, false_or, rcFlush_length, Nat.add_assoc]
  split_ifs <;> rfl

/-- An encode that comes through wrote the bits of the plane and of the flush. -/
theorem rcEncodeAll_ok {C : CumTable} {room : Nat} {B : List Byte} {q : RcEncoder × BitWriter}
    (h : rcEncodeAll C room B = .ok q) :
    ∃ w c, rcBits C B rcStart = some (w, c) ∧ w.length + c.pending + 2 ≤ 8 * room ∧
      q = ({ c with pending := 0 }, ⟨w ++ rcFlush c⟩) := by
  cases hloop : rcEncodeLoop C room 0 B rcStart ⟨[]⟩ with
  | error e => exact nomatch (rcEncodeAll_of_loop_error hloop).symm.trans h
  | ok r =>
    obtain ⟨w, hw, hbits, hfit⟩ := rcEncodeLoop_ok C room B 0 rcStart ⟨[]⟩ r (Nat.zero_le _) hloop
    rw [hbits, List.nil_append] at hfit
    rw [rcEncodeAll_of_bits hw hfit] at h
    split_ifs at h with hflush
    exact ⟨w, r.1, hw, hflush, (Except.ok.inj h).symm⟩

/-! ## Where the encode stops (R352, R353) -/

theorem rcEncodeAll_of_overflow {F : FreqTable} {room i : Nat} {B : List Byte} (h : overflowsAt .range F room i B) :
    rcEncodeAll F.cumulative room B = .error (capacityError i) := by
  rcases h with ⟨pre, post, b, q, q', rfl, rfl, hq, hq', hfit, hover⟩ | ⟨rfl, ⟨w, c⟩, hq, hfit, hover⟩
  · refine rcEncodeAll_of_loop_error ?_
    rw [rcEncodeLoop_of_overflow F.cumulative room b post pre 0 rcStart ⟨[]⟩ q q' hq hq' (by simpa using hfit)
      (by simpa using hover), Nat.zero_add]
  · rw [rcEncodeAll_of_bits hq hfit, if_neg (Nat.not_le.2 hover)]

theorem rcEncodeAll_of_no_width {C : CumTable} {room : Nat} {pre post : List Byte} {b : Byte} {w : Bits} {c : RcEncoder}
    (hw : rcBits C pre rcStart = some (w, c)) (hfit : w.length ≤ 8 * room) (hn : rcNarrow C b c.low c.high = none) :
    rcEncodeAll C room (pre ++ b :: post) = .error (internalError pre.length) := by
  refine rcEncodeAll_of_loop_error ?_
  rw [rcEncodeLoop_append C room (b :: post) pre 0 rcStart ⟨[]⟩ (w, c) hw (by simpa using hfit), rcEncodeLoop, hn,
    Nat.zero_add]

/-! ## The command (R216) -/

/-- Where the encode comes through, its bits and its interval are the result. -/
theorem exec_rcEncode_done {s : State} {w : Bits} {c : RcEncoder} (herr : s.error = false)
    (hin : s.inLen.toNat ≤ Config.inCap) (hF : rcAccepts s.freq)
    (hw : rcBits s.freq.cumulative s.input rcStart = some (w, c))
    (hfit : w.length + c.pending + 2 ≤ 8 * Config.outCap) :
    exec .rcEncode s = .next
      (s.rcDone (packBits (w ++ rcFlush c)) s.inLen.toNat (w.length + c.pending + 2) c.low c.high s.rcValue) := by
  have hall := rcEncodeAll_of_bits hw (room := Config.outCap) (by omega)
  rw [if_pos hfit] at hall
  rw [exec_rcEncode herr hin]
  rcases rcEncodeOp_cases [] s.accept with ⟨hbad, -⟩ | ⟨-, ⟨e, he, -⟩ | ⟨q, hq, hop⟩⟩
  · exact nomatch hbad.symm.trans ((rcAccepts_iff s.freq).1 hF)
  · exact nomatch hall.symm.trans he
  · obtain rfl := Except.ok.inj (hall.symm.trans hq)
    rw [hop, State.finish_ok, State.rcDone, packBits_length, List.nil_append, List.length_nil, Nat.zero_add,
      List.length_append, rcFlush_length, ← Nat.add_assoc]
    rfl

/-- What the encode raises, the command records. -/
theorem exec_rcEncode_faulted {s : State} {e : Raise} (herr : s.error = false) (hin : s.inLen.toNat ≤ Config.inCap)
    (hF : rcAccepts s.freq) (hall : rcEncodeAll s.freq.cumulative Config.outCap s.input = .error e) :
    ∃ t, exec .rcEncode s = .next t ∧ t.faulted e.kind e.info := by
  refine ⟨_, exec_rcEncode herr hin, State.finish_faulted ?_⟩
  rcases rcEncodeOp_cases [] s.accept with ⟨hbad, -⟩ | ⟨-, ⟨e', he', hop⟩ | ⟨q, hq, -⟩⟩
  · exact nomatch hbad.symm.trans ((rcAccepts_iff s.freq).1 hF)
  · obtain rfl := Except.error.inj (hall.symm.trans he')
    exact hop
  · exact nomatch hall.symm.trans hq

/-- An empty plane gives the flush of the whole interval. -/
theorem packBits_rcFlush_rcStart : packBits (rcFlush rcStart) = [0x40] := by decide

theorem State.input_eq_nil {s : State} (h : s.inLen = 0) : s.input = [] := by
  rw [← List.length_eq_zero_iff, s.input_length, h]
  rfl

/-- The stream, the cursors and the registers of a completed encode (R216, R219, R220). -/
theorem State.rcDone_encoded {s : State} {w : Bits} {c : RcEncoder} (herr : s.error = false) (hF : rcAccepts s.freq)
    (hw : rcBits s.freq.cumulative s.input rcStart = some (w, c))
    (hfit : w.length + c.pending + 2 ≤ 8 * Config.outCap) :
    let t := s.rcDone (packBits (w ++ rcFlush c)) s.inLen.toNat (w.length + c.pending + 2) c.low c.high s.rcValue
    t.completed ∧ (∃ k < 8, streamBits t.result = w ++ rcFlush c ++ List.replicate k false) ∧
    t.cursorsAre ((w.length + c.pending + 9) / 8) s.inLen.toNat (w.length + c.pending + 2) ∧
    t.rcLow.toNat = c.low ∧ t.rcHigh.toNat = c.high ∧ t.rcPending = 0 ∧
    t.rcLow.toNat < 0x80000000 ∧ 0x80000000 ≤ t.rcHigh.toNat ∧
    (s.inLen = 0 → t.result = [0x40] ∧ t.outPos = 2 ∧ t.rcLow = 0 ∧ t.rcHigh = 0xFFFFFFFF) ∧
    t.cum = s.freq.cumulative ∧ s.keepsOperands t ∧ t.freq = s.freq ∧ s.keepsHuffman t ∧ t.symtab = s.symtab ∧
    t.rcValue = s.rcValue ∧ t.ransX = s.ransX ∧ s.keepsOutsideOut t := by
  intro t
  have hcap : Config.outCap = 1048576 := rfl
  have hlen : (w ++ rcFlush c).length = w.length + c.pending + 2 := by
    rw [List.length_append, rcFlush_length, Nat.add_assoc]
  have hpack : (packBits (w ++ rcFlush c)).length ≤ Config.outCap := packBits_length_le (hlen ▸ hfit)
  have hresult : t.result = packBits (w ++ rcFlush c) := s.rcDone_result hpack
  have hcursors : t.cursorsAre _ _ _ := s.rcDone_cursors hpack s.inLen.isLt (by omega)
  rw [packBits_length, hlen] at hcursors
  obtain ⟨hc, -⟩ := rcBits_settled hF s.input rcStart (w, c) rcStart_settled hw
  obtain ⟨hlow, hhigh⟩ : t.rcLow.toNat = c.low ∧ t.rcHigh.toNat = c.high := s.rcDone_bounds hc
  obtain ⟨hoperands, hfreq, hhuffman, hsymtab, hrans, hout⟩ : s.keepsOperands t ∧ _ := s.rcDone_frame hpack
  refine ⟨⟨rfl, herr⟩, ?bits, hcursors, hlow, hhigh, rfl, hlow.trans_lt hc.below, hc.above.trans_eq hhigh.symm, ?empty, rfl,
    hoperands, hfreq, hhuffman, hsymtab, rfl, hrans, hout⟩
  case bits =>
    rw [hresult, streamBits_packBits]
    exact ⟨_, by omega, rfl⟩
  case empty =>
    intro hzero
    rw [State.input_eq_nil hzero, rcBits_nil] at hw
    obtain ⟨rfl, rfl⟩ := Prod.mk.inj (Option.some.inj hw)
    exact ⟨hresult.trans packBits_rcFlush_rcStart, rfl, rfl, rfl⟩

/-- Settles O35: the bits of the plane by their bound, and the encode by what stops it. -/
theorem rcEncodeCompletesOrNamesTheSymbol : Obligations.RcEncodeCompletesOrNamesTheSymbol := by
  intro s herr hin hF
  refine ⟨fun hT => rcBits_isSome hF hT s.input rcStart rcStart_settled, fun w c hw => ⟨?bound, fun hfit => ?done⟩,
    fun i hover => ?overflow, fun pre post w b c hinput hw hfit hn => ?width⟩
  case bound =>
    obtain ⟨-, hbound⟩ := rcBits_settled hF s.input rcStart (w, c) rcStart_settled hw
    rwa [s.input_length, rcStart, Nat.zero_add] at hbound
  case done => exact ⟨_, exec_rcEncode_done herr hin hF hw hfit, State.rcDone_encoded herr hF hw hfit⟩
  case overflow => exact exec_rcEncode_faulted herr hin hF (rcEncodeAll_of_overflow hover)
  case width => exact exec_rcEncode_faulted herr hin hF (hinput ▸ rcEncodeAll_of_no_width hw hfit hn)

end Sys2Proof.Machine
end

section
/-!
`RC_DECODE` (spec/42_range_coder.md R221 to R226): the window of a stream that the decoder holds, the invariant of its loop,
and the command on every stream.
-/
namespace Sys2Proof.Machine

/-! ## The window (R221, spec/20_memory.md R77) -/

@[simp] theorem bitGetZero_fst (bs : Bits) : (bitGetZero bs).1 = bs.getD 0 false := by
  cases bs <;> rfl

@[simp] theorem bitGetZero_snd (bs : Bits) : (bitGetZero bs).2 = bs.drop 1 := by
  cases bs <;> rfl

/-- The number that the first `n` bits of a stream make, a bit past its end being 0: what `value` holds of it (R221). -/
def rcWindow (n : Nat) (D : Bits) : Nat := natOfBits ((List.range n).map fun j => D.getD j false)

@[simp] theorem rcWindow_zero (D : Bits) : rcWindow 0 D = 0 := rfl

/-- One bit more on the right. -/
theorem rcWindow_succ (n : Nat) (D : Bits) : rcWindow (n + 1) D = 2 * rcWindow n D + (D.getD n false).toNat := by
  rw [rcWindow, List.range_succ, List.map_append, List.map_singleton, natOfBits_concat, rcWindow]

/-- The first bit is the most significant. -/
theorem rcWindow_cons (n : Nat) (b : Bool) (D : Bits) : rcWindow (n + 1) (b :: D) = b.toNat * 2 ^ n + rcWindow n D := by
  induction n with
  | zero => simp [rcWindow_succ]
  | succ n ih => rw [rcWindow_succ, ih, rcWindow_succ, List.getD_cons_succ, Nat.pow_succ]; ring

theorem rcWindow_lt (n : Nat) (D : Bits) : rcWindow n D < 2 ^ n := by
  have hlt := natOfBits_lt ((List.range n).map fun j => D.getD j false)
  rwa [List.length_map, List.length_range] at hlt

theorem rcWindow_testBit {n k : Nat} (D : Bits) (hk : k < n) :
    (rcWindow n D).testBit (n - 1 - k) = D.getD k false := by
  have hbit := natOfBits_testBit_index (bs := (List.range n).map fun j => D.getD j false) (j := k) (by simpa using hk)
  rw [List.length_map, List.length_range] at hbit
  rw [rcWindow, hbit, List.getD_eq_getElem _ _ (by simpa using hk), List.getElem_map, List.getElem_range]

/-- The preload shifts the next bits of the stream into the window. -/
theorem rcPreload_window (low high : Nat) (D : Bits) : ∀ n k pos : Nat,
    rcPreload n ⟨low, high, rcWindow k D, D.drop k, pos⟩ =
      ⟨low, high, rcWindow (k + n) D, D.drop (k + n), pos + n⟩ := by
  intro n
  induction n with
  | zero => intro k pos; rfl
  | succ n ih =>
    intro k pos
    have hbit : (D.drop k).getD 0 false = D.getD k false := by
      simp [List.getD_eq_getElem?_getD, List.getElem?_drop]
    rw [rcPreload, bitGetZero_fst, bitGetZero_snd, List.drop_drop, hbit, ← rcWindow_succ, ih, Nat.add_right_comm k,
      Nat.add_assoc k, Nat.add_right_comm pos, Nat.add_assoc pos]

theorem rcDecoderStart_eq (bs : Bits) :
    rcDecoderStart bs = ⟨0, Config.rcTop, rcWindow 32 bs, bs.drop 32, 32⟩ :=
  rcPreload_window 0 Config.rcTop bs 32 0 0

theorem rcDecoderStart_pos (bs : Bits) : (rcDecoderStart bs).pos = 32 := by
  rw [rcDecoderStart_eq]

/-! ## The loop (R223, R225) -/

/-- The decoder between two symbols: no region applies, and the value lies inside (R225). -/
structure RcDecoder.Inside (d : RcDecoder) : Prop where
  settled : RcSettled d.low d.high
  low_le : d.low ≤ d.value
  le_high : d.value ≤ d.high

theorem rcDecoderStart_inside (bs : Bits) : (rcDecoderStart bs).Inside := by
  have hlt := rcWindow_lt 32 bs
  rw [rcDecoderStart_eq]
  have hle : rcWindow 32 bs ≤ Config.rcTop := by
    rw [Config.rcTop]
    omega
  exact ⟨rcStart_settled, Nat.zero_le _, hle⟩

/-- A loop that delivers a symbol and more narrowed by the symbol found, renormalised, and went on. -/
theorem rcDecodeLoop_succ_ok {C : CumTable} {n i : Nat} {d : RcDecoder} {q : List Byte × RcDecoder}
    (h : rcDecodeLoop C (n + 1) i d = .ok q) :
    ∃ l u out, rcNarrow C (rcSymbol C d) d.low d.high = some (l, u) ∧
      rcDecodeLoop C n (i + 1) (rcRenormDecode rcFuel { d with low := l, high := u }) = .ok (out, q.2) ∧
      q.1 = rcSymbol C d :: out := by
  rw [rcDecodeLoop] at h
  cases hn : rcNarrow C (rcSymbol C d) d.low d.high with
  | none => simp [hn] at h
  | some p =>
    cases hr : rcDecodeLoop C n (i + 1) (rcRenormDecode rcFuel { d with low := p.1, high := p.2 }) with
    | error e => simp [hn, hr] at h
    | ok r =>
      simp only [hn, hr, Except.ok.injEq] at h
      exact ⟨p.1, p.2, r.1, rfl, by rw [← h, hr], by rw [← h]⟩

/-- The loop with its first symbol narrowed. -/
theorem rcDecodeLoop_succ {C : CumTable} {n i l u : Nat} {d : RcDecoder}
    (hn : rcNarrow C (rcSymbol C d) d.low d.high = some (l, u)) :
    rcDecodeLoop C (n + 1) i d =
      (rcDecodeLoop C n (i + 1) (rcRenormDecode rcFuel { d with low := l, high := u })).map
        fun q => (rcSymbol C d :: q.1, q.2) := by
  rw [rcDecodeLoop, hn]
  cases hr : rcDecodeLoop C n (i + 1) (rcRenormDecode rcFuel { d with low := l, high := u }) <;>
    simp only [hr, Except.map]

section Loop
variable {F : FreqTable} (hF : rcAccepts F)
include hF

/-- One symbol keeps the invariant and reads at most 31 bits. -/
theorem RcDecoder.Inside.step {d : RcDecoder} {l u : Nat} (hd : d.Inside)
    (hn : rcNarrow F.cumulative (rcSymbol F.cumulative d) d.low d.high = some (l, u)) :
    (rcRenormDecode rcFuel { d with low := l, high := u }).Inside ∧
    d.pos ≤ (rcRenormDecode rcFuel { d with low := l, high := u }).pos ∧
    (rcRenormDecode rcFuel { d with low := l, high := u }).pos ≤ d.pos + 31 := by
  have hopen := rcNarrow_open hF hd.settled.isOpen hn
  obtain ⟨hl, hu⟩ := rcNarrow_rcSymbol_inside hF hd.low_le hd.le_high hn
  obtain ⟨hlow, hhigh⟩ := rcRenormDecode_inside rcFuel { d with low := l, high := u } hopen hl hu
  obtain ⟨hsettled, hpos⟩ := rcRenormDecode_rcFuel (d := { d with low := l, high := u }) hopen
  exact ⟨⟨hsettled, hlow, hhigh⟩, hpos⟩

/-- A loop that comes through delivers its number of symbols, keeps the invariant, and reads at most 31 bits a symbol. -/
theorem rcDecodeLoop_inside : ∀ (n i : Nat) (d : RcDecoder) (q : List Byte × RcDecoder), d.Inside →
    rcDecodeLoop F.cumulative n i d = .ok q →
    q.1.length = n ∧ q.2.Inside ∧ d.pos ≤ q.2.pos ∧ q.2.pos ≤ d.pos + 31 * n := by
  intro n
  induction n with
  | zero =>
    intro i d q hd h
    cases h
    exact ⟨rfl, hd, Nat.le_refl _, Nat.le_refl _⟩
  | succ n ih =>
    intro i d q hd h
    obtain ⟨l, u, out, hn, hrest, hout⟩ := rcDecodeLoop_succ_ok h
    obtain ⟨hd', hpos, hpos'⟩ := hd.step hF hn
    obtain ⟨hlen, hq, hge, hle⟩ := ih (i + 1) _ _ hd' hrest
    exact ⟨by rw [hout, List.length_cons, hlen], hq, hpos.trans hge, hle.trans (by omega)⟩

/-- With a total of at most 2^29 the loop comes through on every stream (R207, R222). -/
theorem rcDecodeLoop_completes (hT : F.total ≤ 2 ^ 29) : ∀ (n i : Nat) (d : RcDecoder), d.Inside →
    ∃ q, rcDecodeLoop F.cumulative n i d = .ok q := by
  intro n
  induction n with
  | zero => intro i d _; exact ⟨_, rfl⟩
  | succ n ih =>
    intro i d hd
    obtain ⟨⟨l, u⟩, hn⟩ := Option.isSome_iff_exists.1
      (rcNarrow_isSome_of_total hF (rcSymbol F.cumulative d) hd.settled hT)
    obtain ⟨q, hq⟩ := ih (i + 1) _ (hd.step hF hn).1
    exact ⟨_, by rw [rcDecodeLoop_succ hn, hq]; rfl⟩

end Loop

/-- A loop raises what it meets after symbols that were delivered. -/
theorem rcDecodeLoop_error_after {C : CumTable} {m : Nat} {e : Raise} : ∀ (k i : Nat) (d : RcDecoder)
    (q : List Byte × RcDecoder), rcDecodeLoop C k i d = .ok q → rcDecodeLoop C m (i + k) q.2 = .error e →
    rcDecodeLoop C (k + m) i d = .error e := by
  intro k
  induction k with
  | zero =>
    intro i d q h he
    cases h
    rwa [Nat.zero_add]
  | succ k ih =>
    intro i d q h he
    obtain ⟨l, u, out, hn, hrest, -⟩ := rcDecodeLoop_succ_ok h
    rw [Nat.add_right_comm, rcDecodeLoop_succ hn,
      ih (i + 1) _ _ hrest (by rwa [Nat.add_right_comm, Nat.add_assoc])]
    rfl

/-- A narrowing that leaves no width raises its symbol's index (R205, R352). -/
theorem rcDecodeLoop_of_no_width {C : CumTable} {n k : Nat} {d : RcDecoder} {q : List Byte × RcDecoder} (hk : k < n)
    (h : rcDecodeLoop C k 0 d = .ok q) (hn : rcNarrow C (rcSymbol C q.2) q.2.low q.2.high = none) :
    rcDecodeLoop C n 0 d = .error (internalError k) := by
  obtain ⟨m, rfl⟩ : ∃ m, n = k + (m + 1) := ⟨n - k - 1, by omega⟩
  exact rcDecodeLoop_error_after k 0 d q h (by rw [rcDecodeLoop, hn, Nat.zero_add])

/-! ## The command (R223) -/

section Command
variable {s : State} (herr : s.error = false) (hin : s.inLen.toNat ≤ Config.inCap)
  (hcount : s.expectedCount.toNat ≤ Config.outCap) (hF : rcAccepts s.freq)
include herr hin hcount hF

/-- Where the loop comes through, its symbols and its registers are the result. -/
theorem exec_rcDecode_done {q : List Byte × RcDecoder}
    (hloop : rcDecodeLoop s.freq.cumulative s.expectedCount.toNat 0 (rcDecoderStart (streamBits s.input)) = .ok q) :
    exec .rcDecode s = .next
      (s.rcDone q.1 q.2.pos s.expectedCount.toNat q.2.low q.2.high (BitVec.ofNat 32 q.2.value)) := by
  obtain ⟨hlen, -⟩ := rcDecodeLoop_inside hF _ _ _ q (rcDecoderStart_inside _) hloop
  rw [exec_rcDecode herr hin hcount]
  rcases rcDecodeOp_cases s.input s.accept with ⟨hbad, -⟩ | ⟨-, ⟨e, he, -⟩ | ⟨q', hq', hop⟩⟩
  · exact nomatch hbad.symm.trans ((rcAccepts_iff s.freq).1 hF)
  · exact nomatch hloop.symm.trans he
  · obtain rfl := Except.ok.inj (hloop.symm.trans hq')
    rw [hop, State.finish_ok, State.rcDone, hlen]
    rfl

/-- What the loop raises, the command records. -/
theorem exec_rcDecode_faulted {e : Raise}
    (hloop : rcDecodeLoop s.freq.cumulative s.expectedCount.toNat 0 (rcDecoderStart (streamBits s.input)) = .error e) :
    ∃ t, exec .rcDecode s = .next t ∧ t.faulted e.kind e.info := by
  refine ⟨_, exec_rcDecode herr hin hcount, State.finish_faulted ?_⟩
  rcases rcDecodeOp_cases s.input s.accept with ⟨hbad, -⟩ | ⟨-, ⟨e', he', hop⟩ | ⟨q, hq, -⟩⟩
  · exact nomatch hbad.symm.trans ((rcAccepts_iff s.freq).1 hF)
  · obtain rfl := Except.error.inj (hloop.symm.trans he')
    exact hop
  · exact nomatch hloop.symm.trans hq

omit hin in
/-- The cursors and the registers of a completed decode (R223, R226). -/
theorem State.rcDone_decoded {q : List Byte × RcDecoder}
    (hloop : rcDecodeLoop s.freq.cumulative s.expectedCount.toNat 0 (rcDecoderStart (streamBits s.input)) = .ok q) :
    let t := s.rcDone q.1 q.2.pos s.expectedCount.toNat q.2.low q.2.high (BitVec.ofNat 32 q.2.value)
    t.completed ∧ t.outLen = s.expectedCount ∧ t.outPos = s.expectedCount ∧
    32 ≤ t.inPos.toNat ∧ t.inPos.toNat ≤ 32 + 31 * s.expectedCount.toNat ∧ t.rcPending = 0 ∧
    t.rcLow.toNat ≤ t.rcValue.toNat ∧ t.rcValue.toNat ≤ t.rcHigh.toNat ∧
    (s.expectedCount = 0 → t.inPos = 32 ∧ t.rcLow = 0 ∧ t.rcHigh = 0xFFFFFFFF ∧
      ∀ k < 32, t.rcValue.getLsbD (31 - k) = (streamBits s.input).getD k false) ∧
    t.cum = s.freq.cumulative ∧ s.keepsOperands t ∧ t.freq = s.freq ∧ s.keepsHuffman t ∧ t.symtab = s.symtab ∧
    t.ransX = s.ransX ∧ s.keepsOutsideOut t := by
  intro t
  have hcap : Config.outCap = 1048576 := rfl
  obtain ⟨hlen, hq, hge, hle⟩ := rcDecodeLoop_inside hF _ _ _ q (rcDecoderStart_inside _) hloop
  rw [rcDecoderStart_pos] at hge hle
  have hfit : q.1.length ≤ Config.outCap := hlen ▸ hcount
  obtain ⟨houtLen, hinPos, houtPos⟩ : t.cursorsAre _ _ _ :=
    s.rcDone_cursors hfit (inPos := q.2.pos) (by omega) s.expectedCount.isLt
  obtain ⟨hlow, hhigh⟩ : t.rcLow.toNat = q.2.low ∧ t.rcHigh.toNat = q.2.high := s.rcDone_bounds hq.settled
  have hvalue : t.rcValue.toNat = q.2.value := by
    have htop := hq.le_high.trans hq.settled.top
    rw [Config.rcTop] at htop
    exact Nat.mod_eq_of_lt (by omega)
  obtain ⟨hoperands, hfreq, hhuffman, hsymtab, hrans, hout⟩ : s.keepsOperands t ∧ _ := s.rcDone_frame hfit
  refine ⟨⟨rfl, herr⟩, BitVec.eq_of_toNat_eq (houtLen.trans hlen), BitVec.eq_of_toNat_eq houtPos, hge.trans_eq hinPos.symm,
    hinPos.trans_le hle, rfl, ?low, ?high, ?empty, rfl, hoperands, hfreq, hhuffman, hsymtab, hrans, hout⟩
  case low => rw [hlow, hvalue]; exact hq.low_le
  case high => rw [hhigh, hvalue]; exact hq.le_high
  case empty =>
    intro hzero
    rw [hzero] at hloop
    obtain rfl := Except.ok.inj hloop
    rw [rcDecoderStart_eq] at hinPos hlow hhigh hvalue
    refine ⟨BitVec.eq_of_toNat_eq hinPos, BitVec.eq_of_toNat_eq hlow, BitVec.eq_of_toNat_eq hhigh, fun k hk => ?_⟩
    rw [← BitVec.testBit_toNat, hvalue]
    exact rcWindow_testBit (streamBits s.input) hk

end Command

/-- Settles O36: the loop comes through by its invariant, or stops at the symbol whose narrowing leaves no width. -/
theorem rcDecodeCompletesOnEveryStream : Obligations.RcDecodeCompletesOnEveryStream := by
  intro s herr hin hcount hF
  refine ⟨fun hok => ?done, fun k out d hk hloop hn => ?width⟩
  case done =>
    obtain ⟨q, hloop⟩ := hok.elim
      (fun hT => rcDecodeLoop_completes hF hT s.expectedCount.toNat 0 _ (rcDecoderStart_inside (streamBits s.input))) id
    exact ⟨_, exec_rcDecode_done herr hin hcount hF hloop, State.rcDone_decoded herr hcount hF hloop⟩
  case width => exact exec_rcDecode_faulted herr hin hcount hF (rcDecodeLoop_of_no_width hk hloop hn)

end Sys2Proof.Machine
end

section
/-!
The round trip of the range coder (spec/42_range_coder.md R219, R226, R227). From a state of the encoder the stream goes on
with the bits still to be emitted, the pending ones among them; the decoder has shifted the pending ones out already. Read
back to front, from the flush over each iteration and each narrowing to the start, what the decoder sees lies inside the
encoder's interval, so the search finds the symbol that was encoded.
-/
namespace Sys2Proof.Machine

/-! ## What lies ahead of the encoder -/

/-- `R` is a stream from here on, its first bit followed by the pending ones complemented (R209); `D` is the same stream as
the decoder sees it, without the pending bits. -/
def rcDefers (pending : Nat) (R D : Bits) : Prop := ∃ b X, R = rcEmit b pending ++ X ∧ D = b :: X

theorem rcDefers_zero {R D : Bits} (h : rcDefers 0 R D) : R = D := by
  obtain ⟨b, X, rfl, rfl⟩ := h
  rfl

/-- The stream `R` that follows the encoder's state, seen by the decoder as `D`, denotes a value inside the interval. -/
structure RcEncoder.Ahead (c : RcEncoder) (R D : Bits) : Prop where
  defers : rcDefers c.pending R D
  low_le : c.low ≤ rcWindow 32 D
  le_high : rcWindow 32 D ≤ c.high

/-- The decoder stands where the encoder stood, with `D` before it: the first 32 bits in `value`, the others unread. -/
structure RcDecoder.Follows (d : RcDecoder) (c : RcEncoder) (D : Bits) : Prop where
  low : d.low = c.low
  high : d.high = c.high
  value : d.value = rcWindow 32 D
  bits : d.bits = D.drop 32

theorem rcDecoderStart_follows (D : Bits) : (rcDecoderStart D).Follows rcStart D := by
  rw [rcDecoderStart_eq]
  exact ⟨rfl, rfl, rfl, rfl⟩

/-! ## The flush (R219) -/

/-- The flush leads into the settled interval, whatever follows it. -/
theorem rcFlush_ahead {c : RcEncoder} (hc : RcSettled c.low c.high) (tail : Bits) :
    ∃ D, c.Ahead (rcFlush c ++ tail) D := by
  obtain ⟨hbelow, habove, hapart, -⟩ := hc
  have hrest := rcWindow_lt 30 tail
  have hwindow : ∀ a b : Bool, rcWindow 32 (a :: b :: tail) = a.toNat * 2 ^ 31 + (b.toNat * 2 ^ 30 + rcWindow 30 tail) :=
    fun a b => by rw [rcWindow_cons, rcWindow_cons]
  have hsplit : ∀ a : Bool, rcEmit a (c.pending + 1) ++ tail = rcEmit a c.pending ++ (!a) :: tail := fun a => by
    simp [rcEmit, List.replicate_succ']
  by_cases hlow : 0x40000000 ≤ c.low
  · refine ⟨true :: false :: tail, ⟨true, false :: tail, ?_, rfl⟩, ?_, ?_⟩
    · rw [rcFlush, Config.quarter, decide_eq_true hlow, hsplit, Bool.not_true]
    all_goals
      rw [hwindow, Bool.toNat_true, Bool.toNat_false]
      omega
  · refine ⟨false :: true :: tail, ⟨false, true :: tail, ?_, rfl⟩, ?_, ?_⟩
    · rw [rcFlush, Config.quarter, decide_eq_false hlow, hsplit, Bool.not_false]
    all_goals
      rw [hwindow, Bool.toNat_true, Bool.toNat_false]
      omega

/-! ## One iteration (R208) -/

/-- Before an iteration the decoder sees one bit more: its window, rebased and shifted, is the window after it. -/
theorem RcRegion.emit_defers (r : RcRegion) {pending : Nat} {R D : Bits} (h : rcDefers (r.emit pending).2 R D) :
    ∃ D', rcDefers pending ((r.emit pending).1 ++ R) D' ∧ D.drop 32 = D'.drop 33 ∧ r.base ≤ rcWindow 32 D' ∧
      rcWindow 32 D = 2 * (rcWindow 32 D' - r.base) + (D'.getD 32 false).toNat := by
  have hwindow : ∀ b : Bool, b.toNat * 2 ^ 32 + rcWindow 32 D =
      2 * rcWindow 32 (b :: D) + ((b :: D).getD 32 false).toNat := fun b => by rw [← rcWindow_cons, ← rcWindow_succ]
  cases r with
  | top =>
    obtain rfl := rcDefers_zero h
    have hw := hwindow false
    rw [Bool.toNat_false] at hw
    exact ⟨false :: R, ⟨false, R, rfl, rfl⟩, rfl, Nat.zero_le _, by rw [RcRegion.base]; omega⟩
  | bottom =>
    obtain rfl := rcDefers_zero h
    have hw := hwindow true
    have hbit := ((true :: R).getD 32 false).toNat_lt
    rw [Bool.toNat_true] at hw
    exact ⟨true :: R, ⟨true, R, rfl, rfl⟩, rfl, by rw [RcRegion.base, Config.half]; omega,
      by rw [RcRegion.base, Config.half]; omega⟩
  | middle =>
    obtain ⟨b, X, rfl, rfl⟩ := h
    have hlong : b.toNat * 2 ^ 32 + ((!b).toNat * 2 ^ 31 + rcWindow 31 X) =
        2 * rcWindow 32 (b :: (!b) :: X) + ((b :: (!b) :: X).getD 32 false).toNat := by
      rw [← rcWindow_succ, rcWindow_cons, rcWindow_cons]
    have hshort : rcWindow 32 (b :: X) = b.toNat * 2 ^ 31 + rcWindow 31 X := rcWindow_cons 31 b X
    have hpair : b.toNat * 2 ^ 32 + (!b).toNat * 2 ^ 31 = b.toNat * 2 ^ 31 + 2 ^ 31 := by cases b <;> rfl
    have hbit := ((b :: (!b) :: X).getD 32 false).toNat_lt
    refine ⟨b :: (!b) :: X, ⟨b, (!b) :: X, ?_, rfl⟩, rfl, ?_, ?_⟩
    · simp [RcRegion.emit, rcEmit, List.replicate_succ']
    · rw [RcRegion.base, Config.quarter]
      omega
    · rw [RcRegion.base, Config.quarter]
      omega

/-- A stream ahead of the encoder after an iteration was, with the bits emitted, ahead of it before; and a decoder that
follows before the iteration follows after it. -/
theorem RcEncoder.Ahead.shift {c : RcEncoder} {r : RcRegion} {R D : Bits} (hopen : RcOpen c.low c.high)
    (hr : rcRegion c.low c.high = some r) (h : (c.shift r).Ahead R D) :
    ∃ D', c.Ahead ((r.emit c.pending).1 ++ R) D' ∧
      ∀ d : RcDecoder, d.Follows c D' → (d.shift r).Follows (c.shift r) D := by
  obtain ⟨D', hdefers, hdrop, hbase, hwindow⟩ := r.emit_defers h.defers
  have hinside := And.intro h.low_le h.le_high
  rw [hwindow] at hinside
  obtain ⟨hlow, hhigh⟩ := (rcShift_inside_iff hopen hr hbase _).1 hinside
  refine ⟨D', ⟨hdefers, hlow, hhigh⟩, fun d hd => ⟨?_, ?_, ?_, ?_⟩⟩
  · exact congrArg (rcShift r · false) hd.low
  · exact congrArg (rcShift r · true) hd.high
  · have hbit : (bitGetZero d.bits).1 = D'.getD 32 false := by
      rw [bitGetZero_fst, hd.bits, List.getD_eq_getElem?_getD, List.getElem?_drop, List.getD_eq_getElem?_getD]
    rw [RcDecoder.shift, hbit, hd.value, rcShift_eq hopen hr hhigh, hwindow]
  · rw [RcDecoder.shift, bitGetZero_snd, hd.bits, List.drop_drop, hdrop]

/-! ## Loops (R208, R223) -/

/-- The same over the encoder's and the decoder's loop. -/
theorem RcEncoder.Ahead.renorm (n : Nat) : ∀ (c : RcEncoder) (R D : Bits), RcOpen c.low c.high →
    (rcRenormEncode n c).2.Ahead R D →
    ∃ D', c.Ahead ((rcRenormEncode n c).1 ++ R) D' ∧
      ∀ d : RcDecoder, d.Follows c D' → (rcRenormDecode n d).Follows (rcRenormEncode n c).2 D := by
  induction n with
  | zero => intro c R D _ h; exact ⟨D, h, fun d hd => hd⟩
  | succ n ih =>
    intro c R D hopen h
    cases hr : rcRegion c.low c.high with
    | none =>
      rw [rcRenormEncode_of_none hr] at h ⊢
      exact ⟨D, h, fun d hd => by rwa [rcRenormDecode_of_none (by rw [hd.low, hd.high, hr])]⟩
    | some r =>
      rw [rcRenormEncode_of_some hr] at h ⊢
      obtain ⟨D₁, hahead, hfollow⟩ := ih (c.shift r) R D (rcShift_open hopen hr) h
      obtain ⟨D', hahead', hfollow'⟩ := hahead.shift hopen hr
      refine ⟨D', by rwa [List.append_assoc], fun d hd => ?_⟩
      rw [rcRenormDecode_of_some (by rw [hd.low, hd.high, hr])]
      exact hfollow _ (hfollow' d hd)

/-- What lies ahead of the narrowed interval lies ahead of the interval, and a decoder that follows finds the symbol. -/
theorem RcEncoder.Ahead.narrow {F : FreqTable} (hF : rcAccepts F) {b : Byte} {c : RcEncoder} {l h : Nat} {R D : Bits}
    (hlow : c.low ≤ c.high) (hn : rcNarrow F.cumulative b c.low c.high = some (l, h))
    (hahead : RcEncoder.Ahead ⟨l, h, c.pending⟩ R D) :
    c.Ahead R D ∧ ∀ d : RcDecoder, d.Follows c D →
      rcSymbol F.cumulative d = b ∧ RcDecoder.Follows { d with low := l, high := h } ⟨l, h, c.pending⟩ D := by
  obtain ⟨hdefers, hl, hh⟩ := hahead
  obtain ⟨-, -, hle, -, hle'⟩ := rcNarrow_eq_some hF hlow hn
  refine ⟨⟨hdefers, hle.trans hl, hh.trans hle'⟩, fun d hd => ⟨?_, rfl, rfl, hd.value, hd.bits⟩⟩
  rw [← hd.low, ← hd.high] at hlow hn
  exact rcSymbol_eq hF hlow hn (hd.value ▸ hl) (hd.value ▸ hh)

/-- The bits of a plane and of the flush, with anything after them, lie ahead of the encoder; a decoder that follows it
delivers the plane and ends with the encoder's interval, having read a bit for each bit emitted or deferred (R226). -/
theorem rcDecodeLoop_rcBits {F : FreqTable} (hF : rcAccepts F) (tail : Bits) : ∀ (B : List Byte) (c : RcEncoder)
    (q : Bits × RcEncoder), RcSettled c.low c.high → rcBits F.cumulative B c = some q →
    ∃ D, c.Ahead (q.1 ++ (rcFlush q.2 ++ tail)) D ∧ ∀ (i : Nat) (d : RcDecoder), d.Follows c D →
      ∃ d', rcDecodeLoop F.cumulative B.length i d = .ok (B, d') ∧ d'.low = q.2.low ∧ d'.high = q.2.high ∧
        d'.pos + c.pending = d.pos + q.1.length + q.2.pending := by
  intro B
  induction B with
  | nil =>
    intro c q hc h
    cases h
    obtain ⟨D, hahead⟩ := rcFlush_ahead hc tail
    exact ⟨D, hahead, fun i d hd => ⟨d, rfl, hd.low, hd.high, rfl⟩⟩
  | cons b B ih =>
    intro c q hc h
    obtain ⟨l, u, x, c₁, r, hn, hopen, hrenorm, hc₁, -, hr, rfl⟩ := rcBits_cons_settled hF hc h
    obtain ⟨D₁, hahead₁, hloop⟩ := ih c₁ r hc₁ hr
    have hagrees := rcRenormDecode_agrees rcFuel ⟨l, u, c.pending⟩
    have hback := RcEncoder.Ahead.renorm rcFuel ⟨l, u, c.pending⟩ (r.1 ++ (rcFlush r.2 ++ tail)) D₁ hopen
    rw [hrenorm] at hagrees hback
    obtain ⟨D, hahead, hfollow⟩ := hback hahead₁
    obtain ⟨hahead', hsymbol⟩ := hahead.narrow hF hc.isOpen.lt.le hn
    refine ⟨D, by rwa [List.append_assoc], fun i d hd => ?_⟩
    obtain ⟨hb, hd₁⟩ := hsymbol d hd
    obtain ⟨d', hd', hlow, hhigh, hpos⟩ := hloop (i + 1) _ (hfollow _ hd₁)
    obtain ⟨-, -, hread⟩ := hagrees { d with low := l, high := u } rfl rfl
    have hnd : rcNarrow F.cumulative (rcSymbol F.cumulative d) d.low d.high = some (l, u) := by
      rw [hb, hd.low, hd.high, hn]
    refine ⟨d', by rw [List.length_cons, rcDecodeLoop_succ hnd, hd', hb]; rfl, hlow, hhigh, ?_⟩
    change d'.pos + c.pending = d.pos + (x ++ r.1).length + r.2.pending
    rw [List.length_append]
    simp only at hread
    omega

/-- From the start, the decoder reads a plane back from its bits and the flush. -/
theorem rcDecodeLoop_of_stream {F : FreqTable} (hF : rcAccepts F) {B : List Byte} {w : Bits} {c : RcEncoder}
    (hw : rcBits F.cumulative B rcStart = some (w, c)) (tail : Bits) :
    ∃ d, rcDecodeLoop F.cumulative B.length 0 (rcDecoderStart (w ++ rcFlush c ++ tail)) = .ok (B, d) ∧
      d.low = c.low ∧ d.high = c.high ∧ d.pos = w.length + c.pending + 32 := by
  obtain ⟨D, hahead, hloop⟩ := rcDecodeLoop_rcBits hF tail B rcStart (w, c) rcStart_settled hw
  obtain rfl := rcDefers_zero hahead.defers
  obtain ⟨d, hd, hlow, hhigh, hpos⟩ := hloop 0 _ (rcDecoderStart_follows _)
  rw [rcDecoderStart_pos] at hpos
  have hread : d.pos = 32 + w.length + c.pending := hpos
  exact ⟨d, by rwa [List.append_assoc], hlow, hhigh, by omega⟩

/-! ## The commands (R227) -/

/-- A run of `RC_ENCODE` that ends without an error wrote the bits of the plane and of the flush, and they fit. -/
theorem exec_rcEncode_of_no_error {s t : State} (herr : s.error = false) (hin : s.inLen.toNat ≤ Config.inCap)
    (h : exec .rcEncode s = .next t) (ht : t.error = false) :
    rcAccepts s.freq ∧ ∃ w c, rcBits s.freq.cumulative s.input rcStart = some (w, c) ∧
      w.length + c.pending + 2 ≤ 8 * Config.outCap ∧
      t = s.rcDone (packBits (w ++ rcFlush c)) s.inLen.toNat (w.length + c.pending + 2) c.low c.high s.rcValue := by
  have hno : ∀ {e : Raise}, ¬ ∃ t', exec .rcEncode s = .next t' ∧ t'.faulted e.kind e.info := by
    rintro e ⟨t', ht', -, hfault, -⟩
    obtain rfl := Host.Outcome.next.inj (ht'.symm.trans h)
    exact nomatch hfault.symm.trans ht
  cases hok : rcTableOk s.freq with
  | false =>
    obtain ⟨-, hop, -⟩ := rcOps_of_bad (s := s.accept) hok [] []
    exact absurd ⟨_, exec_rcEncode herr hin, State.finish_faulted hop⟩ hno
  | true =>
    have hF := (rcAccepts_iff s.freq).2 hok
    cases hall : rcEncodeAll s.freq.cumulative Config.outCap s.input with
    | error e => exact absurd (exec_rcEncode_faulted herr hin hF hall) hno
    | ok q =>
      obtain ⟨w, c, hw, hfit, -⟩ := rcEncodeAll_ok hall
      exact ⟨hF, w, c, hw, hfit, Host.Outcome.next.inj (h.symm.trans (exec_rcEncode_done herr hin hF hw hfit))⟩

/-- Settles O37: the input of the decode starts with the bits of the plane and of the flush, so the decoder follows the
encoder from the start. -/
theorem rangeCoderRoundTrip : Obligations.RangeCoderRoundTrip := by
  intro s t u herr hin hout hexec ht huerr hfreq hcount huin hresult
  obtain ⟨hF, w, c, hw, hfit, rfl⟩ := exec_rcEncode_of_no_error herr hin hexec ht
  have hcap : Config.outCap = 1048576 := rfl
  have hlen : (w ++ rcFlush c).length = w.length + c.pending + 2 := by
    rw [List.length_append, rcFlush_length, Nat.add_assoc]
  rw [s.rcDone_result (packBits_length_le (hlen ▸ hfit))] at hresult
  obtain ⟨rest, hinput⟩ := hresult
  obtain ⟨tail, hbits⟩ := streamBits_packBits_append (w ++ rcFlush c) rest
  rw [hinput] at hbits
  obtain ⟨d, hloop, hlow, hhigh, hpos⟩ := rcDecodeLoop_of_stream hF hw tail
  rw [← hbits, s.input_length, ← hcount, ← hfreq] at hloop
  rw [← hfreq] at hF
  have hucount : u.expectedCount.toNat ≤ Config.outCap := hcount ▸ hout
  have houtPos : (BitVec.ofNat 32 (w.length + c.pending + 2)).toNat = w.length + c.pending + 2 :=
    Nat.mod_eq_of_lt (by omega)
  have hinPos : (BitVec.ofNat 32 d.pos).toNat = d.pos := Nat.mod_eq_of_lt (by omega)
  refine ⟨_, exec_rcDecode_done huerr huin hucount hF hloop, ⟨rfl, huerr⟩,
    u.rcDone_result (s.input_length ▸ hout), congrArg (BitVec.ofNat 32) hlow, congrArg (BitVec.ofNat 32) hhigh, ?_⟩
  calc (BitVec.ofNat 32 d.pos).toNat = w.length + c.pending + 2 + 30 := by rw [hinPos, hpos]
    _ = (BitVec.ofNat 32 (w.length + c.pending + 2)).toNat + 30 := by rw [houtPos]

end Sys2Proof.Machine
end

section
/-!
The tables of the rANS unit (spec/43_rans.md R241 to R243): the interval of a symbol within 4096, the symbol of a slot, the
table check, and `RANS_BUILD`.
-/
namespace Sys2Proof.Machine

/-! ## Symbols spread across their intervals (R241) -/

/-- Where each element of a list is repeated `f` times, the share of the element of index `i` starts after the shares of
those before it. -/
theorem getElem?_flatMap_replicate {α : Type} (f : α → Nat) : ∀ (l : List α) (i j : Nat) (hi : i < l.length), j < f l[i] →
    (l.flatMap fun a => List.replicate (f a) a)[((l.take i).map f).sum + j]? = some l[i] := by
  intro l
  induction l with
  | nil => intro i j hi _; exact absurd hi (Nat.not_lt_zero i)
  | cons a l ih =>
    intro i j hi hj
    rw [List.flatMap_cons]
    cases i with
    | zero =>
      have hj' : j < f a := hj
      rw [List.getElem?_append_left (by simpa using hj')]
      simp [hj']
    | succ i =>
      rw [List.take_succ_cons, List.map_cons, List.sum_cons, Nat.add_assoc,
        List.getElem?_append_right (by simp), List.length_replicate, Nat.add_sub_cancel_left]
      exact ih i j (by simpa using hi) hj

theorem ransSpread_eq (F : FreqTable) : ransSpread F = allBytes.flatMap fun b => List.replicate (F.at b) b := by
  rw [ransSpread, FreqTable.entries_eq, List.flatMap_map]

/-- The spread holds a symbol at every slot of its share. -/
theorem ransSpread_getElem? (F : FreqTable) (b : Byte) {j : Nat} (hj : j < F.at b) :
    (ransSpread F)[(F.counts.take b.toNat).sum + j]? = some b := by
  have hlt : b.toNat < allBytes.length := by rw [allBytes_length]; exact b.isLt
  have hb : allBytes[b.toNat] = b := by rw [allBytes_getElem, BitVec.ofNat_toNat, BitVec.setWidth_eq]
  have hspread := getElem?_flatMap_replicate F.at allBytes b.toNat j hlt (by rwa [hb])
  rwa [hb, List.map_take, ← FreqTable.counts_eq, ← ransSpread_eq] at hspread

/-- No cumulative sum exceeds the total. -/
theorem cumulative_le_total (F : FreqTable) (hT : F.total < 2 ^ 32) {k : Nat} (hk : k ≤ 256) :
    CumTable.at F.cumulative k ≤ F.total := by
  rw [cumulative_at F k hk hT, FreqTable.total, ← List.sum_take_add_sum_drop F.counts k]
  exact Nat.le_add_right _ _

section Normal
variable {F : FreqTable} (hF : F.total = 4096)
include hF

theorem total_lt_of_normal : F.total < 2 ^ 32 := by omega

/-- A symbol's interval lies within the 4096 slots. -/
theorem cumulative_add_le (b : Byte) : CumTable.at F.cumulative b.toNat + F.at b ≤ 4096 := by
  rw [← cumulative_succ F (total_lt_of_normal hF) b, ← hF]
  exact cumulative_le_total F (total_lt_of_normal hF) b.isLt

/-- A slot of a symbol's interval is that symbol's (R241). -/
theorem ransSymtab_getElem {b : Byte} {k : Nat} (hk : k < 4096) (hlo : CumTable.at F.cumulative b.toNat ≤ k)
    (hhi : k < CumTable.at F.cumulative b.toNat + F.at b) : (ransSymtab F)[k] = b := by
  have hT := total_lt_of_normal hF
  obtain ⟨j, rfl⟩ := Nat.exists_eq_add_of_le hlo
  rw [ransSymtab, tableOf_getElem, List.getD_eq_getElem?_getD, cumulative_at F _ b.isLt.le hT,
    ransSpread_getElem? F b (by omega), Option.getD_some]

/-- Every slot lies in some symbol's interval: the binary search over the sums finds one. -/
theorem exists_interval {k : Nat} (hk : k < 4096) :
    ∃ b : Byte, CumTable.at F.cumulative b.toNat ≤ k ∧ k < CumTable.at F.cumulative b.toNat + F.at b := by
  have hT := total_lt_of_normal hF
  obtain ⟨hlt, hlo, hhi⟩ := rcSearch_spec F.cumulative k 8 0 256 (by decide) (by decide)
    (by rw [cumulative_zero F hT]; exact Nat.zero_le k) (by rw [cumulative_last F hT, hF]; exact hk)
  have hb : (BitVec.ofNat 8 (rcSearch F.cumulative k 8 0 256)).toNat = rcSearch F.cumulative k 8 0 256 :=
    Nat.mod_eq_of_lt hlt
  refine ⟨BitVec.ofNat 8 (rcSearch F.cumulative k 8 0 256), by rwa [hb], ?_⟩
  rwa [← cumulative_succ F hT, hb]

/-- The state's slot belongs to the symbol found when it lies in the symbol's interval. -/
theorem ransSymbol_eq {b : Byte} {x : Nat} (hlo : CumTable.at F.cumulative b.toNat ≤ x % 4096)
    (hhi : x % 4096 < CumTable.at F.cumulative b.toNat + F.at b) : ransSymbol (ransSymtab F) x = b :=
  ransSymtab_getElem hF (Nat.mod_lt x (by decide)) hlo hhi

/-- The state's slot lies in the interval of the symbol found. -/
theorem ransSymbol_interval (x : Nat) :
    CumTable.at F.cumulative (ransSymbol (ransSymtab F) x).toNat ≤ x % 4096 ∧
    x % 4096 < CumTable.at F.cumulative (ransSymbol (ransSymtab F) x).toNat + F.at (ransSymbol (ransSymtab F) x) := by
  obtain ⟨b, hlo, hhi⟩ := exists_interval hF (Nat.mod_lt x (by decide : 0 < 4096))
  rw [ransSymbol_eq hF hlo hhi]
  exact ⟨hlo, hhi⟩

end Normal

/-! ## The commands (R242, R243, R248, R253) -/

theorem exec_ransBuild {s : State} (herr : s.error = false) :
    exec .ransBuild s = .next (s.accept.finish ransBuildFootprint (ransBuildOp s.accept)) :=
  congrArg Host.Outcome.next (State.command_of_ok _ herr)

theorem exec_ransEncode {s : State} (herr : s.error = false) (hin : s.inLen.toNat ≤ Config.inCap) :
    exec .ransEncode s = .next (s.accept.finish ransCodeFootprint (ransEncodeOp [] s.accept)) := by
  refine congrArg Host.Outcome.next ?_
  rw [State.command_of_ok _ herr, State.withInput_of_le (s := s.accept) _ hin]

theorem exec_ransDecode {s : State} (herr : s.error = false) (hin : s.inLen.toNat ≤ Config.inCap)
    (hcount : s.expectedCount.toNat ≤ Config.outCap) :
    exec .ransDecode s = .next (s.accept.finish ransCodeFootprint (ransDecodeOp s.input s.accept)) := by
  refine congrArg Host.Outcome.next ?_
  rw [State.command_of_ok _ herr, State.withInput_of_le (s := s.accept) _ hin,
    State.withCount_of_le (s := s.accept) _ hcount]
  rfl

/-- With a table of sum 4096 `RANS_BUILD` completes (R243). -/
theorem exec_ransBuild_done {s : State} (herr : s.error = false) (hF : s.freq.total = 4096) :
    exec .ransBuild s = .next (s.accept.ransBuild.setCursors 0 0 0).complete := by
  rw [exec_ransBuild herr]
  rcases ransBuildOp_cases s.accept with ⟨hbad, -⟩ | ⟨-, hop⟩
  · exact absurd hF hbad
  · rw [hop, State.finish_ok]

/-- A table of another sum stops each operation of the rANS unit. -/
theorem ransOps_of_bad {s : State} (hbad : s.freq.total ≠ 4096) (pre P : List Byte) :
    ransBuildOp s = .error formatError ∧ ransEncodeOp pre s = .error formatError ∧
      ransDecodeOp P s = .error formatError := by
  refine ⟨?build, ?encode, ?decode⟩
  case build => exact (ransBuildOp_cases s).elim (·.2) fun h => absurd h.1 hbad
  case encode => exact (ransEncodeOp_cases pre s).elim (·.2) fun h => absurd h.1 hbad
  case decode => exact (ransDecodeOp_cases P s).elim (·.2) fun h => absurd h.1 hbad

/-- An operation that raises leaves `FREQ` as it was, where the command does not list it. -/
theorem State.finish_error_freq {s : State} {fp : Footprint} {r : Except Raise State} {e : Raise} (h : r = .error e)
    (hfp : fp.freq = false) : (s.finish fp r).freq = s.freq := by
  rw [h, State.finish_error]
  exact State.takeFault_freq_of_not _ hfp

/-- Settles O38: the check stands first in each operation, and none of the three commands lists `FREQ` among its writes. -/
theorem ransChecksItsTable : Obligations.RansChecksItsTable := by
  intro s herr hbad i hi hin hcount
  obtain ⟨hbuild, hencode, hdecode⟩ := ransOps_of_bad (s := s.accept) hbad [] s.input
  simp only [List.mem_cons, List.not_mem_nil, or_false] at hi
  rcases hi with rfl | rfl | rfl
  · exact ⟨_, exec_ransBuild herr, State.finish_faulted hbuild, State.finish_error_freq hbuild rfl⟩
  · exact ⟨_, exec_ransEncode herr (hin (by decide)), State.finish_faulted hencode, State.finish_error_freq hencode rfl⟩
  · exact ⟨_, exec_ransDecode herr (hin (by decide)) (hcount rfl), State.finish_faulted hdecode,
      State.finish_error_freq hdecode rfl⟩

/-- Settles O39: the sums are those of the range coder, and a slot is its interval's symbol. -/
theorem ransBuildSpreadsTheSymbols : Obligations.RansBuildSpreadsTheSymbols := by
  intro s herr hF
  have hT := total_lt_of_normal hF
  refine ⟨_, exec_ransBuild_done herr hF, ⟨rfl, herr⟩, cumulative_zero s.freq hT, cumulative_succ s.freq hT,
    (cumulative_last s.freq hT).trans hF, fun k b hlo hhi => ?slots, ⟨rfl, rfl, rfl⟩,
    ⟨rfl, rfl, rfl, rfl, rfl, rfl, rfl, rfl⟩, rfl, ⟨rfl, rfl, rfl, rfl⟩, ⟨⟨rfl, rfl, rfl⟩, rfl, rfl⟩, fun _ => rfl⟩
  case slots => exact ransSymtab_getElem hF k.isLt hlo (cumulative_succ s.freq hT b ▸ hhi)

end Sys2Proof.Machine
end

section
/-!
One step of the rANS coder (spec/43_rans.md R245, R249, R251, R254): the update and its inverse, the bytes that a state
gives off, and the refill that takes them back.
-/
namespace Sys2Proof.Machine

/-- The states that both coders hold between symbols (R244). -/
structure RansSettled (x : Nat) : Prop where
  low : 2 ^ 32 ≤ x
  high : x < 2 ^ 40

/-! ## The update and its inverse (R245, R251) -/

theorem ransUpdate_eq (f c x : Nat) : ransUpdate f c x = 4096 * (x / f) + (x % f + c) := by
  rw [ransUpdate, Nat.shiftLeft_eq, Nat.mul_comm, Nat.add_assoc]

/-- The slot of an updated state. -/
theorem ransUpdate_mod {f c x : Nat} (h : x % f + c < 4096) : ransUpdate f c x % 4096 = x % f + c := by
  rw [ransUpdate_eq, Nat.mul_add_mod, Nat.mod_eq_of_lt h]

theorem ransUpdate_div {f c x : Nat} (h : x % f + c < 4096) : ransUpdate f c x / 4096 = x / f := by
  rw [ransUpdate_eq, Nat.mul_add_div (by decide), Nat.div_eq_of_lt h, Nat.add_zero]

/-- The decoder's update undoes the encoder's. -/
theorem ransBack_ransUpdate {f c x : Nat} (h : x % f + c < 4096) : ransBack f c (ransUpdate f c x) = x := by
  rw [ransBack, ransUpdate_div h, ransUpdate_mod h, Nat.add_sub_cancel, Nat.div_add_mod]

/-- A state between the bounds of the renormalisation is settled by the update (R249). -/
theorem ransUpdate_settled {f c x : Nat} (h : x % f + c < 4096) (hlo : f * 2 ^ 20 ≤ x) (hhi : x < f * 2 ^ 28) :
    RansSettled (ransUpdate f c x) := by
  have hf : 0 < f := Nat.pos_of_mul_pos_right (Nat.zero_lt_of_lt hhi)
  have hdiv : 2 ^ 20 ≤ x / f := (Nat.le_div_iff_mul_le hf).2 (by rwa [Nat.mul_comm])
  have hdiv' : x / f < 2 ^ 28 := Nat.div_lt_of_lt_mul hhi
  rw [ransUpdate_eq]
  exact ⟨by omega, by omega⟩

section Normal
variable {F : FreqTable} (hF : F.total = 4096)
include hF

/-- The slot that an update makes lies in the symbol's interval. -/
theorem ransUpdate_slot_lt {b : Byte} (hb : F.at b ≠ 0) (x : Nat) :
    x % F.at b + CumTable.at F.cumulative b.toNat < 4096 := by
  have hmod := Nat.mod_lt x (Nat.pos_of_ne_zero hb)
  have hle := cumulative_add_le hF b
  omega

/-- The slot of an updated state finds the symbol (R254). -/
theorem ransSymbol_ransUpdate {b : Byte} (hb : F.at b ≠ 0) (x : Nat) :
    ransSymbol (ransSymtab F) (ransUpdate (F.at b) (CumTable.at F.cumulative b.toNat) x) = b := by
  have hmod := Nat.mod_lt x (Nat.pos_of_ne_zero hb)
  have hslot := ransUpdate_mod (ransUpdate_slot_lt hF hb x)
  exact ransSymbol_eq hF (by omega) (by omega)

end Normal

/-- Settles O40: quotient and slot of the updated state give the symbol and the old state. -/
theorem theRansDecoderStepUndoesTheEncoderStep : Obligations.TheRansDecoderStepUndoesTheEncoderStep := by
  intro F b x hF hb hlo hhi
  have hslot := ransUpdate_slot_lt hF hb x
  obtain ⟨hlow, hhigh⟩ := ransUpdate_settled hslot hlo hhi
  exact ⟨hlow, hhigh, ransSymbol_ransUpdate hF hb x, ransBack_ransUpdate hslot⟩

/-! ## The bytes a state gives off (R245, R246) -/

/-- A state gives off at most `m` bytes when `m` of them bring it below the bound. -/
theorem ransShed_length_le_iff (bound : Nat) : ∀ (n m x : Nat), m < n →
    ((ransShed bound n x).2.length ≤ m ↔ x < bound * 256 ^ m) := by
  intro n
  induction n with
  | zero => intro m x hm; exact absurd hm (Nat.not_lt_zero m)
  | succ n ih =>
    intro m x hm
    rw [ransShed]
    by_cases hb : bound ≤ x
    · rw [if_pos hb, List.length_cons]
      cases m with
      | zero => simpa using hb
      | succ m =>
        rw [Nat.add_le_add_iff_right, ih m (x / 256) (by omega), Nat.div_lt_iff_lt_mul (by decide), Nat.pow_succ,
          Nat.mul_assoc]
    · rw [if_neg hb]
      have hle : bound ≤ bound * 256 ^ m := Nat.le_mul_of_pos_right _ (Nat.pow_pos (by decide))
      exact iff_of_true (Nat.zero_le m) (by omega)

/-- Each byte given off divides the state by 256. -/
theorem ransShed_fst (bound : Nat) : ∀ n x : Nat,
    (ransShed bound n x).1 = x / 256 ^ (ransShed bound n x).2.length := by
  intro n
  induction n with
  | zero => intro x; exact (Nat.div_one x).symm
  | succ n ih =>
    intro x
    rw [ransShed]
    by_cases hb : bound ≤ x
    · rw [if_pos hb, List.length_cons, Nat.pow_succ', ← Nat.div_div_eq_div_mul]
      exact ih (x / 256)
    · rw [if_neg hb]
      exact (Nat.div_one x).symm

/-- The bytes given off are the low bytes of the state, least significant first. -/
theorem ransShed_snd (bound : Nat) : ∀ n x : Nat,
    (ransShed bound n x).2 =
      (List.range (ransShed bound n x).2.length).map fun k => BitVec.ofNat 8 (x / 256 ^ k) := by
  intro n
  induction n with
  | zero => intro x; rfl
  | succ n ih =>
    intro x
    rw [ransShed]
    by_cases hb : bound ≤ x
    · rw [if_pos hb, List.length_cons, List.range_succ_eq_map, List.map_cons, List.map_map, Nat.pow_zero, Nat.div_one]
      refine congrArg (BitVec.ofNat 8 x :: ·) ((ih (x / 256)).trans (List.map_congr_left fun k _ => ?_))
      rw [Function.comp_apply, Nat.pow_succ', Nat.div_div_eq_div_mul]
    · rw [if_neg hb]
      rfl

/-- A lower bound that a byte off leaves standing survives them all. -/
theorem ransShed_ge {bound low : Nat} (h : low * 256 ≤ bound) : ∀ n x : Nat, low ≤ x → low ≤ (ransShed bound n x).1 := by
  intro n
  induction n with
  | zero => intro x hx; exact hx
  | succ n ih =>
    intro x hx
    rw [ransShed]
    by_cases hb : bound ≤ x
    · rw [if_pos hb]
      exact ih (x / 256) (by omega)
    · rw [if_neg hb]
      exact hx

/-- The renormalisation before a symbol leaves a settled state between the bounds of the update, in at most two bytes
(R249). -/
theorem ransShed_settled {f x : Nat} (hf : f ≠ 0) (hf' : f ≤ 4096) (hx : RansSettled x) :
    f * 2 ^ 20 ≤ (ransShed (f <<< 28) ransFuel x).1 ∧ (ransShed (f <<< 28) ransFuel x).1 < f * 2 ^ 28 ∧
    (ransShed (f <<< 28) ransFuel x).2.length ≤ 2 := by
  obtain ⟨hlow, hhigh⟩ := hx
  rw [Nat.shiftLeft_eq]
  have hlen : (ransShed (f * 2 ^ 28) ransFuel x).2.length ≤ 2 :=
    (ransShed_length_le_iff _ _ 2 x (by decide)).2 (by omega)
  refine ⟨ransShed_ge (by omega) _ x (by omega), ?_, hlen⟩
  have hbelow := (ransShed_length_le_iff (f * 2 ^ 28) ransFuel _ x (Nat.lt_of_le_of_lt hlen (by decide))).1 (Nat.le_refl _)
  rw [ransShed_fst]
  exact Nat.div_lt_of_lt_mul (by rwa [Nat.mul_comm])

/-! ## The refill (R251, R252) -/

theorem ransRefill_of_ge {x : Nat} (hx : 2 ^ 32 ≤ x) (P : List Byte) : ransRefill x P = some (x, P) := by
  have hnot : ¬ x < Config.ransL := Nat.not_lt.2 hx
  cases P <;> rw [ransRefill, if_neg hnot]

theorem ransRefill_nil {x : Nat} (hx : x < 2 ^ 32) : ransRefill x [] = none := if_pos hx

theorem ransRefill_cons {x : Nat} (hx : x < 2 ^ 32) (b : Byte) (P : List Byte) :
    ransRefill x (b :: P) = ransRefill (x * 256 + b.toNat) P := if_pos hx

/-- The refill takes back the bytes that a state below 2^40 gave off, the last one first, whatever the bound was (R254). -/
theorem ransRefill_ransShed (bound : Nat) : ∀ (n x : Nat) (P : List Byte), x < 2 ^ 40 →
    ransRefill (ransShed bound n x).1 ((ransShed bound n x).2.reverse ++ P) = ransRefill x P := by
  intro n
  induction n with
  | zero => intro x P _; rfl
  | succ n ih =>
    intro x P hx
    rw [ransShed]
    by_cases hb : bound ≤ x
    · have hback : x / 256 * 256 + (BitVec.ofNat 8 x).toNat = x := by rw [BitVec.toNat_ofNat]; omega
      rw [if_pos hb, List.reverse_cons, List.append_assoc, ih (x / 256) _ (by omega), List.singleton_append,
        ransRefill_cons (by omega), hback]
    · rw [if_neg hb]
      rfl

/-- A state that needs no byte is settled as it is: from 2^32 on, one byte more would pass 2^40. -/
theorem ransSettled_of_ge {x k : Nat} (hx : 2 ^ 32 ≤ x) (hk : (x + 1) * 256 ^ k ≤ 2 ^ 40) : RansSettled x ∧ k = 0 := by
  cases k with
  | zero => exact ⟨⟨hx, by omega⟩, rfl⟩
  | succ k =>
    have hpos : 0 < 256 ^ k := Nat.pow_pos (by decide)
    have hle : x + 1 ≤ (x + 1) * 256 ^ k := Nat.le_mul_of_pos_right _ hpos
    rw [Nat.pow_succ, ← Nat.mul_assoc] at hk
    omega

/-- A byte read keeps the least number of bytes still needed. -/
theorem ransRefill_least {x k : Nat} (b : Byte) (hx : x < 2 ^ 32) (hk : (x + 1) * 256 ^ k ≤ 2 ^ 40) :
    (x * 256 + b.toNat + 1) * 256 ^ (k - 1) ≤ 2 ^ 40 := by
  have hb : x * 256 + b.toNat + 1 ≤ (x + 1) * 256 := by have hlt := b.isLt; omega
  cases k with
  | zero => rw [Nat.zero_sub, Nat.pow_zero, Nat.mul_one]; omega
  | succ k =>
    calc (x * 256 + b.toNat + 1) * 256 ^ k ≤ (x + 1) * 256 * 256 ^ k := Nat.mul_le_mul_right _ hb
      _ = (x + 1) * 256 ^ (k + 1) := by rw [Nat.pow_succ', Nat.mul_assoc]
      _ ≤ 2 ^ 40 := hk

/-- All that a refill can do from a state that needs at least `k` bytes and at most `m`: the stream ends before, or the
state is settled after reading that many. -/
theorem ransRefill_cases : ∀ (P : List Byte) (x k m : Nat), (x + 1) * 256 ^ k ≤ 2 ^ 40 → 2 ^ 32 ≤ x * 256 ^ m →
    (ransRefill x P = none ∧ P.length < m) ∨
    ∃ y rest, ransRefill x P = some (y, rest) ∧ RansSettled y ∧ rest.length + k ≤ P.length ∧
      P.length ≤ rest.length + m := by
  intro P
  induction P with
  | nil =>
    intro x k m hk hm
    rcases Nat.lt_or_ge x (2 ^ 32) with hx | hx
    · refine .inl ⟨ransRefill_nil hx, Nat.pos_of_ne_zero ?_⟩
      rintro rfl
      omega
    · obtain ⟨hsettled, rfl⟩ := ransSettled_of_ge hx hk
      exact .inr ⟨x, [], ransRefill_of_ge hx _, hsettled, Nat.le_refl _, Nat.le_add_right _ _⟩
  | cons b P ih =>
    intro x k m hk hm
    rcases Nat.lt_or_ge x (2 ^ 32) with hx | hx
    · obtain ⟨m, rfl⟩ : ∃ m', m = m' + 1 := Nat.exists_eq_succ_of_ne_zero (by rintro rfl; omega)
      have hm' : 2 ^ 32 ≤ (x * 256 + b.toNat) * 256 ^ m :=
        calc 2 ^ 32 ≤ x * 256 * 256 ^ m := by rwa [Nat.mul_assoc, ← Nat.pow_succ']
          _ ≤ (x * 256 + b.toNat) * 256 ^ m := Nat.mul_le_mul_right _ (Nat.le_add_right _ _)
      rw [ransRefill_cons hx, List.length_cons]
      rcases ih _ (k - 1) m (ransRefill_least b hx hk) hm' with ⟨hnone, hlt⟩ | ⟨y, rest, hsome, hy, hge, hle⟩
      · exact .inl ⟨hnone, by omega⟩
      · exact .inr ⟨y, rest, hsome, hy, by omega, by omega⟩
    · obtain ⟨hsettled, rfl⟩ := ransSettled_of_ge hx hk
      exact .inr ⟨x, b :: P, ransRefill_of_ge hx _, hsettled, Nat.le_refl _, Nat.le_add_right _ _⟩

theorem leadingZeros_zero_cons (P : List Byte) : leadingZeros (0 :: P) = leadingZeros P + 1 := rfl

theorem leadingZeros_cons {b : Byte} (hb : b ≠ 0) (P : List Byte) : leadingZeros (b :: P) = 0 := by
  rw [leadingZeros, List.takeWhile_cons_of_neg (by simpa using hb), List.length_nil]

/-- The start of the decoder reads the leading zero bytes and five more, which settle the state (R252), unless the stream
ends before. -/
theorem ransRefill_start : ∀ P : List Byte,
    (ransRefill 0 P = none ∧ P.length < 5 + leadingZeros P) ∨
    ∃ x rest, ransRefill 0 P = some (x, rest) ∧ RansSettled x ∧ P.length = rest.length + (5 + leadingZeros P) := by
  intro P
  induction P with
  | nil => exact .inl ⟨ransRefill_nil (by decide), by decide⟩
  | cons b P ih =>
    rw [ransRefill_cons (by decide), Nat.zero_mul, Nat.zero_add, List.length_cons]
    by_cases hb : b = 0
    · subst hb
      rw [leadingZeros_zero_cons]
      rcases ih with ⟨hnone, hlt⟩ | ⟨x, rest, hsome, hx, hlen⟩
      · exact .inl ⟨hnone, by omega⟩
      · exact .inr ⟨x, rest, hsome, hx, by omega⟩
    · have hzeros := leadingZeros_cons hb P
      have hpos : 0 < b.toNat := Nat.pos_of_ne_zero fun h => hb (BitVec.eq_of_toNat_eq h)
      have hlt := b.isLt
      rw [hzeros]
      rcases ransRefill_cases P b.toNat 4 4 (by omega) (by omega) with ⟨hnone, hshort⟩ | ⟨x, rest, hsome, hx, hge, hle⟩
      · exact .inl ⟨hnone, by omega⟩
      · exact .inr ⟨x, rest, hsome, hx, by omega⟩

end Sys2Proof.Machine
end

section
/-!
`RANS_ENCODE` (spec/43_rans.md R244 to R250): what a completed coder of the rANS unit leaves, the state and the bytes of a
plane, the encode where it fits and where it stops, and the command.
-/
namespace Sys2Proof.Machine

/-! ## The end of a rANS coder (R248, R253) -/

/-- The state after a coder of the rANS unit that raised nothing: the tables, the result in `OUT`, the cursors, and
`RANS_X`. -/
def State.ransDone (s : State) (out : List Byte) (inPos x : Nat) : State :=
  State.complete { (s.accept.ransBuild.setOut out).setCursors out.length inPos out.length with
    ransX := BitVec.ofNat 64 x }

section Done
variable (s : State) {out : List Byte} {inPos x : Nat}

theorem State.ransDone_ransX (hx : x < 2 ^ 40) : (s.ransDone out inPos x).ransX.toNat = x :=
  Nat.mod_eq_of_lt (by omega)

theorem State.ransDone_inPos (hin : inPos < 2 ^ 32) : (s.ransDone out inPos x).inPos.toNat = inPos :=
  Nat.mod_eq_of_lt hin

variable (hfit : out.length ≤ Config.outCap)
include hfit

theorem State.ransDone_outLen : (s.ransDone out inPos x).outLen.toNat = out.length := by
  have hcap : Config.outCap = 1048576 := rfl
  exact Nat.mod_eq_of_lt (by omega)

theorem State.ransDone_result : (s.ransDone out inPos x).result = out :=
  State.result_of_setOut (m := s.mem) rfl (s.ransDone_outLen hfit) hfit

/-- What a coder of the rANS unit does not write (R248, R253). -/
theorem State.ransDone_frame :
    s.keepsOperands (s.ransDone out inPos x) ∧ (s.ransDone out inPos x).freq = s.freq ∧
    s.keepsHuffman (s.ransDone out inPos x) ∧ s.keepsRcBounds (s.ransDone out inPos x) ∧
    (s.ransDone out inPos x).rcValue = s.rcValue ∧ s.keepsOutsideOut (s.ransDone out inPos x) := by
  refine ⟨⟨rfl, rfl, rfl, rfl, rfl, rfl, rfl, rfl⟩, rfl, ⟨rfl, rfl, rfl, rfl⟩, ⟨rfl, rfl, rfl⟩, rfl, fun a ha => ?_⟩
  have hread := Memory.read_setOut s.mem out hfit a
  rw [ha] at hread
  exact hread

end Done

/-- The bytes of a result are what the host reads at each offset. -/
theorem State.outByte_of_result {t : State} {out : List Byte} (h : t.result = out) {k : Nat} (hk : k < out.length) :
    t.outByte k = out[k] := by
  subst h
  simp [State.result, State.outBytes]

/-! ## The state and the bytes of a plane (R244, R245) -/

@[simp] theorem ransPlane_nil (F : FreqTable) : ransPlane F [] = (0x100000000, []) := rfl

/-- The first symbol of a plane is coded last. -/
theorem ransPlane_cons (F : FreqTable) (b : Byte) (B : List Byte) :
    ransPlane F (b :: B) =
      ((ransCode F b (ransPlane F B).1).1, (ransPlane F B).2 ++ (ransCode F b (ransPlane F B).1).2) := by
  rw [ransPlane, List.reverse_cons, ransBytes_append, ransBytes_cons, ransBytes_nil, List.append_nil, ransPlane]

theorem ransCode_fst (F : FreqTable) (b : Byte) (x : Nat) :
    (ransCode F b x).1 =
      ransUpdate (F.at b) (CumTable.at F.cumulative b.toNat) (ransShed (F.at b <<< 28) ransFuel x).1 := by
  rw [ransCode]

theorem ransCode_snd (F : FreqTable) (b : Byte) (x : Nat) :
    (ransCode F b x).2 = (ransShed (F.at b <<< 28) ransFuel x).2 := by
  rw [ransCode]

section Normal
variable {F : FreqTable} (hF : F.total = 4096)
include hF

/-- One symbol keeps the state settled and takes at most two bytes (R249). -/
theorem ransCode_settled {b : Byte} {x : Nat} (hb : F.at b ≠ 0) (hx : RansSettled x) :
    RansSettled (ransCode F b x).1 ∧ (ransCode F b x).2.length ≤ 2 := by
  obtain ⟨hlo, hhi, hlen⟩ := ransShed_settled hb (hF ▸ F.at_le_total b) hx
  rw [ransCode_fst, ransCode_snd]
  exact ⟨ransUpdate_settled (ransUpdate_slot_lt hF hb _) hlo hhi, hlen⟩

/-- After a plane the state is settled, with at most two bytes a symbol (R249). -/
theorem ransPlane_settled : ∀ B : List Byte, (∀ b ∈ B, F.at b ≠ 0) →
    RansSettled (ransPlane F B).1 ∧ (ransPlane F B).2.length ≤ 2 * B.length := by
  intro B
  induction B with
  | nil =>
    intro _
    rw [ransPlane_nil]
    exact ⟨⟨by decide, by decide⟩, Nat.zero_le _⟩
  | cons b B ih =>
    intro hB
    obtain ⟨hb, hB⟩ := List.forall_mem_cons.1 hB
    obtain ⟨hx, hlen⟩ := ih hB
    obtain ⟨hcode, hcodelen⟩ := ransCode_settled hF hb hx
    rw [ransPlane_cons]
    exact ⟨hcode, by rw [List.length_append, List.length_cons]; omega⟩

end Normal

/-! ## The flush (R246) -/

/-- The five bytes of a settled state, most significant first, as they stand in the stream (R247, R250). -/
def ransHead (x : Nat) : List Byte := (ransShed 1 ransFuel x).2.reverse

section Settled
variable {x : Nat} (hx : RansSettled x)
include hx

theorem ransHead_length : (ransHead x).length = 5 := by
  obtain ⟨hlow, hhigh⟩ := hx
  have hle := (ransShed_length_le_iff 1 ransFuel 5 x (by decide)).2 (by omega)
  have hgt := mt (ransShed_length_le_iff 1 ransFuel 4 x (by decide)).1 (by omega)
  rw [ransHead, List.length_reverse]
  omega

theorem ransHead_getElem {k : Nat} (hk : k < (ransHead x).length) :
    (ransHead x)[k].toNat = x / 256 ^ (4 - k) % 256 := by
  have hlen := ransHead_length hx
  rw [ransHead, List.length_reverse] at hlen
  have hsnd := ransShed_snd 1 ransFuel x
  rw [hlen] at hsnd
  simp only [ransHead, hsnd, List.getElem_reverse, List.getElem_map, List.getElem_range, List.length_map, List.length_range,
    BitVec.toNat_ofNat]

/-- The flush leaves nothing of the state. -/
theorem ransShed_one_fst : (ransShed 1 ransFuel x).1 = 0 := by
  have hlen := ransHead_length hx
  rw [ransHead, List.length_reverse] at hlen
  rw [ransShed_fst, hlen]
  exact Nat.div_eq_of_lt hx.high

end Settled

/-! ## The encode (R248) -/

/-- What the loop raises, the encode raises. -/
theorem ransEncodeAll_of_loop_error {F : FreqTable} {C : CumTable} {room : Nat} {B : List Byte} {e : Raise}
    (h : ransEncodeLoop F C room B.reverse Config.ransL [] = .error e) : ransEncodeAll F C room B = .error e := by
  rw [ransEncodeAll, h]

/-- The loop comes to the first symbol of a plane when the bytes of the others fit. -/
theorem ransEncodeLoop_plane {F : FreqTable} {room : Nat} {B : List Byte} (rest : List Byte) (hB : ∀ b ∈ B, F.at b ≠ 0)
    (hfit : (ransPlane F B).2.length ≤ room) :
    ransEncodeLoop F F.cumulative room (B.reverse ++ rest) Config.ransL [] =
      ransEncodeLoop F F.cumulative room rest (ransPlane F B).1 (ransPlane F B).2.reverse := by
  rw [ransEncodeLoop_of_fits F room rest B.reverse Config.ransL [] (fun c hc => hB c (List.mem_reverse.1 hc))
    (by rw [List.length_nil, Nat.zero_add]; exact hfit), List.append_nil]
  rfl

/-- After symbols that fit, the flush is written where it fits too, and else reported under the plane's length. -/
theorem ransEncodeAll_of_plane {F : FreqTable} {room : Nat} {B : List Byte} (hF : F.total = 4096)
    (hB : ∀ b ∈ B, F.at b ≠ 0) (hfit : (ransPlane F B).2.length ≤ room) :
    ransEncodeAll F F.cumulative room B =
      if (ransPlane F B).2.length + 5 ≤ room then
        .ok ((ransPlane F B).1, ransHead (ransPlane F B).1 ++ (ransPlane F B).2.reverse)
      else .error (capacityError B.length) := by
  have hlen := ransHead_length (ransPlane_settled hF B hB).1
  rw [ransHead, List.length_reverse] at hlen
  have hloop := ransEncodeLoop_plane [] hB hfit
  rw [List.append_nil] at hloop
  rw [ransEncodeAll, hloop]
  simp only [ransEncodeLoop]
  rw [ransEmit_eq _ _ _ _ _ _ (by rwa [List.length_reverse]), hlen, List.length_reverse]
  split_ifs <;> rfl

/-- A symbol without a frequency is reported when the bytes of those after it fit (R352). -/
theorem ransEncodeAll_of_no_frequency {F : FreqTable} {room : Nat} {pre post : List Byte} {b : Byte}
    (hpost : ∀ c ∈ post, F.at c ≠ 0) (hb : F.at b = 0) (hfit : (ransPlane F post).2.length ≤ room) :
    ransEncodeAll F F.cumulative room (pre ++ b :: post) = .error (internalError pre.length) := by
  refine ransEncodeAll_of_loop_error ?_
  rw [List.reverse_append, List.reverse_cons, List.append_assoc, List.singleton_append, ransEncodeLoop_plane _ hpost hfit,
    ransEncodeLoop, if_pos hb, List.length_reverse]

/-- A symbol whose bytes pass the end of `OUT` is reported, and so is the flush (R353). -/
theorem ransEncodeAll_of_overflow {F : FreqTable} {room i : Nat} {B : List Byte} (hF : F.total = 4096)
    (h : overflowsAt .rans F room i B) : ransEncodeAll F F.cumulative room B = .error (capacityError i) := by
  rcases h with ⟨pre, post, b, rfl, rfl, hz, hfit, hover⟩ | ⟨rfl, hz, hfit, hover⟩
  · obtain ⟨hb, hpost⟩ := List.forall_mem_cons.1 hz
    refine ransEncodeAll_of_loop_error ?_
    rw [ransPlane, List.reverse_cons] at hover
    rw [List.reverse_append, List.reverse_cons, List.append_assoc, List.singleton_append, ← List.length_reverse (as := pre)]
    exact ransEncodeLoop_of_overflow F room post.reverse b pre.reverse _ (fun c hc => hpost c (List.mem_reverse.1 hc)) hb
      hfit hover
  · rw [ransEncodeAll_of_plane hF hz hfit, if_neg (Nat.not_le.2 hover)]

/-- A loop that comes through met no symbol without a frequency, and the bytes of all fitted. -/
theorem ransEncodeLoop_ok (F : FreqTable) (room : Nat) : ∀ (u : List Byte) (x : Nat) (e : List Byte)
    (q : Nat × List Byte), e.length ≤ room → ransEncodeLoop F F.cumulative room u x e = .ok q →
    (∀ c ∈ u, F.at c ≠ 0) ∧ e.length + (ransBytes F u x).2.length ≤ room := by
  intro u
  induction u with
  | nil =>
    intro x e q he _
    exact ⟨fun c hc => absurd hc List.not_mem_nil, he⟩
  | cons b u ih =>
    intro x e q he h
    by_cases hb : F.at b = 0
    · rw [ransEncodeLoop, if_pos hb] at h
      exact nomatch h
    · rw [ransEncodeLoop_cons F room b u x e he hb] at h
      split_ifs at h with hfit
      obtain ⟨hu, hrest⟩ := ih _ _ q (by rwa [List.length_append, List.length_reverse, Nat.add_comm]) h
      rw [List.length_append, List.length_reverse] at hrest
      refine ⟨List.forall_mem_cons.2 ⟨hb, hu⟩, ?_⟩
      rw [ransBytes_cons, List.length_append]
      omega

/-- An encode that comes through met only symbols of the table, and their bytes and the flush fitted. -/
theorem ransEncodeAll_ok {F : FreqTable} {room : Nat} {B : List Byte} {q : Nat × List Byte} (hF : F.total = 4096)
    (h : ransEncodeAll F F.cumulative room B = .ok q) :
    (∀ b ∈ B, F.at b ≠ 0) ∧ (ransPlane F B).2.length + 5 ≤ room := by
  cases hloop : ransEncodeLoop F F.cumulative room B.reverse Config.ransL [] with
  | error e => exact nomatch (ransEncodeAll_of_loop_error hloop).symm.trans h
  | ok r =>
    obtain ⟨hB, hfit⟩ := ransEncodeLoop_ok F room B.reverse Config.ransL [] r (Nat.zero_le room) hloop
    have hB' : ∀ b ∈ B, F.at b ≠ 0 := fun b hb => hB b (List.mem_reverse.2 hb)
    rw [List.length_nil, Nat.zero_add] at hfit
    rw [ransEncodeAll_of_plane hF hB' hfit] at h
    split_ifs at h with hflush
    exact ⟨hB', hflush⟩

/-! ## The command (R248) -/

/-- The stream of a plane as it stands in `OUT` (R247): the state, then the bytes of the symbols, the last emitted first. -/
def ransStream (F : FreqTable) (B : List Byte) : List Byte :=
  ransHead (ransPlane F B).1 ++ (ransPlane F B).2.reverse

theorem ransStream_length {F : FreqTable} {B : List Byte} (hF : F.total = 4096) (hB : ∀ b ∈ B, F.at b ≠ 0) :
    (ransStream F B).length = (ransPlane F B).2.length + 5 := by
  rw [ransStream, List.length_append, ransHead_length (ransPlane_settled hF B hB).1, List.length_reverse, Nat.add_comm]

/-- What the encode raises, the command records. -/
theorem exec_ransEncode_faulted {s : State} {e : Raise} (herr : s.error = false) (hin : s.inLen.toNat ≤ Config.inCap)
    (hF : s.freq.total = 4096) (hall : ransEncodeAll s.freq s.freq.cumulative Config.outCap s.input = .error e) :
    ∃ t, exec .ransEncode s = .next t ∧ t.faulted e.kind e.info := by
  refine ⟨_, exec_ransEncode herr hin, State.finish_faulted ?_⟩
  rcases ransEncodeOp_cases [] s.accept with ⟨hbad, -⟩ | ⟨-, ⟨e', he', hop⟩ | ⟨q, hq, -⟩⟩
  · exact absurd hF hbad
  · obtain rfl := Except.error.inj (hall.symm.trans he')
    exact hop
  · exact nomatch hall.symm.trans hq

/-- Where the encode comes through, the stream and the state of the plane are the result. -/
theorem exec_ransEncode_done {s : State} (herr : s.error = false) (hin : s.inLen.toNat ≤ Config.inCap)
    (hF : s.freq.total = 4096) (hB : ∀ b ∈ s.input, s.freq.at b ≠ 0)
    (hfit : (ransPlane s.freq s.input).2.length + 5 ≤ Config.outCap) :
    exec .ransEncode s = .next
      (s.ransDone (ransStream s.freq s.input) s.inLen.toNat (ransPlane s.freq s.input).1) := by
  have hall := ransEncodeAll_of_plane hF hB (room := Config.outCap) (by omega)
  rw [if_pos hfit] at hall
  rw [exec_ransEncode herr hin]
  rcases ransEncodeOp_cases [] s.accept with ⟨hbad, -⟩ | ⟨-, ⟨e, he, -⟩ | ⟨q, hq, hop⟩⟩
  · exact absurd hF hbad
  · exact nomatch hall.symm.trans he
  · obtain rfl := Except.ok.inj (hall.symm.trans hq)
    rw [hop, State.finish_ok, List.nil_append, List.length_nil, Nat.zero_add]
    rfl

/-- An empty plane gives the initial state's five bytes (R248). -/
theorem ransStream_nil (F : FreqTable) : ransStream F [] = [0x01, 0x00, 0x00, 0x00, 0x00] := by
  rw [ransStream, ransPlane_nil]
  decide

/-- The stream, the cursors and the state of a completed encode (R248, R250). -/
theorem State.ransDone_encoded {s : State} (herr : s.error = false) (hF : s.freq.total = 4096)
    (hB : ∀ b ∈ s.input, s.freq.at b ≠ 0) (hfit : (ransPlane s.freq s.input).2.length + 5 ≤ Config.outCap) :
    let q := ransPlane s.freq s.input
    let t := s.ransDone (ransStream s.freq s.input) s.inLen.toNat q.1
    t.completed ∧ t.cursorsAre (q.2.length + 5) s.inLen.toNat (q.2.length + 5) ∧
    t.ransX.toNat = q.1 ∧ 2 ^ 32 ≤ t.ransX.toNat ∧ t.ransX.toNat < 2 ^ 40 ∧
    (∀ k < 5, (t.outByte k).toNat = t.ransX.toNat / 256 ^ (4 - k) % 256) ∧ t.result.drop 5 = q.2.reverse ∧
    (s.inLen = 0 → t.result = [0x01, 0x00, 0x00, 0x00, 0x00]) ∧
    t.cum = s.freq.cumulative ∧ t.symtab = ransSymtab s.freq ∧ s.keepsOperands t ∧ t.freq = s.freq ∧
    s.keepsHuffman t ∧ s.keepsRcBounds t ∧ t.rcValue = s.rcValue ∧ s.keepsOutsideOut t := by
  intro q t
  obtain ⟨hx, -⟩ := ransPlane_settled hF s.input hB
  have hlen := ransStream_length hF hB
  have hhead := ransHead_length hx
  have hfit' : (ransStream s.freq s.input).length ≤ Config.outCap := hlen ▸ hfit
  have hresult : t.result = ransHead q.1 ++ q.2.reverse := s.ransDone_result hfit'
  have houtLen : t.outLen.toNat = q.2.length + 5 := (s.ransDone_outLen hfit').trans hlen
  have hransX : t.ransX.toNat = q.1 := s.ransDone_ransX hx.high
  obtain ⟨hoperands, hfreq, hhuffman, hbounds, hvalue, hout⟩ : s.keepsOperands t ∧ _ := s.ransDone_frame hfit'
  refine ⟨⟨rfl, herr⟩, ⟨houtLen, s.ransDone_inPos s.inLen.isLt, houtLen⟩, hransX, hx.low.trans_eq hransX.symm,
    hransX.trans_lt hx.high, fun k hk => ?head, ?bytes, fun hzero => ?empty, rfl, rfl, hoperands, hfreq, hhuffman, hbounds,
    hvalue, hout⟩
  case head =>
    have hk' : k < (ransHead q.1).length := hhead.symm ▸ hk
    rw [State.outByte_of_result hresult (by rw [List.length_append]; omega), List.getElem_append_left hk',
      ransHead_getElem hx hk', hransX]
  case bytes => rw [hresult, List.drop_left' hhead]
  case empty => rw [hresult, ← ransStream_nil s.freq, ← State.input_eq_nil hzero, ransStream]

/-- Settles O41: the state and the bytes of the plane by their bounds. -/
theorem ransEncodeCompletesWithinItsBound : Obligations.RansEncodeCompletesWithinItsBound := by
  intro s herr hin hF hB q
  refine ⟨?bound, fun hfit => ⟨_, exec_ransEncode_done herr hin hF hB hfit, State.ransDone_encoded herr hF hB hfit⟩⟩
  case bound =>
    obtain ⟨-, hlen⟩ := ransPlane_settled hF s.input hB
    rwa [s.input_length] at hlen

/-- Settles O42: the encode by what stops it. -/
theorem ransEncodeFaultsAtTheSymbolItCannotWrite : Obligations.RansEncodeFaultsAtTheSymbolItCannotWrite := by
  refine ⟨fun s pre post b herr hin hF hinput hpost hb hfit => ?frequency, fun s i herr hin hF hover => ?overflow⟩
  case frequency => exact exec_ransEncode_faulted herr hin hF (hinput ▸ ransEncodeAll_of_no_frequency hpost hb hfit)
  case overflow => exact exec_ransEncode_faulted herr hin hF (ransEncodeAll_of_overflow hF hover)

end Sys2Proof.Machine
end

section
/-!
`RANS_DECODE` (spec/43_rans.md R251 to R256, R259): one symbol from a settled state, the loop on a stream that is long enough
and on one that ends before, and the command.
-/
namespace Sys2Proof.Machine

/-! ## One symbol (R251, R255) -/

/-- The state after the decoder's update and before the refill, in the symbol that the slot finds. -/
def ransStep (F : FreqTable) (x : Nat) : Nat :=
  let b := ransSymbol (ransSymtab F) x
  ransBack (F.at b) (CumTable.at F.cumulative b.toNat) x

/-- The update leaves a state that at most two bytes settle (R255). -/
theorem ransStep_bounds {F : FreqTable} {x : Nat} (hF : F.total = 4096) (hx : RansSettled x) :
    2 ^ 20 ≤ ransStep F x ∧ ransStep F x < 2 ^ 40 := by
  obtain ⟨hlo, hhi⟩ := ransSymbol_interval hF x
  have hf : F.at (ransSymbol (ransSymtab F) x) ≤ 4096 := hF ▸ F.at_le_total _
  obtain ⟨hlow, hhigh⟩ := hx
  rw [ransStep, ransBack]
  generalize F.at (ransSymbol (ransSymtab F) x) = f at hhi hf ⊢
  have hmul : 1 * (x / 4096) ≤ f * (x / 4096) := Nat.mul_le_mul_right _ (by omega)
  have hmul' : f * (x / 4096 + 1) ≤ 4096 * 2 ^ 28 := Nat.mul_le_mul hf (by omega)
  rw [Nat.mul_add, Nat.mul_one] at hmul'
  exact ⟨by omega, by omega⟩

/-- The refill after a symbol: the stream ends within two bytes, or the state is settled by at most two. -/
theorem ransRefill_step {F : FreqTable} {x : Nat} (hF : F.total = 4096) (hx : RansSettled x) (P : List Byte) :
    (ransRefill (ransStep F x) P = none ∧ P.length < 2) ∨
    ∃ y rest, ransRefill (ransStep F x) P = some (y, rest) ∧ RansSettled y ∧ rest.length ≤ P.length ∧
      P.length ≤ rest.length + 2 := by
  obtain ⟨hlo, hhi⟩ := ransStep_bounds hF hx
  exact ransRefill_cases P _ 0 2 (by omega) (by omega)

/-! ## The loop (R253) -/

section Loop
variable {F : FreqTable} {n i x : Nat} {bs : List Byte}

/-- A refill that the stream does not hold raises the symbol's index (R351). -/
theorem ransDecodeLoop_of_none (h : ransRefill (ransStep F x) bs = none) :
    ransDecodeLoop F F.cumulative (ransSymtab F) (n + 1) i x bs = .error (decodeError i) := by
  rw [ransStep] at h
  rw [ransDecodeLoop, h]

/-- The loop with its first symbol refilled. -/
theorem ransDecodeLoop_of_some {y : Nat} {rest : List Byte} (h : ransRefill (ransStep F x) bs = some (y, rest)) :
    ransDecodeLoop F F.cumulative (ransSymtab F) (n + 1) i x bs =
      (ransDecodeLoop F F.cumulative (ransSymtab F) n (i + 1) y rest).map
        fun q => (ransSymbol (ransSymtab F) x :: q.1, q.2) := by
  rw [ransStep] at h
  rw [ransDecodeLoop, h]
  cases hr : ransDecodeLoop F F.cumulative (ransSymtab F) n (i + 1) y rest <;> simp only [hr, Except.map]

end Loop

/-- All that the loop can do from a settled state: it stops on a stream of fewer than two bytes a symbol, or it delivers its
symbols, keeps the state settled, and reads at most two bytes a symbol (R255). -/
theorem ransDecodeLoop_cases {F : FreqTable} (hF : F.total = 4096) : ∀ (n i x : Nat) (bs : List Byte), RansSettled x →
    (∃ e, ransDecodeLoop F F.cumulative (ransSymtab F) n i x bs = .error e ∧ bs.length < 2 * n) ∨
    ∃ out y rest, ransDecodeLoop F F.cumulative (ransSymtab F) n i x bs = .ok (out, y, rest) ∧ out.length = n ∧
      RansSettled y ∧ rest.length ≤ bs.length ∧ bs.length ≤ rest.length + 2 * n := by
  intro n
  induction n with
  | zero => intro i x bs hx; exact .inr ⟨[], x, bs, rfl, rfl, hx, Nat.le_refl _, Nat.le_refl _⟩
  | succ n ih =>
    intro i x bs hx
    rcases ransRefill_step hF hx bs with ⟨hnone, hlt⟩ | ⟨y, rest, hsome, hy, hge, hle⟩
    · exact .inl ⟨_, ransDecodeLoop_of_none hnone, by omega⟩
    · rw [ransDecodeLoop_of_some hsome]
      rcases ih (i + 1) y rest hy with ⟨e, he, hlt⟩ | ⟨out, z, left, hok, hlen, hz, hge', hle'⟩
      · exact .inl ⟨e, by rw [he]; rfl, by omega⟩
      · exact .inr ⟨_, z, left, by rw [hok]; rfl, by rw [List.length_cons, hlen], hz, by omega, by omega⟩

/-- A loop raises what it meets after symbols that were delivered. -/
theorem ransDecodeLoop_error_after {F : FreqTable} {m : Nat} {e : Raise} : ∀ (k i x : Nat) (bs : List Byte)
    (q : List Byte × Nat × List Byte), ransDecodeLoop F F.cumulative (ransSymtab F) k i x bs = .ok q →
    ransDecodeLoop F F.cumulative (ransSymtab F) m (i + k) q.2.1 q.2.2 = .error e →
    ransDecodeLoop F F.cumulative (ransSymtab F) (k + m) i x bs = .error e := by
  intro k
  induction k with
  | zero =>
    intro i x bs q h he
    cases h
    rwa [Nat.zero_add]
  | succ k ih =>
    intro i x bs q h he
    cases hr : ransRefill (ransStep F x) bs with
    | none => exact nomatch (ransDecodeLoop_of_none hr).symm.trans h
    | some p =>
      rw [ransDecodeLoop_of_some hr] at h
      cases hloop : ransDecodeLoop F F.cumulative (ransSymtab F) k (i + 1) p.1 p.2 with
      | error e' => rw [hloop] at h; exact nomatch h
      | ok r =>
        rw [hloop] at h
        obtain rfl := Except.ok.inj h
        rw [Nat.add_right_comm, ransDecodeLoop_of_some hr,
          ih (i + 1) _ _ r hloop (by rwa [Nat.add_right_comm, Nat.add_assoc])]
        rfl

/-- A refill that the stream does not hold after `k` symbols raises their number (R351). -/
theorem ransDecodeLoop_of_exhausted {F : FreqTable} {n k x : Nat} {bs : List Byte} {q : List Byte × Nat × List Byte}
    (hk : k < n) (h : ransDecodeLoop F F.cumulative (ransSymtab F) k 0 x bs = .ok q)
    (hnone : ransRefill (ransStep F q.2.1) q.2.2 = none) :
    ransDecodeLoop F F.cumulative (ransSymtab F) n 0 x bs = .error (decodeError k) := by
  obtain ⟨m, rfl⟩ : ∃ m, n = k + (m + 1) := ⟨n - k - 1, by omega⟩
  exact ransDecodeLoop_error_after k 0 x bs q h (by rw [ransDecodeLoop_of_none hnone, Nat.zero_add])

/-! ## The decode (R253, R259) -/

section All
variable {F : FreqTable} {n : Nat} {P : List Byte}

theorem ransDecodeAll_zero : ransDecodeAll F F.cumulative (ransSymtab F) 0 P = .ok ([], 0, P) := if_pos rfl

theorem ransDecodeAll_of_none (hn : n ≠ 0) (h : ransRefill 0 P = none) :
    ransDecodeAll F F.cumulative (ransSymtab F) n P = .error (decodeError 0) := by
  rw [ransDecodeAll, if_neg hn, h]

theorem ransDecodeAll_of_some {x : Nat} {bs : List Byte} (hn : n ≠ 0) (h : ransRefill 0 P = some (x, bs)) :
    ransDecodeAll F F.cumulative (ransSymtab F) n P = ransDecodeLoop F F.cumulative (ransSymtab F) n 0 x bs := by
  rw [ransDecodeAll, if_neg hn, h]

/-- A decode of at least one symbol that comes through loaded the state and reads at most two bytes a symbol after it; the
state it ends in is settled. -/
theorem ransDecodeAll_ok {q : List Byte × Nat × List Byte} (hF : F.total = 4096) (hn : n ≠ 0)
    (h : ransDecodeAll F F.cumulative (ransSymtab F) n P = .ok q) :
    q.1.length = n ∧ RansSettled q.2.1 ∧ q.2.2.length + (5 + leadingZeros P) ≤ P.length ∧
      P.length ≤ q.2.2.length + (5 + leadingZeros P) + 2 * n := by
  rcases ransRefill_start P with ⟨hnone, -⟩ | ⟨x, bs, hsome, hx, hlen⟩
  · exact nomatch (ransDecodeAll_of_none hn hnone).symm.trans h
  · rw [ransDecodeAll_of_some hn hsome] at h
    rcases ransDecodeLoop_cases hF n 0 x bs hx with ⟨e, he, -⟩ | ⟨out, y, rest, hok, hout, hy, hge, hle⟩
    · exact nomatch he.symm.trans h
    · obtain rfl := Except.ok.inj (hok.symm.trans h)
      exact ⟨hout, hy, by rw [hlen]; exact Nat.add_le_add_right hge _, by rw [hlen]; dsimp only; omega⟩

theorem ransDecodeAll_length {q : List Byte × Nat × List Byte} (hF : F.total = 4096)
    (h : ransDecodeAll F F.cumulative (ransSymtab F) n P = .ok q) : q.1.length = n := by
  by_cases hn : n = 0
  · subst hn
    obtain rfl := Except.ok.inj (ransDecodeAll_zero.symm.trans h)
    rfl
  · exact (ransDecodeAll_ok hF hn h).1

/-- A stream with two bytes a symbol after the load is decoded (R255). -/
theorem ransDecodeAll_of_long (hF : F.total = 4096) (hlong : 5 + leadingZeros P + 2 * n ≤ P.length) :
    ∃ q, ransDecodeAll F F.cumulative (ransSymtab F) n P = .ok q := by
  by_cases hn : n = 0
  · exact ⟨_, hn ▸ ransDecodeAll_zero⟩
  rcases ransRefill_start P with ⟨-, hshort⟩ | ⟨x, bs, hsome, hx, hlen⟩
  · omega
  · rw [ransDecodeAll_of_some hn hsome]
    rcases ransDecodeLoop_cases hF n 0 x bs hx with ⟨-, -, hshort⟩ | ⟨out, y, rest, hok, -⟩
    · omega
    · exact ⟨_, hok⟩

end All

/-! ## The command (R253) -/

section Command
variable {s : State} (herr : s.error = false) (hin : s.inLen.toNat ≤ Config.inCap)
  (hcount : s.expectedCount.toNat ≤ Config.outCap) (hF : s.freq.total = 4096)
include herr hin hcount hF

/-- What the decode raises, the command records. -/
theorem exec_ransDecode_faulted {e : Raise}
    (hall : ransDecodeAll s.freq s.freq.cumulative (ransSymtab s.freq) s.expectedCount.toNat s.input = .error e) :
    ∃ t, exec .ransDecode s = .next t ∧ t.faulted e.kind e.info := by
  refine ⟨_, exec_ransDecode herr hin hcount, State.finish_faulted ?_⟩
  rcases ransDecodeOp_cases s.input s.accept with ⟨hbad, -⟩ | ⟨-, ⟨e', he', hop⟩ | ⟨q, hq, -⟩⟩
  · exact absurd hF hbad
  · obtain rfl := Except.error.inj (hall.symm.trans he')
    exact hop
  · exact nomatch hall.symm.trans hq

/-- Where the decode comes through, its symbols and its state are the result. -/
theorem exec_ransDecode_done {q : List Byte × Nat × List Byte}
    (hall : ransDecodeAll s.freq s.freq.cumulative (ransSymtab s.freq) s.expectedCount.toNat s.input = .ok q) :
    exec .ransDecode s = .next (s.ransDone q.1 (s.inLen.toNat - q.2.2.length) q.2.1) := by
  have hlen := ransDecodeAll_length hF hall
  rw [exec_ransDecode herr hin hcount]
  rcases ransDecodeOp_cases s.input s.accept with ⟨hbad, -⟩ | ⟨-, ⟨e, he, -⟩ | ⟨q', hq', hop⟩⟩
  · exact absurd hF hbad
  · exact nomatch hall.symm.trans he
  · obtain rfl := Except.ok.inj (hall.symm.trans hq')
    rw [hop, State.finish_ok, State.ransDone, hlen, s.input_length]
    rfl

omit hin in
/-- The cursors and the state of a completed decode (R253, R255, R259). -/
theorem State.ransDone_decoded {q : List Byte × Nat × List Byte}
    (hall : ransDecodeAll s.freq s.freq.cumulative (ransSymtab s.freq) s.expectedCount.toNat s.input = .ok q) :
    let t := s.ransDone q.1 (s.inLen.toNat - q.2.2.length) q.2.1
    t.completed ∧ t.outLen = s.expectedCount ∧ t.outPos = s.expectedCount ∧
    (s.expectedCount = 0 → t.inPos = 0 ∧ t.ransX = 0) ∧
    (s.expectedCount ≠ 0 → 5 + leadingZeros s.input ≤ t.inPos.toNat ∧
      t.inPos.toNat ≤ 5 + leadingZeros s.input + 2 * s.expectedCount.toNat ∧
      2 ^ 32 ≤ t.ransX.toNat ∧ t.ransX.toNat < 2 ^ 40) ∧
    t.cum = s.freq.cumulative ∧ t.symtab = ransSymtab s.freq ∧ s.keepsOperands t ∧ t.freq = s.freq ∧
    s.keepsHuffman t ∧ s.keepsRcBounds t ∧ t.rcValue = s.rcValue ∧ s.keepsOutsideOut t := by
  intro t
  have hlen := ransDecodeAll_length hF hall
  have hfit : q.1.length ≤ Config.outCap := hlen ▸ hcount
  have houtLen : t.outLen = s.expectedCount := BitVec.eq_of_toNat_eq ((s.ransDone_outLen hfit).trans hlen)
  have hinPos : t.inPos.toNat = s.inLen.toNat - q.2.2.length :=
    s.ransDone_inPos (Nat.lt_of_le_of_lt (Nat.sub_le _ _) s.inLen.isLt)
  obtain ⟨hoperands, hfreq, hhuffman, hbounds, hvalue, hout⟩ : s.keepsOperands t ∧ _ := s.ransDone_frame hfit
  refine ⟨⟨rfl, herr⟩, houtLen, houtLen, fun hzero => ?empty, fun hne => ?loaded, rfl, rfl, hoperands, hfreq, hhuffman,
    hbounds, hvalue, hout⟩
  case empty =>
    rw [hzero] at hall
    obtain rfl := Except.ok.inj (ransDecodeAll_zero.symm.trans hall)
    exact ⟨BitVec.eq_of_toNat_eq (hinPos.trans (by rw [s.input_length]; exact Nat.sub_self _)), rfl⟩
  case loaded =>
    have hn : s.expectedCount.toNat ≠ 0 := fun h => hne (BitVec.eq_of_toNat_eq h)
    obtain ⟨-, hx, hge, hle⟩ := ransDecodeAll_ok hF hn hall
    rw [s.input_length] at hge hle
    have hransX : t.ransX.toNat = q.2.1 := s.ransDone_ransX hx.high
    exact ⟨by omega, by omega, hx.low.trans_eq hransX.symm, hransX.trans_lt hx.high⟩

end Command

/-- Settles O43: each of the three kinds of stream comes through. -/
theorem ransDecodeCompletesOnALongEnoughStream : Obligations.RansDecodeCompletesOnALongEnoughStream := by
  intro s herr hin hcount hF hkind
  obtain ⟨q, hall⟩ :
      ∃ q, ransDecodeAll s.freq s.freq.cumulative (ransSymtab s.freq) s.expectedCount.toNat s.input = .ok q := by
    by_cases hn : s.expectedCount.toNat = 0
    · exact ⟨_, hn ▸ ransDecodeAll_zero⟩
    rcases hkind with hzero | hlong | ⟨x, bs, q, hload, hloop⟩
    · exact absurd (congrArg BitVec.toNat hzero) hn
    · exact ransDecodeAll_of_long hF (s.input_length ▸ hlong)
    · exact ⟨q, (ransDecodeAll_of_some hn hload).trans hloop⟩
  exact ⟨_, exec_ransDecode_done herr hin hcount hF hall, State.ransDone_decoded herr hcount hF hall⟩

/-- Settles O44: the load reads five bytes after the zeros, and the loop stops at the first refill that the stream does not
hold. -/
theorem ransDecodeReportsAnExhaustedStream : Obligations.RansDecodeReportsAnExhaustedStream := by
  intro s herr hin hcount hF
  refine ⟨fun hne hshort => ?load, fun k x y bs out left b hk hload hloop hb hnone => ?refill⟩
  case load =>
    have hn : s.expectedCount.toNat ≠ 0 := fun h => hne (BitVec.eq_of_toNat_eq h)
    rcases ransRefill_start s.input with ⟨hload, -⟩ | ⟨x, rest, -, -, hlen⟩
    · exact exec_ransDecode_faulted herr hin hcount hF (ransDecodeAll_of_none hn hload)
    · rw [s.input_length] at hlen
      omega
  case refill =>
    subst hb
    exact exec_ransDecode_faulted herr hin hcount hF (e := decodeError k)
      ((ransDecodeAll_of_some (Nat.ne_zero_of_lt hk) hload).trans (ransDecodeLoop_of_exhausted hk hloop hnone))

end Sys2Proof.Machine
end

section
/-!
The round trip of rANS (spec/43_rans.md R254, R256, R257): the decoder retraces the states of the encoder backwards, and so
does `RANS_DECODE` those of `RANS_ENCODE`.
-/
namespace Sys2Proof.Machine

/-! ## Retracing the states -/

section Normal
variable {F : FreqTable} (hF : F.total = 4096)
include hF

/-- The decoder finds the symbol that was coded, and the state that its bytes left (R254). -/
theorem ransStep_ransCode {b : Byte} (hb : F.at b ≠ 0) (x : Nat) :
    ransSymbol (ransSymtab F) (ransCode F b x).1 = b ∧
    ransStep F (ransCode F b x).1 = (ransShed (F.at b <<< 28) ransFuel x).1 := by
  have hsymbol := ransSymbol_ransUpdate hF hb (ransShed (F.at b <<< 28) ransFuel x).1
  rw [ransCode_fst]
  refine ⟨hsymbol, ?_⟩
  rw [ransStep, hsymbol]
  exact ransBack_ransUpdate (ransUpdate_slot_lt hF hb _)

/-- The refill after a coded symbol takes its bytes back and gives the state before it (R254). -/
theorem ransRefill_ransCode {b : Byte} {x : Nat} (hb : F.at b ≠ 0) (hx : RansSettled x) (P : List Byte) :
    ransRefill (ransStep F (ransCode F b x).1) ((ransCode F b x).2.reverse ++ P) = some (x, P) := by
  rw [(ransStep_ransCode hF hb x).2, ransCode_snd, ransRefill_ransShed _ _ _ _ hx.high, ransRefill_of_ge hx.low]

/-- From the state and the bytes of a plane the loop reads the plane back and ends in the encoder's initial state, whatever
follows. -/
theorem ransDecodeLoop_ransPlane (P : List Byte) : ∀ (B : List Byte) (i : Nat), (∀ b ∈ B, F.at b ≠ 0) →
    ransDecodeLoop F F.cumulative (ransSymtab F) B.length i (ransPlane F B).1 ((ransPlane F B).2.reverse ++ P) =
      .ok (B, 0x100000000, P) := by
  intro B
  induction B with
  | nil => intro i _; rfl
  | cons b B ih =>
    intro i hB
    obtain ⟨hb, hB⟩ := List.forall_mem_cons.1 hB
    obtain ⟨hx, -⟩ := ransPlane_settled hF B hB
    rw [ransPlane_cons, List.length_cons, List.reverse_append, List.append_assoc,
      ransDecodeLoop_of_some (ransRefill_ransCode hF hb hx _), ih (i + 1) hB, (ransStep_ransCode hF hb _).1]
    rfl

/-- The decode of a plane's stream, and of any bytes after it, is the plane (R257). -/
theorem ransDecodeAll_ransStream {B : List Byte} (hne : B ≠ []) (hB : ∀ b ∈ B, F.at b ≠ 0) (P : List Byte) :
    ransDecodeAll F F.cumulative (ransSymtab F) B.length (ransStream F B ++ P) = .ok (B, 0x100000000, P) := by
  obtain ⟨hx, -⟩ := ransPlane_settled hF B hB
  have hload : ransRefill 0 (ransStream F B ++ P) = some ((ransPlane F B).1, (ransPlane F B).2.reverse ++ P) := by
    rw [ransStream, ransHead, List.append_assoc, ← ransShed_one_fst hx, ransRefill_ransShed _ _ _ _ hx.high,
      ransRefill_of_ge hx.low]
  rw [ransDecodeAll_of_some (mt List.length_eq_zero_iff.1 hne) hload]
  exact ransDecodeLoop_ransPlane hF P B 0 hB

end Normal

/-! ## The commands (R257) -/

/-- A run of `RANS_ENCODE` that ends without an error wrote the stream of the plane, and it fits. -/
theorem exec_ransEncode_of_no_error {s t : State} (herr : s.error = false) (hin : s.inLen.toNat ≤ Config.inCap)
    (h : exec .ransEncode s = .next t) (ht : t.error = false) :
    s.freq.total = 4096 ∧ (∀ b ∈ s.input, s.freq.at b ≠ 0) ∧
    (ransPlane s.freq s.input).2.length + 5 ≤ Config.outCap ∧
    t = s.ransDone (ransStream s.freq s.input) s.inLen.toNat (ransPlane s.freq s.input).1 := by
  have hno : ∀ {e : Raise}, ¬ ∃ t', exec .ransEncode s = .next t' ∧ t'.faulted e.kind e.info := by
    rintro e ⟨t', ht', -, hfault, -⟩
    obtain rfl := Host.Outcome.next.inj (ht'.symm.trans h)
    exact nomatch hfault.symm.trans ht
  by_cases hF : s.freq.total = 4096
  · cases hall : ransEncodeAll s.freq s.freq.cumulative Config.outCap s.input with
    | error e => exact absurd (exec_ransEncode_faulted herr hin hF hall) hno
    | ok q =>
      obtain ⟨hB, hfit⟩ := ransEncodeAll_ok hF hall
      exact ⟨hF, hB, hfit, Host.Outcome.next.inj (h.symm.trans (exec_ransEncode_done herr hin hF hB hfit))⟩
  · obtain ⟨-, hop, -⟩ := ransOps_of_bad (s := s.accept) hF [] []
    exact absurd ⟨_, exec_ransEncode herr hin, State.finish_faulted hop⟩ hno

/-- Settles O45: the input of the decode starts with the plane's stream; a plane of no symbol is decoded without a read. -/
theorem ransRoundTrip : Obligations.RansRoundTrip := by
  intro s t u herr hin hout hexec ht huerr hfreq hcount huin hresult
  obtain ⟨hF, hB, hfit, rfl⟩ := exec_ransEncode_of_no_error herr hin hexec ht
  have hlen := ransStream_length hF hB
  have hcap : Config.outCap = 1048576 := rfl
  have hfit' : (ransStream s.freq s.input).length ≤ Config.outCap := hlen ▸ hfit
  rw [s.ransDone_result hfit'] at hresult
  obtain ⟨rest, hinput⟩ := hresult
  have huF : u.freq.total = 4096 := hfreq ▸ hF
  have hucount : u.expectedCount.toNat ≤ Config.outCap := hcount ▸ hout
  by_cases hzero : s.inLen = 0
  case pos =>
    have hall : ransDecodeAll u.freq u.freq.cumulative (ransSymtab u.freq) u.expectedCount.toNat u.input =
        .ok ([], 0, u.input) := by
      rw [hcount, hzero]
      exact ransDecodeAll_zero
    refine ⟨_, exec_ransDecode_done huerr huin hucount huF hall, ⟨rfl, huerr⟩, ?_, fun hne => absurd hzero hne⟩
    rw [u.ransDone_result (Nat.zero_le _), State.input_eq_nil hzero]
  case neg =>
    have hne : s.input ≠ [] := fun h => hzero (BitVec.eq_of_toNat_eq (by rw [← s.input_length, h]; rfl))
    have hall := ransDecodeAll_ransStream hF hne hB rest
    rw [hinput, s.input_length, ← hcount, ← hfreq] at hall
    refine ⟨_, exec_ransDecode_done huerr huin hucount huF hall, ⟨rfl, huerr⟩,
      u.ransDone_result (s.input_length ▸ hout), fun _ => ⟨rfl, congrArg (BitVec.ofNat 32) ?_⟩⟩
    rw [← u.input_length, ← hinput, List.length_append, Nat.add_sub_cancel]

end Sys2Proof.Machine
end

section
/-!
The runs of the coders (spec/44_plane_and_system.md R281 to R283): what a unit's coder makes of a table and a plane or a
stream, apart from the state it runs in, and the state that a run leaves. A plane command and the unit's own command differ
in that state, in the bytes they put in front, and in the room left for the stream, and in nothing else.
-/
namespace Sys2Proof.Machine

/-- What a mapped result that is no error comes from. -/
theorem exists_of_map_ok {ε α β : Type} {f : α → β} {x : Except ε α} {y : β} (h : x.map f = .ok y) :
    ∃ a, x = .ok a ∧ f a = y := by
  cases x with
  | error e => cases h
  | ok a => exact ⟨a, rfl, Except.ok.inj h⟩

/-! ## Mode flags (R116) -/

/-- The mode flag that selects a backend. -/
def Backend.flag : Backend → Byte
  | .huffman => 0
  | .range => 1
  | .rans => 2

theorem backendOf_eq_some_iff {flag : Byte} {b : Backend} : backendOf flag = some b ↔ flag = b.flag := by
  constructor
  · intro h
    unfold backendOf at h
    split_ifs at h with h₀ h₁ h₂ <;> cases h <;> assumption
  · rintro rfl
    cases b <;> rfl

/-! ## Runs -/

/-- The working registers that a coder of a backend sets; `RC_VALUE` is set by the decoder alone (R220). -/
inductive Registers : Backend → Type where
  | huffman : Registers .huffman
  | range (low high pending : Word) (value : Option Word) : Registers .range
  | rans (x : BitVec 64) : Registers .rans

/-- What a coder that raised nothing delivers: its bytes, the two positions, and its working registers. -/
structure CoderRun (b : Backend) where
  out : List Byte
  inPos : Nat
  outPos : Nat
  regs : Registers b

/-- The run of a backend's encoder over a plane, with a table and the room that `OUT` leaves for the stream. -/
def encodeRun (F : FreqTable) (room : Nat) (B : List Byte) : (b : Backend) → Except Raise (CoderRun b)
  | .huffman =>
    (hufEncodeLoop (codeOf F) room 0 B ⟨[]⟩).map fun w => ⟨packBits w.bits, B.length, w.bits.length, .huffman⟩
  | .range =>
    if rcTableOk F then
      (rcEncodeAll F.cumulative room B).map fun q => ⟨packBits q.2.bits, B.length, q.2.bits.length,
        .range (BitVec.ofNat 32 q.1.low) (BitVec.ofNat 32 q.1.high) (BitVec.ofNat 32 q.1.pending) none⟩
    else .error formatError
  | .rans =>
    if ransTableOk F then
      (ransEncodeAll F F.cumulative room B).map fun q => ⟨q.2, B.length, q.2.length, .rans (BitVec.ofNat 64 q.1)⟩
    else .error formatError

/-- The run of a backend's decoder over a stream, with a table and the number of symbols expected. -/
def decodeRun (F : FreqTable) (n : Nat) (P : List Byte) : (b : Backend) → Except Raise (CoderRun b)
  | .huffman =>
    if F.total = n ∧ bitsNeeded F ≤ 8 * P.length then
      (hufDecodeSymbols (hufTree F) n (streamBits P)).map fun q => ⟨q.1, q.2, n, .huffman⟩
    else .error formatError
  | .range =>
    if rcTableOk F then
      (rcDecodeLoop F.cumulative n 0 (rcDecoderStart (streamBits P))).map fun q => ⟨q.1, q.2.pos, n,
        .range (BitVec.ofNat 32 q.2.low) (BitVec.ofNat 32 q.2.high) 0 (some (BitVec.ofNat 32 q.2.value))⟩
    else .error formatError
  | .rans =>
    if ransTableOk F then
      (ransDecodeAll F F.cumulative (ransSymtab F) n P).map fun q =>
        ⟨q.1, P.length - q.2.2.length, n, .rans (BitVec.ofNat 64 q.2.1)⟩
    else .error formatError

/-- The derived tables of a backend built from `FREQ`, and its working registers set. -/
def State.buildWith (s : State) {b : Backend} : Registers b → State
  | .huffman => s.hufBuild
  | .range low high pending value =>
    { s.rcBuild with rcLow := low, rcHigh := high, rcPending := pending, rcValue := value.getD s.rcValue }
  | .rans x => { s.ransBuild with ransX := x }

/-- The state that a run leaves before the epilogue, its bytes standing in `OUT` after those of `pre`. -/
def State.coded (s : State) {b : Backend} (pre : List Byte) (r : CoderRun b) : State :=
  ((s.buildWith r.regs).setOut (pre ++ r.out)).setCursors (pre.length + r.out.length) r.inPos r.outPos

/-- The unit encoder makes the run of its backend, and leaves the state of that run. -/
theorem planeEncodeOp_eq (b : Backend) (pre : List Byte) (s : State) :
    planeEncodeOp b pre s =
      (encodeRun s.freq (Config.outCap - pre.length) s.input b).map fun r => s.coded pre r := by
  cases b with
  | huffman =>
    rcases hufEncodeOp_cases pre s with ⟨w, hw, hop⟩ | ⟨e, he, hop⟩
    · change hufEncodeLoop (codeOf s.freq) _ _ _ _ = _ at hw
      rw [planeEncodeOp, hop, encodeRun, hw]
      simp only [Except.map, State.coded, packBits_length, State.input_length]
      rfl
    · change hufEncodeLoop (codeOf s.freq) _ _ _ _ = _ at he
      rw [planeEncodeOp, hop, encodeRun, he]
      rfl
  | range =>
    rcases rcEncodeOp_cases pre s with ⟨hbad, hop⟩ | ⟨hok, ⟨e, he, hop⟩ | ⟨q, hq, hop⟩⟩
    · simp only [planeEncodeOp, hop, encodeRun, hbad]
      rfl
    · simp only [planeEncodeOp, hop, encodeRun, hok, he]
      rfl
    · simp only [planeEncodeOp, hop, encodeRun, hok, hq, if_true, Except.map, State.coded, packBits_length,
        State.input_length]
      rfl
  | rans =>
    rcases ransEncodeOp_cases pre s with ⟨hbad, hop⟩ | ⟨hok, ⟨e, he, hop⟩ | ⟨q, hq, hop⟩⟩
    · simp only [planeEncodeOp, hop, encodeRun, mt (ransTableOk_iff _).1 hbad]
      rfl
    · simp only [planeEncodeOp, hop, encodeRun, (ransTableOk_iff _).2 hok, he]
      rfl
    · simp only [planeEncodeOp, hop, encodeRun, (ransTableOk_iff _).2 hok, hq, if_true, Except.map, State.coded,
        State.input_length]
      rfl

/-! ## The symbols that a decoder delivers -/

/-- The tree walk delivers as many symbols as it is asked for (R175). -/
theorem hufDecodeLoop_length {t : HufNode} : ∀ {n i : Nat} {bs : Bits} {q : List Byte × Bits},
    hufDecodeLoop t n i bs = .ok q → q.1.length = n := by
  intro n
  induction n with
  | zero => intro i bs q h; cases h; rfl
  | succ n ih =>
    intro i bs q h
    rw [hufDecodeLoop] at h
    cases hwalk : t.walk bs with
    | none => simp [hwalk] at h
    | some p =>
      cases hloop : hufDecodeLoop t n (i + 1) p.2 with
      | error e => simp [hwalk, hloop] at h
      | ok r =>
        simp only [hwalk, hloop, Except.ok.injEq] at h
        rw [← h, List.length_cons, ih hloop]

theorem FreqTable.total_of_no_symbol {F : FreqTable} (h : F.occurring = []) : F.total = 0 := by
  have hzero : ∀ b, F.at b = 0 := fun b => by
    by_contra hb
    have hmem := (F.mem_occurring b).2 hb
    rw [h] at hmem
    cases hmem
  rw [FreqTable.total_of_at hzero, List.map_const', List.sum_replicate_nat, Nat.mul_zero]

/-- A decoder that passed the check of the count delivers that many symbols, also from an empty or a one-leaf tree. -/
theorem hufDecodeSymbols_length {F : FreqTable} {n : Nat} {bs : Bits} {q : List Byte × Nat} (hn : F.total = n)
    (h : hufDecodeSymbols (hufTree F) n bs = .ok q) : q.1.length = n := by
  cases ht : hufTree F with
  | none =>
    rw [ht] at h
    cases h
    exact (FreqTable.total_of_no_symbol (hufTree_eq_none_iff.1 ht)).symm.trans hn
  | some t =>
    rw [ht] at h
    cases t with
    | leaf b w => cases h; exact List.length_replicate
    | inner m w l r =>
      rw [hufDecodeSymbols] at h
      cases hloop : hufDecodeLoop (.inner m w l r) n 0 bs with
      | error e => simp [hloop] at h
      | ok p =>
        simp only [hloop, Except.ok.injEq] at h
        rw [← h]
        exact hufDecodeLoop_length hloop

/-- A run of a decoder delivers the symbols expected, and its output position is their number. -/
theorem decodeRun_length {F : FreqTable} {n : Nat} {P : List Byte} {b : Backend} {r : CoderRun b}
    (h : decodeRun F n P b = .ok r) : r.out.length = n ∧ r.outPos = n := by
  cases b with
  | huffman =>
    rw [decodeRun] at h
    split_ifs at h with hok
    obtain ⟨q, hq, rfl⟩ := exists_of_map_ok h
    exact ⟨hufDecodeSymbols_length hok.1 hq, rfl⟩
  | range =>
    rw [decodeRun] at h
    split_ifs at h with hok
    obtain ⟨q, hq, rfl⟩ := exists_of_map_ok h
    exact ⟨(rcDecodeLoop_inside ((rcAccepts_iff F).2 hok) _ _ _ q (rcDecoderStart_inside _) hq).1, rfl⟩
  | rans =>
    rw [decodeRun] at h
    split_ifs at h with hok
    obtain ⟨q, hq, rfl⟩ := exists_of_map_ok h
    exact ⟨ransDecodeAll_length ((ransTableOk_iff F).1 hok) hq, rfl⟩

/-- The symbols expected fit `OUT` once their number has passed its entry check (R32). -/
theorem decodeRun_fits {F : FreqTable} {n : Nat} {P : List Byte} {b : Backend} {r : CoderRun b}
    (h : decodeRun F n P b = .ok r) (hn : n ≤ Config.outCap) :
    ([] : List Byte).length + r.out.length ≤ Config.outCap := by
  rwa [List.length_nil, Nat.zero_add, (decodeRun_length h).1]

/-- The unit decoder makes the run of its backend, and leaves the state of that run. -/
theorem planeDecodeOp_eq (b : Backend) (P : List Byte) (s : State) :
    planeDecodeOp b P s =
      (decodeRun s.freq s.expectedCount.toNat P b).map fun r => s.coded [] r := by
  have hstate : ∀ {r : CoderRun b}, decodeRun s.freq s.expectedCount.toNat P b = .ok r →
      s.coded [] r = ((s.buildWith r.regs).setOut r.out).setCursors s.expectedCount.toNat r.inPos
        s.expectedCount.toNat := fun h => by
    obtain ⟨hlen, hpos⟩ := decodeRun_length h
    rw [State.coded, List.nil_append, List.length_nil, Nat.zero_add, hlen, hpos]
  have hok : ∀ {r : CoderRun b}, decodeRun s.freq s.expectedCount.toNat P b = .ok r →
      planeDecodeOp b P s = .ok (((s.buildWith r.regs).setOut r.out).setCursors s.expectedCount.toNat r.inPos
        s.expectedCount.toNat) →
      planeDecodeOp b P s = (decodeRun s.freq s.expectedCount.toNat P b).map fun r => s.coded [] r := fun hrun hop => by
    rw [hop, hrun, ← hstate hrun]
    rfl
  cases b with
  | huffman =>
    rcases hufDecodeOp_cases P s with ⟨hbad, hop⟩ | ⟨htotal, hneed, ⟨e, he, hop⟩ | ⟨q, hq, hop⟩⟩
    · rw [hufNeed_eq] at hbad
      rw [planeDecodeOp, hop, decodeRun, if_neg (by omega)]
      rfl
    · rw [hufNeed_eq] at hneed
      rw [planeDecodeOp, hop, decodeRun, if_pos ⟨htotal, hneed⟩, he]
      rfl
    · rw [hufNeed_eq] at hneed
      exact hok (r := ⟨q.1, q.2, s.expectedCount.toNat, .huffman⟩)
        (by rw [decodeRun, if_pos ⟨htotal, hneed⟩, hq]; rfl) hop
  | range =>
    rcases rcDecodeOp_cases P s with ⟨hbad, hop⟩ | ⟨htable, ⟨e, he, hop⟩ | ⟨q, hq, hop⟩⟩
    · simp only [planeDecodeOp, hop, decodeRun, hbad]
      rfl
    · rw [planeDecodeOp, hop, decodeRun, if_pos htable, he]
      rfl
    · exact hok (r := ⟨q.1, q.2.pos, s.expectedCount.toNat, .range (BitVec.ofNat 32 q.2.low) (BitVec.ofNat 32 q.2.high) 0
        (some (BitVec.ofNat 32 q.2.value))⟩) (by rw [decodeRun, if_pos htable, hq]; rfl) hop
  | rans =>
    rcases ransDecodeOp_cases P s with ⟨hbad, hop⟩ | ⟨htable, ⟨e, he, hop⟩ | ⟨q, hq, hop⟩⟩
    · rw [planeDecodeOp, hop, decodeRun, if_neg (mt (ransTableOk_iff _).1 hbad)]
      rfl
    · rw [planeDecodeOp, hop, decodeRun, if_pos ((ransTableOk_iff _).2 htable), he]
      rfl
    · exact hok (r := ⟨q.1, P.length - q.2.2.length, s.expectedCount.toNat, .rans (BitVec.ofNat 64 q.2.1)⟩)
        (by rw [decodeRun, if_pos ((ransTableOk_iff _).2 htable), hq]; rfl) hop

end Sys2Proof.Machine
end

section
/-!
What a completed run leaves (spec/44_plane_and_system.md R281 to R283): the result, the cursors, what the run of a backend does
not write, and what it leaves alike in whatever state it is made.
-/
namespace Sys2Proof.Machine

/-! ## The end of a run -/

/-- The state after a command that ended in a run: the table of the run in `FREQ`, the bytes of `pre` in front of the
result. A unit's command keeps `FREQ` and puts nothing in front. -/
def State.coderDone (s : State) (F : FreqTable) (pre : List Byte) {b : Backend} (r : CoderRun b) : State :=
  (({ s.accept with freq := F } : State).coded pre r).complete

section Done
variable (s : State) (F : FreqTable) {pre : List Byte} {b : Backend} (r : CoderRun b)

@[simp] theorem State.coderDone_freq : (s.coderDone F pre r).freq = F := by
  obtain ⟨_, _, _, regs⟩ := r
  cases regs <;> rfl

@[simp] theorem State.coderDone_mem : (s.coderDone F pre r).mem = s.mem.setOut (pre ++ r.out) := by
  obtain ⟨_, _, _, regs⟩ := r
  cases regs <;> rfl

theorem State.coderDone_completed (herr : s.error = false) : (s.coderDone F pre r).completed := by
  obtain ⟨_, _, _, regs⟩ := r
  cases regs <;> exact ⟨rfl, herr⟩

theorem State.coderDone_cursors :
    (s.coderDone F pre r).outLen = BitVec.ofNat 32 (pre.length + r.out.length) ∧
    (s.coderDone F pre r).inPos = BitVec.ofNat 32 r.inPos ∧ (s.coderDone F pre r).outPos = BitVec.ofNat 32 r.outPos :=
  ⟨rfl, rfl, rfl⟩

theorem State.coderDone_outLen (hfit : pre.length + r.out.length ≤ Config.outCap) :
    (s.coderDone F pre r).outLen.toNat = pre.length + r.out.length := by
  have hcap : Config.outCap = 1048576 := rfl
  exact Nat.mod_eq_of_lt (by omega)

theorem State.coderDone_result (hfit : pre.length + r.out.length ≤ Config.outCap) :
    (s.coderDone F pre r).result = pre ++ r.out :=
  State.result_of_setOut (s.coderDone_mem F r) (by rw [List.length_append, s.coderDone_outLen F r hfit])
    (by rwa [List.length_append])

/-- What no coder writes. -/
theorem State.coderDone_keeps (hfit : pre.length + r.out.length ≤ Config.outCap) :
    s.keepsOperands (s.coderDone F pre r) ∧ s.keepsOutsideOut (s.coderDone F pre r) := by
  refine ⟨?_, fun a ha => ?_⟩
  · obtain ⟨_, _, _, regs⟩ := r
    cases regs <;> exact ⟨rfl, rfl, rfl, rfl, rfl, rfl, rfl, rfl⟩
  · rw [s.coderDone_mem, Memory.read_setOut _ _ (by rwa [List.length_append]), ha]
    rfl

/-- What the coders of the other backends write stays as it was. -/
theorem State.coderDone_frame :
    (b.flag ≠ 0 → s.keepsHuffman (s.coderDone F pre r)) ∧ (b.flag = 0 → (s.coderDone F pre r).cum = s.cum) ∧
    (b.flag ≠ 2 → (s.coderDone F pre r).symtab = s.symtab ∧ (s.coderDone F pre r).ransX = s.ransX) ∧
    (b.flag ≠ 1 → s.keepsRcBounds (s.coderDone F pre r) ∧ (s.coderDone F pre r).rcValue = s.rcValue) := by
  obtain ⟨_, _, _, regs⟩ := r
  cases regs with
  | huffman =>
    exact ⟨fun h => absurd rfl h, fun _ => rfl, fun _ => ⟨rfl, rfl⟩, fun _ => ⟨⟨rfl, rfl, rfl⟩, rfl⟩⟩
  | range low high pending value =>
    exact ⟨fun _ => ⟨rfl, rfl, rfl, rfl⟩, fun h => absurd h (by decide), fun _ => ⟨rfl, rfl⟩, fun h => absurd rfl h⟩
  | rans x =>
    exact ⟨fun _ => ⟨rfl, rfl, rfl, rfl⟩, fun h => absurd h (by decide), fun h => absurd rfl h,
      fun _ => ⟨⟨rfl, rfl, rfl⟩, rfl⟩⟩

end Done

/-! ## The same run in two states (R283) -/

/-- With two symbols or more `LUT` is the tree's alone, whatever key unspecified entries would have (R178). -/
theorem lutTable_of_two {F : FreqTable} (htwo : 2 ≤ F.occurring.length) (d d' : Nat) :
    lutTable d (hufTree F) = lutTable d' (hufTree F) := by
  obtain ⟨n, w, l, r, ht⟩ := hufTree_of_two htwo
  rw [ht, lutTable_inner, lutTable_inner]

section Alike
variable (s u : State) (F : FreqTable) (pre pre' : List Byte) {b : Backend} (r : CoderRun b)

/-- A run leaves the same derived tables and working registers of its backend, in whatever state it is made. -/
theorem State.coderDone_alike :
    let t := s.coderDone F pre r
    let v := u.coderDone F pre' r
    (b.flag = 0 → t.hlen = v.hlen ∧ t.hcode = v.hcode ∧ t.arena = v.arena ∧
      (2 ≤ F.occurring.length → t.lut = v.lut)) ∧
    (b.flag = 1 → t.cum = v.cum ∧ t.rcLow = v.rcLow ∧ t.rcHigh = v.rcHigh ∧ t.rcPending = v.rcPending) ∧
    (b.flag = 2 → t.cum = v.cum ∧ t.symtab = v.symtab ∧ t.ransX = v.ransX) := by
  obtain ⟨_, _, _, regs⟩ := r
  cases regs with
  | huffman =>
    exact ⟨fun _ => ⟨rfl, rfl, rfl, fun htwo => lutTable_of_two htwo _ _⟩, fun h => absurd h (by decide),
      fun h => absurd h (by decide)⟩
  | range low high pending value =>
    exact ⟨fun h => absurd h (by decide), fun _ => ⟨rfl, rfl, rfl, rfl⟩, fun h => absurd h (by decide)⟩
  | rans x => exact ⟨fun h => absurd h (by decide), fun h => absurd h (by decide), fun _ => ⟨rfl, rfl, rfl⟩⟩

end Alike

end Sys2Proof.Machine
end

section
/-!
The stream of a plane (spec/44_plane_and_system.md R281, R286, R287): the run of an encoder with a table that covers the
plane, its size, where it passes the room left for it, and what a decoder makes of it.
-/
namespace Sys2Proof.Machine

/-! ## Covered planes -/

/-- The tables that leave an encoder no fault but that of the capacity: every symbol of the plane has a frequency, and the
table passes the backend's check; the total keeps every narrowing of the range coder a width (R207). -/
def covers (F : FreqTable) (B : List Byte) : Backend → Prop
  | .huffman => ∀ c ∈ B, F.at c ≠ 0
  | .range => rcAccepts F ∧ F.total ≤ 2 ^ 29
  | .rans => F.total = 4096 ∧ ∀ c ∈ B, F.at c ≠ 0

section Counted
variable {B : List Byte} (hlen : B.length ≤ Config.inCap)
include hlen

theorem countTable_zero_at (c : Byte) : (countTable B 0).at c = B.count c := by
  have hcap : Config.inCap = 1048576 := rfl
  rw [countTable_at (by omega), Nat.zero_add]

theorem countTable_one_at (c : Byte) : (countTable B 1).at c = 1 + B.count c := by
  have hcap : Config.inCap = 1048576 := rfl
  exact countTable_at (by omega) c

theorem countTable_zero_ne {c : Byte} (hc : c ∈ B) : (countTable B 0).at c ≠ 0 := by
  rw [countTable_zero_at hlen]
  exact (List.count_pos_iff.2 hc).ne'

/-- The table that `PLANE_COMPRESS` builds from a plane covers it. -/
theorem planeTable_covers (b : Backend) : covers (planeTable b B) B b := by
  have hcap : Config.inCap = 1048576 := rfl
  cases b with
  | huffman => exact fun c hc => countTable_zero_ne hlen hc
  | range =>
    have htotal : (countTable B 1).total = B.length + 256 * 1 := countTable_total (by omega)
    refine ⟨⟨fun c => ?_, ?_⟩, ?_⟩
    · rw [planeTable, countTable_one_at hlen]
      omega
    all_goals rw [planeTable, htotal]; omega
  | rans =>
    exact ⟨normalize_total _, fun c hc => Nat.ne_zero_of_lt (normalize_at_pos (countTable_zero_ne hlen hc))⟩

end Counted

/-! ## The run of an encoder -/

/-- The run of an encoder where no fault stops it: the codes (R169), the bits of the symbols and of the flush (R219), the
state and the bytes of the symbols (R247). -/
def encodedRun (F : FreqTable) (B : List Byte) : (b : Backend) → CoderRun b
  | .huffman => ⟨packBits (B.flatMap (codeOf F)), B.length, (B.flatMap (codeOf F)).length, .huffman⟩
  | .range =>
    let q := (rcBits F.cumulative B rcStart).getD ([], rcStart)
    ⟨packBits (q.1 ++ rcFlush q.2), B.length, q.1.length + q.2.pending + 2,
      .range (BitVec.ofNat 32 q.2.low) (BitVec.ofNat 32 q.2.high) 0 none⟩
  | .rans => ⟨ransStream F B, B.length, (ransStream F B).length, .rans (BitVec.ofNat 64 (ransPlane F B).1)⟩

section Covered
variable {F : FreqTable} {B : List Byte}

theorem encodedRun_inPos (b : Backend) : (encodedRun F B b).inPos = B.length := by
  cases b <;> rfl

theorem encodedRun_range {w : Bits} {c : RcEncoder} (hw : rcBits F.cumulative B rcStart = some (w, c)) :
    encodedRun F B .range = ⟨packBits (w ++ rcFlush c), B.length, w.length + c.pending + 2,
      .range (BitVec.ofNat 32 c.low) (BitVec.ofNat 32 c.high) 0 none⟩ := by
  rw [encodedRun, hw]
  rfl

theorem packBits_rcFlush_length (w : Bits) (c : RcEncoder) :
    (packBits (w ++ rcFlush c)).length = (w.length + c.pending + 2 + 7) / 8 := by
  rw [packBits_length, List.length_append, rcFlush_length, ← Nat.add_assoc]

/-- A covered plane has bits under the range coder. -/
theorem exists_rcBits (h : covers F B .range) (A : List Byte) : ∃ w c, rcBits F.cumulative A rcStart = some (w, c) := by
  obtain ⟨⟨w, c⟩, hw⟩ := Option.isSome_iff_exists.1 (rcBits_isSome h.1 h.2 A rcStart rcStart_settled)
  exact ⟨w, c, hw⟩

/-- The size of the stream is the number of bytes of the run. -/
theorem streamSize_of_covers {b : Backend} (h : covers F B b) :
    streamSize b F B = some (encodedRun F B b).out.length := by
  cases b with
  | huffman => rw [streamSize_huffman, encodedRun, packBits_length]
  | range =>
    obtain ⟨w, c, hw⟩ := exists_rcBits h B
    rw [streamSize_range hw, encodedRun_range hw, packBits_rcFlush_length]
  | rans => rw [streamSize_rans, encodedRun, ransStream_length h.1 h.2]

/-- A stream that fits its room is written. -/
theorem encodeRun_of_fits {b : Backend} {room : Nat} (h : covers F B b) (hfit : (encodedRun F B b).out.length ≤ room) :
    encodeRun F room B b = .ok (encodedRun F B b) := by
  cases b with
  | huffman =>
    rw [encodedRun, packBits_length] at hfit
    have hloop := hufEncodeLoop_append (codeOf F) room [] B 0 ⟨[]⟩ (fun c hc => codeOf_ne_nil (h c hc))
      (by rw [List.length_nil]; omega)
    rw [List.append_nil, List.nil_append] at hloop
    rw [encodeRun, hloop]
    rfl
  | range =>
    obtain ⟨w, c, hw⟩ := exists_rcBits h B
    rw [encodedRun_range hw, packBits_rcFlush_length] at hfit
    rw [encodeRun, if_pos ((rcAccepts_iff F).1 h.1), rcEncodeAll_of_bits hw (by omega), if_pos (by omega),
      encodedRun_range hw]
    simp only [Except.map, List.length_append, rcFlush_length, Nat.add_assoc]
    rfl
  | rans =>
    have hlen := ransStream_length h.1 h.2
    rw [encodedRun, hlen] at hfit
    rw [encodeRun, if_pos ((ransTableOk_iff F).2 h.1), ransEncodeAll_of_plane h.1 h.2 (by omega), if_pos hfit]
    rfl

/-! ## Where a stream passes its room (R343, R353) -/

/-- What grows beyond a bound over a plane grows beyond it at some symbol, front to back. -/
theorem exists_crossing_front (f : List Byte → Nat) {bound : Nat} (hnil : f [] ≤ bound) : ∀ B : List Byte, bound < f B →
    ∃ pre post c, B = pre ++ c :: post ∧ f pre ≤ bound ∧ bound < f (pre ++ [c]) := by
  intro B
  induction B using List.reverseRecOn with
  | nil => intro h; omega
  | append_singleton B c ih =>
    intro h
    rcases Nat.lt_or_ge bound (f B) with hB | hB
    · obtain ⟨pre, post, a, rfl, hpre, hover⟩ := ih hB
      exact ⟨pre, post ++ [c], a, by simp, hpre, hover⟩
    · exact ⟨B, [], c, rfl, hB, h⟩

/-- What grows beyond a bound over a plane grows beyond it at some symbol, back to front. -/
theorem exists_crossing_back (f : List Byte → Nat) {bound : Nat} (hnil : f [] ≤ bound) : ∀ B : List Byte, bound < f B →
    ∃ pre post c, B = pre ++ c :: post ∧ f post ≤ bound ∧ bound < f (c :: post) := by
  intro B
  induction B with
  | nil => intro h; omega
  | cons c B ih =>
    intro h
    rcases Nat.lt_or_ge bound (f B) with hB | hB
    · obtain ⟨pre, post, a, rfl, hpost, hover⟩ := ih hB
      exact ⟨c :: pre, post, a, rfl, hpost, hover⟩
    · exact ⟨[], B, c, rfl, hB, h⟩

/-- A stream that does not fit passes the end of its room at a symbol of the plane or in the flush. -/
theorem exists_overflowsAt {b : Backend} {room : Nat} (h : covers F B b) (hover : room < (encodedRun F B b).out.length) :
    ∃ i ≤ B.length, overflowsAt b F room i B := by
  cases b with
  | huffman =>
    rw [encodedRun, packBits_length] at hover
    obtain ⟨pre, post, c, hB, hpre, hc⟩ := exists_crossing_front (fun A => (A.flatMap (codeOf F)).length)
      (bound := 8 * room) (Nat.zero_le _) B (by omega)
    refine ⟨pre.length, by rw [hB, List.length_append]; omega, pre, post, c, hB, rfl, fun a ha => h a ?_, hpre, hc⟩
    rw [hB, List.append_cons]
    exact List.mem_append_left _ ha
  | range =>
    obtain ⟨w, c, hw⟩ := exists_rcBits h B
    rw [encodedRun_range hw, packBits_rcFlush_length] at hover
    rcases Nat.lt_or_ge (8 * room) w.length with hlong | hshort
    · have hbits : ∀ {A : List Byte} {q : Bits × RcEncoder}, rcBits F.cumulative A rcStart = some q →
          ((rcBits F.cumulative A rcStart).getD ([], rcStart)).1.length = q.1.length := fun hq => by rw [hq]; rfl
      obtain ⟨pre, post, a, hB, hpre, ha⟩ := exists_crossing_front
        (fun A => ((rcBits F.cumulative A rcStart).getD ([], rcStart)).1.length)
        (bound := 8 * room) (Nat.zero_le _) B (by rwa [hbits hw])
      obtain ⟨x, d, hx⟩ := exists_rcBits h pre
      obtain ⟨y, e, hy⟩ := exists_rcBits h (pre ++ [a])
      rw [hbits hx] at hpre
      rw [hbits hy] at ha
      exact ⟨pre.length, by rw [hB, List.length_append]; omega,
        .inl ⟨pre, post, a, (x, d), (y, e), hB, rfl, hx, hy, hpre, ha⟩⟩
    · exact ⟨B.length, le_rfl, .inr ⟨rfl, (w, c), hw, hshort, by dsimp only; omega⟩⟩
  | rans =>
    obtain ⟨hF, hB⟩ := h
    rw [encodedRun, ransStream_length hF hB] at hover
    rcases Nat.lt_or_ge room (ransPlane F B).2.length with hlong | hshort
    · obtain ⟨pre, post, c, rfl, hpost, hc⟩ := exists_crossing_back (fun A => (ransPlane F A).2.length)
        (Nat.zero_le _) B hlong
      exact ⟨pre.length, by rw [List.length_append]; omega,
        .inl ⟨pre, post, c, rfl, rfl, fun a ha => hB a (List.mem_append_right _ ha), hpost, hc⟩⟩
    · exact ⟨B.length, le_rfl, .inr ⟨rfl, hB, hshort, hover⟩⟩

/-- A stream that does not fit is reported where it passes its room. -/
theorem encodeRun_of_overflow {b : Backend} {room i : Nat} (h : covers F B b) (hover : overflowsAt b F room i B) :
    encodeRun F room B b = .error (capacityError i) := by
  cases b with
  | huffman =>
    obtain ⟨pre, post, c, rfl, rfl, hcodes, hfit, hover⟩ := hover
    have hpre : ∀ a ∈ pre, codeOf F a ≠ [] := fun a ha => codeOf_ne_nil (hcodes a (List.mem_append_left _ ha))
    have hc : codeOf F c ≠ [] := codeOf_ne_nil (hcodes c (by simp))
    rw [List.flatMap_append, List.flatMap_singleton, List.length_append] at hover
    rw [encodeRun, hufEncodeLoop_append _ _ _ _ _ _ hpre (by simpa using hfit), hufEncodeLoop_cons, if_neg hc,
      if_neg (by simpa using hover), Nat.zero_add]
    rfl
  | range =>
    rw [encodeRun, if_pos ((rcAccepts_iff F).1 h.1), rcEncodeAll_of_overflow hover]
    rfl
  | rans =>
    rw [encodeRun, if_pos ((ransTableOk_iff F).2 h.1), ransEncodeAll_of_overflow h.1 hover]
    rfl

end Covered

/-! ## The size of a plane's stream (R217, R249, R287) -/

section Size
variable {B : List Byte} (hlen : B.length ≤ Config.inCap)
include hlen

/-- R287: under its own counts a plane takes at most its own number of bytes. -/
theorem encodedRun_huffman_size :
    (encodedRun (countTable B 0) B .huffman).out.length = ((encodedRun (countTable B 0) B .huffman).outPos + 7) / 8 ∧
    (encodedRun (countTable B 0) B .huffman).out.length ≤ B.length := by
  have hcounts := countTable_zero_at hlen
  have hneed := bitsNeeded_le (countTable B 0)
  rw [bitsNeeded_of_counts hcounts, total_of_counts hcounts] at hneed
  rw [encodedRun, packBits_length]
  exact ⟨rfl, by omega⟩

/-- R217: the symbols take at most 31 bits each, and the flush two. -/
theorem encodedRun_range_size :
    (encodedRun (countTable B 1) B .range).out.length = ((encodedRun (countTable B 1) B .range).outPos + 7) / 8 ∧
    (encodedRun (countTable B 1) B .range).outPos ≤ 31 * B.length + 2 := by
  have hcovers : covers (countTable B 1) B .range := planeTable_covers hlen .range
  obtain ⟨w, c, hw⟩ := exists_rcBits hcovers B
  obtain ⟨-, hbound⟩ := rcBits_settled hcovers.1 B rcStart (w, c) rcStart_settled hw
  rw [rcStart, Nat.zero_add] at hbound
  rw [encodedRun_range hw, packBits_rcFlush_length]
  exact ⟨rfl, Nat.add_le_add_right hbound 2⟩

/-- R249: the symbols take at most two bytes each, and the flush five. -/
theorem encodedRun_rans_size :
    (encodedRun (normalize (countTable B 0)) B .rans).out.length =
      (encodedRun (normalize (countTable B 0)) B .rans).outPos ∧
    (encodedRun (normalize (countTable B 0)) B .rans).outPos ≤ 2 * B.length + 5 := by
  obtain ⟨hF, hB⟩ : covers (normalize (countTable B 0)) B .rans := planeTable_covers hlen .rans
  obtain ⟨-, hbound⟩ := ransPlane_settled hF B hB
  refine ⟨rfl, ?_⟩
  rw [encodedRun, ransStream_length hF hB]
  exact Nat.add_le_add_right hbound 5

end Size

/-! ## Decoding a plane's stream (R286) -/

/-- A stream that starts with the codes of a plane is decoded to it, where the table passes the checks of R173. -/
theorem decodeRun_of_codes {F : FreqTable} {P B : List Byte} {rest : Bits} (htotal : F.total = B.length)
    (hneed : bitsNeeded F ≤ 8 * P.length) (hB : ∀ c ∈ B, F.at c ≠ 0)
    (hbits : streamBits P = B.flatMap (codeOf F) ++ rest) :
    ∃ r, decodeRun F B.length P .huffman = .ok r ∧ r.out = B := by
  rw [decodeRun, if_pos ⟨htotal, hneed⟩, hufDecodeSymbols_of_codes hB fun _ => hbits]
  exact ⟨_, rfl, rfl⟩

/-- The decoder of a backend makes the plane again of its stream, whatever follows the stream. -/
theorem decodeRun_encodedRun {B : List Byte} (hlen : B.length ≤ Config.inCap) (b : Backend) (rest : List Byte) :
    ∃ r, decodeRun (planeTable b B) B.length ((encodedRun (planeTable b B) B b).out ++ rest) b = .ok r ∧ r.out = B := by
  have hcovers := planeTable_covers hlen b
  cases b with
  | huffman =>
    have hcounts : ∀ c, (planeTable .huffman B).at c = B.count c := countTable_zero_at hlen
    obtain ⟨tail, hbits⟩ := streamBits_packBits_append (B.flatMap (codeOf (planeTable .huffman B))) rest
    have hneed := codes_length_le hbits
    rw [← bitsNeeded_of_counts hcounts] at hneed
    exact decodeRun_of_codes (total_of_counts hcounts) hneed hcovers hbits
  | range =>
    obtain ⟨w, c, hw⟩ := exists_rcBits hcovers B
    obtain ⟨tail, hbits⟩ := streamBits_packBits_append (w ++ rcFlush c) rest
    obtain ⟨d, hloop, -⟩ := rcDecodeLoop_of_stream hcovers.1 hw tail
    rw [encodedRun_range hw, decodeRun, if_pos ((rcAccepts_iff _).1 hcovers.1), hbits, hloop]
    exact ⟨_, rfl, rfl⟩
  | rans =>
    obtain ⟨hF, hB⟩ := hcovers
    rw [encodedRun, decodeRun, if_pos ((ransTableOk_iff _).2 hF)]
    by_cases hne : B = []
    · subst hne
      exact ⟨_, congrArg _ ransDecodeAll_zero, rfl⟩
    · rw [ransDecodeAll_ransStream hF hne hB]
      exact ⟨_, rfl, rfl⟩

end Sys2Proof.Machine
end

section
/-!
The commands that end in a run: the units' own coders, `PLANE_COMPRESS` and `PLANE_DECOMPRESS` (spec/44_plane_and_system.md
R281, R282).
-/
namespace Sys2Proof.Machine

/-! ## The units' own coders -/

/-- The encode command of a backend's unit. -/
def Backend.encoder : Backend → Instr
  | .huffman => .hufEncode
  | .range => .rcEncode
  | .rans => .ransEncode

/-- The decode command of a backend's unit. -/
def Backend.decoder : Backend → Instr
  | .huffman => .hufDecode
  | .range => .rcDecode
  | .rans => .ransDecode

section Unit
variable {s : State} {b : Backend} (herr : s.error = false) (hin : s.inLen.toNat ≤ Config.inCap)
include herr hin

theorem exec_encoder : ∃ fp, exec b.encoder s = .next (s.accept.finish fp (planeEncodeOp b [] s.accept)) := by
  cases b with
  | huffman => exact ⟨_, exec_hufEncode herr hin⟩
  | range => exact ⟨_, exec_rcEncode herr hin⟩
  | rans => exact ⟨_, exec_ransEncode herr hin⟩

theorem exec_encoder_done {r : CoderRun b} (hrun : encodeRun s.freq Config.outCap s.input b = .ok r) :
    exec b.encoder s = .next (s.coderDone s.freq [] r) := by
  obtain ⟨fp, hexec⟩ := exec_encoder (b := b) herr hin
  have hop : planeEncodeOp b [] s.accept = .ok (s.accept.coded [] r) := by
    rw [planeEncodeOp_eq]
    exact congrArg (Except.map fun r => s.accept.coded [] r) hrun
  rw [hexec, hop]
  rfl

variable (hcount : s.expectedCount.toNat ≤ Config.outCap)
include hcount

theorem exec_decoder : ∃ fp, exec b.decoder s = .next (s.accept.finish fp (planeDecodeOp b s.input s.accept)) := by
  cases b with
  | huffman => exact ⟨_, exec_hufDecode herr hin hcount⟩
  | range => exact ⟨_, exec_rcDecode herr hin hcount⟩
  | rans => exact ⟨_, exec_ransDecode herr hin hcount⟩

theorem exec_decoder_done {r : CoderRun b} (hrun : decodeRun s.freq s.expectedCount.toNat s.input b = .ok r) :
    exec b.decoder s = .next (s.coderDone s.freq [] r) := by
  obtain ⟨fp, hexec⟩ := exec_decoder (b := b) herr hin hcount
  have hop : planeDecodeOp b s.input s.accept = .ok (s.accept.coded [] r) := by
    rw [planeDecodeOp_eq]
    exact congrArg (Except.map fun r => s.accept.coded [] r) hrun
  rw [hexec, hop]
  rfl

theorem exec_decoder_faulted {e : Raise} (hrun : decodeRun s.freq s.expectedCount.toNat s.input b = .error e) :
    ∃ t, exec b.decoder s = .next t ∧ t.faulted e.kind e.info := by
  obtain ⟨fp, hexec⟩ := exec_decoder (b := b) herr hin hcount
  refine ⟨_, hexec, State.finish_faulted ?_⟩
  rw [planeDecodeOp_eq]
  exact congrArg (Except.map fun r => s.accept.coded [] r) hrun

end Unit

/-! ## `PLANE_COMPRESS` (R281) -/

section Compress
variable {s : State} {b : Backend} (herr : s.error = false) (hin : s.inLen.toNat ≤ Config.inCap)
  (hflag : s.backend = b.flag)
include hin hflag

/-- Once the entry checks pass, the operation is the run of the unit's encoder with the plane's own table. -/
theorem planeCompressOp_eq :
    planeCompressOp s.accept =
      (encodeRun (planeTable b s.input) (Config.outCap - 1024) s.input b).map fun r =>
        ({ s.accept with freq := planeTable b s.input } : State).coded (planeTable b s.input).serialise r := by
  rcases planeCompressOp_cases s.accept with ⟨hgt, -⟩ | ⟨-, ⟨hnone, -⟩ | ⟨c, hc, hop⟩⟩
  · exact absurd hgt (Nat.not_lt.2 hin)
  · exact nomatch hnone.symm.trans (backendOf_eq_some_iff.2 hflag)
  · obtain rfl := Option.some.inj (hc.symm.trans (backendOf_eq_some_iff.2 hflag))
    rw [hop, planeEncodeOp_eq, FreqTable.serialise_length]
    rfl

include herr

theorem exec_planeCompress_done {r : CoderRun b}
    (hrun : encodeRun (planeTable b s.input) (Config.outCap - 1024) s.input b = .ok r) :
    exec .planeCompress s =
      .next (s.coderDone (planeTable b s.input) (planeTable b s.input).serialise r) := by
  refine congrArg Host.Outcome.next ?_
  rw [State.command_of_ok _ herr, planeCompressOp_eq hin hflag, hrun]
  rfl

theorem exec_planeCompress_faulted {e : Raise}
    (hrun : encodeRun (planeTable b s.input) (Config.outCap - 1024) s.input b = .error e) :
    ∃ t, exec .planeCompress s = .next t ∧ t.faulted e.kind e.info := by
  refine ⟨_, rfl, State.command_faulted herr ?_⟩
  rw [planeCompressOp_eq hin hflag, hrun]
  rfl

end Compress

/-- A run of `PLANE_COMPRESS` that ends without an error passed the entry checks, and its stream fits beside the table. -/
theorem exec_planeCompress_of_no_error {s t : State} (herr : s.error = false) (h : exec .planeCompress s = .next t)
    (ht : t.error = false) :
    s.inLen.toNat ≤ Config.inCap ∧ ∃ b : Backend, s.backend = b.flag ∧
      (encodedRun (planeTable b s.input) s.input b).out.length ≤ Config.outCap - 1024 ∧
      t = s.coderDone (planeTable b s.input) (planeTable b s.input).serialise
        (encodedRun (planeTable b s.input) s.input b) := by
  have hno : ∀ {e : Raise}, ¬ ∃ t', exec .planeCompress s = .next t' ∧ t'.faulted e.kind e.info := by
    rintro e ⟨t', ht', -, hfault, -⟩
    obtain rfl := Host.Outcome.next.inj (ht'.symm.trans h)
    exact nomatch hfault.symm.trans ht
  rcases planeCompressOp_cases s.accept with ⟨-, hop⟩ | ⟨hin, ⟨-, hop⟩ | ⟨b, hb, -⟩⟩
  · exact absurd ⟨_, rfl, State.command_faulted herr hop⟩ hno
  · exact absurd ⟨_, rfl, State.command_faulted herr hop⟩ hno
  · have hflag : s.backend = b.flag := backendOf_eq_some_iff.1 hb
    have hcovers := planeTable_covers (s.input_length.trans_le hin) b
    rcases Nat.lt_or_ge (Config.outCap - 1024) (encodedRun (planeTable b s.input) s.input b).out.length with hover | hfit
    · obtain ⟨i, -, hi⟩ := exists_overflowsAt hcovers hover
      exact absurd (exec_planeCompress_faulted herr hin hflag (encodeRun_of_overflow hcovers hi)) hno
    · exact ⟨hin, b, hflag, hfit, Host.Outcome.next.inj
        (h.symm.trans (exec_planeCompress_done herr hin hflag (encodeRun_of_fits hcovers hfit)))⟩

/-! ## `PLANE_DECOMPRESS` (R282) -/

/-- The stream of a payload is what stands in `IN` after the table. -/
theorem State.payloadStream_eq (s : State) : s.payloadStream = s.input.drop 1024 := by
  refine List.ext_getElem (by simp [State.payloadStream, State.inBytes, Config.tableBytes]) fun k hk hk' => ?_
  simp [State.payloadStream, State.input, State.inBytes, Config.tableBytes]

@[simp] theorem State.payloadStream_length (s : State) : s.payloadStream.length = s.inLen.toNat - 1024 := by
  rw [State.payloadStream_eq, List.length_drop, State.input_length]

section Decompress
variable {s : State} {b : Backend} (herr : s.error = false) (hin : s.inLen.toNat ≤ Config.inCap)
  (hcount : s.expectedCount.toNat ≤ Config.outCap) (hflag : s.backend = b.flag) (htable : 1024 ≤ s.inLen.toNat)
include herr hin hcount hflag htable

/-- Once the entry checks pass, the command is the run of the unit's decoder with the payload's table in `FREQ`. -/
theorem exec_planeDecompress :
    exec .planeDecompress s = .next (s.accept.loadTable.finish { planeDecompressFootprint s.backend with freq := false }
      ((decodeRun (FreqTable.load s.inByte) s.expectedCount.toNat s.payloadStream b).map fun r =>
        s.accept.loadTable.coded [] r)) := by
  have hchecks : planeDecompressChecks s.accept = .ok b :=
    (planeDecompressChecks_ok_iff s.accept b).2 ⟨hin, hcount, backendOf_eq_some_iff.2 hflag, htable⟩
  have hop := planeDecodeOp_eq b s.payloadStream s.accept.loadTable
  refine congrArg Host.Outcome.next ?_
  rw [State.command_of_ok _ herr, planeDecompressRun, hchecks]
  exact congrArg (s.accept.loadTable.finish { planeDecompressFootprint s.backend with freq := false }) hop

theorem exec_planeDecompress_done {r : CoderRun b}
    (hrun : decodeRun (FreqTable.load s.inByte) s.expectedCount.toNat s.payloadStream b = .ok r) :
    exec .planeDecompress s = .next (s.coderDone (FreqTable.load s.inByte) [] r) := by
  rw [exec_planeDecompress herr hin hcount hflag htable, hrun]
  rfl

/-- What the decoder raises, the command records, and the payload's table stays in `FREQ`. -/
theorem exec_planeDecompress_run_faulted {e : Raise}
    (hrun : decodeRun (FreqTable.load s.inByte) s.expectedCount.toNat s.payloadStream b = .error e) :
    ∃ t, exec .planeDecompress s = .next t ∧ t.faulted e.kind e.info ∧ t.freq = FreqTable.load s.inByte := by
  refine ⟨_, exec_planeDecompress herr hin hcount hflag htable, ?_⟩
  rw [hrun]
  exact ⟨State.takeFault_faulted _ _ _, State.takeFault_freq_of_not _ rfl⟩

end Decompress

end Sys2Proof.Machine
end

section
/-!
`PLANE_COMPRESS` (spec/44_plane_and_system.md R281, R283, R287): the table and the positions it leaves beside the stream, where
the stream does not fit, and the unit commands that make the same run.
-/
namespace Sys2Proof.Machine

/-! ## The frame of `PLANE_COMPRESS` (R281) -/

/-- The bytes of a result that starts with a serialised table are those of its entries (R72). -/
theorem State.outByte_of_serialised {t : State} {F : FreqTable} {P : List Byte} (h : t.result = F.serialise ++ P)
    (c : Byte) (j : Fin 4) : (t.outByte (4 * c.toNat + j.val)).toNat = F.at c / 256 ^ j.val % 256 := by
  have hk : 4 * c.toNat + j.val < F.serialise.length := by
    have hc := c.isLt
    rw [F.serialise_length]
    omega
  have hentry := F.serialise_getElem? c.toNat j.val c.isLt j.isLt
  rw [List.getElem?_eq_getElem hk, Option.some.injEq] at hentry
  rw [State.outByte_of_result h (by rw [List.length_append]; omega), List.getElem_append_left hk, hentry,
    BitVec.extractLsb'_toNat, Nat.shiftRight_eq_div_pow, Nat.pow_mul]
  rfl

/-- What `PLANE_COMPRESS` reports of its output, by the mode flag: the table's entries and the position. -/
theorem encodedRun_reports {B : List Byte} (hlen : B.length ≤ Config.inCap) (b : Backend) :
    let F := planeTable b B
    let r := encodedRun F B b
    (b.flag = 0 → (∀ c, F.at c = B.count c) ∧ r.out.length = (r.outPos + 7) / 8) ∧
    (b.flag = 1 → (∀ c, F.at c = 1 + B.count c) ∧ r.out.length = (r.outPos + 7) / 8 ∧ r.outPos ≤ 31 * B.length + 2) ∧
    (b.flag = 2 → F.total = 4096 ∧ r.out.length = r.outPos) := by
  cases b with
  | huffman =>
    exact ⟨fun _ => ⟨countTable_zero_at hlen, (encodedRun_huffman_size hlen).1⟩, fun h => absurd h (by decide),
      fun h => absurd h (by decide)⟩
  | range =>
    exact ⟨fun h => absurd h (by decide), fun _ => ⟨countTable_one_at hlen, encodedRun_range_size hlen⟩,
      fun h => absurd h (by decide)⟩
  | rans =>
    exact ⟨fun h => absurd h (by decide), fun h => absurd h (by decide),
      fun _ => ⟨normalize_total _, (encodedRun_rans_size hlen).1⟩⟩

/-- R217, R249, R287: the bounds of a plane's stream in bytes. -/
theorem encodedRun_bounds {B : List Byte} (hlen : B.length ≤ Config.inCap) (b : Backend) :
    let m := (encodedRun (planeTable b B) B b).out.length
    (b = .huffman → m ≤ B.length) ∧ (b = .range → 8 * m ≤ 31 * B.length + 9) ∧ (b = .rans → m ≤ 2 * B.length + 5) := by
  refine ⟨?_, ?_, ?_⟩ <;> rintro rfl
  · exact (encodedRun_huffman_size hlen).2
  · obtain ⟨hout, hpos⟩ := encodedRun_range_size hlen
    rw [planeTable, hout]
    omega
  · obtain ⟨hout, hpos⟩ := encodedRun_rans_size hlen
    exact hout.trans_le hpos

theorem encodedRun_outPos_le (F : FreqTable) (B : List Byte) (b : Backend) :
    (encodedRun F B b).outPos ≤ 8 * (encodedRun F B b).out.length := by
  cases b <;> simp only [encodedRun, packBits_length, List.length_append, rcFlush_length] <;> omega

/-- `RC_VALUE` is not among what an encoder sets (R220). -/
theorem State.coderDone_encodedRun_rcValue (s : State) (F : FreqTable) (pre B : List Byte) (b : Backend) :
    (s.coderDone F pre (encodedRun F B b)).rcValue = s.rcValue := by
  cases b <;> rfl

/-- The table, the positions and the frame of a plane's run beside its table. -/
theorem State.coderDone_compressed {s : State} {b : Backend} (hin : s.inLen.toNat ≤ Config.inCap)
    (hfit : 1024 + (encodedRun (planeTable b s.input) s.input b).out.length ≤ Config.outCap) :
    let F := planeTable b s.input
    let m := (encodedRun F s.input b).out.length
    let t := s.coderDone F F.serialise (encodedRun F s.input b)
    t.freq = F ∧ t.outLen.toNat = 1024 + m ∧ t.inPos = s.inLen ∧
    (∀ (c : Byte) (j : Fin 4), (t.outByte (4 * c.toNat + j.val)).toNat = t.freq.at c / 256 ^ j.val % 256) ∧
    (b.flag = 0 → (∀ c, t.freq.at c = s.input.count c) ∧ m = (t.outPos.toNat + 7) / 8) ∧
    (b.flag = 1 → (∀ c, t.freq.at c = 1 + s.input.count c) ∧ m = (t.outPos.toNat + 7) / 8 ∧
      t.outPos.toNat ≤ 31 * s.inLen.toNat + 2) ∧
    (b.flag = 2 → t.freq.total = 4096 ∧ m = t.outPos.toNat) ∧
    s.keepsOperands t ∧ s.keepsOutsideOut t ∧
    (b.flag ≠ 0 → s.keepsHuffman t) ∧ (b.flag = 0 → t.cum = s.cum) ∧ (b.flag ≠ 2 → t.symtab = s.symtab) ∧
    (b.flag ≠ 1 → s.keepsRcBounds t) ∧ t.rcValue = s.rcValue ∧ (b.flag ≠ 2 → t.ransX = s.ransX) := by
  intro F m t
  have hcap : Config.outCap = 1048576 := rfl
  have hfit' : F.serialise.length + m ≤ Config.outCap := by rwa [F.serialise_length]
  have hfreq : t.freq = F := s.coderDone_freq F _
  have houtLen : t.outLen.toNat = F.serialise.length + m := s.coderDone_outLen F _ hfit'
  obtain ⟨-, hinPos, houtPos⟩ : t.outLen = _ ∧ t.inPos = _ ∧ t.outPos = _ := s.coderDone_cursors F _
  have hinLen : t.inPos = s.inLen := by
    rw [hinPos, encodedRun_inPos, s.input_length, BitVec.ofNat_toNat, BitVec.setWidth_eq]
  have hpos : t.outPos.toNat = (encodedRun F s.input b).outPos := by
    have hle := encodedRun_outPos_le F s.input b
    rw [houtPos, BitVec.toNat_ofNat, Nat.mod_eq_of_lt (by omega)]
  obtain ⟨hreport₀, hreport₁, hreport₂⟩ := encodedRun_reports (s.input_length.trans_le hin) b
  rw [s.input_length] at hreport₁
  obtain ⟨hoperands, hout⟩ : s.keepsOperands t ∧ s.keepsOutsideOut t := s.coderDone_keeps F _ hfit'
  obtain ⟨hhuffman, hcum, hrans, hrange⟩ := s.coderDone_frame F (pre := F.serialise) (encodedRun F s.input b)
  rw [F.serialise_length] at houtLen
  rw [hfreq, hpos]
  exact ⟨rfl, houtLen, hinLen, State.outByte_of_serialised (s.coderDone_result F _ hfit'), hreport₀, hreport₁, hreport₂,
    hoperands, hout, hhuffman, hcum, fun h => (hrans h).1, fun h => (hrange h).1,
    s.coderDone_encodedRun_rcValue F _ _ b, fun h => (hrans h).2⟩

/-- Settles O47: the plane's table covers the plane, so the run fits beside the table or is reported where it does not. -/
theorem planeCompressFramesTheTable : Obligations.PlaneCompressFramesTheTable := by
  rintro s b F herr hin hb rfl
  have hcap : Config.outCap = 1048576 := rfl
  have hlen := s.input_length.trans_le hin
  have hflag := backendOf_eq_some_iff.1 hb
  have hcovers := planeTable_covers hlen b
  obtain ⟨hhuffman, hrange, hrans⟩ := encodedRun_bounds hlen b
  rw [s.input_length] at hhuffman hrange hrans
  refine ⟨_, streamSize_of_covers hcovers, hhuffman, hrange, hrans, fun hfit => ?fits, fun hover => ?overflows⟩
  case fits =>
    have hrun := encodeRun_of_fits hcovers (room := Config.outCap - 1024) (by omega)
    rw [hflag]
    exact ⟨_, exec_planeCompress_done herr hin hflag hrun, s.coderDone_completed _ _ herr,
      State.coderDone_compressed hin hfit⟩
  case overflows =>
    obtain ⟨i, hi, hoverflow⟩ := exists_overflowsAt hcovers (room := Config.outCap - 1024) (by omega)
    rw [s.input_length] at hi
    exact ⟨i, hi, hoverflow, exec_planeCompress_faulted herr hin hflag (encodeRun_of_overflow hcovers hoverflow)⟩

/-! ## The unit commands one after another (R283) -/

@[simp] theorem State.freqDone_input (s : State) (F : FreqTable) (inPos : Nat) : (s.freqDone F inPos).input = s.input :=
  rfl

theorem exec_freqCount {s : State} (herr : s.error = false) (hin : s.inLen.toNat ≤ Config.inCap) :
    exec .freqCount s = .next (s.freqDone (countTable s.input 0) s.inLen.toNat) :=
  congrArg Host.Outcome.next (State.command_freqCountOp 0 herr hin)

theorem exec_freqCountFloor {s : State} (herr : s.error = false) (hin : s.inLen.toNat ≤ Config.inCap) :
    exec .freqCountFloor s = .next (s.freqDone (countTable s.input 1) s.inLen.toNat) :=
  congrArg Host.Outcome.next (State.command_freqCountOp 1 herr hin)

/-- What the commands of the frequency model leave of the coders' state: all of it. -/
structure State.keepsCoders (s u : State) : Prop where
  cum : u.cum = s.cum
  huffman : s.keepsHuffman u
  symtab : u.symtab = s.symtab
  working : s.keepsWorking u

theorem State.keepsCoders_freqDone (s : State) (F : FreqTable) (inPos : Nat) : s.keepsCoders (s.freqDone F inPos) :=
  ⟨rfl, ⟨rfl, rfl, rfl, rfl⟩, rfl, ⟨rfl, rfl, rfl⟩, rfl, rfl⟩

/-- The same run over states that agree on the coders leaves states that agree on them. -/
theorem State.keepsCoders.coderDone {s u : State} (h : s.keepsCoders u) (F : FreqTable) (pre pre' : List Byte)
    {b : Backend} (r : CoderRun b) :
    let t := s.coderDone F pre r
    let v := u.coderDone F pre' r
    t.cum = v.cum ∧ t.hlen = v.hlen ∧ t.hcode = v.hcode ∧ t.symtab = v.symtab ∧ t.arena = v.arena ∧
    (2 ≤ F.occurring.length → t.lut = v.lut) ∧ t.rcLow = v.rcLow ∧ t.rcHigh = v.rcHigh ∧ t.rcPending = v.rcPending ∧
    t.rcValue = v.rcValue ∧ t.ransX = v.ransX := by
  obtain ⟨hcum, ⟨hhlen, hhcode, harena, hlut⟩, hsymtab, ⟨hlow, hhigh, hpending⟩, hvalue, hransX⟩ := h
  obtain ⟨_, _, _, regs⟩ := r
  cases regs with
  | huffman =>
    exact ⟨hcum.symm, rfl, rfl, hsymtab.symm, rfl, fun htwo => lutTable_of_two htwo _ _, hlow.symm, hhigh.symm,
      hpending.symm, hvalue.symm, hransX.symm⟩
  | range low high pending value =>
    exact ⟨rfl, hhlen.symm, hhcode.symm, hsymtab.symm, harena.symm, fun _ => hlut.symm, rfl, rfl, rfl,
      congrArg value.getD hvalue.symm, hransX.symm⟩
  | rans x =>
    exact ⟨rfl, hhlen.symm, hhcode.symm, rfl, harena.symm, fun _ => hlut.symm, hlow.symm, hhigh.symm, hpending.symm,
      hvalue.symm, rfl⟩

/-- A run with the table in front of its result, beside the same run without it: the result moves, and nothing else. -/
theorem State.keepsCoders.coderDone_serialised {s u : State} (h : s.keepsCoders u) (herr : u.error = false) (F : FreqTable)
    {b : Backend} (r : CoderRun b) (hfit : 1024 + r.out.length ≤ Config.outCap) :
    let t := s.coderDone F F.serialise r
    let v := u.coderDone F [] r
    v.completed ∧ t.freq = v.freq ∧ t.cum = v.cum ∧ t.hlen = v.hlen ∧ t.hcode = v.hcode ∧ t.symtab = v.symtab ∧
    t.arena = v.arena ∧ (2 ≤ t.freq.occurring.length → t.lut = v.lut) ∧ t.rcLow = v.rcLow ∧ t.rcHigh = v.rcHigh ∧
    t.rcPending = v.rcPending ∧ t.rcValue = v.rcValue ∧ t.ransX = v.ransX ∧ t.inPos = v.inPos ∧ t.outPos = v.outPos ∧
    t.outLen.toNat = 1024 + v.outLen.toNat ∧ t.result.drop 1024 = v.result ∧ t.result.take 1024 = t.freq.serialise := by
  intro t v
  have hfit' : F.serialise.length + r.out.length ≤ Config.outCap := by rwa [F.serialise_length]
  have hfit₀ : ([] : List Byte).length + r.out.length ≤ Config.outCap := by rw [List.length_nil]; omega
  have hresult : t.result = F.serialise ++ r.out := s.coderDone_result F r hfit'
  have hresult₀ : v.result = r.out := u.coderDone_result F r hfit₀
  have houtLen : t.outLen.toNat = F.serialise.length + r.out.length := s.coderDone_outLen F r hfit'
  have houtLen₀ : v.outLen.toNat = 0 + r.out.length := u.coderDone_outLen F r hfit₀
  have hfreq : t.freq = F := s.coderDone_freq F r
  have hfreq₀ : v.freq = F := u.coderDone_freq F r
  obtain ⟨hcum, hhlen, hhcode, hsymtab, harena, hlut, hregs⟩ := h.coderDone F F.serialise [] r
  obtain ⟨hlow, hhigh, hpending, hvalue, hransX⟩ := hregs
  rw [hresult, hresult₀, houtLen, houtLen₀, hfreq, hfreq₀, Nat.zero_add, List.drop_left' F.serialise_length,
    List.take_left' F.serialise_length, F.serialise_length]
  exact ⟨u.coderDone_completed F r herr, rfl, hcum, hhlen, hhcode, hsymtab, harena, hlut, hlow, hhigh, hpending, hvalue,
    hransX, rfl, rfl, rfl, rfl, rfl⟩

/-- The unit commands of a backend, one after another: the table of R149 from the plane, then the encoder's run. -/
theorem exec_unitCommands {s : State} (herr : s.error = false) (hin : s.inLen.toNat ≤ Config.inCap) (b : Backend)
    (hfit : (encodedRun (planeTable b s.input) s.input b).out.length ≤ Config.outCap) :
    ∃ s₁ s₂ u,
      (b.flag = 0 → exec .freqCount s = .next s₁ ∧ s₂ = s₁ ∧ exec .hufEncode s₂ = .next u) ∧
      (b.flag = 1 → exec .freqCountFloor s = .next s₁ ∧ s₂ = s₁ ∧ exec .rcEncode s₂ = .next u) ∧
      (b.flag = 2 → exec .freqCount s = .next s₁ ∧ exec .freqNorm s₁ = .next s₂ ∧ exec .ransEncode s₂ = .next u) ∧
      s₂.error = false ∧ s.keepsCoders s₂ ∧
      u = s₂.coderDone (planeTable b s.input) [] (encodedRun (planeTable b s.input) s.input b) := by
  have hrun := encodeRun_of_fits (planeTable_covers (s.input_length.trans_le hin) b) hfit
  cases b with
  | huffman =>
    exact ⟨_, _, _, fun _ => ⟨exec_freqCount herr hin, rfl, exec_encoder_done (b := .huffman)
      (s := s.freqDone (countTable s.input 0) s.inLen.toNat) herr hin hrun⟩, fun h => absurd h (by decide),
      fun h => absurd h (by decide), herr, s.keepsCoders_freqDone _ _, rfl⟩
  | range =>
    exact ⟨_, _, _, fun h => absurd h (by decide), fun _ => ⟨exec_freqCountFloor herr hin, rfl, exec_encoder_done
      (b := .range) (s := s.freqDone (countTable s.input 1) s.inLen.toNat) herr hin hrun⟩,
      fun h => absurd h (by decide), herr, s.keepsCoders_freqDone _ _, rfl⟩
  | rans =>
    have herr₁ : (s.freqDone (countTable s.input 0) s.inLen.toNat).error = false := herr
    exact ⟨_, _, _, fun h => absurd h (by decide), fun h => absurd h (by decide), fun _ => ⟨exec_freqCount herr hin,
      exec_freqNorm herr₁, exec_encoder_done (b := .rans)
        (s := (s.freqDone (countTable s.input 0) s.inLen.toNat).freqDone (normalize (countTable s.input 0)) 0)
        herr hin hrun⟩, herr, ⟨rfl, ⟨rfl, rfl, rfl, rfl⟩, rfl, ⟨rfl, rfl, rfl⟩, rfl, rfl⟩, rfl⟩

/-- Settles O48: the unit commands make the same run, with more room for the stream and no table in front of it. -/
theorem planeCompressEqualsTheUnitCommands : Obligations.PlaneCompressEqualsTheUnitCommands := by
  intro s t herr hexec ht
  have hcap : Config.outCap = 1048576 := rfl
  obtain ⟨hin, b, hflag, hfit, rfl⟩ := exec_planeCompress_of_no_error herr hexec ht
  obtain ⟨s₁, s₂, u, h₀, h₁, h₂, herr₂, hkeeps, rfl⟩ := exec_unitCommands herr hin b (by omega)
  rw [hflag]
  exact ⟨s₁, s₂, _, h₀, h₁, h₂, hkeeps.coderDone_serialised herr₂ _ _ (by omega)⟩

end Sys2Proof.Machine
end

section
/-!
`PLANE_DECOMPRESS` (spec/44_plane_and_system.md R282, R283, R286): the unit decoders that make the same run, the payloads it
completes on, and the round trip.
-/
namespace Sys2Proof.Machine

/-! ## The unit decoders (R282, R283) -/

/-- After a fault there is no result (R342). -/
theorem State.faulted.result_eq_nil {t : State} {k : ErrorKind} {info : Word} (h : t.faulted k info) : t.result = [] := by
  obtain ⟨-, -, -, -, houtLen⟩ := h
  rw [State.result, houtLen]
  rfl

/-- A decoder of the range unit sets `RC_VALUE`, whatever it was before (R223). -/
theorem State.coderDone_decodeRun_rcValue {F : FreqTable} {n : Nat} {P : List Byte} {b : Backend} {r : CoderRun b}
    (hrun : decodeRun F n P b = .ok r) (hb : b.flag = 1) (s u : State) :
    (s.coderDone F [] r).rcValue = (u.coderDone F [] r).rcValue := by
  cases b with
  | huffman => exact absurd hb (by decide)
  | range =>
    rw [decodeRun] at hrun
    split_ifs at hrun
    obtain ⟨q, -, rfl⟩ := exists_of_map_ok hrun
    rfl
  | rans => exact absurd hb (by decide)

/-- The mode flag and the unit's decode command name the same backend. -/
theorem exists_decoder {flag : Byte} {i : Instr}
    (h : flag = 0 ∧ i = .hufDecode ∨ flag = 1 ∧ i = .rcDecode ∨ flag = 2 ∧ i = .ransDecode) :
    ∃ b : Backend, flag = b.flag ∧ i = b.decoder := by
  rcases h with h | h | h
  · exact ⟨.huffman, h⟩
  · exact ⟨.range, h⟩
  · exact ⟨.rans, h⟩

/-- The input byte by byte. -/
theorem State.input_getElem? (s : State) {k : Nat} (hk : k < s.inLen.toNat) : s.input[k]? = some (s.inByte k) := by
  simp [State.input, State.inBytes, hk]

/-- The stream of a payload, found as the whole input of another state. -/
theorem State.payloadStream_eq_input {s u : State} (hlen : u.inLen.toNat = s.inLen.toNat - 1024)
    (hbytes : ∀ k < u.inLen.toNat, u.inByte k = s.inByte (1024 + k)) : s.payloadStream = u.input := by
  refine List.ext_getElem? fun k => ?_
  rw [s.payloadStream_eq, List.getElem?_drop]
  rcases Nat.lt_or_ge k u.inLen.toNat with hk | hk
  · rw [u.input_getElem? hk, s.input_getElem? (by omega), hbytes k hk]
  · rw [List.getElem?_eq_none (by rw [s.input_length]; omega), List.getElem?_eq_none (by rwa [u.input_length])]

/-- Two commands that end in the same fault end alike, and neither is done (R342). -/
theorem State.faulted.alike {t v : State} {k : ErrorKind} {info : Word} (h : t.faulted k info) (h' : v.faulted k info) :
    t.done = v.done ∧ t.error = v.error ∧ (t.error = true → t.errCode = v.errCode ∧ t.errInfo = v.errInfo) ∧
    t.outLen = v.outLen ∧ t.result = v.result ∧ t.done ≠ true := by
  have hresult := h.result_eq_nil.trans h'.result_eq_nil.symm
  obtain ⟨hdone, herror, hcode, hinfo, hout⟩ := h
  obtain ⟨hdone', herror', hcode', hinfo', hout'⟩ := h'
  exact ⟨hdone.trans hdone'.symm, herror.trans herror'.symm,
    fun _ => ⟨hcode.trans hcode'.symm, hinfo.trans hinfo'.symm⟩, hout.trans hout'.symm, hresult, ne_true_of_eq_false hdone⟩

/-- Settles O49: both commands make the same run of the decoder, over the same table, stream and count. -/
theorem planeDecompressEqualsTheUnitDecoder : Obligations.PlaneDecompressEqualsTheUnitDecoder := by
  intro s u i herr huerr hi htable hin hfreq hulen hubytes hucount
  obtain ⟨b, hflag, rfl⟩ := exists_decoder hi
  have huin : u.inLen.toNat ≤ Config.inCap := by omega
  have hload : FreqTable.load s.inByte = u.freq := FreqTable.ext_at fun c => by rw [FreqTable.load_at, hfreq]
  have hstream := State.payloadStream_eq_input hulen hubytes
  rcases Nat.lt_or_ge Config.outCap s.expectedCount.toNat with hgt | hcount
  · obtain ⟨t, ht, htf⟩ := exec_faulted_of_count_gt (i := .planeDecompress) herr hin hgt (by decide)
    obtain ⟨v, hv, hvf⟩ := exec_faulted_of_count_gt (i := b.decoder) huerr huin (hucount ▸ hgt) (by cases b <;> decide)
    obtain ⟨hdone, herror, hrecord, hout, hresult, hnot⟩ := htf.alike hvf
    exact ⟨t, v, ht, hv, hdone, herror, hrecord, hout, hresult, fun h => absurd h hnot,
      fun hle => absurd hgt (Nat.not_lt.2 hle)⟩
  have hucount' : u.expectedCount.toNat ≤ Config.outCap := hucount ▸ hcount
  have hsame : decodeRun u.freq u.expectedCount.toNat u.input b =
      decodeRun (FreqTable.load s.inByte) s.expectedCount.toNat s.payloadStream b := by rw [hload, hstream, hucount]
  cases hrun : decodeRun (FreqTable.load s.inByte) s.expectedCount.toNat s.payloadStream b with
  | error e =>
    obtain ⟨t, ht, htf, htfreq⟩ := exec_planeDecompress_run_faulted herr hin hcount hflag htable hrun
    obtain ⟨v, hv, hvf⟩ := exec_decoder_faulted huerr huin hucount' (hsame.trans hrun)
    obtain ⟨hdone, herror, hrecord, hout, hresult, hnot⟩ := htf.alike hvf
    exact ⟨t, v, ht, hv, hdone, herror, hrecord, hout, hresult, fun h => absurd h hnot,
      fun _ => htfreq.trans hload⟩
  | ok r =>
    have ht := exec_planeDecompress_done herr hin hcount hflag htable hrun
    have hv := exec_decoder_done huerr huin hucount' (hsame.trans hrun)
    rw [hload] at ht hrun
    have hfit := decodeRun_fits hrun hcount
    obtain ⟨htdone, hterr⟩ := s.coderDone_completed u.freq (pre := []) r herr
    obtain ⟨hvdone, hverr⟩ := u.coderDone_completed u.freq (pre := []) r huerr
    obtain ⟨hhuffman, hrange, hrans⟩ := State.coderDone_alike s u u.freq [] [] r
    rw [hflag]
    exact ⟨_, _, ht, hv, htdone.trans hvdone.symm, hterr.trans hverr.symm,
      fun h => absurd h (ne_true_of_eq_false hterr), rfl,
      (s.coderDone_result _ r hfit).trans (u.coderDone_result _ r hfit).symm,
      fun _ => ⟨rfl, rfl, hhuffman, fun h => by
        obtain ⟨hcum, hlow, hhigh, hpending⟩ := hrange h
        exact ⟨hcum, hlow, hhigh, hpending, State.coderDone_decodeRun_rcValue hrun h s u⟩, hrans⟩,
      fun _ => s.coderDone_freq u.freq r⟩

/-! ## Good payloads (R282) -/

/-- The range coder's decoder comes through on every stream, where the total leaves each narrowing a width (R207). -/
theorem exists_decodeRun_range {F : FreqTable} (hF : ∀ c, F.at c ≠ 0) (hT : F.total ≤ 2 ^ 29) (n : Nat) (P : List Byte) :
    ∃ r, decodeRun F n P .range = .ok r := by
  have hok : rcAccepts F := ⟨hF, hT.trans (by decide)⟩
  obtain ⟨q, hq⟩ := rcDecodeLoop_completes hok hT n 0 _ (rcDecoderStart_inside (streamBits P))
  rw [decodeRun, if_pos ((rcAccepts_iff F).1 hok), hq]
  exact ⟨_, rfl⟩

/-- The rANS decoder comes through on a stream of the state's bytes and two a symbol, and reads none without a symbol. -/
theorem exists_decodeRun_rans {F : FreqTable} {n : Nat} {P : List Byte} (hF : F.total = 4096)
    (hlong : n = 0 ∨ 5 + leadingZeros P + 2 * n ≤ P.length) : ∃ r, decodeRun F n P .rans = .ok r := by
  have hall : ∃ q, ransDecodeAll F F.cumulative (ransSymtab F) n P = .ok q := by
    rcases hlong with rfl | hlong
    · exact ⟨_, ransDecodeAll_zero⟩
    · exact ransDecodeAll_of_long hF hlong
  obtain ⟨q, hq⟩ := hall
  rw [decodeRun, if_pos ((ransTableOk_iff F).2 hF), hq]
  exact ⟨_, rfl⟩

/-- The decoder comes through on each kind of good stream, under backend 0 with the symbols whose codes it holds. -/
theorem exists_decodeRun {F : FreqTable} {n : Nat} {P B : List Byte} {rest : Bits} {flag : Byte}
    (h : (flag = 0 ∧ F.total = n ∧ bitsNeeded F ≤ 8 * P.length ∧ B.length = n ∧ (∀ c ∈ B, F.at c ≠ 0) ∧
        streamBits P = B.flatMap (codeOf F) ++ rest) ∨
      (flag = 1 ∧ (∀ c, F.at c ≠ 0) ∧ F.total ≤ 2 ^ 29) ∨
      (flag = 2 ∧ F.total = 4096 ∧ (n = 0 ∨ 5 + leadingZeros P + 2 * n ≤ P.length))) :
    ∃ (b : Backend) (r : CoderRun b), flag = b.flag ∧ decodeRun F n P b = .ok r ∧ (b.flag = 0 → r.out = B) := by
  rcases h with ⟨rfl, htotal, hneed, rfl, hB, hbits⟩ | ⟨rfl, hF, hT⟩ | ⟨rfl, hF, hlong⟩
  · obtain ⟨r, hrun, hr⟩ := decodeRun_of_codes htotal hneed hB hbits
    exact ⟨.huffman, r, rfl, hrun, fun _ => hr⟩
  · obtain ⟨r, hrun⟩ := exists_decodeRun_range hF hT n P
    exact ⟨.range, r, rfl, hrun, fun h => absurd h (by decide)⟩
  · obtain ⟨r, hrun⟩ := exists_decodeRun_rans hF hlong
    exact ⟨.rans, r, rfl, hrun, fun h => absurd h (by decide)⟩

/-- Settles O50: a good payload passes the entry checks, and the decoder comes through on its stream. -/
theorem planeDecompressCompletesOnAGoodPayload : Obligations.PlaneDecompressCompletesOnAGoodPayload := by
  rintro s F B rest herr rfl htable hin hcount hgood
  rw [← s.payloadStream_length] at hgood
  obtain ⟨b, r, hflag, hrun, hout⟩ := exists_decodeRun (hgood.imp_right (Or.imp_right fun ⟨hf, hF, hlong⟩ =>
    ⟨hf, hF, hlong.imp_left (congrArg BitVec.toNat)⟩))
  obtain ⟨hlen, hpos⟩ := decodeRun_length hrun
  have hfit := decodeRun_fits hrun hcount
  obtain ⟨houtLen, -, houtPos⟩ := s.coderDone_cursors (FreqTable.load s.inByte) (pre := []) r
  rw [hlen, List.length_nil, Nat.zero_add, BitVec.ofNat_toNat, BitVec.setWidth_eq] at houtLen
  rw [hpos, BitVec.ofNat_toNat, BitVec.setWidth_eq] at houtPos
  obtain ⟨hoperands, hkeeps⟩ := s.coderDone_keeps (FreqTable.load s.inByte) r hfit
  obtain ⟨hhuffman, hcum, hrans, hrange⟩ := s.coderDone_frame (FreqTable.load s.inByte) (pre := []) r
  rw [hflag]
  exact ⟨_, exec_planeDecompress_done herr hin hcount hflag htable hrun, s.coderDone_completed _ r herr,
    s.coderDone_freq _ r, houtLen, houtPos, fun h => (s.coderDone_result _ r hfit).trans (hout h), hoperands, hkeeps,
    hhuffman, hcum, fun h => (hrans h).1, hrange, fun h => (hrans h).2⟩

/-! ## The round trip (R286) -/

/-- An input that starts with a serialised table is a payload of that table, and what follows is its stream. -/
theorem State.payload_of_input {s : State} {F : FreqTable} {P : List Byte} (h : F.serialise ++ P = s.input) :
    1024 ≤ s.inLen.toNat ∧ FreqTable.load s.inByte = F ∧ s.payloadStream = P := by
  have hlen : 1024 ≤ s.inLen.toNat := by
    rw [← s.input_length, ← h, List.length_append, F.serialise_length]
    omega
  refine ⟨hlen, FreqTable.load_serialise F _ fun k hk => ?_, ?_⟩
  · rw [← s.input_getElem? (hk.trans_le hlen), ← h, List.getElem?_append_left (by rwa [F.serialise_length])]
  · rw [s.payloadStream_eq, ← h, List.drop_left' F.serialise_length]

/-- Settles O51: the payload holds the plane's table and starts with the encoder's stream, which the decoder reads back. -/
theorem planeRoundTrip : Obligations.PlaneRoundTrip := by
  intro s t u herr hin hout hexec ht huerr huflag hcount huin hresult
  have hcap : Config.outCap = 1048576 := rfl
  obtain ⟨-, b, hflag, hfit, rfl⟩ := exec_planeCompress_of_no_error herr hexec ht
  rw [State.coderDone_result _ _ _ (by rw [FreqTable.serialise_length]; omega)] at hresult
  obtain ⟨rest, hinput⟩ := hresult
  rw [List.append_assoc] at hinput
  obtain ⟨htable, hload, hstream⟩ := State.payload_of_input hinput
  obtain ⟨r, hrun, hr⟩ := decodeRun_encodedRun (s.input_length.trans_le hin) b rest
  have hucount : u.expectedCount.toNat ≤ Config.outCap := hcount ▸ hout
  have hdone := exec_planeDecompress_done huerr huin hucount (huflag.trans hflag) htable (r := r)
    (by rw [hload, hstream, hcount, ← s.input_length]; exact hrun)
  have hrlen := decodeRun_fits hrun (s.input_length.trans_le hout)
  exact ⟨_, hdone, u.coderDone_completed _ _ huerr, (u.coderDone_result _ _ hrlen).trans hr,
    by rw [State.coderDone_freq, State.coderDone_freq, hload]⟩

end Sys2Proof.Machine
end

section
/-!
The system commands (spec/44_plane_and_system.md R284, R285): `NOP`, `SOFT_RESET` and the `Reset` transaction.
-/
namespace Sys2Proof.Machine

/-- `NOP` completes a state whose cursors are 0 (R284). -/
theorem exec_nop {s : State} (herr : s.error = false) :
    exec .nop s = .next (s.accept.setCursors 0 0 0).complete :=
  congrArg Host.Outcome.next (State.command_of_ok _ herr)

/-- Settles O16: while `ERROR` is 1 the prologue ignores the command, and else the cursors and `DONE` are all it writes. -/
theorem nopClearsTheCursors : Obligations.NopClearsTheCursors := by
  refine ⟨decodeWord_encode .nop, fun s => ⟨exec_of_error (by decide), fun herr => ?_⟩⟩
  have hstatus : (s.accept.setCursors 0 0 0).complete.statusWord = 1 := by
    rw [State.statusWord, State.complete_done, State.complete_error, State.setCursors_error, State.accept_error, herr]
    rfl
  exact ⟨_, exec_nop herr, ⟨rfl, herr⟩, hstatus, ⟨rfl, rfl, rfl⟩, ⟨rfl, rfl, rfl, rfl, rfl, rfl, rfl, rfl⟩, rfl, rfl,
    ⟨rfl, rfl, rfl, rfl⟩, rfl, ⟨⟨rfl, rfl, rfl⟩, rfl, rfl⟩, fun _ => rfl⟩

@[simp] theorem State.restart_freq (s : State) :
    s.restart.freq = (State.resetAt (s.draw + 1) s.host).freq := rfl

/-- Settles O14: both resets restart the block, whose registers then stand at their reset values. -/
theorem softResetRestoresTheResetValues : Obligations.SoftResetRestoresTheResetValues := by
  intro s
  have hfreq : ∀ b, s.restart.freq.at b = 0 := fun b => by rw [State.restart_freq, State.resetAt_freq_at]
  exact ⟨s.restart, rfl, rfl, rfl, rfl, rfl, rfl, rfl, rfl, rfl, rfl, rfl, rfl, rfl, rfl, rfl, hfreq, rfl, rfl, rfl⟩

end Sys2Proof.Machine
end

section
/-!
The host's planes and payloads (spec/45_host_boundary.md R301 to R305, R309): interleaving undoes splitting up to an unpaired
last byte, and the low plane comes back from its payload under every backend.
-/
namespace Sys2Proof.Machine

/-! ## Planes (R301, R302, R309) -/

/-- The bytes up to the last whole pair (R309). -/
def wholePairs (D : List Byte) : List Byte := D.take (2 * (D.length / 2))

@[simp] theorem wholePairs_nil : wholePairs [] = [] := rfl

theorem wholePairs_cons_cons (lo hi : Byte) (D : List Byte) : wholePairs (lo :: hi :: D) = lo :: hi :: wholePairs D := by
  have hlen : 2 * ((lo :: hi :: D).length / 2) = 2 * (D.length / 2) + 2 := by simp only [List.length_cons]; omega
  rw [wholePairs, hlen]
  rfl

/-- Cut at an even length, the pairs are those of both parts. -/
theorem wholePairs_take_append_drop {n : Nat} (hn : n % 2 = 0) (D : List Byte) :
    wholePairs (D.take n) ++ wholePairs (D.drop n) = wholePairs D := by
  rcases Nat.lt_or_ge n D.length with hlt | hge
  · have htake : 2 * ((D.take n).length / 2) = n := by rw [List.length_take]; omega
    have hdrop : 2 * (D.length / 2) = n + 2 * ((D.drop n).length / 2) := by rw [List.length_drop]; omega
    rw [wholePairs, wholePairs, wholePairs, htake, hdrop, List.take_take, Nat.min_self, List.take_add]
  · rw [List.take_of_length_le hge, List.drop_of_length_le hge, wholePairs_nil, List.append_nil]

theorem splitPlanes_length : ∀ D : List Byte,
    (splitPlanes D).1.length = D.length / 2 ∧ (splitPlanes D).2.length = D.length / 2
  | [] => ⟨rfl, rfl⟩
  | [_] => by simp [splitPlanes]
  | lo :: hi :: D => by
    obtain ⟨hlow, hhigh⟩ := splitPlanes_length D
    simp only [splitPlanes, List.length_cons, hlow, hhigh]
    omega

theorem interleave_splitPlanes : ∀ D : List Byte, interleave (splitPlanes D).1 (splitPlanes D).2 = .ok (wholePairs D)
  | [] => rfl
  | [_] => by simp [splitPlanes, interleave, wholePairs]
  | lo :: hi :: D => by rw [splitPlanes, interleave, interleave_splitPlanes D, wholePairs_cons_cons]

/-! ## Zero runs (R304) -/

/-- A byte that is not 0 stands for itself. -/
theorem unrle_cons_of_ne {b : Byte} {R P : List Byte} (hb : b ≠ 0) (h : unrle R = .ok P) : unrle (b :: R) = .ok (b :: P) := by
  cases R with
  | nil => cases h; exact if_neg hb
  | cons c R => rw [unrle, if_neg hb, h]

/-- A zero byte and its count stand for a run. -/
theorem unrle_zero_cons {c : Byte} {R P : List Byte} (h : unrle R = .ok P) :
    unrle (0 :: c :: R) = .ok (List.replicate c.toNat 0 ++ P) := by
  rw [unrle, if_pos rfl, h]

theorem unrle_run {c : Nat} {R P : List Byte} (hc : c ≤ 255) (h : unrle R = .ok P) :
    unrle (0 :: BitVec.ofNat 8 c :: R) = .ok (List.replicate c 0 ++ P) := by
  have hcount : (BitVec.ofNat 8 c).toNat = c := Nat.mod_eq_of_lt (Nat.lt_succ_of_le hc)
  rw [unrle_zero_cons h, hcount]

/-- With `c` zeros pending, what is written stands for them and the plane. -/
theorem unrle_rleFrom : ∀ (P : List Byte) {c : Nat}, c ≤ 255 → unrle (rleFrom c P) = .ok (List.replicate c 0 ++ P)
  | [], c, hc => by
    rw [rleFrom]
    split_ifs with hzero
    · rw [hzero]; rfl
    · exact unrle_run hc rfl
  | b :: P, c, hc => by
    rw [rleFrom]
    split_ifs with hb hfull hzero
    · rw [hb, hfull]
      exact unrle_zero_cons (unrle_rleFrom P (by decide))
    · rw [unrle_rleFrom P (by omega), hb, List.replicate_succ', List.append_assoc, List.singleton_append]
    · rw [hzero]
      exact unrle_cons_of_ne hb (unrle_rleFrom P (Nat.zero_le _))
    · exact unrle_run hc (unrle_cons_of_ne hb (unrle_rleFrom P (Nat.zero_le _)))

theorem unrle_rle (P : List Byte) : unrle (rle P) = .ok P := unrle_rleFrom P (Nat.zero_le _)

/-! ## The low-plane payload (R303, R305) -/

theorem lowPlane_lowPayload (b : Backend) (P : List Byte) : lowPlane b (lowPayload b P) = .ok P := by
  cases b with
  | huffman | rans => rfl
  | range =>
    rw [lowPayload]
    split_ifs
    · rfl
    · exact unrle_rle P

theorem lowPayload_length_le (b : Backend) (P : List Byte) : (lowPayload b P).length ≤ P.length + 1 := by
  cases b with
  | huffman | rans => exact Nat.le_succ _
  | range =>
    rw [lowPayload]
    split_ifs with hle
    · exact Nat.le_refl _
    · rw [List.length_cons]; omega

end Sys2Proof.Machine
end

section
/-!
The formats on disk (spec/45_host_boundary.md R306, R307, R310): each reader finds what was written, with the bytes after it.
-/
namespace Sys2Proof.Machine

/-! ## Lengths (spec/20_memory.md R71) -/

@[simp] theorem leBytes_length : ∀ n x : Nat, (leBytes n x).length = n
  | 0, _ => rfl
  | n + 1, x => congrArg (· + 1) (leBytes_length n (x / 256))

theorem leNat_leBytes : ∀ {n x : Nat}, x < 256 ^ n → leNat (leBytes n x) = x
  | 0, x, hx => by rw [Nat.lt_one_iff.1 hx]; rfl
  | n + 1, x, hx => by
    have hrest : x / 256 < 256 ^ n := Nat.div_lt_of_lt_mul (by rwa [Nat.pow_succ'] at hx)
    rw [leBytes, leNat, leNat_leBytes hrest, BitVec.toNat_ofNat]
    exact Nat.mod_add_div x 256

/-! ## The block record (R306, R310) -/

theorem BlockRecord.bytes_length (r : BlockRecord) : r.bytes.length = 8 + r.msb.length + r.lsb.length := by
  simp only [BlockRecord.bytes, List.length_append, leBytes_length]

@[simp] theorem readRecord_nil : readRecord [] = .ok none := rfl

theorem readRecord_bytes {r : BlockRecord} (hmsb : r.msb.length < 2 ^ 32) (hlsb : r.lsb.length < 2 ^ 32)
    (rest : List Byte) : readRecord (r.bytes ++ rest) = .ok (some (r, rest)) := by
  have hne : r.bytes ++ rest ≠ [] := by
    refine List.ne_nil_of_length_pos ?_
    rw [List.length_append, r.bytes_length]; omega
  have hlen : ¬ (r.bytes ++ rest).length < 8 := by rw [List.length_append, r.bytes_length]; omega
  have hcut : r.bytes ++ rest = leBytes 4 r.msb.length ++ (leBytes 4 r.lsb.length ++ (r.msb ++ (r.lsb ++ rest))) := by
    simp [BlockRecord.bytes]
  have hn : leNat ((r.bytes ++ rest).take 4) = r.msb.length := by
    rw [hcut, List.take_left' (leBytes_length ..), leNat_leBytes hmsb]
  have hk : leNat (((r.bytes ++ rest).drop 4).take 4) = r.lsb.length := by
    rw [hcut, List.drop_left' (leBytes_length ..), List.take_left' (leBytes_length ..), leNat_leBytes hlsb]
  have hbody : (r.bytes ++ rest).drop 8 = r.msb ++ (r.lsb ++ rest) := by
    rw [hcut, ← List.append_assoc, List.drop_left' (by simp)]
  have hfits : ¬ (r.msb ++ (r.lsb ++ rest)).length < r.msb.length + r.lsb.length := by
    simp only [List.length_append]; omega
  rw [readRecord, if_neg hne, if_neg hlen]
  simp only [hn, hk, hbody, if_neg hfits]
  simp [← List.drop_drop]

/-! ## The header, the original file and the container (R307) -/

theorem readHeader_headerBytes {header : List Byte} (h : header.length < 2 ^ 64) (rest : List Byte) :
    readHeader (headerBytes header ++ rest) = .ok (header, rest) := by
  have hcut : headerBytes header ++ rest = leBytes 8 header.length ++ (header ++ rest) := List.append_assoc ..
  have hn : leNat ((headerBytes header ++ rest).take 8) = header.length := by
    rw [hcut, List.take_left' (leBytes_length ..), leNat_leBytes h]
  have hbody : (headerBytes header ++ rest).drop 8 = header ++ rest := by
    rw [hcut, List.drop_left' (leBytes_length ..)]
  have hfits : ¬ ((headerBytes header ++ rest).length < 8 ∨ (header ++ rest).length < header.length) := by
    simp only [hcut, List.length_append, leBytes_length]; omega
  simp only [readHeader, hn, hbody, if_neg hfits]
  simp

theorem readOriginal_bytes {o : Original} (h : o.header.length < 2 ^ 64) : readOriginal o.bytes = .ok o := by
  rw [readOriginal, Original.bytes, readHeader_headerBytes h]

theorem readContainer_bytes {c : Container} (h : c.header.length < 2 ^ 64) : readContainer c.bytes = .ok c := by
  rw [readContainer, Container.bytes, readHeader_headerBytes h]

end Sys2Proof.Machine
end

section
/-!
The runs of the host against the block (spec/45_host_boundary.md R308, R310, R322): how runs follow one another, what the
host's transactions make of the block, and how one plane goes through it and comes back.
-/
namespace Sys2Proof.Machine

/-! ## Runs after runs -/

@[simp] theorem followedBy_ok {α β : Type} (a : α) (s : State) (next : α → State → HostRun β) :
    followedBy (.ok a, s) next = next a s := rfl

/-- A run of two parts comes through where both do. -/
theorem followedBy_eq_ok {α β : Type} {r : HostRun α} {next : α → State → HostRun β} {b : β} {t : State}
    (h : followedBy r next = (.ok b, t)) : ∃ a s, r = (.ok a, s) ∧ next a s = (.ok b, t) := by
  obtain ⟨e | a, s⟩ := r
  · cases h
  · exact ⟨a, s, rfl, h⟩

@[simp] theorem checked_ok {α : Type} (a : α) (s : State) : checked (.ok a) s = (.ok a, s) := rfl

/-- A check of the host's own that passes leaves the block as it was. -/
theorem checked_eq_ok {α : Type} {r : Except HostError α} {a : α} {s t : State} (h : checked r s = (.ok a, t)) :
    r = .ok a ∧ t = s := by
  cases h
  exact ⟨rfl, rfl⟩

@[simp] theorem runTxns_nil (s : State) : runTxns [] s = (.ok (), s) := rfl

theorem runTxns_cons {s t : State} {x : Txn} (h : s.transact x = .next t) (xs : List Txn) :
    runTxns (x :: xs) s = runTxns xs t := by
  rw [runTxns, h]

theorem runTxns_append : ∀ (xs ys : List Txn) (s : State),
    runTxns (xs ++ ys) s = followedBy (runTxns xs s) fun _ t => runTxns ys t
  | [], _, _ => rfl
  | x :: xs, ys, s => by
    rw [List.cons_append, runTxns, runTxns]
    cases s.transact x with
    | next t => exact runTxns_append xs ys t
    | fault _ | refused _ => rfl

/-! ## Transactions of the host's programs -/

/-- A command's own write to `CMD`. -/
theorem State.transact_cmd {s t : State} {i : Instr} (h : exec i s = .next t) :
    s.transact (cmd i) = .next { t with reply := .empty } := by
  have hwrite := s.transact_wr_cmd (encode i)
  rwa [s.writeCmd_of_decode (decodeWord_encode i), h, answer_next] at hwrite

/-- The block once the host has put bytes in `IN` and their number in `IN_LEN` (R322 duties 2 and 3). -/
def State.holding (s : State) (bs : List Byte) : State :=
  { s.writeRegion .input 0 bs with inLen := BitVec.ofNat 32 bs.length, reply := .empty }

section Holding
variable (s : State) (bs : List Byte)

@[simp] theorem State.holding_error : (s.holding bs).error = s.error := rfl
@[simp] theorem State.holding_backend : (s.holding bs).backend = s.backend := rfl

variable {bs} (hfit : bs.length ≤ Config.inCap)
include hfit

theorem State.holding_inLen : (s.holding bs).inLen.toNat = bs.length := by
  have hcap : Config.inCap = 1048576 := rfl
  exact Nat.mod_eq_of_lt (by omega)

theorem State.holding_input : (s.holding bs).input = bs := by
  refine List.ext_getElem (by rw [State.input_length, s.holding_inLen hfit]) fun k hk hlt => ?_
  have hbyte : (s.holding bs).inByte k = bs[k] := by
    refine (s.inByte_writeRegion_input 0 bs k).trans ?_
    rw [if_pos ⟨Nat.zero_le k, by omega⟩, Nat.sub_zero, List.getD_eq_getElem?_getD, List.getElem?_eq_getElem hlt,
      Option.getD_some]
  have hget := (s.holding bs).input_getElem? (k := k) (by rwa [State.input_length] at hk)
  rw [List.getElem?_eq_getElem hk, hbyte] at hget
  exact Option.some.inj hget

/-- `SETIN` of bytes that `IN` takes. -/
theorem runTxns_setIn : runTxns (setIn bs) s = (.ok (), s.holding bs) := by
  have hinLen (u : State) : u.transact (wr .inLen (BitVec.ofNat 32 bs.length)) =
      .next { u with inLen := BitVec.ofNat 32 bs.length, reply := .empty } := u.transact_wr _ (by decide)
  by_cases hne : bs = []
  · subst hne
    exact runTxns_cons (hinLen s) []
  · have hload := s.transact_load (r := .input) (k := 0) (by decide) hne (by rw [Nat.zero_add]; exact hfit)
    rw [setIn, loadAny, if_neg hne, List.singleton_append, runTxns_cons hload]
    exact runTxns_cons (hinLen _) []

end Holding

theorem readRegister_eq (r : Reg) (s : State) :
    readRegister r s = (.ok (s.readReg r), { s with reply := .word (s.readReg r) }) := by
  rw [readRegister, runTxns_cons (s.transact_rd r)]
  rfl

/-- The host reads a result that lies within `OUT`, and the block shows it in its reply at most. -/
theorem readResult_eq {n : Nat} (hfit : n ≤ Config.outCap) (s : State) :
    ∃ p, readResult n s = (.ok (s.outBytes 0 n), { s with reply := p }) := by
  by_cases hn : n = 0
  · subst hn
    exact ⟨s.reply, rfl⟩
  · have hdump := s.transact_dump (r := .output) (k := 0) (by decide) (Nat.pos_of_ne_zero hn) (by rwa [Nat.zero_add])
    refine ⟨.bytes (s.outBytes 0 n), ?_⟩
    rw [readResult, if_neg hn, runTxns_cons hdump]
    rfl

/-! ## After a command (R314, R322 duties 4 and 5) -/

theorem State.statusWord_error (s : State) : s.statusWord.getLsbD 1 = s.error := by
  rw [State.statusWord]
  cases s.done <;> cases s.error <;> rfl

/-- The host resets a block that it gives a file up on. -/
theorem giveUp_eq {α : Type} (s : State) :
    (giveUp s : HostRun α) = (.error (.block s.errWord s.errInfo), { s.restart with reply := .empty }) := by
  have hreset (u : State) : runTxns [cmd .softReset] u = (.ok (), { u.restart with reply := .empty }) :=
    runTxns_cons (State.transact_cmd rfl) []
  rw [giveUp, readRegister_eq, followedBy_ok, readRegister_eq, followedBy_ok, hreset]
  rfl

theorem takeResult_of_error {s : State} (h : s.error = true) :
    takeResult s = (.error (.block s.errWord s.errInfo), { s.restart with reply := .empty }) := by
  have hstatus : (s.readReg .status).getLsbD 1 = true := s.statusWord_error.trans h
  rw [takeResult, readRegister_eq, followedBy_ok, if_pos hstatus, giveUp_eq]
  rfl

theorem takeResult_of_no_error {s : State} (h : s.error = false) :
    ∃ p, takeResult s = readResult s.outLen.toNat { s with reply := p } := by
  have hstatus : (s.readReg .status).getLsbD 1 = false := s.statusWord_error.trans h
  refine ⟨.word s.outLen, ?_⟩
  rw [takeResult, readRegister_eq, followedBy_ok, if_neg (ne_true_of_eq_false hstatus), readRegister_eq]
  rfl

theorem takeResult_eq {s : State} (h : s.error = false) (hfit : s.outLen.toNat ≤ Config.outCap) :
    ∃ p, takeResult s = (.ok s.result, { s with reply := p }) := by
  obtain ⟨q, htake⟩ := takeResult_of_no_error h
  obtain ⟨p, hread⟩ := readResult_eq hfit { s with reply := q }
  exact ⟨p, htake.trans hread⟩

/-! ## One plane (R308, R310) -/

/-- The block before `PLANE_DECOMPRESS` (R322 duty 3). -/
def State.expecting (s : State) (payload : List Byte) (p : Nat) : State :=
  { s.holding payload with expectedCount := BitVec.ofNat 32 p }

theorem compressHigh_eq {plane : List Byte} {s t : State} (hfit : plane.length ≤ Config.inCap)
    (h : exec .planeCompress (s.holding plane) = .next t) :
    compressHigh plane s = takeResult { t with reply := .empty } := by
  rw [compressHigh, runTxns_append, runTxns_setIn s hfit, followedBy_ok, runTxns_cons (State.transact_cmd h)]
  rfl

theorem decompressHigh_of_beyond {payload : List Byte} {p : Nat} {s : State}
    (h : Config.inCap < payload.length ∨ Config.outCap < p) : decompressHigh payload p s = (.error .format, s) := if_pos h

theorem decompressHigh_eq {payload : List Byte} {p : Nat} {s t : State} (hfit : payload.length ≤ Config.inCap)
    (hp : p ≤ Config.outCap) (h : exec .planeDecompress (s.expecting payload p) = .next t) :
    decompressHigh payload p s = takeResult { t with reply := .empty } := by
  have hcount : (s.holding payload).transact (wr .expectedCount (BitVec.ofNat 32 p)) = .next (s.expecting payload p) :=
    State.transact_wr _ _ (by decide)
  rw [decompressHigh, if_neg (not_or.2 ⟨Nat.not_lt.2 hfit, Nat.not_lt.2 hp⟩), runTxns_append, runTxns_setIn s hfit,
    followedBy_ok, runTxns_cons hcount, runTxns_cons (State.transact_cmd h)]
  rfl

/-! ## The mode flag is written once a file (R29, R315) -/

theorem State.buildWith_backend (s : State) {b : Backend} (regs : Registers b) :
    (s.buildWith regs).backend = s.backend := by
  cases regs with
  | huffman => exact s.hufBuild_backend
  | range low high pending value => exact s.rcBuild_backend
  | rans x => exact s.ransBuild_backend

theorem State.coded_backend (s : State) {b : Backend} (pre : List Byte) (r : CoderRun b) :
    (s.coded pre r).backend = s.backend := by
  rw [State.coded, State.setCursors_backend, State.setOut_backend, State.buildWith_backend]

theorem State.finish_backend {s : State} {fp : Footprint} {result : Except Raise State}
    (h : ∀ t, result = .ok t → t.backend = s.backend) : (s.finish fp result).backend = s.backend := by
  rcases s.finish_cases fp result with ⟨t, ht, hfinish⟩ | ⟨e, -, hfinish⟩
  · rw [hfinish, State.complete_backend, h t ht]
  · rw [hfinish, State.takeFault_backend]

theorem exec_planeDecompress_backend {s t : State} (h : exec .planeDecompress s = .next t) : t.backend = s.backend := by
  have ht : s.command planeDecompressRun = t := Host.Outcome.next.inj h
  rw [← ht]
  cases herr : s.error with
  | true => rw [State.command_of_error _ herr]
  | false =>
    rw [State.command_of_ok _ herr]
    cases hcheck : planeDecompressChecks s.accept with
    | error e => rw [planeDecompressRun_of_check hcheck, State.takeFault_backend, State.accept_backend]
    | ok b =>
      rw [planeDecompressRun, hcheck]
      refine State.finish_backend fun t ht => ?_
      rw [planeDecodeOp_eq] at ht
      obtain ⟨r, -, rfl⟩ := exists_of_map_ok ht
      exact State.coded_backend _ _ r

/-! ## A plane there and back (R286) -/

/-- What a `PLANE_COMPRESS` without an error leaves the host: a result within `OUT`, and the mode flag. -/
theorem exec_planeCompress_result {s t : State} (herr : s.error = false) (h : exec .planeCompress s = .next t)
    (ht : t.error = false) : t.outLen.toNat ≤ Config.outCap ∧ t.result.length ≤ Config.outCap ∧ t.backend = s.backend := by
  have hcap : Config.outCap = 1048576 := rfl
  obtain ⟨-, b, -, hout, rfl⟩ := exec_planeCompress_of_no_error herr h ht
  have hfit : (planeTable b s.input).serialise.length + (encodedRun (planeTable b s.input) s.input b).out.length ≤
      Config.outCap := by rw [FreqTable.serialise_length]; omega
  obtain ⟨⟨hbackend, -⟩, -⟩ := s.coderDone_keeps (planeTable b s.input) _ hfit
  exact ⟨(s.coderDone_outLen _ _ hfit).trans_le hfit, by rwa [s.coderDone_result _ _ hfit, List.length_append], hbackend⟩

/-- The high plane's payload comes from a `PLANE_COMPRESS` that completed. -/
theorem compressHigh_eq_ok {plane payload : List Byte} {s t : State} (hfit : plane.length ≤ Config.inCap)
    (h : compressHigh plane s = (.ok payload, t)) :
    s.error = false ∧ t.backend = s.backend ∧ ∃ w, exec .planeCompress (s.holding plane) = .next w ∧ w.error = false ∧
      payload = w.result := by
  obtain ⟨w, hexec⟩ := exec_next .planeCompress (s.holding plane)
  rw [compressHigh_eq hfit hexec] at h
  have hw : w.error = false := Bool.eq_false_iff.2 fun htrue => by
    rw [takeResult_of_error (s := { w with reply := .empty }) htrue] at h
    cases h
  have hs : s.error = false := Bool.eq_false_iff.2 fun htrue => by
    have hignored := exec_of_error (i := .planeCompress) (by decide) (s := s.holding plane) htrue
    cases hexec.symm.trans hignored
    exact nomatch hw.symm.trans htrue
  obtain ⟨hout, -, hflag⟩ := exec_planeCompress_result (s := s.holding plane) hs hexec hw
  obtain ⟨p, htake⟩ := takeResult_eq (s := { w with reply := .empty }) hw hout
  cases htake.symm.trans h
  exact ⟨hs, hflag, w, hexec, hw, rfl⟩

/-- A high plane that went through one block comes back out of another under the same mode flag. -/
theorem decompressHigh_compressHigh {plane payload : List Byte} {s t u : State} (hfit : plane.length ≤ Config.inCap)
    (h : compressHigh plane s = (.ok payload, t)) (hu : u.error = false) (hflag : u.backend = s.backend) :
    payload.length ≤ Config.outCap ∧ t.backend = s.backend ∧
    ∃ v, decompressHigh payload plane.length u = (.ok plane, v) ∧ v.error = false ∧ v.backend = u.backend := by
  obtain ⟨hs, htflag, w, hexec, hw, rfl⟩ := compressHigh_eq_ok hfit h
  obtain ⟨-, hlen, -⟩ := exec_planeCompress_result (s := s.holding plane) hs hexec hw
  have hin : (s.holding plane).inLen.toNat = plane.length := s.holding_inLen hfit
  have huin : (u.expecting w.result plane.length).inLen.toNat = w.result.length := u.holding_inLen hlen
  have huinput : (u.expecting w.result plane.length).input = w.result := u.holding_input hlen
  obtain ⟨v, hdecode, ⟨-, hv⟩, hresult, -⟩ := planeRoundTrip (s.holding plane) w (u.expecting w.result plane.length)
    hs (hin.trans_le hfit) (hin.trans_le hfit) hexec hw hu hflag rfl (huin.trans_le hlen)
    (by rw [huinput])
  rw [s.holding_input hfit] at hresult
  have hvlen : v.outLen.toNat = plane.length := by rw [← hresult]; simp [State.result, State.outBytes]
  obtain ⟨p, htake⟩ := takeResult_eq (s := { v with reply := .empty }) hv (hvlen.trans_le hfit)
  have hvflag := exec_planeDecompress_backend hdecode
  refine ⟨hlen, htflag, { v with reply := p }, ?_, hv, hvflag⟩
  rw [decompressHigh_eq hlen hfit hdecode, htake, ← hresult]
  rfl

end Sys2Proof.Machine
end

section
/-!
A file there and back (spec/45_host_boundary.md R307 to R310, R321): the blocks and their records one by one, then the
container.
-/
namespace Sys2Proof.Machine

/-! ## The blocks of a file (R308, R310) -/

/-- A block holds whole pairs (R301). -/
theorem blockMax_even : Config.blockMax % 2 = 0 := rfl

/-- The planes of a block fit `IN` (R313). -/
theorem splitPlanes_block_le (D : List Byte) :
    (splitPlanes (D.take Config.blockMax)).1.length ≤ Config.planeMax ∧
    (splitPlanes (D.take Config.blockMax)).2.length ≤ Config.planeMax := by
  obtain ⟨hlow, hhigh⟩ := splitPlanes_length (D.take Config.blockMax)
  have hblock : (D.take Config.blockMax).length / 2 ≤ Config.planeMax := Nat.div_le_div_right (List.length_take_le ..)
  exact ⟨hlow.trans_le hblock, hhigh.trans_le hblock⟩

theorem planeMax_le_inCap : Config.planeMax ≤ Config.inCap := by decide

@[simp] theorem encodeBlocks_nil (b : Backend) (n : Nat) (s : State) : encodeBlocks b n [] s = (.ok [], s) := by
  cases n <;> rfl

/-- A block makes one record: its high plane through the block, its low plane's payload beside it. -/
theorem encodeBlocks_succ {D : List Byte} (hne : D ≠ []) (b : Backend) (n : Nat) (s : State) :
    encodeBlocks b (n + 1) D s =
      followedBy (compressHigh (splitPlanes (D.take Config.blockMax)).2 s) fun msb t =>
        followedBy (encodeBlocks b n (D.drop Config.blockMax) t) fun rest u =>
          (.ok ((BlockRecord.mk msb (lowPayload b (splitPlanes (D.take Config.blockMax)).1)).bytes ++ rest), u) :=
  if_neg hne

@[simp] theorem decodeBlocks_nil (b : Backend) (n : Nat) (s : State) : decodeBlocks b n [] s = (.ok [], s) := by
  cases n <;> rfl

/-- A record whose planes come through is one block. -/
theorem decodeBlocks_record {b : Backend} {n : Nat} {r : BlockRecord} {lsb msb D : List Byte} {s t : State}
    (hmsb : r.msb.length < 2 ^ 32) (hlsb : r.lsb.length < 2 ^ 32) (hlow : lowPlane b r.lsb = .ok lsb)
    (hhigh : decompressHigh r.msb lsb.length s = (.ok msb, t)) (hD : interleave lsb msb = .ok D) (rest : List Byte) :
    decodeBlocks b (n + 1) (r.bytes ++ rest) s =
      followedBy (decodeBlocks b n rest t) fun out u => (.ok (D ++ out), u) := by
  rw [decodeBlocks, readRecord_bytes hmsb hlsb, checked_ok, followedBy_ok]
  simp only [hlow, checked_ok, followedBy_ok, hhigh, hD]

/-- The record of the first block, and the records of the blocks after it. -/
theorem encodeBlocks_succ_eq_ok {b : Backend} {n : Nat} {D R : List Byte} {s t : State} (hne : D ≠ [])
    (h : encodeBlocks b (n + 1) D s = (.ok R, t)) :
    ∃ msb rest t₁, compressHigh (splitPlanes (D.take Config.blockMax)).2 s = (.ok msb, t₁) ∧
      encodeBlocks b n (D.drop Config.blockMax) t₁ = (.ok rest, t) ∧
      R = (BlockRecord.mk msb (lowPayload b (splitPlanes (D.take Config.blockMax)).1)).bytes ++ rest := by
  rw [encodeBlocks_succ hne] at h
  obtain ⟨msb, t₁, hmsb, htail⟩ := followedBy_eq_ok h
  obtain ⟨rest, t₂, hrest, hrecord⟩ := followedBy_eq_ok htail
  cases hrecord
  exact ⟨msb, rest, t₁, hmsb, hrest, rfl⟩

/-- The record of a block gives its pairs back, by any block under the same mode flag, which goes on to the records after
it. -/
theorem decodeBlocks_compressHigh {b : Backend} {D msb : List Byte} {s t u : State}
    (h : compressHigh (splitPlanes (D.take Config.blockMax)).2 s = (.ok msb, t)) (hu : u.error = false)
    (hflag : u.backend = s.backend) :
    ∃ v, v.error = false ∧ v.backend = t.backend ∧ ∀ n rest,
      decodeBlocks b (n + 1)
          ((BlockRecord.mk msb (lowPayload b (splitPlanes (D.take Config.blockMax)).1)).bytes ++ rest) u =
        followedBy (decodeBlocks b n rest v) fun out w => (.ok (wholePairs (D.take Config.blockMax) ++ out), w) := by
  obtain ⟨hlow, hhigh⟩ := splitPlanes_block_le D
  obtain ⟨hlowLen, hhighLen⟩ := splitPlanes_length (D.take Config.blockMax)
  obtain ⟨hpayload, ht, v, hdecode, hv, hvflag⟩ := decompressHigh_compressHigh (hhigh.trans planeMax_le_inCap) h hu hflag
  rw [hhighLen.trans hlowLen.symm] at hdecode
  have hmsb : msb.length < 2 ^ 32 := hpayload.trans_lt (by decide)
  have hlsb : (lowPayload b (splitPlanes (D.take Config.blockMax)).1).length < 2 ^ 32 :=
    ((lowPayload_length_le b _).trans (Nat.succ_le_succ hlow)).trans_lt (by decide)
  exact ⟨v, hv, hvflag.trans (hflag.trans ht.symm), fun n rest =>
    decodeBlocks_record hmsb hlsb (lowPlane_lowPayload b _) hdecode (interleave_splitPlanes _) rest⟩

/-- The records that come from a file's plane data give it back up to its last pair. -/
theorem decodeBlocks_encodeBlocks {b : Backend} {n m : Nat} {D R : List Byte} {s t u : State} (hn : D.length ≤ n)
    (henc : encodeBlocks b n D s = (.ok R, t)) (hm : R.length ≤ m) (hu : u.error = false)
    (hflag : u.backend = s.backend) : ∃ v, decodeBlocks b m R u = (.ok (wholePairs D), v) := by
  induction n generalizing m D R s u with
  | zero =>
    obtain rfl := List.eq_nil_of_length_eq_zero (Nat.le_zero.1 hn)
    cases henc
    exact ⟨u, decodeBlocks_nil b m u⟩
  | succ n ih =>
    by_cases hne : D = []
    · subst hne
      rw [encodeBlocks_nil] at henc
      cases henc
      exact ⟨u, decodeBlocks_nil b m u⟩
    obtain ⟨msb, rest, t₁, hmsb, hrest, rfl⟩ := encodeBlocks_succ_eq_ok hne henc
    obtain ⟨v, hv, hvflag, hrecord⟩ := decodeBlocks_compressHigh (b := b) hmsb hu hflag
    rw [List.length_append, BlockRecord.bytes_length] at hm
    obtain ⟨k, rfl⟩ : ∃ k, m = k + 1 := ⟨m - 1, by omega⟩
    have hdrop : (D.drop Config.blockMax).length ≤ n := by
      have hpos : 0 < Config.blockMax := by decide
      rw [List.length_drop]
      omega
    obtain ⟨w, htail⟩ := ih (m := k) hdrop hrest (by omega) hv hvflag
    exact ⟨w, by rw [hrecord, htail, followedBy_ok, wholePairs_take_append_drop blockMax_even]⟩

/-! ## Files (R307, R315) -/

theorem backendOfFile_eq_ok {flag : Byte} {b : Backend} (h : backendOfFile flag = .ok b) : flag = b.flag := by
  rw [backendOfFile] at h
  split at h
  · cases h
  · rename_i c hc
    cases h
    exact backendOf_eq_some_iff.1 hc

/-- The host writes the mode flag to `BACKEND` (R315). -/
theorem runTxns_backend (flag : Byte) (s : State) :
    runTxns [wr .backend (flag.setWidth 32)] s = (.ok (), { s with backend := flag, reply := .empty }) := by
  have hback : (flag.setWidth 32).setWidth 8 = flag := by simp
  rw [runTxns_cons (s.transact_wr _ (by decide)), State.writeReg, hback]
  rfl

/-- What a completed encoding made of an original file: a container with its header and the records of its blocks. -/
theorem encodeFile_eq_ok {flag : Byte} {header D f : List Byte} {s t : State} (hheader : header.length < 2 ^ 64)
    (h : encodeFile flag (Original.mk header D).bytes s = (.ok f, t)) :
    ∃ b R, backendOfFile flag = .ok b ∧ f = (Container.mk header flag R).bytes ∧
      encodeBlocks b D.length D { s with backend := flag, reply := .empty } = (.ok R, t) := by
  rw [encodeFile, readOriginal_bytes hheader, checked_ok, followedBy_ok] at h
  obtain ⟨b, s₁, hcheck, hrun⟩ := followedBy_eq_ok h
  obtain ⟨hb, rfl⟩ := checked_eq_ok hcheck
  rw [runTxns_backend, followedBy_ok] at hrun
  obtain ⟨R, t₁, hblocks, hbytes⟩ := followedBy_eq_ok hrun
  cases hbytes
  exact ⟨b, R, hb, rfl, hblocks⟩

theorem decodeFile_encodeFile {flag : Byte} {header D f : List Byte} {s t u : State} (hheader : header.length < 2 ^ 64)
    (h : encodeFile flag (Original.mk header D).bytes s = (.ok f, t)) (hu : u.error = false) :
    ∃ v, decodeFile f u = (.ok (Original.mk header (wholePairs D)).bytes, v) := by
  obtain ⟨b, R, hb, rfl, hblocks⟩ := encodeFile_eq_ok hheader h
  obtain ⟨v, hdecode⟩ := decodeBlocks_encodeBlocks (m := R.length) (u := { u with backend := flag, reply := .empty })
    (Nat.le_refl _) hblocks (Nat.le_refl _) hu rfl
  refine ⟨v, ?_⟩
  rw [decodeFile, readContainer_bytes hheader, checked_ok, followedBy_ok]
  simp only [hb, checked_ok, followedBy_ok, runTxns_backend, hdecode]

end Sys2Proof.Machine
end

section
/-!
The state in which a run of the host leaves the block (spec/45_host_boundary.md R314, R322): free of the error, and reset where
a command faulted. With it, the statement about files.
-/
namespace Sys2Proof.Machine

/-! ## Runs that leave the block free of the error -/

/-- A run leaves the block free of the error, and after a command's fault reset. -/
def endsFree {α : Type} (r : HostRun α) : Prop :=
  r.2.error = false ∧ ∀ code info, r.1 = .error (.block code info) → r.2.statusWord = 0

theorem endsFree_ok {α : Type} (a : α) {s : State} (h : s.error = false) : endsFree (.ok a, s) :=
  ⟨h, fun _ _ hr => nomatch hr⟩

theorem endsFree_error {α : Type} {e : HostError} {s : State} (h : s.error = false) (he : ∀ code info, e ≠ .block code info) :
    endsFree ((.error e, s) : HostRun α) :=
  ⟨h, fun code info hr => absurd (Except.error.inj hr) (he code info)⟩

theorem endsFree_followedBy {α β : Type} {r : HostRun α} {next : α → State → HostRun β} (hr : endsFree r)
    (hnext : ∀ a s, s.error = false → endsFree (next a s)) : endsFree (followedBy r next) := by
  obtain ⟨e | a, s⟩ := r
  · obtain ⟨herr, hblock⟩ := hr
    exact ⟨herr, fun code info he => hblock code info (congrArg Except.error (Except.error.inj he))⟩
  · exact hnext a s hr.1

/-- A check of the host's own fails with its `FormatError` alone. -/
def onlyFormat {α : Type} (r : Except HostError α) : Prop := ∀ e, r = .error e → e = .format

@[simp] theorem onlyFormat_ok {α : Type} (a : α) : onlyFormat (.ok a : Except HostError α) := fun _ h => nomatch h

@[simp] theorem onlyFormat_format {α : Type} : onlyFormat (.error .format : Except HostError α) :=
  fun _ h => (Except.error.inj h).symm

theorem endsFree_checked {α : Type} {r : Except HostError α} (hr : onlyFormat r) {s : State} (h : s.error = false) :
    endsFree (checked r s) := by
  cases r with
  | ok a => exact endsFree_ok a h
  | error e => exact endsFree_error h fun code info he => nomatch (hr e rfl).symm.trans he

/-! ## The checks of the host -/

/-- A check that passes on the error of another. -/
theorem onlyFormat_of_error {α β : Type} {r : Except HostError α} (hr : onlyFormat r) {e : HostError} (he : r = .error e) :
    onlyFormat (.error e : Except HostError β) := by
  rw [hr e he]
  exact onlyFormat_format

theorem onlyFormat_interleave : ∀ ls hs : List Byte, onlyFormat (interleave ls hs)
  | [], [] | [], _ :: _ | _ :: _, [] => by simp [interleave]
  | lo :: ls, hi :: hs => by
    have ih := onlyFormat_interleave ls hs
    rw [interleave]
    split
    · exact onlyFormat_ok _
    · exact onlyFormat_of_error ih ‹_›

theorem onlyFormat_unrle : ∀ R : List Byte, onlyFormat (unrle R)
  | [] => by simp [unrle]
  | [b] => by rw [unrle]; split_ifs <;> simp
  | b :: c :: R => by
    have hrun := onlyFormat_unrle R
    have hnext := onlyFormat_unrle (c :: R)
    rw [unrle]
    split_ifs
    · split
      · exact onlyFormat_ok _
      · exact onlyFormat_of_error hrun ‹_›
    · split
      · exact onlyFormat_ok _
      · exact onlyFormat_of_error hnext ‹_›

theorem onlyFormat_lowPlane (b : Backend) (payload : List Byte) : onlyFormat (lowPlane b payload) := by
  cases b with
  | huffman | rans => exact onlyFormat_ok _
  | range =>
    cases payload with
    | nil => exact onlyFormat_format
    | cons flag rest =>
      simp only [lowPlane]
      split_ifs
      · exact onlyFormat_ok _
      · exact onlyFormat_unrle rest
      · exact onlyFormat_format

theorem onlyFormat_readRecord (bs : List Byte) : onlyFormat (readRecord bs) := by
  simp only [readRecord]
  split_ifs
  · exact onlyFormat_ok _
  · exact onlyFormat_format
  · exact onlyFormat_format
  · exact onlyFormat_ok _

theorem onlyFormat_readHeader (bs : List Byte) : onlyFormat (readHeader bs) := by
  simp only [readHeader]
  split_ifs
  · exact onlyFormat_format
  · exact onlyFormat_ok _

theorem onlyFormat_readOriginal (bs : List Byte) : onlyFormat (readOriginal bs) := by
  rw [readOriginal]
  split
  · exact onlyFormat_of_error (onlyFormat_readHeader bs) ‹_›
  · exact onlyFormat_ok _

theorem onlyFormat_readContainer (bs : List Byte) : onlyFormat (readContainer bs) := by
  rw [readContainer]
  split
  · exact onlyFormat_of_error (onlyFormat_readHeader bs) ‹_›
  · exact onlyFormat_format
  · exact onlyFormat_ok _

theorem onlyFormat_backendOfFile (flag : Byte) : onlyFormat (backendOfFile flag) := by
  rw [backendOfFile]
  split
  · exact onlyFormat_format
  · exact onlyFormat_ok _

/-! ## The runs of the host -/

/-- A read changes no flag, whether the block answers it or not. -/
theorem endsFree_readResult (n : Nat) {s : State} (h : s.error = false) : endsFree (readResult n s) := by
  rw [readResult]
  split_ifs
  · exact endsFree_ok _ h
  · refine endsFree_followedBy ?_ fun _ t ht => ?_
    · rw [runTxns]
      split
      · rename_i t ht
        obtain ⟨r, -, rfl⟩ := State.transact_bufRead_next ht
        exact endsFree_ok () h
      · exact endsFree_error h (by simp)
      · exact endsFree_error h (by simp)
    · split
      · exact endsFree_ok _ ht
      · exact endsFree_error ht (by simp)

theorem endsFree_takeResult (s : State) : endsFree (takeResult s) := by
  cases h : s.error with
  | true =>
    rw [takeResult_of_error h]
    exact ⟨rfl, fun _ _ _ => rfl⟩
  | false =>
    obtain ⟨p, htake⟩ := takeResult_of_no_error h
    rw [htake]
    exact endsFree_readResult _ h

theorem endsFree_compressHigh {plane : List Byte} (hfit : plane.length ≤ Config.inCap) (s : State) :
    endsFree (compressHigh plane s) := by
  obtain ⟨t, hexec⟩ := exec_next .planeCompress (s.holding plane)
  rw [compressHigh_eq hfit hexec]
  exact endsFree_takeResult _

theorem endsFree_decompressHigh (payload : List Byte) (p : Nat) {s : State} (h : s.error = false) :
    endsFree (decompressHigh payload p s) := by
  by_cases hbeyond : Config.inCap < payload.length ∨ Config.outCap < p
  · rw [decompressHigh_of_beyond hbeyond]
    exact endsFree_error h (by simp)
  · obtain ⟨hfit, hp⟩ := not_or.1 hbeyond
    obtain ⟨t, hexec⟩ := exec_next .planeDecompress (s.expecting payload p)
    rw [decompressHigh_eq (Nat.not_lt.1 hfit) (Nat.not_lt.1 hp) hexec]
    exact endsFree_takeResult _

theorem endsFree_encodeBlocks (b : Backend) : ∀ (n : Nat) (D : List Byte) {s : State}, s.error = false →
    endsFree (encodeBlocks b n D s)
  | 0, _, _, h => endsFree_ok [] h
  | n + 1, D, s, h => by
    by_cases hne : D = []
    · rw [hne, encodeBlocks_nil]
      exact endsFree_ok [] h
    · rw [encodeBlocks_succ hne]
      obtain ⟨-, hhigh⟩ := splitPlanes_block_le D
      refine endsFree_followedBy (endsFree_compressHigh (hhigh.trans planeMax_le_inCap) s) fun msb t ht => ?_
      exact endsFree_followedBy (endsFree_encodeBlocks b n _ ht) fun rest u hu => endsFree_ok _ hu

theorem endsFree_decodeBlocks (b : Backend) : ∀ (n : Nat) (bs : List Byte) {s : State}, s.error = false →
    endsFree (decodeBlocks b n bs s)
  | 0, _, _, h => endsFree_ok [] h
  | n + 1, bs, s, h => by
    rw [decodeBlocks]
    refine endsFree_followedBy (endsFree_checked (onlyFormat_readRecord bs) h) fun next s hs => ?_
    cases next with
    | none => exact endsFree_ok [] hs
    | some next =>
      refine endsFree_followedBy (endsFree_checked (onlyFormat_lowPlane b _) hs) fun lsb s hs => ?_
      refine endsFree_followedBy (endsFree_decompressHigh _ _ hs) fun msb t ht => ?_
      refine endsFree_followedBy (endsFree_checked (onlyFormat_interleave lsb msb) ht) fun D t ht => ?_
      exact endsFree_followedBy (endsFree_decodeBlocks b n _ ht) fun out u hu => endsFree_ok _ hu

theorem endsFree_encodeFile (flag : Byte) (file : List Byte) {s : State} (h : s.error = false) :
    endsFree (encodeFile flag file s) := by
  refine endsFree_followedBy (endsFree_checked (onlyFormat_readOriginal file) h) fun o s hs => ?_
  refine endsFree_followedBy (endsFree_checked (onlyFormat_backendOfFile flag) hs) fun b s hs => ?_
  rw [runTxns_backend, followedBy_ok]
  exact endsFree_followedBy (endsFree_encodeBlocks b _ _ hs) fun R t ht => endsFree_ok _ ht

theorem endsFree_decodeFile (file : List Byte) {s : State} (h : s.error = false) : endsFree (decodeFile file s) := by
  refine endsFree_followedBy (endsFree_checked (onlyFormat_readContainer file) h) fun c s hs => ?_
  refine endsFree_followedBy (endsFree_checked (onlyFormat_backendOfFile c.flag) hs) fun b s hs => ?_
  rw [runTxns_backend, followedBy_ok]
  exact endsFree_followedBy (endsFree_decodeBlocks b _ _ hs) fun D t ht => endsFree_ok _ ht

/-! ## Files -/

/-- Settles O60: block by block each record gives back the pairs it was made of, and a run that starts free of the error
stops only where it is free of it or has reset the block. -/
theorem fileRoundTrip : Obligations.FileRoundTrip := by
  refine ⟨fun flag header D f s t u hheader henc hu => decodeFile_encodeFile hheader henc hu,
    fun flag file s t r hs hrun => ?_⟩
  have hfree : endsFree ((r, t) : HostRun (List Byte)) := by
    rcases hrun with h | h
    · exact h ▸ endsFree_encodeFile flag file hs
    · exact h ▸ endsFree_decodeFile file hs
  obtain ⟨herr, hstatus⟩ := hfree
  exact ⟨herr, fun code info hr => ⟨hstatus code info hr, by rw [hr]; rfl⟩⟩

end Sys2Proof.Machine
end

section
/-!
What each command raises (spec/60_exceptions.md R355): the kinds that the units' loops report, and those of the runs of the
coders.
-/
namespace Sys2Proof.Machine

/-! ## Results that raise only some kinds -/

/-- What a result raises, if anything, is of one of these kinds. -/
def raisesOnly {α : Type} (ks : List ErrorKind) (r : Except Raise α) : Prop := ∀ e, r = .error e → e.kind ∈ ks

@[simp] theorem raisesOnly_ok {α : Type} (ks : List ErrorKind) (a : α) : raisesOnly ks (.ok a) := fun _ h => nomatch h

@[simp] theorem raisesOnly_error {α : Type} {ks : List ErrorKind} {e : Raise} :
    raisesOnly ks (.error e : Except Raise α) ↔ e.kind ∈ ks :=
  ⟨fun h => h e rfl, by rintro h _ ⟨⟩; exact h⟩

theorem raisesOnly.map {α β : Type} {ks : List ErrorKind} {r : Except Raise α} (h : raisesOnly ks r) (f : α → β) :
    raisesOnly ks (r.map f) := by
  cases r with
  | ok a => exact raisesOnly_ok ks (f a)
  | error e => exact raisesOnly_error.2 (h e rfl)

theorem raisesOnly.mono {α : Type} {ks ks' : List ErrorKind} {r : Except Raise α} (h : raisesOnly ks r)
    (hsub : ks ⊆ ks') : raisesOnly ks' r := fun e he => hsub (h e he)

theorem raisesOnly.withInput {ks : List ErrorKind} {s : State} {k : Except Raise State} (hcap : .capacity ∈ ks)
    (h : raisesOnly ks k) : raisesOnly ks (s.withInput k) := by
  unfold State.withInput
  split
  · exact raisesOnly_error.2 hcap
  · exact h

/-! ## The encoders' loops (R352, R353) -/

theorem raisesOnly_putAll (room i : Nat) (w : BitWriter) (bs : Bits) : raisesOnly [.capacity] (w.putAll room i bs) := by
  rw [BitWriter.putAll_eq]
  split
  · exact raisesOnly_ok _ _
  · exact raisesOnly_error.2 List.mem_cons_self

theorem raisesOnly_hufEncodeLoop (code : Byte → Bits) (room : Nat) : ∀ (bs : List Byte) (i : Nat) (w : BitWriter),
    raisesOnly [.capacity, .internalConsistency] (hufEncodeLoop code room i bs w) := by
  intro bs
  induction bs with
  | nil => intro i w; exact raisesOnly_ok _ _
  | cons b bs ih =>
    intro i w
    rw [hufEncodeLoop_cons]
    split
    · exact raisesOnly_error.2 (by simp [internalError])
    · split
      · exact ih _ _
      · exact raisesOnly_error.2 (by simp [capacityError])

theorem raisesOnly_rcEncodeLoop (C : CumTable) (room : Nat) : ∀ (bs : List Byte) (i : Nat) (c : RcEncoder) (w : BitWriter),
    raisesOnly [.capacity, .internalConsistency] (rcEncodeLoop C room i bs c w) := by
  intro bs
  induction bs with
  | nil => intro i c w; exact raisesOnly_ok _ _
  | cons b bs ih =>
    intro i c w
    rw [rcEncodeLoop]
    split
    · exact raisesOnly_error.2 (by simp [internalError])
    · dsimp only
      split
      · next e he => exact raisesOnly_error.2 (((raisesOnly_putAll _ _ _ _).mono (by simp)) e he)
      · exact ih _ _ _

theorem raisesOnly_rcEncodeAll (C : CumTable) (room : Nat) (B : List Byte) :
    raisesOnly [.capacity, .internalConsistency] (rcEncodeAll C room B) := by
  rw [rcEncodeAll]
  split
  · next e he => exact raisesOnly_error.2 (raisesOnly_rcEncodeLoop _ _ _ _ _ _ e he)
  · split
    · next e he => exact raisesOnly_error.2 (((raisesOnly_putAll _ _ _ _).mono (by simp)) e he)
    · exact raisesOnly_ok _ _

theorem raisesOnly_ransEmit (room i bound : Nat) : ∀ (n x : Nat) (e : List Byte),
    raisesOnly [.capacity] (ransEmit room i bound n x e) := by
  intro n
  induction n with
  | zero => intro x e; exact raisesOnly_ok _ _
  | succ n ih =>
    intro x e
    rw [ransEmit, ransPut]
    split
    · split
      · next r hr =>
        split at hr
        · cases hr
          exact raisesOnly_error.2 List.mem_cons_self
        · cases hr
      · exact ih _ _
    · exact raisesOnly_ok _ _

theorem raisesOnly_ransEncodeLoop (F : FreqTable) (C : CumTable) (room : Nat) : ∀ (bs : List Byte) (x : Nat)
    (e : List Byte), raisesOnly [.capacity, .internalConsistency] (ransEncodeLoop F C room bs x e) := by
  intro bs
  induction bs with
  | nil => intro x e; exact raisesOnly_ok _ _
  | cons b bs ih =>
    intro x e
    rw [ransEncodeLoop]
    split
    · exact raisesOnly_error.2 (by simp [internalError])
    · split
      · next r hr => exact raisesOnly_error.2 (((raisesOnly_ransEmit _ _ _ _ _ _).mono (by simp)) r hr)
      · exact ih _ _

theorem raisesOnly_ransEncodeAll (F : FreqTable) (C : CumTable) (room : Nat) (B : List Byte) :
    raisesOnly [.capacity, .internalConsistency] (ransEncodeAll F C room B) := by
  rw [ransEncodeAll]
  split
  · next r hr => exact raisesOnly_error.2 (raisesOnly_ransEncodeLoop _ _ _ _ _ _ r hr)
  · split
    · next r hr => exact raisesOnly_error.2 (((raisesOnly_ransEmit _ _ _ _ _ _).mono (by simp)) r hr)
    · exact raisesOnly_ok _ _

/-! ## The decoders' loops (R351, R352) -/

theorem raisesOnly_hufDecodeLoop (t : HufNode) : ∀ (n i : Nat) (bs : Bits),
    raisesOnly [.decodeConsistency] (hufDecodeLoop t n i bs) := by
  intro n
  induction n with
  | zero => intro i bs; exact raisesOnly_ok _ _
  | succ n ih =>
    intro i bs
    rw [hufDecodeLoop]
    split
    · exact raisesOnly_error.2 List.mem_cons_self
    · split
      · next e he => exact raisesOnly_error.2 (ih _ _ e he)
      · exact raisesOnly_ok _ _

theorem raisesOnly_hufDecodeSymbols (t : Option HufNode) (n : Nat) (bs : Bits) :
    raisesOnly [.decodeConsistency] (hufDecodeSymbols t n bs) := by
  unfold hufDecodeSymbols
  split
  · exact raisesOnly_ok _ _
  · exact raisesOnly_ok _ _
  · split
    · next e he => exact raisesOnly_error.2 (raisesOnly_hufDecodeLoop _ _ _ _ e he)
    · exact raisesOnly_ok _ _

theorem raisesOnly_rcDecodeLoop (C : CumTable) : ∀ (n i : Nat) (d : RcDecoder),
    raisesOnly [.internalConsistency] (rcDecodeLoop C n i d) := by
  intro n
  induction n with
  | zero => intro i d; exact raisesOnly_ok _ _
  | succ n ih =>
    intro i d
    rw [rcDecodeLoop]
    split
    · exact raisesOnly_error.2 List.mem_cons_self
    · split
      · next e he => exact raisesOnly_error.2 (ih _ _ e he)
      · exact raisesOnly_ok _ _

theorem raisesOnly_ransDecodeLoop (F : FreqTable) (C : CumTable) (S : SymTable) : ∀ (n i x : Nat) (bs : List Byte),
    raisesOnly [.decodeConsistency] (ransDecodeLoop F C S n i x bs) := by
  intro n
  induction n with
  | zero => intro i x bs; exact raisesOnly_ok _ _
  | succ n ih =>
    intro i x bs
    rw [ransDecodeLoop]
    split
    · exact raisesOnly_error.2 List.mem_cons_self
    · split
      · next e he => exact raisesOnly_error.2 (ih _ _ _ e he)
      · exact raisesOnly_ok _ _

theorem raisesOnly_ransDecodeAll (F : FreqTable) (C : CumTable) (S : SymTable) (n : Nat) (P : List Byte) :
    raisesOnly [.decodeConsistency] (ransDecodeAll F C S n P) := by
  rw [ransDecodeAll]
  split
  · exact raisesOnly_ok _ _
  · split
    · exact raisesOnly_error.2 List.mem_cons_self
    · exact raisesOnly_ransDecodeLoop _ _ _ _ _ _ _

/-! ## The commands' kinds (R355) -/

/-- The kinds that a command can raise (R355). -/
def kindsOf : Instr → List ErrorKind
  | .nop | .freqNorm | .hufBuild | .softReset => []
  | .freqCount | .freqCountFloor => [.capacity]
  | .hufEncode => [.capacity, .internalConsistency]
  | .rcBuild | .ransBuild => [.format]
  | .rcEncode | .rcDecode | .ransEncode => [.capacity, .format, .internalConsistency]
  | .hufDecode | .ransDecode => [.capacity, .format, .decodeConsistency]
  | .planeCompress => [.capacity, .format]
  | .planeDecompress => [.capacity, .format, .decodeConsistency, .internalConsistency]

/-- The run of an encoder raises what its unit's command can raise. -/
theorem raisesOnly_encodeRun (F : FreqTable) (room : Nat) (B : List Byte) (b : Backend) :
    raisesOnly (kindsOf b.encoder) (encodeRun F room B b) := by
  cases b with
  | huffman => exact (raisesOnly_hufEncodeLoop _ _ _ _ _).map _
  | range =>
    rw [encodeRun]
    split
    · exact ((raisesOnly_rcEncodeAll _ _ _).mono (by decide)).map _
    · exact raisesOnly_error.2 (by decide)
  | rans =>
    rw [encodeRun]
    split
    · exact ((raisesOnly_ransEncodeAll _ _ _ _).mono (by decide)).map _
    · exact raisesOnly_error.2 (by decide)

/-- The run of a decoder raises what its unit's command can raise. -/
theorem raisesOnly_decodeRun (F : FreqTable) (n : Nat) (P : List Byte) (b : Backend) :
    raisesOnly (kindsOf b.decoder) (decodeRun F n P b) := by
  cases b with
  | huffman =>
    rw [decodeRun]
    split
    · exact ((raisesOnly_hufDecodeSymbols _ _ _).mono (by decide)).map _
    · exact raisesOnly_error.2 (by decide)
  | range =>
    rw [decodeRun]
    split
    · exact ((raisesOnly_rcDecodeLoop _ _ _ _).mono (by decide)).map _
    · exact raisesOnly_error.2 (by decide)
  | rans =>
    rw [decodeRun]
    split
    · exact ((raisesOnly_ransDecodeAll _ _ _ _ _).mono (by decide)).map _
    · exact raisesOnly_error.2 (by decide)

/-- With a table that covers the plane an encoder has no fault but that of the capacity. -/
theorem raisesOnly_encodeRun_of_covers {F : FreqTable} {B : List Byte} {b : Backend} (h : covers F B b) (room : Nat) :
    raisesOnly [.capacity] (encodeRun F room B b) := by
  rcases Nat.lt_or_ge room (encodedRun F B b).out.length with hover | hfit
  · obtain ⟨i, -, hi⟩ := exists_overflowsAt h hover
    rw [encodeRun_of_overflow h hi]
    exact raisesOnly_error.2 List.mem_cons_self
  · rw [encodeRun_of_fits h hfit]
    exact raisesOnly_ok _ _

end Sys2Proof.Machine
end

section
/-!
What a command writes (spec/60_exceptions.md R342, spec/20_memory.md R93): a state that differs from another in a footprint
only, what an operation that comes through delivers, and the two ways a command ends.
-/
namespace Sys2Proof.Machine

/-! ## Frames -/

/-- At most what the footprint lists, the cursors and the flags with the fault record differ. -/
structure State.writesOnly (s : State) (fp : Footprint) (t : State) : Prop where
  freq : fp.freq = false → t.freq = s.freq
  cum : fp.cum = false → t.cum = s.cum
  huffman : fp.huffman = false → s.keepsHuffman t
  symtab : fp.symtab = false → t.symtab = s.symtab
  rcBounds : fp.rcBounds = false → s.keepsRcBounds t
  rcValue : fp.rcValue = false → t.rcValue = s.rcValue
  ransX : fp.ransX = false → t.ransX = s.ransX
  out : fp.out = false → s.keepsMemory t
  outside : s.keepsOutsideOut t
  operands : t.backend = s.backend ∧ t.inLen = s.inLen ∧ t.expectedCount = s.expectedCount
  host : t.host = s.host ∧ t.reply = s.reply

/-- Taking a fault writes what its footprint lists (R342). -/
theorem State.takeFault_writesOnly (s : State) (fp : Footprint) (e : Raise) : s.writesOnly fp (s.takeFault fp e) where
  freq := State.takeFault_freq_of_not e
  cum h := if_neg (Bool.eq_false_iff.1 h)
  huffman h := ⟨if_neg (Bool.eq_false_iff.1 h), if_neg (Bool.eq_false_iff.1 h), if_neg (Bool.eq_false_iff.1 h),
    if_neg (Bool.eq_false_iff.1 h)⟩
  symtab h := if_neg (Bool.eq_false_iff.1 h)
  rcBounds h := ⟨if_neg (Bool.eq_false_iff.1 h), if_neg (Bool.eq_false_iff.1 h), if_neg (Bool.eq_false_iff.1 h)⟩
  rcValue h := if_neg (Bool.eq_false_iff.1 h)
  ransX h := if_neg (Bool.eq_false_iff.1 h)
  out h a := by simp [State.takeFault_read, h]
  outside a ha := by simp [State.takeFault_read, ha]
  operands := ⟨rfl, rfl, rfl⟩
  host := ⟨rfl, rfl⟩

/-- Acceptance writes nothing that a footprint speaks of. -/
theorem State.writesOnly.of_accept {s t : State} {fp : Footprint} (h : s.accept.writesOnly fp t) : s.writesOnly fp t where
  __ := h

/-- What is written over another table in `FREQ` is written with `FREQ`. -/
theorem State.writesOnly.of_freq {s t : State} {F : FreqTable} {fp : Footprint}
    (h : ({ s with freq := F } : State).writesOnly fp t) : s.writesOnly { fp with freq := true } t where
  __ := h
  freq h := nomatch h

theorem State.writesOnly.setCursors {s u : State} {fp : Footprint} (h : s.writesOnly fp u) (a b c : Nat) :
    s.writesOnly fp (u.setCursors a b c) where
  __ := h

/-! ## Operations -/

/-- What an operation that comes through leaves before the epilogue: its writes are those listed, the memory keeps its form,
the flags are as they were, and every byte of the result is stored. -/
structure State.Delivers (s : State) (fp : Footprint) (u : State) : Prop where
  frame : s.writesOnly fp u
  wf : s.mem.wf → u.mem.wf
  record : u.error = s.error ∧ u.errCode = s.errCode ∧ u.errInfo = s.errInfo
  result : u.resultSound

theorem State.Delivers.of_freq {s u : State} {F : FreqTable} {fp : Footprint}
    (h : ({ s with freq := F } : State).Delivers fp u) : s.Delivers { fp with freq := true } u :=
  ⟨h.frame.of_freq, h.wf, h.record, h.result⟩

theorem State.resultSound_of_no_output {s : State} (h : s.outLen = 0) : s.resultSound := by
  have hlen : s.outLen.toNat = 0 := congrArg BitVec.toNat h
  exact ⟨by omega, fun k hk => by omega⟩

/-- The commands that leave `OUT` and have no output. -/
theorem State.writesOnly.delivers {s u : State} {fp : Footprint} (h : s.writesOnly fp u) (hmem : u.mem = s.mem)
    (hrecord : u.error = s.error ∧ u.errCode = s.errCode ∧ u.errInfo = s.errInfo) (inPos outPos : Nat) :
    s.Delivers fp (u.setCursors 0 inPos outPos) :=
  ⟨h.setCursors _ _ _, fun hwf => hmem ▸ hwf, hrecord, State.resultSound_of_no_output rfl⟩

/-- An operation delivers within its footprint, or raises one of its kinds. -/
structure opEnds (s : State) (fp : Footprint) (ks : List ErrorKind) (result : Except Raise State) : Prop where
  delivers : ∀ u, result = .ok u → s.Delivers fp u
  raises : raisesOnly ks result

theorem opEnds_ok {s u : State} {fp : Footprint} {ks : List ErrorKind} (h : s.Delivers fp u) : opEnds s fp ks (.ok u) :=
  ⟨fun _ hu => Except.ok.inj hu ▸ h, raisesOnly_ok ks u⟩

theorem opEnds_error (s : State) (fp : Footprint) {ks : List ErrorKind} {e : Raise} (h : e.kind ∈ ks) :
    opEnds s fp ks (.error e) :=
  ⟨fun _ he => (nomatch he), raisesOnly_error.2 h⟩

theorem opEnds.withInput {s : State} {fp : Footprint} {ks : List ErrorKind} {k : Except Raise State}
    (hcap : .capacity ∈ ks) (h : opEnds s fp ks k) : opEnds s fp ks (s.withInput k) :=
  ⟨fun u hu => h.delivers u (State.withInput_ok hu).2, h.raises.withInput hcap⟩

/-- Behind the check of `EXPECTED_COUNT` the operation runs only where the count passes. -/
theorem opEnds.withCount {s : State} {fp : Footprint} {ks : List ErrorKind} {k : Except Raise State}
    (hcap : .capacity ∈ ks) (h : s.expectedCount.toNat ≤ Config.outCap → opEnds s fp ks k) :
    opEnds s fp ks (s.withCount k) := by
  rcases Nat.lt_or_ge Config.outCap s.expectedCount.toNat with hgt | hle
  · rw [State.withCount_of_gt k hgt]
    exact opEnds_error s fp hcap
  · rw [State.withCount_of_le k hle]
    exact h hle

/-! ## The end of a command -/

/-- The two ways a command that was accepted ends: completed, with the fault record as it was and its result stored, or with
the record of a fault. -/
structure State.Ends (s : State) (fp : Footprint) (ks : List ErrorKind) (t : State) : Prop where
  frame : s.writesOnly fp t
  wf : s.mem.wf → t.mem.wf
  outcome : (t.completed ∧ t.errCode = s.errCode ∧ t.errInfo = s.errInfo ∧ t.resultSound) ∨
    ∃ e : Raise, e.kind ∈ ks ∧ t.faulted e.kind e.info

theorem State.Ends.of_accept {s t : State} {fp : Footprint} {ks : List ErrorKind} (h : s.accept.Ends fp ks t) :
    s.Ends fp ks t :=
  ⟨h.frame.of_accept, h.wf, h.outcome⟩

theorem State.Ends.of_freq {s t : State} {F : FreqTable} {fp : Footprint} {ks : List ErrorKind}
    (h : ({ s with freq := F } : State).Ends fp ks t) : s.Ends { fp with freq := true } ks t :=
  ⟨h.frame.of_freq, h.wf, h.outcome⟩

theorem State.Ends.mono {s t : State} {fp : Footprint} {ks ks' : List ErrorKind} (h : s.Ends fp ks t) (hsub : ks ⊆ ks') :
    s.Ends fp ks' t :=
  ⟨h.frame, h.wf, h.outcome.imp_right fun ⟨e, hk, hfault⟩ => ⟨e, hsub hk, hfault⟩⟩

theorem State.takeFault_ends (s : State) (fp : Footprint) {ks : List ErrorKind} {e : Raise} (h : e.kind ∈ ks) :
    s.Ends fp ks (s.takeFault fp e) :=
  ⟨s.takeFault_writesOnly fp e, State.takeFault_wf fp e, .inr ⟨e, h, s.takeFault_faulted fp e⟩⟩

/-- The epilogue of what an operation delivers (R346). -/
theorem State.Delivers.complete_ends {s u : State} {fp : Footprint} (h : s.Delivers fp u) (herr : s.error = false)
    (ks : List ErrorKind) : s.Ends fp ks u.complete where
  frame := { h.frame with }
  wf := h.wf
  outcome :=
    have ⟨hok, hcode, hinfo⟩ := h.record
    .inl ⟨⟨rfl, hok.trans herr⟩, hcode, hinfo, h.result⟩

/-- A command ends as its operation does. -/
theorem State.finish_ends {s : State} {fp : Footprint} {ks : List ErrorKind} {result : Except Raise State}
    (herr : s.error = false) (h : opEnds s fp ks result) : s.Ends fp ks (s.finish fp result) := by
  rcases s.finish_cases fp result with ⟨u, hu, hfinish⟩ | ⟨e, he, hfinish⟩ <;> rw [hfinish]
  · exact (h.delivers u hu).complete_ends herr ks
  · exact s.takeFault_ends fp (h.raises e he)

/-- An accepted command ends as its run does. -/
theorem State.command_ends {s : State} {fp : Footprint} {ks : List ErrorKind} {run : State → State} (herr : s.error = false)
    (h : s.accept.Ends fp ks (run s.accept)) : s.Ends fp ks (s.command run) := by
  rw [State.command_of_ok run herr]
  exact h.of_accept

end Sys2Proof.Machine
end

section
/-!
Every command within its list (spec/60_exceptions.md R342, R355): the list of each command, what a run of a coder writes, and
that each command ends within its list with one of its kinds.
-/
namespace Sys2Proof.Machine

/-! ## The lists -/

/-- What each command's rule lists among its writes, under a mode flag in `BACKEND` (R342). -/
def writesOf (flag : Byte) : Instr → Footprint
  | .nop => { cursors := true }
  | .freqCount | .freqCountFloor | .freqNorm => freqFootprint
  | .hufBuild => hufBuildFootprint
  | .hufEncode | .hufDecode => hufCodeFootprint
  | .rcBuild => rcBuildFootprint
  | .rcEncode => rcEncodeFootprint
  | .rcDecode => rcDecodeFootprint
  | .ransBuild => ransBuildFootprint
  | .ransEncode | .ransDecode => ransCodeFootprint
  | .planeCompress => planeCompressFootprint flag
  | .planeDecompress => planeDecompressFootprint flag
  | .softReset => ⟨true, true, true, true, true, true, true, true, true⟩

/-- A plane command lists `FREQ` besides what the unit's coder lists (R281, R282). -/
theorem planeCompressFootprint_flag (b : Backend) (flag : Byte) :
    planeCompressFootprint b.flag = { writesOf flag b.encoder with freq := true } := by
  cases b <;> rfl

theorem planeDecompressFootprint_flag (b : Backend) (flag : Byte) :
    planeDecompressFootprint b.flag = { writesOf flag b.decoder with freq := true } := by
  cases b <;> rfl

theorem planeFootprints_of_none {flag : Byte} (h : backendOf flag = none) :
    planeCompressFootprint flag = planeFootprint ∧ planeDecompressFootprint flag = planeFootprint := by
  simp [planeCompressFootprint, planeDecompressFootprint, h]

/-! ## Builds and runs -/

theorem State.writesOnly_refl (s : State) (fp : Footprint) : s.writesOnly fp s :=
  ⟨fun _ => rfl, fun _ => rfl, fun _ => ⟨rfl, rfl, rfl, rfl⟩, fun _ => rfl, fun _ => ⟨rfl, rfl, rfl⟩, fun _ => rfl,
    fun _ => rfl, fun _ _ => rfl, fun _ _ => rfl, ⟨rfl, rfl, rfl⟩, ⟨rfl, rfl⟩⟩

theorem State.withFreq_writesOnly (s : State) (F : FreqTable) {fp : Footprint} (h : fp.freq = true) :
    s.writesOnly fp { s with freq := F } where
  __ := s.writesOnly_refl fp
  freq hn := nomatch h.symm.trans hn

theorem State.hufBuild_writesOnly (s : State) {fp : Footprint} (h : fp.huffman = true) : s.writesOnly fp s.hufBuild where
  __ := s.writesOnly_refl fp
  huffman hn := nomatch h.symm.trans hn

theorem State.rcBuild_writesOnly (s : State) {fp : Footprint} (h : fp.cum = true) : s.writesOnly fp s.rcBuild where
  __ := s.writesOnly_refl fp
  cum hn := nomatch h.symm.trans hn

theorem State.ransBuild_writesOnly (s : State) {fp : Footprint} (hcum : fp.cum = true) (hsym : fp.symtab = true) :
    s.writesOnly fp s.ransBuild where
  __ := s.writesOnly_refl fp
  cum hn := nomatch hcum.symm.trans hn
  symtab hn := nomatch hsym.symm.trans hn

/-- A result in `OUT` is written with `OUT`. -/
theorem State.writesOnly.setOut {s u : State} {fp : Footprint} {bs : List Byte} (h : s.writesOnly fp u)
    (hout : fp.out = true) (hfit : bs.length ≤ Config.outCap) : s.writesOnly fp (u.setOut bs) where
  __ := h
  out hn := nomatch hout.symm.trans hn
  outside a ha := by rw [State.setOut_mem, Memory.read_setOut _ _ hfit, ha]; exact h.outside a ha

/-- What the working registers of a run stand for: the list of the command that sets them. The range coder's encoder sets no
`RC_VALUE` (R220). -/
def Registers.footprint : {b : Backend} → Registers b → Footprint
  | _, .huffman => hufCodeFootprint
  | _, .range _ _ _ none => rcEncodeFootprint
  | _, .range _ _ _ (some _) => rcDecodeFootprint
  | _, .rans _ => ransCodeFootprint

theorem Registers.footprint_out {b : Backend} (regs : Registers b) : regs.footprint.out = true := by
  cases regs with
  | huffman => rfl
  | range low high pending value => cases value <;> rfl
  | rans x => rfl

theorem State.buildWith_writesOnly (s : State) {b : Backend} (regs : Registers b) :
    s.writesOnly regs.footprint (s.buildWith regs) := by
  cases regs with
  | huffman => exact s.hufBuild_writesOnly rfl
  | range low high pending value =>
    cases value with
    | none => exact { s.rcBuild_writesOnly (fp := rcEncodeFootprint) rfl with rcBounds := fun h => (nomatch h) }
    | some v =>
      exact { s.rcBuild_writesOnly (fp := rcDecodeFootprint) rfl with
        rcBounds := fun h => (nomatch h), rcValue := fun h => (nomatch h) }
  | rans x =>
    exact { s.ransBuild_writesOnly (fp := ransCodeFootprint) rfl rfl with ransX := fun h => (nomatch h) }

theorem State.buildWith_record (s : State) {b : Backend} (regs : Registers b) :
    (s.buildWith regs).mem = s.mem ∧ (s.buildWith regs).error = s.error ∧ (s.buildWith regs).errCode = s.errCode ∧
      (s.buildWith regs).errInfo = s.errInfo := by
  cases regs <;> exact ⟨rfl, rfl, rfl, rfl⟩

/-- Every byte of a result that fits `OUT` is stored (R367 a). -/
theorem State.resultSound_of_setOut {t : State} {m : Memory} {bs : List Byte} (hmem : t.mem = m.setOut bs)
    (hlen : t.outLen = BitVec.ofNat 32 bs.length) (hfit : bs.length ≤ Config.outCap) : t.resultSound := by
  have hcap : Config.outCap = 1048576 := rfl
  have hlen' : t.outLen.toNat = bs.length := by rw [hlen, BitVec.toNat_ofNat, Nat.mod_eq_of_lt (by omega)]
  refine ⟨hlen'.trans_le hfit, fun k hk => ?_⟩
  have hin : inOutBuffer (Config.outBase + k) = true := by simp [inOutBuffer]; omega
  rw [hmem, Memory.read_setOut _ _ hfit, if_pos hin, Nat.add_sub_cancel_left, List.getElem?_eq_getElem (hlen' ▸ hk)]
  rfl

/-- A run whose bytes fit `OUT` delivers. -/
theorem State.coded_delivers (s : State) {pre : List Byte} {b : Backend} {r : CoderRun b}
    (hfit : pre.length + r.out.length ≤ Config.outCap) : s.Delivers r.regs.footprint (s.coded pre r) := by
  have hlen : (pre ++ r.out).length = pre.length + r.out.length := List.length_append
  rw [← hlen] at hfit
  obtain ⟨hmem, hrecord⟩ := s.buildWith_record r.regs
  have hcoded : (s.coded pre r).mem = s.mem.setOut (pre ++ r.out) := congrArg (Memory.setOut · (pre ++ r.out)) hmem
  exact
    { frame := ((s.buildWith_writesOnly r.regs).setOut r.regs.footprint_out hfit).setCursors _ _ _
      wf := fun hwf => hcoded ▸ Memory.setOut_wf hwf hfit
      record := hrecord
      result := State.resultSound_of_setOut hcoded (congrArg (BitVec.ofNat 32) hlen.symm) hfit }

/-- The bytes of an encoder's run fit the room, and its registers are those of the unit's encode command. -/
theorem encodeRun_ok {F : FreqTable} {room : Nat} {B : List Byte} {b : Backend} {r : CoderRun b}
    (h : encodeRun F room B b = .ok r) (flag : Byte) :
    r.out.length ≤ room ∧ r.regs.footprint = writesOf flag b.encoder := by
  cases b with
  | huffman =>
    obtain ⟨w, hw, rfl⟩ := exists_of_map_ok h
    obtain ⟨-, hfit, -⟩ := hufEncodeLoop_ok _ _ _ _ _ _ (Nat.zero_le _) hw
    exact ⟨packBits_length_le hfit, rfl⟩
  | range =>
    rw [encodeRun] at h
    split_ifs at h
    obtain ⟨q, hq, rfl⟩ := exists_of_map_ok h
    obtain ⟨w, c, -, hfit, rfl⟩ := rcEncodeAll_ok hq
    refine ⟨packBits_length_le ?_, rfl⟩
    rwa [List.length_append, rcFlush_length, ← Nat.add_assoc]
  | rans =>
    rw [encodeRun] at h
    split_ifs at h with htable
    obtain ⟨q, hq, rfl⟩ := exists_of_map_ok h
    have htotal := (ransTableOk_iff F).1 htable
    obtain ⟨hB, hfit⟩ := ransEncodeAll_ok htotal hq
    rw [ransEncodeAll_of_plane htotal hB (by omega), if_pos hfit] at hq
    cases hq
    exact ⟨(ransStream_length htotal hB).trans_le hfit, rfl⟩

theorem decodeRun_footprint {F : FreqTable} {n : Nat} {P : List Byte} {b : Backend} {r : CoderRun b}
    (h : decodeRun F n P b = .ok r) (flag : Byte) : r.regs.footprint = writesOf flag b.decoder := by
  cases b with
  | huffman | range | rans =>
    rw [decodeRun] at h
    split_ifs at h
    obtain ⟨q, -, rfl⟩ := exists_of_map_ok h
    rfl

/-! ## The coders' operations -/

theorem planeEncodeOp_delivers {s u : State} {b : Backend} {pre : List Byte} (hpre : pre.length ≤ Config.outCap)
    (flag : Byte) (h : planeEncodeOp b pre s = .ok u) : s.Delivers (writesOf flag b.encoder) u := by
  rw [planeEncodeOp_eq] at h
  obtain ⟨r, hr, rfl⟩ := exists_of_map_ok h
  obtain ⟨hfit, hregs⟩ := encodeRun_ok hr flag
  exact hregs ▸ s.coded_delivers (by omega)

theorem opEnds_encoder (s : State) (b : Backend) (flag : Byte) :
    opEnds s (writesOf flag b.encoder) (kindsOf b.encoder) (planeEncodeOp b [] s) where
  delivers _ := planeEncodeOp_delivers (Nat.zero_le _) flag
  raises := by
    rw [planeEncodeOp_eq]
    exact (raisesOnly_encodeRun _ _ _ b).map _

theorem opEnds_decoder {s : State} (hcount : s.expectedCount.toNat ≤ Config.outCap) (b : Backend) (P : List Byte)
    (flag : Byte) : opEnds s (writesOf flag b.decoder) (kindsOf b.decoder) (planeDecodeOp b P s) := by
  rw [planeDecodeOp_eq]
  refine ⟨fun u hu => ?_, (raisesOnly_decodeRun _ _ _ b).map _⟩
  obtain ⟨r, hr, rfl⟩ := exists_of_map_ok hu
  exact decodeRun_footprint hr flag ▸ s.coded_delivers (decodeRun_fits hr hcount)

/-! ## The commands -/

theorem opEnds_freqCountOp (floor : Nat) (s : State) : opEnds s freqFootprint [.capacity] (freqCountOp floor s) :=
  .withInput List.mem_cons_self
    (opEnds_ok ((s.withFreq_writesOnly (countTable s.input floor) rfl).delivers rfl ⟨rfl, rfl, rfl⟩ s.inLen.toNat 0))

theorem opEnds_rcBuildOp (s : State) : opEnds s rcBuildFootprint [.format] (rcBuildOp s) := by
  rcases rcBuildOp_cases s with ⟨-, hop⟩ | ⟨-, hop⟩ <;> rw [hop]
  · exact opEnds_error s _ List.mem_cons_self
  · exact opEnds_ok ((s.rcBuild_writesOnly rfl).delivers rfl ⟨rfl, rfl, rfl⟩ 0 0)

theorem opEnds_ransBuildOp (s : State) : opEnds s ransBuildFootprint [.format] (ransBuildOp s) := by
  rcases ransBuildOp_cases s with ⟨-, hop⟩ | ⟨-, hop⟩ <;> rw [hop]
  · exact opEnds_error s _ List.mem_cons_self
  · exact opEnds_ok ((s.ransBuild_writesOnly rfl rfl).delivers rfl ⟨rfl, rfl, rfl⟩ 0 0)

/-- `PLANE_COMPRESS` codes with the plane's own table, which covers it: no symbol is left without a code. -/
theorem opEnds_planeCompressOp (s : State) :
    opEnds s (planeCompressFootprint s.backend) (kindsOf .planeCompress) (planeCompressOp s) := by
  rcases planeCompressOp_cases s with ⟨-, hop⟩ | ⟨hin, ⟨-, hop⟩ | ⟨b, hb, hop⟩⟩
  · rw [hop]
    exact opEnds_error s _ (by decide)
  · rw [hop]
    exact opEnds_error s _ (by decide)
  · have hflag : s.backend = b.flag := backendOf_eq_some_iff.1 hb
    have htable : (planeTable b s.input).serialise.length ≤ Config.outCap := by
      rw [FreqTable.serialise_length]
      decide
    have hcovers := planeTable_covers (s.input_length.trans_le hin) b
    have hfootprint : planeCompressFootprint s.backend = { writesOf 0 b.encoder with freq := true } := by
      rw [hflag, planeCompressFootprint_flag b 0]
    rw [hop, hfootprint]
    refine ⟨fun u hu => (planeEncodeOp_delivers htable 0 hu).of_freq, ?_⟩
    rw [planeEncodeOp_eq]
    exact ((raisesOnly_encodeRun_of_covers hcovers _).mono (by decide)).map _

/-- The entry checks of `PLANE_DECOMPRESS` raise `CapacityError` or `FormatError` (R282). -/
theorem raisesOnly_planeDecompressChecks (s : State) : raisesOnly [.capacity, .format] (planeDecompressChecks s) := by
  unfold planeDecompressChecks
  split
  · exact raisesOnly_error.2 (by decide)
  · split
    · exact raisesOnly_error.2 (by decide)
    · split
      · exact raisesOnly_error.2 (by decide)
      · split
        · exact raisesOnly_error.2 (by decide)
        · exact raisesOnly_ok _ _

/-- `PLANE_DECOMPRESS` ends in a failed entry check, or as the unit's decoder does over the payload's table. -/
theorem State.planeDecompressRun_ends {s : State} (herr : s.error = false) :
    s.Ends (planeDecompressFootprint s.backend) (kindsOf .planeDecompress) (planeDecompressRun s) := by
  cases hcheck : planeDecompressChecks s with
  | error e =>
    rw [planeDecompressRun_of_check hcheck]
    have hkind := raisesOnly_planeDecompressChecks s e hcheck
    exact (s.takeFault_ends _ hkind).mono (by decide)
  | ok b =>
    obtain ⟨-, hcount, hb, -⟩ := (planeDecompressChecks_ok_iff s b).1 hcheck
    have hflag : s.backend = b.flag := backendOf_eq_some_iff.1 hb
    have hdecoder : { writesOf 0 b.decoder with freq := false } = writesOf 0 b.decoder := by cases b <;> rfl
    have hkinds : kindsOf b.decoder ⊆ kindsOf .planeDecompress := by cases b <;> decide
    have hends : s.loadTable.Ends (writesOf 0 b.decoder) (kindsOf b.decoder) _ :=
      State.finish_ends herr (opEnds_decoder (s := s.loadTable) hcount b s.payloadStream 0)
    rw [planeDecompressRun, hcheck, hflag, planeDecompressFootprint_flag b 0]
    dsimp only
    rw [hdecoder]
    exact (State.Ends.of_freq hends).mono hkinds

/-- Every accepted command but `SOFT_RESET` ends within its list, completed or with one of its kinds. -/
theorem exec_ends {i : Instr} {s t : State} (hi : i ≠ .softReset) (herr : s.error = false) (h : exec i s = .next t) :
    s.Ends (writesOf s.backend i) (kindsOf i) t := by
  cases i <;> cases h
  case softReset => exact absurd rfl hi
  case planeDecompress => exact State.command_ends herr (State.planeDecompressRun_ends herr)
  case nop =>
    exact State.command_ends herr (State.Delivers.complete_ends
      ((s.accept.writesOnly_refl _).delivers rfl ⟨rfl, rfl, rfl⟩ 0 0) herr _)
  case freqNorm =>
    exact State.command_ends herr (State.Delivers.complete_ends
      ((s.accept.withFreq_writesOnly (normalize s.freq) rfl).delivers rfl ⟨rfl, rfl, rfl⟩ 0 0) herr _)
  case hufBuild =>
    exact State.command_ends herr (State.Delivers.complete_ends
      ((s.accept.hufBuild_writesOnly rfl).delivers rfl ⟨rfl, rfl, rfl⟩ 0 0) herr _)
  all_goals refine State.command_ends herr (State.finish_ends herr ?_)
  case freqCount | freqCountFloor => exact opEnds_freqCountOp _ s.accept
  case rcBuild => exact opEnds_rcBuildOp s.accept
  case ransBuild => exact opEnds_ransBuildOp s.accept
  case hufEncode => exact .withInput (by decide) (opEnds_encoder s.accept .huffman s.backend)
  case rcEncode => exact .withInput (by decide) (opEnds_encoder s.accept .range s.backend)
  case ransEncode => exact .withInput (by decide) (opEnds_encoder s.accept .rans s.backend)
  case hufDecode =>
    exact .withInput (by decide) (.withCount (by decide) fun hcount => opEnds_decoder hcount .huffman _ s.backend)
  case rcDecode =>
    exact .withInput (by decide) (.withCount (by decide) fun hcount => opEnds_decoder hcount .range _ s.backend)
  case ransDecode =>
    exact .withInput (by decide) (.withCount (by decide) fun hcount => opEnds_decoder hcount .rans _ s.backend)
  case planeCompress => exact opEnds_planeCompressOp s.accept

end Sys2Proof.Machine
end

section
/-!
The exceptions (spec/60_exceptions.md R340 to R356, R367): `CMD` writes while `ERROR` is 0 or 1, the flags and the record that a
command leaves, what it leaves as it was, and the invariant of every step.
-/
namespace Sys2Proof.Machine

/-! ## `CMD` writes that are no command, or ignored (R345, R350) -/

theorem decodeWord_of_not_mem_opcodes {v : Word} (h : v.toNat ∉ opcodes) : ∃ e, decodeWord v = .error e := by
  cases hdecode : decodeWord v with
  | ok i => exact absurd ((exists_decodeWord_iff_mem_opcodes v).1 ⟨i, hdecode⟩) h
  | error e => exact ⟨e, rfl⟩

theorem State.illegalCommand_of_error {s : State} (v : Word) (h : s.error = true) : s.illegalCommand v = s := by
  simp [State.illegalCommand, h]

theorem State.writeCmd_softReset (s : State) : s.writeCmd 0xFF = .next s.restart :=
  s.writeCmd_of_decode (decodeWord_encode .softReset)

/-- The command of a word is `SOFT_RESET` for the word 0xFF only (R103). -/
theorem softReset_iff_of_decode {v : Word} {i : Instr} (h : decodeWord v = .ok i) : i = .softReset ↔ v = 0xFF := by
  constructor
  · rintro rfl
    exact decodeWord_eq_ok_iff.1 h
  · rintro rfl
    exact Except.ok.inj (h.symm.trans (decodeWord_encode .softReset))

/-- Settles O4: such a word does not decode, and an illegal command is the record of its fault alone. -/
theorem illegalWordsRaiseIllegalCommand : Obligations.IllegalWordsRaiseIllegalCommand := by
  have hillegal : ∀ (s : State) {v : Word}, s.error = false → v.toNat ∉ opcodes →
      s.writeCmd v = .next (s.recordFault ⟨.illegalCommand, v⟩) := fun s v herr hv => by
    obtain ⟨e, he⟩ := decodeWord_of_not_mem_opcodes hv
    rw [s.writeCmd_of_reject he, State.illegalCommand_of_ok v herr]
  refine ⟨fun s v herr hv => hillegal s herr ?_, fun s herr => ⟨_, hillegal s herr (by decide), rfl, rfl, rfl⟩⟩
  rcases hv with hhigh | hv
  · intro hmem
    obtain ⟨hlow, -⟩ := (mem_opcodes_iff _).1 hmem
    omega
  · exact hv

/-- Settles O5: commands and illegal words alike are ignored, and `SOFT_RESET` restarts the block. -/
theorem onlySoftResetIsAcceptedWhileError : Obligations.OnlySoftResetIsAcceptedWhileError := by
  refine fun s v herr => ⟨fun hv => ?_, s.restart, s.writeCmd_softReset, rfl, rfl⟩
  rcases s.writeCmd_cases v with ⟨i, hdecode, hcmd⟩ | ⟨e, -, hcmd⟩ <;> rw [hcmd]
  · exact exec_of_error (mt (softReset_iff_of_decode hdecode).1 hv) herr
  · rw [State.illegalCommand_of_error v herr]

/-! ## The flags and the record (R342, R346) -/

/-- A command that ended leaves exactly one of the two flags set. -/
theorem State.Ends.done_eq {s t : State} {fp : Footprint} {ks : List ErrorKind} (h : s.Ends fp ks t) : t.done = !t.error := by
  rcases h.outcome with ⟨⟨hdone, hok⟩, -⟩ | ⟨e, -, hdone, herr, -⟩
  · rw [hdone, hok]
    rfl
  · rw [hdone, herr]
    rfl

/-- A command that ended with `ERROR` set made the record of a kind of its own. -/
theorem State.Ends.faulted {s t : State} {fp : Footprint} {ks : List ErrorKind} (h : s.Ends fp ks t) (ht : t.error = true) :
    ∃ e : Raise, e.kind ∈ ks ∧ t.faulted e.kind e.info := by
  rcases h.outcome with ⟨⟨-, hok⟩, -⟩ | hfault
  · exact nomatch hok.symm.trans ht
  · exact hfault

/-- While the flags are sound, a state with `ERROR` set has `DONE` clear. -/
theorem State.flagsSound.done_eq_of_error {s : State} (h : s.flagsSound) (herr : s.error = true) : s.done = !s.error := by
  obtain ⟨hboth, -⟩ := h
  rw [herr]
  exact Bool.eq_false_iff.2 fun hdone => hboth ⟨hdone, herr⟩

/-- Settles O6: an ignored write leaves `ERROR` set and `DONE` clear, an accepted command ends in one of the two ways, and an
illegal word makes the record of a fault. -/
theorem afterACommandExactlyOneFlagIsSet : Obligations.AfterACommandExactlyOneFlagIsSet := by
  intro s v hsound
  by_cases hv : v = 0xFF
  · subst hv
    exact ⟨s.restart, s.writeCmd_softReset, fun hne => absurd rfl hne, fun _ => rfl⟩
  refine (?_ : ∃ t, s.writeCmd v = .next t ∧ t.done = !t.error).imp
    fun t ⟨hcmd, hflags⟩ => ⟨hcmd, fun _ => hflags, fun h => absurd h hv⟩
  cases herr : s.error with
  | true =>
    obtain ⟨hignored, -⟩ := onlySoftResetIsAcceptedWhileError s v herr
    exact ⟨s, hignored hv, hsound.done_eq_of_error herr⟩
  | false =>
    rcases s.writeCmd_cases v with ⟨i, hdecode, hcmd⟩ | ⟨e, -, hcmd⟩
    · obtain ⟨t, ht⟩ := exec_next i s
      exact ⟨t, hcmd.trans ht, (exec_ends (mt (softReset_iff_of_decode hdecode).1 hv) herr ht).done_eq⟩
    · exact ⟨_, hcmd, by rw [State.illegalCommand_of_ok v herr]; rfl⟩

/-- `SOFT_RESET` raises nothing. -/
theorem ne_softReset_of_error {i : Instr} {s t : State} (h : exec i s = .next t) (ht : t.error = true) :
    i ≠ .softReset := by
  rintro rfl
  cases h
  cases ht

/-- The codes of the kinds a command can raise: `IllegalCommand` is none of them (R341, R355). -/
theorem code_bounds_of_kindsOf {i : Instr} {k : ErrorKind} (h : k ∈ kindsOf i) : 2 ≤ k.code.toNat ∧ k.code.toNat ≤ 5 := by
  cases k with
  | illegalCommand => cases i <;> simp [kindsOf] at h
  | _ => decide

/-- Settles O7: a fault's record, over a state in which only the command's list differs. -/
theorem aFaultOffersNoOutputAndKeepsTheOperands : Obligations.AFaultOffersNoOutputAndKeepsTheOperands := by
  intro s t i herr h ht
  have hends := exec_ends (ne_softReset_of_error h ht) herr h
  obtain ⟨e, hkind, hdone, -, hcode, -, hlen⟩ := hends.faulted ht
  obtain ⟨hlo, hhi⟩ := code_bounds_of_kindsOf hkind
  obtain ⟨hbackend, hinLen, hcount⟩ := hends.frame.operands
  exact ⟨hdone, hlen, hcode ▸ hlo, hcode ▸ hhi, hinLen, hcount, hbackend, hends.frame.outside⟩

/-- Settles O8: the code in `ERR` is that of a kind the command can raise. -/
theorem eachCommandRaisesOnlyItsKinds : Obligations.EachCommandRaisesOnlyItsKinds := by
  intro s t i herr h ht
  obtain ⟨e, hkind, -, -, hcode, -⟩ := (exec_ends (ne_softReset_of_error h ht) herr h).faulted ht
  have hmem : t.errCode.toNat ∈ (kindsOf i).map fun k => k.code.toNat := List.mem_map.2 ⟨e.kind, hkind, by rw [hcode]⟩
  cases i <;> exact hmem

/-! ## What a command leaves as it was (R93, R342) -/

/-- The commands that leave `FREQ`. -/
theorem writesOf_freq (flag : Byte) {i : Instr} (hi : i ≠ .softReset)
    (h : i ∉ [Instr.freqCount, .freqCountFloor, .freqNorm, .planeCompress, .planeDecompress]) :
    (writesOf flag i).freq = false := by
  cases i
  case softReset => exact absurd rfl hi
  case freqCount | freqCountFloor | freqNorm | planeCompress | planeDecompress => exact absurd (by decide) h
  all_goals rfl

/-- The commands that leave the tables of the Huffman unit. -/
theorem writesOf_huffman (flag : Byte) {i : Instr} (hi : i ≠ .softReset)
    (h : i ∉ [Instr.hufBuild, .hufEncode, .hufDecode, .planeCompress, .planeDecompress]) :
    (writesOf flag i).huffman = false := by
  cases i
  case softReset => exact absurd rfl hi
  case hufBuild | hufEncode | hufDecode | planeCompress | planeDecompress => exact absurd (by decide) h
  all_goals rfl

/-- What the lists of the plane commands leave out, by the mode flag: what the units of the other backends write. -/
theorem writesOf_plane (flag : Byte) {i : Instr} (h : i = .planeCompress ∨ i = .planeDecompress) :
    (flag ≠ 0 → (writesOf flag i).huffman = false) ∧
    ((flag = 0 ∨ 2 < flag.toNat) → (writesOf flag i).cum = false) ∧
    (flag ≠ 2 → (writesOf flag i).symtab = false ∧ (writesOf flag i).ransX = false) ∧
    (flag ≠ 1 → (writesOf flag i).rcBounds = false ∧ (writesOf flag i).rcValue = false) := by
  cases hb : backendOf flag with
  | none =>
    have hlist : writesOf flag i = planeFootprint := by
      obtain ⟨hcompress, hdecompress⟩ := planeFootprints_of_none hb
      rcases h with rfl | rfl
      · exact hcompress
      · exact hdecompress
    rw [hlist]
    exact ⟨fun _ => rfl, fun _ => rfl, fun _ => ⟨rfl, rfl⟩, fun _ => ⟨rfl, rfl⟩⟩
  | some b =>
    obtain rfl := backendOf_eq_some_iff.1 hb
    rcases h with rfl | rfl <;> cases b <;> decide

/-- `RC_VALUE` is in the list of the range coder's decoder alone (R216, R223). -/
theorem writesOf_rcValue (flag : Byte) {i : Instr} (hi : i ≠ .softReset) (h : i ∉ [Instr.rcDecode, .planeDecompress]) :
    (writesOf flag i).rcValue = false := by
  cases i
  case softReset => exact absurd rfl hi
  case rcDecode | planeDecompress => exact absurd (by decide) h
  case planeCompress =>
    cases hb : backendOf flag with
    | none => exact congrArg Footprint.rcValue (planeFootprints_of_none hb).1
    | some b =>
      obtain rfl := backendOf_eq_some_iff.1 hb
      cases b <;> rfl
  all_goals rfl

/-- Settles O10: each clause is a part of the frame that the command's list leaves out. -/
theorem noCommandWritesBeyondItsList : Obligations.NoCommandWritesBeyondItsList := by
  intro s t i hi herr h
  have hframe := (exec_ends hi herr h).frame
  obtain ⟨hbackend, hinLen, hcount⟩ := hframe.operands
  obtain ⟨hhost, hreply⟩ := hframe.host
  refine ⟨fun hlist => hframe.freq (writesOf_freq _ hi hlist), fun hlist => ?noCoder,
    fun hlist => hframe.huffman (writesOf_huffman _ hi hlist), fun hlist => ?range, fun hlist => ?rans,
    fun hlist => hframe.rcValue (writesOf_rcValue _ hi hlist), fun hlist => ?build, fun hlist => ?noOutput,
    fun hplane => ?plane, hbackend, hinLen, hcount, hframe.outside, hhost, hreply⟩
  case plane =>
    obtain ⟨hhuffman, hcum, hrans, hrange⟩ := writesOf_plane s.backend hplane
    refine ⟨fun hflag => hframe.huffman (hhuffman hflag), fun hflag => hframe.cum (hcum hflag), fun hflag => ?_,
      fun hflag => ?_⟩
    · obtain ⟨hsymtab, hransX⟩ := hrans hflag
      exact ⟨hframe.symtab hsymtab, hframe.ransX hransX⟩
    · obtain ⟨hbounds, hvalue⟩ := hrange hflag
      exact ⟨hframe.rcBounds hbounds, hframe.rcValue hvalue⟩
  all_goals simp only [List.mem_cons, List.not_mem_nil, or_false] at hlist
  case noCoder =>
    rcases hlist with rfl | rfl | rfl | rfl | rfl | rfl | rfl <;>
      exact ⟨hframe.cum rfl, hframe.symtab rfl, hframe.rcBounds rfl, hframe.rcValue rfl, hframe.ransX rfl⟩
  case range => rcases hlist with rfl | rfl | rfl <;> exact ⟨hframe.symtab rfl, hframe.ransX rfl⟩
  case rans => rcases hlist with rfl | rfl | rfl <;> exact hframe.rcBounds rfl
  case build => rcases hlist with rfl | rfl <;> exact ⟨hframe.rcBounds rfl, hframe.rcValue rfl, hframe.ransX rfl⟩
  case noOutput => rcases hlist with rfl | rfl | rfl | rfl | rfl | rfl | rfl <;> exact hframe.out rfl

/-! ## The invariant (R367) -/

/-- The state after a reset is sound, whatever was before it. -/
theorem State.restart_sound (s : State) : s.restart.Sound :=
  ⟨⟨.nil, fun _ hc => nomatch hc⟩, ⟨by rintro ⟨⟨⟩, -⟩, fun _ => ⟨rfl, rfl⟩, fun h => nomatch h⟩,
    State.resultSound_of_no_output rfl⟩

/-- The record of any fault is sound. -/
theorem State.faulted.flagsSound {t : State} {k : ErrorKind} {info : Word} (h : t.faulted k info) : t.flagsSound := by
  obtain ⟨hdone, herr, hcode, -, hlen⟩ := h
  refine ⟨fun ⟨hd, _⟩ => (nomatch hdone.symm.trans hd), fun he => (nomatch herr.symm.trans he), fun _ => ?_⟩
  obtain ⟨hlo, hhi⟩ : 2 ≤ k.code.toNat ∧ k.code.toNat ≤ 6 := by cases k <;> decide
  exact ⟨hcode ▸ hlo, hcode ▸ hhi, hlen⟩

theorem State.faulted.resultSound {t : State} {k : ErrorKind} {info : Word} (h : t.faulted k info) : t.resultSound := by
  obtain ⟨-, -, -, -, hlen⟩ := h
  exact State.resultSound_of_no_output hlen

/-- A command accepted in a sound state ends in a sound one: it completed with its result stored and the record still clear,
or it made the record of a fault. -/
theorem State.Ends.sound {s t : State} {fp : Footprint} {ks : List ErrorKind} (h : s.Ends fp ks t) (herr : s.error = false)
    (hs : s.Sound) : t.Sound := by
  obtain ⟨hwf, ⟨-, hclear, -⟩, -⟩ := hs
  refine ⟨h.wf hwf, ?_⟩
  rcases h.outcome with ⟨⟨-, hok⟩, hcode, hinfo, hresult⟩ | ⟨e, -, hfault⟩
  · obtain ⟨hcode₀, hinfo₀⟩ := hclear herr
    exact ⟨⟨fun ⟨_, he⟩ => (nomatch hok.symm.trans he), fun _ => ⟨hcode.trans hcode₀, hinfo.trans hinfo₀⟩,
      fun he => nomatch hok.symm.trans he⟩, hresult⟩
  · exact ⟨hfault.flagsSound, hfault.resultSound⟩

theorem exec_sound {i : Instr} {s t : State} (hs : s.Sound) (h : exec i s = .next t) : t.Sound := by
  by_cases hi : i = .softReset
  · subst hi
    cases h
    exact s.restart_sound
  cases herr : s.error with
  | true =>
    obtain rfl := Host.Outcome.next.inj ((exec_of_error hi herr).symm.trans h)
    exact hs
  | false => exact (exec_ends hi herr h).sound herr hs

theorem State.illegalCommand_sound {s : State} (hs : s.Sound) (v : Word) : (s.illegalCommand v).Sound := by
  cases herr : s.error with
  | true => rwa [State.illegalCommand_of_error v herr]
  | false =>
    rw [State.illegalCommand_of_ok v herr]
    have hfault : (s.recordFault ⟨.illegalCommand, v⟩).faulted .illegalCommand v := ⟨rfl, rfl, rfl, rfl, rfl⟩
    obtain ⟨hwf, -⟩ := hs
    exact ⟨hwf, hfault.flagsSound, hfault.resultSound⟩

/-- No register that the host writes is part of the invariant. -/
theorem State.writeReg_sound {s : State} (hs : s.Sound) (v : Word) (r : Reg) : (s.writeReg v r).Sound := by
  cases r <;> exact hs

theorem State.writeOffset_sound {s t : State} {off v : Word} (hs : s.Sound) (h : s.writeOffset off v = .next t) :
    t.Sound := by
  rcases State.writeOffset_cases h with ⟨-, hcmd⟩ | ⟨r, -, -, rfl⟩ | ⟨-, rfl⟩
  · rcases s.writeCmd_cases v with ⟨i, -, hexec⟩ | ⟨e, -, hillegal⟩
    · exact exec_sound hs (hexec.symm.trans hcmd)
    · obtain rfl := Host.Outcome.next.inj (hillegal.symm.trans hcmd)
      exact State.illegalCommand_sound hs v
  · exact State.writeReg_sound hs v r
  · exact hs

/-- Bytes that the host stores in `IN` keep the memory's form and leave the result. -/
theorem State.writeRegion_sound {s : State} {r : Region} {k : Nat} {bs : List Byte} (hs : s.Sound)
    (hfit : k + bs.length ≤ r.size) : (s.writeRegion r k bs).Sound := by
  by_cases hr : r = .input
  case neg =>
    rw [s.writeRegion_frame r k bs, s.writeRegion_mem_of_ne k bs hr]
    exact hs
  subst hr
  obtain ⟨hwf, hflags, hlen, hstored⟩ := hs
  have hcap : k + bs.length ≤ Config.inCap := hfit
  have hbase : Config.inBase + Config.inCap ≤ Config.outBase := by decide
  refine ⟨Memory.writeBytes_wf bs hwf fun j hj => ?_, hflags, hlen, fun j hj => ?_⟩
  · have hin : inInBuffer (Config.inBase + k + j) = true := by simp [inInBuffer]; omega
    rw [hin, Bool.true_or]
  · rw [s.writeRegion_read_outside .input (.inr (by change Config.inBase + k + bs.length ≤ _; omega))]
    exact hstored j hj

/-- Every transaction keeps the invariant. -/
theorem State.transact_sound {s t : State} {x : Txn} (hs : s.Sound) (h : s.transact x = .next t) : t.Sound := by
  rcases State.transact_cases h with ⟨off, -, -, rfl⟩ | ⟨off, v, u, -, -, hwrite, rfl⟩ | ⟨addr, n, r, -, -, rfl⟩ |
    ⟨addr, bs, r, -, hcheck, rfl⟩ | ⟨-, rfl⟩
  · exact hs
  · have hu : u.Sound := State.writeOffset_sound hs hwrite
    exact hu
  · exact hs
  · obtain ⟨-, hregion, hend, -⟩ := checkRange_next hcheck
    obtain ⟨hlo, -⟩ := regionOf_holds hregion
    exact State.writeRegion_sound hs (by omega)
  · exact s.restart_sound

/-- Settles O11: the block is idle, or its step is the host's next transaction. -/
theorem everyStepKeepsTheStateSound : Obligations.EveryStepKeepsTheStateSound := by
  intro s t hs h
  cases hhost : s.host with
  | nil =>
    obtain rfl := Host.Outcome.next.inj ((step_idle hhost).symm.trans h)
    exact hs
  | cons x rest =>
    have hrest : ({ s with host := rest } : State).Sound := hs
    exact State.transact_sound hrest ((step_transact hhost).symm.trans h)

end Sys2Proof.Machine
end

section
/-!
What a command depends on (spec/70_reset_and_hazards.md R393): the state that a command reads, what two ends of a command have
alike, and the ends of the units' operations in two states that agree where they are read.
-/
namespace Sys2Proof.Machine

/-! ## What is read, and what is left alike -/

/-- Two states in which a command is accepted and reads the same: `FREQ`, the registers the host writes, and the input. -/
structure State.readsAlike (s u : State) : Prop where
  accepted : s.error = false ∧ u.error = false
  freq : s.freq = u.freq
  inLen : s.inLen = u.inLen
  expectedCount : s.expectedCount = u.expectedCount
  backend : s.backend = u.backend
  inByte : ∀ k < s.inLen.toNat, s.inByte k = u.inByte k

/-- Two completed commands left the same output, cursors and `FREQ`, and the same of every derived table and working register
that the footprint lists. `LUT` is the tree's alone from two symbols on (R178). -/
structure State.leavesAlike (t : State) (fp : Footprint) (v : State) : Prop where
  output : t.outLen = v.outLen ∧ t.result = v.result
  cursors : t.inPos = v.inPos ∧ t.outPos = v.outPos
  freq : t.freq = v.freq
  huffman : fp.huffman = true → t.hlen = v.hlen ∧ t.hcode = v.hcode ∧ t.arena = v.arena ∧
    (2 ≤ t.freq.occurring.length → t.lut = v.lut)
  cum : fp.cum = true → t.cum = v.cum
  rcBounds : fp.rcBounds = true → t.rcLow = v.rcLow ∧ t.rcHigh = v.rcHigh ∧ t.rcPending = v.rcPending
  rcValue : fp.rcValue = true → t.rcValue = v.rcValue
  symtab : fp.symtab = true → t.symtab = v.symtab
  ransX : fp.ransX = true → t.ransX = v.ransX

/-- Two commands raised the same, or both completed and left alike what the footprint lists. -/
def State.endsAlike (t : State) (fp : Footprint) (v : State) : Prop :=
  (∃ e : Raise, t.faulted e.kind e.info ∧ v.faulted e.kind e.info) ∨
    (t.completed ∧ v.completed ∧ t.leavesAlike fp v)

/-- A command ends alike in two states, over its own list of writes. -/
def commandEndsAlike (i : Instr) (s u : State) : Prop :=
  ∃ t v, exec i s = .next t ∧ exec i u = .next v ∧ t.endsAlike (writesOf s.backend i) v

/-- `FREQ` is compared in any case, so a list agrees with and without it. -/
theorem State.leavesAlike.with_freq {t v : State} {fp : Footprint} (h : t.leavesAlike fp v) :
    t.leavesAlike { fp with freq := true } v where
  __ := h

theorem State.endsAlike.with_freq {t v : State} {fp : Footprint} (h : t.endsAlike fp v) :
    t.endsAlike { fp with freq := true } v :=
  h.imp_right fun ⟨ht, hv, hleft⟩ => ⟨ht, hv, hleft.with_freq⟩

/-- The list of the frequency model's commands holds no derived table and no working register, so `FREQ` and what every
command leaves is all that is compared. Longer lists are compared over this one. -/
theorem State.leavesAlike_of_freqFootprint {t v : State} (houtput : t.outLen = v.outLen ∧ t.result = v.result)
    (hcursors : t.inPos = v.inPos ∧ t.outPos = v.outPos) (hfreq : t.freq = v.freq) : t.leavesAlike freqFootprint v where
  output := houtput
  cursors := hcursors
  freq := hfreq
  huffman hfp := nomatch hfp
  cum hfp := nomatch hfp
  rcBounds hfp := nomatch hfp
  rcValue hfp := nomatch hfp
  symtab hfp := nomatch hfp
  ransX hfp := nomatch hfp

/-- The same fault in both states. -/
theorem commandEndsAlike_of_faulted {i : Instr} {s u : State} {k : ErrorKind} {info : Word}
    (hs : ∃ t, exec i s = .next t ∧ t.faulted k info) (hu : ∃ v, exec i u = .next v ∧ v.faulted k info) :
    commandEndsAlike i s u := by
  obtain ⟨t, ht, htf⟩ := hs
  obtain ⟨v, hv, hvf⟩ := hu
  exact ⟨t, v, ht, hv, .inl ⟨⟨k, info⟩, htf, hvf⟩⟩

/-! ## The input -/

section Input
variable {s u : State} (h : s.readsAlike u)
include h

theorem State.readsAlike.input : s.input = u.input := by
  refine List.ext_getElem? fun k => ?_
  rcases Nat.lt_or_ge k s.inLen.toNat with hk | hk
  · rw [s.input_getElem? hk, u.input_getElem? (h.inLen ▸ hk), h.inByte k hk]
  · rw [List.getElem?_eq_none (by rwa [s.input_length]), List.getElem?_eq_none (by rwa [u.input_length, ← h.inLen])]

theorem State.readsAlike.payloadStream : s.payloadStream = u.payloadStream := by
  rw [s.payloadStream_eq, u.payloadStream_eq, h.input]

/-- The table of a payload lies within the input. -/
theorem State.readsAlike.load (htable : 1024 ≤ s.inLen.toNat) : FreqTable.load s.inByte = FreqTable.load u.inByte := by
  have hbyte : ∀ k < 1024, s.inByte k = u.inByte k := fun k hk => h.inByte k (hk.trans_le htable)
  refine FreqTable.ext_at fun c => ?_
  have hc := c.isLt
  rw [FreqTable.load_at, FreqTable.load_at, hbyte _ (by omega), hbyte _ (by omega), hbyte _ (by omega),
    hbyte _ (by omega)]

/-- The entry checks of `PLANE_DECOMPRESS` read registers only. -/
theorem State.readsAlike.planeDecompressChecks_eq : planeDecompressChecks s.accept = planeDecompressChecks u.accept := by
  have hinLen : s.accept.inLen = u.accept.inLen := h.inLen
  have hcount : s.accept.expectedCount = u.accept.expectedCount := h.expectedCount
  have hbackend : s.accept.backend = u.accept.backend := h.backend
  rw [planeDecompressChecks, hinLen, hcount, hbackend, planeDecompressChecks]

/-! ## The entry checks -/

/-- A command that checks `IN_LEN` first is compared where the length passes (R31). -/
theorem State.readsAlike.of_inLen {i : Instr} (hi : i ∈ inputCommands ++ [.planeDecompress])
    (hrun : s.inLen.toNat ≤ Config.inCap → commandEndsAlike i s u) : commandEndsAlike i s u := by
  obtain ⟨herr, huerr⟩ := h.accepted
  rcases Nat.lt_or_ge Config.inCap s.inLen.toNat with hgt | hle
  · exact commandEndsAlike_of_faulted (exec_faulted_of_inLen_gt herr hgt hi)
      (exec_faulted_of_inLen_gt huerr (h.inLen ▸ hgt) hi)
  · exact hrun hle

/-- A decode command is compared where the count passes (R32). -/
theorem State.readsAlike.of_count {i : Instr} (hi : i ∈ decodeCommands ++ [.planeDecompress])
    (hin : s.inLen.toNat ≤ Config.inCap) (hrun : s.expectedCount.toNat ≤ Config.outCap → commandEndsAlike i s u) :
    commandEndsAlike i s u := by
  obtain ⟨herr, huerr⟩ := h.accepted
  rcases Nat.lt_or_ge Config.outCap s.expectedCount.toNat with hgt | hle
  · exact commandEndsAlike_of_faulted (exec_faulted_of_count_gt herr hin hgt hi)
      (exec_faulted_of_count_gt huerr (h.inLen ▸ hin) (h.expectedCount ▸ hgt) hi)
  · exact hrun hle

end Input

/-! ## The commands without output -/

/-- A command without output left no result, whatever `OUT` holds (R46). -/
theorem State.result_of_no_output {t : State} (h : t.outLen = 0) : t.result = [] := by
  rw [State.result, h]
  rfl

/-- Without output both sides have the empty result. -/
theorem State.leavesAlike_of_no_output (x y : State) (hfreq : x.freq = y.freq) (inPos : Nat) :
    (x.setCursors 0 inPos 0).complete.leavesAlike freqFootprint (y.setCursors 0 inPos 0).complete :=
  State.leavesAlike_of_freqFootprint ⟨rfl, (State.result_of_no_output rfl).trans (State.result_of_no_output rfl).symm⟩
    ⟨rfl, rfl⟩ hfreq

/-- `NOP` and the commands of the frequency model write no derived table and no working register. -/
theorem State.freqDone_endsAlike {s u : State} (h : s.readsAlike u) (F : FreqTable) (inPos : Nat) :
    (s.freqDone F inPos).endsAlike freqFootprint (u.freqDone F inPos) :=
  .inr ⟨State.freqDone_completed F inPos h.accepted.1, State.freqDone_completed F inPos h.accepted.2,
    State.leavesAlike_of_no_output { s.accept with freq := F } { u.accept with freq := F } rfl inPos⟩

section Builds
variable {s u : State} (h : s.freq = u.freq)
include h

/-- `HUF_BUILD` makes what it writes of `FREQ`. -/
theorem State.hufBuild_leavesAlike :
    (s.accept.hufBuild.setCursors 0 0 0).complete.leavesAlike hufBuildFootprint
      (u.accept.hufBuild.setCursors 0 0 0).complete where
  __ := State.leavesAlike_of_no_output s.accept.hufBuild u.accept.hufBuild h 0
  huffman _ := by
    have htree : hufTree s.accept.freq = hufTree u.accept.freq := congrArg hufTree h
    refine ⟨?hlen, ?hcode, htree, fun htwo => (lutTable_of_two htwo _ _).trans (congrArg (lutTable _) htree)⟩
    all_goals simp only [State.complete_hlen, State.complete_hcode, State.setCursors_hlen, State.setCursors_hcode,
      State.hufBuild_hlen, State.hufBuild_hcode, htree]

/-- `RC_BUILD` makes what it writes of `FREQ`. -/
theorem State.rcBuild_leavesAlike :
    (s.accept.rcBuild.setCursors 0 0 0).complete.leavesAlike rcBuildFootprint
      (u.accept.rcBuild.setCursors 0 0 0).complete where
  __ := State.leavesAlike_of_no_output s.accept.rcBuild u.accept.rcBuild h 0
  cum _ := congrArg FreqTable.cumulative h

/-- `RANS_BUILD` makes what it writes of `FREQ`. -/
theorem State.ransBuild_leavesAlike :
    (s.accept.ransBuild.setCursors 0 0 0).complete.leavesAlike ransBuildFootprint
      (u.accept.ransBuild.setCursors 0 0 0).complete where
  __ := State.leavesAlike_of_no_output s.accept.ransBuild u.accept.ransBuild h 0
  cum _ := congrArg FreqTable.cumulative h
  symtab _ := congrArg ransSymtab h

end Builds

/-! ## The runs of the coders -/

/-- The same run leaves alike what its registers stand for, in whatever state it is made. -/
theorem State.coderDone_leavesAlike (s u : State) (F : FreqTable) {pre : List Byte} {b : Backend} (r : CoderRun b)
    (hfit : pre.length + r.out.length ≤ Config.outCap) :
    (s.coderDone F pre r).leavesAlike r.regs.footprint (u.coderDone F pre r) := by
  have hbase : (s.coderDone F pre r).leavesAlike freqFootprint (u.coderDone F pre r) :=
    State.leavesAlike_of_freqFootprint
      ⟨rfl, (s.coderDone_result F r hfit).trans (u.coderDone_result F r hfit).symm⟩ ⟨rfl, rfl⟩
      ((s.coderDone_freq F r).trans (u.coderDone_freq F r).symm)
  obtain ⟨hhuffman, hrange, hrans⟩ := State.coderDone_alike s u F pre pre r
  obtain ⟨out, inPos, outPos, regs⟩ := r
  cases regs with
  | huffman => exact { hbase with huffman := fun _ => hhuffman rfl }
  | range low high pending value =>
    obtain ⟨hcum, hbounds⟩ := hrange rfl
    cases value with
    | none => exact { hbase with cum := fun _ => hcum, rcBounds := fun _ => hbounds }
    | some v => exact { hbase with cum := fun _ => hcum, rcBounds := fun _ => hbounds, rcValue := fun _ => rfl }
  | rans x =>
    obtain ⟨hcum, hsymtab, hransX⟩ := hrans rfl
    exact { hbase with cum := fun _ => hcum, symtab := fun _ => hsymtab, ransX := fun _ => hransX }

/-- Two commands that make the same run end alike: in what the coder raises, or in the state of its run. -/
theorem State.finish_coded_endsAlike {s u s₀ u₀ : State} {fp fp' W : Footprint} {F : FreqTable} {pre : List Byte}
    {b : Backend} {run : Except Raise (CoderRun b)} (h : s.readsAlike u)
    (hrun : ∀ r, run = .ok r → pre.length + r.out.length ≤ Config.outCap ∧ r.regs.footprint = W) :
    (s₀.finish fp (run.map fun r => ({ s.accept with freq := F } : State).coded pre r)).endsAlike W
      (u₀.finish fp' (run.map fun r => ({ u.accept with freq := F } : State).coded pre r)) := by
  cases run with
  | error e => exact .inl ⟨e, s₀.takeFault_faulted fp e, u₀.takeFault_faulted fp' e⟩
  | ok r =>
    obtain ⟨hfit, rfl⟩ := hrun r rfl
    exact .inr ⟨s.coderDone_completed F r h.accepted.1, u.coderDone_completed F r h.accepted.2,
      s.coderDone_leavesAlike u F r hfit⟩

end Sys2Proof.Machine
end

section
/-!
The commands and the reset (spec/70_reset_and_hazards.md R381, R393): each command ends alike in two states that agree where it
reads, and the state after reset is sound.
-/
namespace Sys2Proof.Machine

section Commands
variable {s u : State} (h : s.readsAlike u)
include h

/-! ## `NOP`, the frequency model and the builds -/

theorem State.readsAlike.nop : commandEndsAlike .nop s u := by
  have hs : exec .nop s = .next (s.freqDone s.freq 0) :=
    congrArg Host.Outcome.next (State.command_of_ok _ h.accepted.1)
  have hu : exec .nop u = .next (u.freqDone s.freq 0) := by
    rw [h.freq]
    exact congrArg Host.Outcome.next (State.command_of_ok _ h.accepted.2)
  exact ⟨_, _, hs, hu, (State.freqDone_endsAlike h s.freq 0).imp_right fun ⟨ht, hv, hleft⟩ => ⟨ht, hv, { hleft with }⟩⟩

theorem State.readsAlike.freqNorm : commandEndsAlike .freqNorm s u := by
  have hu := exec_freqNorm h.accepted.2
  rw [← h.freq] at hu
  exact ⟨_, _, exec_freqNorm h.accepted.1, hu, State.freqDone_endsAlike h _ _⟩

/-- The counting commands read the input. -/
theorem State.readsAlike.counting {i : Instr} {floor : Nat} (hi : i ∈ [Instr.freqCount, .freqCountFloor])
    (hexec : ∀ {x : State}, x.error = false → x.inLen.toNat ≤ Config.inCap →
      exec i x = .next (x.freqDone (countTable x.input floor) x.inLen.toNat)) : commandEndsAlike i s u := by
  have hreads : i ∈ inputCommands ++ [.planeDecompress] := List.mem_append_left _ (List.mem_of_mem_take (i := 2) hi)
  have hlist : writesOf s.backend i = freqFootprint := by
    simp only [List.mem_cons, List.not_mem_nil, or_false] at hi
    rcases hi with rfl | rfl <;> rfl
  refine h.of_inLen hreads fun hin => ?_
  have hu := hexec h.accepted.2 (h.inLen ▸ hin)
  rw [← h.input, ← h.inLen] at hu
  exact ⟨_, _, hexec h.accepted.1 hin, hu, hlist ▸ State.freqDone_endsAlike h _ _⟩

theorem State.readsAlike.hufBuild : commandEndsAlike .hufBuild s u :=
  ⟨_, _, exec_hufBuild h.accepted.1, exec_hufBuild h.accepted.2,
    .inr ⟨⟨rfl, h.accepted.1⟩, ⟨rfl, h.accepted.2⟩, State.hufBuild_leavesAlike h.freq⟩⟩

theorem State.readsAlike.rcBuild : commandEndsAlike .rcBuild s u := by
  obtain ⟨herr, huerr⟩ := h.accepted
  by_cases hF : rcAccepts s.freq
  · exact ⟨_, _, exec_rcBuild_done herr hF, exec_rcBuild_done huerr (h.freq ▸ hF),
      .inr ⟨⟨rfl, herr⟩, ⟨rfl, huerr⟩, State.rcBuild_leavesAlike h.freq⟩⟩
  · have hbad : rcTableOk s.freq = false := Bool.eq_false_iff.2 (mt (rcAccepts_iff s.freq).2 hF)
    have hbad' : rcTableOk u.freq = false := h.freq ▸ hbad
    exact commandEndsAlike_of_faulted
      ⟨_, exec_rcBuild herr, State.finish_faulted (rcOps_of_bad (s := s.accept) hbad [] []).1⟩
      ⟨_, exec_rcBuild huerr, State.finish_faulted (rcOps_of_bad (s := u.accept) hbad' [] []).1⟩

theorem State.readsAlike.ransBuild : commandEndsAlike .ransBuild s u := by
  obtain ⟨herr, huerr⟩ := h.accepted
  by_cases hF : s.freq.total = 4096
  · exact ⟨_, _, exec_ransBuild_done herr hF, exec_ransBuild_done huerr (h.freq ▸ hF),
      .inr ⟨⟨rfl, herr⟩, ⟨rfl, huerr⟩, State.ransBuild_leavesAlike h.freq⟩⟩
  · have hF' : u.freq.total ≠ 4096 := h.freq ▸ hF
    exact commandEndsAlike_of_faulted
      ⟨_, exec_ransBuild herr, State.finish_faulted (ransOps_of_bad (s := s.accept) hF [] []).1⟩
      ⟨_, exec_ransBuild huerr, State.finish_faulted (ransOps_of_bad (s := u.accept) hF' [] []).1⟩

/-! ## The units' coders -/

theorem State.readsAlike.encoder (b : Backend) : commandEndsAlike b.encoder s u :=
  h.of_inLen (by cases b <;> decide) fun hin => by
    obtain ⟨fp, hs⟩ := exec_encoder (b := b) h.accepted.1 hin
    obtain ⟨fp', hu⟩ := exec_encoder (b := b) h.accepted.2 (h.inLen ▸ hin)
    have hop : planeEncodeOp b [] s.accept = (encodeRun s.freq Config.outCap s.input b).map fun r =>
        ({ s.accept with freq := s.freq } : State).coded [] r := planeEncodeOp_eq b [] s.accept
    have hop' : planeEncodeOp b [] u.accept = (encodeRun s.freq Config.outCap s.input b).map fun r =>
        ({ u.accept with freq := s.freq } : State).coded [] r := by
      rw [h.freq, h.input]
      exact planeEncodeOp_eq b [] u.accept
    rw [hop] at hs
    rw [hop'] at hu
    refine ⟨_, _, hs, hu, State.finish_coded_endsAlike h fun r hr => ?_⟩
    obtain ⟨hfit, hregs⟩ := encodeRun_ok hr s.backend
    exact ⟨by rwa [List.length_nil, Nat.zero_add], hregs⟩

theorem State.readsAlike.decoder (b : Backend) : commandEndsAlike b.decoder s u :=
  h.of_inLen (by cases b <;> decide) fun hin => h.of_count (by cases b <;> decide) hin fun hcount => by
    obtain ⟨fp, hs⟩ := exec_decoder (b := b) h.accepted.1 hin hcount
    obtain ⟨fp', hu⟩ := exec_decoder (b := b) h.accepted.2 (h.inLen ▸ hin) (h.expectedCount ▸ hcount)
    have hop : planeDecodeOp b s.input s.accept = (decodeRun s.freq s.expectedCount.toNat s.input b).map fun r =>
        ({ s.accept with freq := s.freq } : State).coded [] r := planeDecodeOp_eq b s.input s.accept
    have hop' : planeDecodeOp b u.input u.accept = (decodeRun s.freq s.expectedCount.toNat s.input b).map fun r =>
        ({ u.accept with freq := s.freq } : State).coded [] r := by
      rw [h.freq, h.input, h.expectedCount]
      exact planeDecodeOp_eq b u.input u.accept
    rw [hop] at hs
    rw [hop'] at hu
    exact ⟨_, _, hs, hu, State.finish_coded_endsAlike h fun r hr =>
      ⟨decodeRun_fits hr hcount, decodeRun_footprint hr s.backend⟩⟩

/-! ## The plane commands -/

theorem State.readsAlike.planeCompress : commandEndsAlike .planeCompress s u :=
  h.of_inLen (by decide) fun hin => by
    obtain ⟨herr, huerr⟩ := h.accepted
    have huin : u.inLen.toNat ≤ Config.inCap := h.inLen ▸ hin
    cases hb : backendOf s.backend with
    | none =>
      have hbad : ∀ {x : State}, x.error = false → x.inLen.toNat ≤ Config.inCap → backendOf x.backend = none →
          ∃ t, exec .planeCompress x = .next t ∧ t.faulted formatError.kind formatError.info := by
        intro x hx hxin hxb
        rcases planeCompressOp_cases x.accept with ⟨hgt, -⟩ | ⟨-, ⟨-, hop⟩ | ⟨b, hxb', -⟩⟩
        · exact absurd hgt (Nat.not_lt.2 hxin)
        · exact ⟨_, rfl, State.command_faulted hx hop⟩
        · exact nomatch hxb'.symm.trans hxb
      exact commandEndsAlike_of_faulted (hbad herr hin hb) (hbad huerr huin (h.backend ▸ hb))
    | some b =>
      have hflag : s.backend = b.flag := backendOf_eq_some_iff.1 hb
      have hexec : ∀ {x : State}, x.error = false → x.inLen.toNat ≤ Config.inCap → x.backend = b.flag →
          exec .planeCompress x = .next (x.accept.finish (planeCompressFootprint x.backend)
            ((encodeRun (planeTable b x.input) (Config.outCap - 1024) x.input b).map fun r =>
              ({ x.accept with freq := planeTable b x.input } : State).coded (planeTable b x.input).serialise r)) := by
        intro x hx hxin hxb
        rw [← planeCompressOp_eq hxin hxb]
        exact congrArg Host.Outcome.next (State.command_of_ok _ hx)
      have hs := hexec herr hin hflag
      have hu := hexec huerr huin (h.backend ▸ hflag)
      rw [← h.input] at hu
      refine ⟨_, _, hs, hu, ?_⟩
      rw [writesOf, hflag, planeCompressFootprint_flag b 0]
      refine (State.finish_coded_endsAlike h fun r hr => ?_).with_freq
      obtain ⟨hfit, hregs⟩ := encodeRun_ok hr 0
      have hcap : Config.outCap = 1048576 := rfl
      rw [FreqTable.serialise_length]
      exact ⟨by omega, hregs⟩

theorem State.readsAlike.planeDecompress : commandEndsAlike .planeDecompress s u := by
  obtain ⟨herr, huerr⟩ := h.accepted
  cases hcheck : planeDecompressChecks s.accept with
  | error e =>
    exact commandEndsAlike_of_faulted (exec_planeDecompress_faulted herr hcheck)
      (exec_planeDecompress_faulted huerr (h.planeDecompressChecks_eq.symm.trans hcheck))
  | ok b =>
    obtain ⟨hin, hcount, hb, htable⟩ := (planeDecompressChecks_ok_iff s.accept b).1 hcheck
    have hflag : s.backend = b.flag := backendOf_eq_some_iff.1 hb
    have hs := exec_planeDecompress herr hin hcount hflag htable
    have hu := exec_planeDecompress huerr (h.inLen ▸ hin) (h.expectedCount ▸ hcount) (h.backend ▸ hflag)
      (h.inLen ▸ htable)
    have hload : u.accept.loadTable = { u.accept with freq := FreqTable.load s.inByte } := by
      rw [h.load htable]
      rfl
    rw [← h.load htable, ← h.expectedCount, ← h.payloadStream, hload] at hu
    refine ⟨_, _, hs, hu, ?_⟩
    rw [writesOf, hflag, planeDecompressFootprint_flag b 0]
    exact (State.finish_coded_endsAlike h fun r hr =>
      ⟨decodeRun_fits hr hcount, decodeRun_footprint hr 0⟩).with_freq

/-- Every command but `SOFT_RESET` ends alike in two states that agree where it reads. -/
theorem State.readsAlike.command {i : Instr} (hi : i ≠ .softReset) : commandEndsAlike i s u := by
  cases i with
  | softReset => exact absurd rfl hi
  | nop => exact h.nop
  | freqCount => exact h.counting (by decide) exec_freqCount
  | freqCountFloor => exact h.counting (by decide) exec_freqCountFloor
  | freqNorm => exact h.freqNorm
  | hufBuild => exact h.hufBuild
  | hufEncode => exact h.encoder .huffman
  | hufDecode => exact h.decoder .huffman
  | rcBuild => exact h.rcBuild
  | rcEncode => exact h.encoder .range
  | rcDecode => exact h.decoder .range
  | ransBuild => exact h.ransBuild
  | ransEncode => exact h.encoder .rans
  | ransDecode => exact h.decoder .rans
  | planeCompress => exact h.planeCompress
  | planeDecompress => exact h.planeDecompress

end Commands

/-! ## The statements -/

/-- Settles O15: each command ends alike in the two states, and the statement's lists name what the command's own list of
writes holds. -/
theorem aCommandDependsOnlyOnWhatItReads : Obligations.ACommandDependsOnlyOnWhatItReads := by
  intro s s' t t' i hi herr herr' hfreq hinLen hcount hbackend hbytes ht ht'
  have hreads : s.readsAlike s' := ⟨⟨herr, herr'⟩, hfreq, hinLen, hcount, hbackend, hbytes⟩
  obtain ⟨_, _, htu, htu', hends⟩ := hreads.command hi
  obtain rfl := Host.Outcome.next.inj (htu.symm.trans ht)
  obtain rfl := Host.Outcome.next.inj (htu'.symm.trans ht')
  rcases hends with ⟨e, hfault, hfault'⟩ | ⟨⟨hdone, hok⟩, ⟨hdone', hok'⟩, hleft⟩
  · obtain ⟨hdone, herror, hrecord, hout, hresult, hnot⟩ := hfault.alike hfault'
    exact ⟨hdone, herror, hrecord, hout, hresult, fun h => absurd h hnot⟩
  obtain ⟨houtLen, hresult⟩ := hleft.output
  obtain ⟨hinPos, houtPos⟩ := hleft.cursors
  generalize s.backend = flag at hleft ⊢
  refine ⟨hdone.trans hdone'.symm, hok.trans hok'.symm, fun h => absurd h (ne_true_of_eq_false hok), houtLen, hresult,
    fun _ => ⟨hinPos, houtPos, hleft.freq, ?huffman, ?cum, ?rcBounds, ?rcValue, ?symtab, ?ransX⟩⟩
  case rcValue => rintro (rfl | ⟨rfl, rfl⟩) <;> exact hleft.rcValue rfl
  all_goals simp only [List.mem_cons, List.not_mem_nil, or_false]
  case huffman => rintro ((rfl | rfl | rfl) | ⟨rfl, rfl | rfl⟩) <;> exact hleft.huffman rfl
  case cum =>
    rintro ((rfl | rfl | rfl | rfl | rfl | rfl) | ⟨rfl | rfl, rfl | rfl⟩) <;> exact hleft.cum rfl
  case rcBounds => rintro ((rfl | rfl) | ⟨rfl, rfl | rfl⟩) <;> exact hleft.rcBounds rfl
  case symtab => rintro ((rfl | rfl | rfl) | ⟨rfl, rfl | rfl⟩) <;> exact hleft.symtab rfl
  case ransX => rintro ((rfl | rfl) | ⟨rfl, rfl | rfl⟩) <;> exact hleft.ransX rfl

/-- Settles O12: the invariant speaks of nothing in which the state after reset differs from the one after a restart. -/
theorem resetIsSound : Obligations.ResetIsSound := State.reset.restart_sound

end Sys2Proof.Machine
end

section
/-!
The words of the command map and the illegal words (spec/30_encoding.md R101, R103).
-/
namespace Sys2Proof

/-- A word whose bits [31:8] are zero is refused for its opcode when the command map lacks that opcode (R101). -/
theorem decodeWord_of_not_mem_opcodes {v : Word} (hlow : v.toNat < 256) (hop : v.toNat ∉ opcodes) :
    decodeWord v = .error .unassignedOpcode := by
  have hzero : ¬ v.toNat / 256 ≠ 0 := by omega
  rw [decodeWord, if_neg hzero, Nat.mod_eq_of_lt hlow]
  cases h : decodeOpcode v.toNat with
  | none => rfl
  | some i => exact absurd (eq_encode_of_decodeOpcode h ▸ encode_mem_opcodes i) hop

/-- Settles O1: the words of the map are the encodings of their commands; `0x1FF` is refused for its bits [31:8] though its
low byte is `SOFT_RESET`'s opcode, and `0x13` for its opcode. -/
theorem commandWordsDecodeAsTheMapSays : Obligations.CommandWordsDecodeAsTheMapSays :=
  ⟨decodeWord_encode .nop, decodeWord_encode .freqCount, decodeWord_encode .freqCountFloor, decodeWord_encode .freqNorm,
    decodeWord_encode .hufDecode, decodeWord_encode .rcEncode, decodeWord_encode .ransBuild,
    decodeWord_encode .planeDecompress, decodeWord_encode .softReset,
    Machine.decodeWord_of_reservedBits (by decide), decodeWord_of_not_mem_opcodes (by decide) (by decide)⟩

end Sys2Proof
end
